-- ==== Sys2Proof/Word.lean ====
section
/-!
DEFINITION. The word types of the machine (00_scope R10).
-/

namespace Sys2Proof

/-- An 8-bit unsigned value: a wire byte, a register of the target, a cell of its memory (R10). -/
abbrev Byte := BitVec 8

/-- A 16-bit unsigned value: a REPEAT count, the length of a bulk transfer (R10, D21). -/
abbrev Word16 := BitVec 16

/-- A 32-bit unsigned value: an address or an offset of the PDI memory space (R10, R71). -/
abbrev Word := BitVec 32

end Sys2Proof
end

