-- ==== Sys2Proof/Config.lean ====
section
/-!
DEFINITION. The parameters of 00_scope R7, as one record that State holds and no step writes (10_state R38), and the
free values: opaque constants, of which nothing can be proved but that they exist.
-/

namespace Sys2Proof

/-- `NVM_CMD_CODE(c)` for each command of 43_nvm R242. The sources give no code: every default is PRESUMED
(general knowledge by the spec's own mark, 92 D6, 93 G4). -/
structure NvmCodes where
  chipErase : Byte := 0x40
  readNvm : Byte := 0x43
  loadFlashPageBuffer : Byte := 0x23
  eraseFlashPageBuffer : Byte := 0x26
  eraseFlashPage : Byte := 0x2B
  eraseAppPage : Byte := 0x22
  eraseBootPage : Byte := 0x2A
  writeFlashPage : Byte := 0x2E
  writeAppPage : Byte := 0x24
  writeBootPage : Byte := 0x2C
  eraseWriteFlashPage : Byte := 0x2F
  eraseWriteAppPage : Byte := 0x25
  eraseWriteBootPage : Byte := 0x2D
  eraseAppSection : Byte := 0x20
  eraseBootSection : Byte := 0x68
  writeFuse : Byte := 0x4C
  writeLockBits : Byte := 0x08
  loadEepromPageBuffer : Byte := 0x33
  eraseEepromPageBuffer : Byte := 0x36
  eraseEepromPage : Byte := 0x32
  writeEepromPage : Byte := 0x34
  eraseWriteEepromPage : Byte := 0x35
  eraseEeprom : Byte := 0x30
  readEeprom : Byte := 0x06
  flashCrc : Byte := 0x78
  appCrc : Byte := 0x38
  bootCrc : Byte := 0x39
  deriving DecidableEq, Repr

/-- The configuration record of 00_scope R7. Defaults of the OPEN parameters are those of the test configuration TC
(R9), a DESIGN CHOICE; statements are about every configuration. -/
structure Config where
  /-- R7 `SETTLE_DELAY_LOW_US`, `SETTLE_DELAY_HIGH_US`, in microseconds. -/
  settleDelayLowUs : Nat := 100
  settleDelayHighUs : Nat := 20
  /-- R7 `BEGIN_CLOCK_CYCLES`: whole clock cycles `beginSession` waits for (C2, D11). -/
  beginClockCycles : Nat := 18
  /-- R7 `RECV_POLL_CYCLES`: checks of rxComplete that one `recv` makes (D12). -/
  recvPollCycles : Nat := 1024
  /-- R7 `RESET_SIGNATURE`. -/
  resetSignature : Byte := 0x59
  opLds : Byte := 0x0C
  opSts : Byte := 0x4C
  opLdBase : Byte := 0x20
  /-- PRESUMED default (D4, G6). -/
  opStBase : Byte := 0x60
  opStPtr4Base : Byte := 0x63
  opLdcsBase : Byte := 0x80
  opStcsBase : Byte := 0xC0
  opRepeat1 : Byte := 0xA0
  opRepeat2 : Byte := 0xA1
  opKey : Byte := 0xE0
  /-- R7 `MODE_BITS`, R104. PRESUMED defaults (D2, G2). -/
  modeIndirect : Byte := 0x00
  modeAutoInc : Byte := 0x04
  modeDirect : Byte := 0x08
  /-- R7 `CSR_*`, R50. PRESUMED defaults (D3, G3). -/
  csrStatus : BitVec 4 := 0
  csrReset : BitVec 4 := 1
  csrControl : BitVec 4 := 2
  /-- R7 `PDI_KEY` in send order. PRESUMED default (D5, G5). -/
  pdiKey : List Byte := [0xFF, 0x88, 0xD8, 0xCD, 0x45, 0xAB, 0x89, 0x12]
  /-- R7 `NVM_BASE`, `NVM_OFF_*`. PRESUMED defaults (D7, G9). -/
  nvmBase : Word := 0x010001C0
  nvmOffCmd : Word := 0x0A
  nvmOffCtrlA : Word := 0x0B
  nvmOffStatus : Word := 0x0F
  /-- R7 `NVM_CMD_CODE`. -/
  nvmCodes : NvmCodes := {}
  /-- OPEN (D8); the value of TC. -/
  flashBase : Word := 0x00800000
  appBase : Word := 0x00800000
  bootBase : Word := 0x00820000
  fuseBase : Word := 0x008F0020
  /-- OPEN, 1 to 65536 (D8, D21); the value of TC. -/
  pageSize : Nat := 512
  /-- OPEN, three bits (D9, C7); the value of TC. -/
  guardTimeCode : BitVec 3 := 0b100
  /-- R7 `DUMMY_BYTE` (D20). -/
  dummyByte : Byte := 0x00
  /-- OPEN (D34). -/
  baudConstant : Nat := 0
  /-- R7 `POLL_LIMIT` (D22): none is unbounded, as in the reference. -/
  pollLimit : Option Nat := none
  /-- OPEN `HOST_PREERASE` (D32). -/
  hostPreErase : Bool := false
  /-- DESIGN CHOICE, entry 14: whether the opcode byte of a host request is acknowledged too (91 N16). -/
  hostAckOpcode : Bool := true
  /-- DESIGN CHOICE, entry 15: how many payload bytes the WriteFuse request has on the host link (91 N16). -/
  hostFuseBytes : Nat := 5
  /-- DESIGN CHOICE, entries 25 and 43: how many bytes each region of 20_memory R73 has; no source gives the sizes. -/
  flashSize : Nat := 0x22000
  appSize : Nat := 0x20000
  bootSize : Nat := 0x2000
  fuseSize : Nat := 8
  deriving DecidableEq, Repr

/-- The `n`-th answer of a Platform flag or of the Clock pin (00_scope R5, D35). FREE VALUE, entry 4. -/
opaque Config.drawBit : Nat → Bool

/-- The `n`-th byte `readByte` answers (00_scope R5). FREE VALUE, entry 4. -/
opaque Config.drawByte : Nat → BitVec 8

/-- The `n`-th register byte of the target that no source gives (93 U2, U8, U9; 70 R394). FREE VALUE, entry 6. -/
opaque Config.freeByte : Nat → BitVec 8

/-- The pointer after an increment past 0xFFFFFFFF (93 U11) and after target reset (70 R394). FREE VALUE, entries 26 and 37. -/
opaque Config.freeWord : Nat → BitVec 32

/-- The byte at an address of a memory whose contents no source gives, one memory for each number (93 U4 to U6, U8,
U18, U19). FREE VALUE, entry 8. -/
opaque Config.freeMemory : Nat → Nat → BitVec 8

/-- Whether a store under a section-erase code at an address starts the erase: up to the target (44_flash_fuse R274,
93 U19). FREE VALUE, entry 21. -/
opaque Config.sectionTrigger : BitVec 8 → BitVec 32 → Bool

/-- The fuse address in a WriteFuse payload, whose layout no source gives (91 N16). FREE VALUE, entry 15. -/
opaque Config.hostFuseAddress : List (BitVec 8) → BitVec 32

/-- The fuse data in a WriteFuse payload (91 N16). FREE VALUE, entry 15. -/
opaque Config.hostFuseData : List (BitVec 8) → BitVec 8

end Sys2Proof
end

