-- ==== Sys2Proof/Syntax.lean ====
section
/-!
DEFINITION. The instructions of spec/opcode_table.json, one constructor a row, and the operations of the call port
(10_state R46).
-/

namespace Sys2Proof

/-- Pointer addressing modes (30_encoding R104). -/
inductive PtrMode where
  | indirect | autoInc | direct
  deriving DecidableEq, Repr

/-- Flash sections (44_flash_fuse R270). -/
inductive FlashSection where
  | unspecified | app | boot
  deriving DecidableEq, Repr

/-- The NVM register selector (43_nvm R240). -/
inductive NvmRegister where
  | cmd | ctrlA | status
  deriving DecidableEq, Repr

/-- The closed enumeration of NVM commands (43_nvm R241, R242). -/
inductive NvmCommand where
  | chipErase | readNvm | loadFlashPageBuffer | eraseFlashPageBuffer
  | eraseFlashPage | eraseAppPage | eraseBootPage
  | writeFlashPage | writeAppPage | writeBootPage
  | eraseWriteFlashPage | eraseWriteAppPage | eraseWriteBootPage
  | eraseAppSection | eraseBootSection | writeFuse | writeLockBits
  | loadEepromPageBuffer | eraseEepromPageBuffer | eraseEepromPage | writeEepromPage
  | eraseWriteEepromPage | eraseEeprom | readEeprom | flashCrc | appCrc | bootCrc
  deriving DecidableEq, Repr

/-- Where the byte of a table row travels: its `format` in the table (30_encoding R116). One byte value may stand in
several rows, so a decoder needs to know the channel. -/
inductive Channel where
  | pdi | nvmCommand | hostRequest | hostResponse | hostHandshake
  deriving DecidableEq, Repr

/-- One constructor for each row of spec/opcode_table.json. -/
inductive Instr where
  -- PDI instructions (30_encoding R109, R110)
  | lds (addr : Word)
  | sts (addr : Word) (data : Byte)
  | ldInd
  | ldInc
  | ldPtr
  | stInd (data : Byte)
  | stInc (data : Byte)
  | stPtrB (data : Byte)
  | stIndL (addr : Word)
  | stIncL (addr : Word)
  | stPtr (addr : Word)
  | repeatB (count : Byte)
  | repeatW (count : Word16)
  | ldcs (reg : Byte)
  | stcs (reg : Byte) (data : Byte)
  | key (bytes : List Byte)
  -- NVM command codes (43_nvm R242)
  | nvmChipErase
  | nvmReadNvm
  | nvmLoadFlashPageBuffer
  | nvmEraseFlashPageBuffer
  | nvmEraseFlashPage
  | nvmEraseAppPage
  | nvmEraseBootPage
  | nvmWriteFlashPage
  | nvmWriteAppPage
  | nvmWriteBootPage
  | nvmEraseWriteFlashPage
  | nvmEraseWriteAppPage
  | nvmEraseWriteBootPage
  | nvmEraseAppSection
  | nvmEraseBootSection
  | nvmWriteFuse
  | nvmWriteLockBits
  | nvmLoadEepromPageBuffer
  | nvmEraseEepromPageBuffer
  | nvmEraseEepromPage
  | nvmWriteEepromPage
  | nvmEraseWriteEepromPage
  | nvmEraseEeprom
  | nvmReadEeprom
  | nvmFlashCrc
  | nvmAppCrc
  | nvmBootCrc
  -- host link codes (47_host_boundary R340 to R345)
  | hostNop
  | hostWriteAppFlash (addr : Word) (len : Word16)
  | hostWriteFuse
  | hostEraseChip
  | hostEnd
  | hostRespOk
  | hostRespInvalidRequest
  | hostRespInternalError
  | hostRespUnknownError
  | hostHandshake
  deriving DecidableEq, Repr

/-- The operations of the call port (10_state R46). `keyWith` is not in that table: it is the KEY instruction with
the eight bytes given, of which `sendKey` is the case `PDI_KEY` (entry 11). A ByteSource is not an argument here:
State holds the running call's source. The length of the storing operations is a natural number because `write`
passes a whole page, and PAGE_SIZE may be 65536, one more than a Word16 holds (entry 41). -/
inductive Op where
  -- Link
  | linkInit
  | linkBegin
  | linkEnd
  | send (b : Byte)
  | send2 (v : Word16)
  | send4 (v : Word)
  | recv
  -- Instruction Encoder
  | loadDirect (addr : Word)
  | storeDirect (addr : Word) (data : Byte)
  | loadPointer (mode : PtrMode)
  | storePointer (mode : PtrMode) (data : Byte)
  | storePointerAutoAddr (mode : PtrMode) (addr : Word)
  | repeat1 (count : Byte)
  | repeat2 (count : Word16)
  | bulkLoad (mode : PtrMode) (len : Word16)
  | bulkStore (mode : PtrMode) (len : Nat)
  | loadControlStatus (reg : Byte)
  | storeControlStatus (reg : Byte) (data : Byte)
  | sendKey
  | keyWith (bytes : List Byte)
  -- Session
  | enterResetState
  | exitResetState
  | inResetState
  | setGuardTime (code : BitVec 3)
  | sessionBegin
  | sessionEnd
  | sessionActive
  -- NVM
  | writeCommand (c : NvmCommand)
  | execute
  | execCommand (c : NvmCommand)
  | waitWhileBusy
  | readMemory (addr : Word) (len : Word16)
  | eraseChip
  -- Flash and fuse
  | realAddress (off : Word) (sec : FlashSection)
  | eraseSection (off : Word) (sec : FlashSection)
  | eraseBuffer
  | writeBuffer (off : Word) (len : Nat) (sec : FlashSection)
  | erasePage (off : Word) (sec : FlashSection)
  | writePageFromBuffer (off : Word) (preErase : Bool) (sec : FlashSection)
  | writePage (off : Word) (len : Nat) (preErase : Bool) (sec : FlashSection)
  | write (off : Word) (len : Word) (preErase : Bool) (sec : FlashSection)
  | fuseWrite (fuseAddr : Word) (data : Byte)
  deriving DecidableEq, Repr

end Sys2Proof
end

