-- ==== Sys2Proof/Decode.lean ====
section
/-!
DEFINITION. The decoder of each channel, total on any bytes, rejecting by name, and the encoder, both from the tables of
30_encoding, 43_nvm R242 and 47_host_boundary R340. Opcodes and command codes are parameters (00_scope R7, R8), so both
take the configuration. The target's instruction parser and the host dispatcher read their bytes with these decoders.
-/

namespace Sys2Proof

/-! ## Byte order (20_memory R74, 30_encoding R108) -/

/-- `byte_k(v)` (00_scope R10): bits [8k+7:8k]. -/
def byteAt {w : Nat} (k : Nat) (v : BitVec w) : Byte := v.extractLsb' (8 * k) 8

/-- A 16-bit value in wire order, least significant byte first. -/
def le2 (v : Word16) : List Byte := [byteAt 0 v, byteAt 1 v]

/-- A 32-bit value in wire order, least significant byte first. -/
def le4 (v : Word) : List Byte := [byteAt 0 v, byteAt 1 v, byteAt 2 v, byteAt 3 v]

/-- The 16-bit value whose wire order is `b0`, `b1`. -/
def ofLe2 (b0 b1 : Byte) : Word16 := b1 ++ b0

/-- The 32-bit value whose wire order is `b0` to `b3`. -/
def ofLe4 (b0 b1 b2 b3 : Byte) : Word := b3 ++ b2 ++ b1 ++ b0

/-! ## Opcodes and codes (30_encoding R102 to R107, 43_nvm R242) -/

/-- `MODE_BITS(mode)` (30_encoding R104). -/
def modeBits (c : Config) : PtrMode → Byte
  | .indirect => c.modeIndirect
  | .autoInc => c.modeAutoInc
  | .direct => c.modeDirect

/-- The LD opcode of a mode (41_encoder R172). -/
def ldOpcode (c : Config) (m : PtrMode) : Byte := c.opLdBase ||| modeBits c m

/-- The one-byte ST opcode of a mode (41_encoder R173). -/
def stOpcode (c : Config) (m : PtrMode) : Byte := c.opStBase ||| modeBits c m

/-- The four-byte ST opcode of a mode (41_encoder R174). -/
def stPtr4Opcode (c : Config) (m : PtrMode) : Byte := c.opStPtr4Base ||| modeBits c m

/-- The LDCS opcode: the register number masked to four bits (41_encoder R179). -/
def ldcsOpcode (c : Config) (reg : Byte) : Byte := c.opLdcsBase ||| (reg &&& 0x0F)

/-- The STCS opcode: the register number masked to four bits (41_encoder R180). -/
def stcsOpcode (c : Config) (reg : Byte) : Byte := c.opStcsBase ||| (reg &&& 0x0F)

/-- `NVM_CMD_CODE(c)` (43_nvm R242). -/
def nvmCode (c : Config) : NvmCommand → Byte
  | .chipErase => c.nvmCodes.chipErase
  | .readNvm => c.nvmCodes.readNvm
  | .loadFlashPageBuffer => c.nvmCodes.loadFlashPageBuffer
  | .eraseFlashPageBuffer => c.nvmCodes.eraseFlashPageBuffer
  | .eraseFlashPage => c.nvmCodes.eraseFlashPage
  | .eraseAppPage => c.nvmCodes.eraseAppPage
  | .eraseBootPage => c.nvmCodes.eraseBootPage
  | .writeFlashPage => c.nvmCodes.writeFlashPage
  | .writeAppPage => c.nvmCodes.writeAppPage
  | .writeBootPage => c.nvmCodes.writeBootPage
  | .eraseWriteFlashPage => c.nvmCodes.eraseWriteFlashPage
  | .eraseWriteAppPage => c.nvmCodes.eraseWriteAppPage
  | .eraseWriteBootPage => c.nvmCodes.eraseWriteBootPage
  | .eraseAppSection => c.nvmCodes.eraseAppSection
  | .eraseBootSection => c.nvmCodes.eraseBootSection
  | .writeFuse => c.nvmCodes.writeFuse
  | .writeLockBits => c.nvmCodes.writeLockBits
  | .loadEepromPageBuffer => c.nvmCodes.loadEepromPageBuffer
  | .eraseEepromPageBuffer => c.nvmCodes.eraseEepromPageBuffer
  | .eraseEepromPage => c.nvmCodes.eraseEepromPage
  | .writeEepromPage => c.nvmCodes.writeEepromPage
  | .eraseWriteEepromPage => c.nvmCodes.eraseWriteEepromPage
  | .eraseEeprom => c.nvmCodes.eraseEeprom
  | .readEeprom => c.nvmCodes.readEeprom
  | .flashCrc => c.nvmCodes.flashCrc
  | .appCrc => c.nvmCodes.appCrc
  | .bootCrc => c.nvmCodes.bootCrc

/-! ## Decoding -/

/-- Why bytes are no instruction of a channel. -/
inductive Reject where
  /-- The bytes are the beginning of an instruction whose other bytes have not come. -/
  | needMore
  /-- No row of the channel has this first byte (30_encoding R112, R118; 93 U1; 91 N16). -/
  | unknownOpcode (b : Byte)
  deriving DecidableEq, Repr

/-- What a decoder reads: an instruction and the bytes after it, or a rejection. -/
inductive Decoded where
  | ok (i : Instr) (rest : List Byte)
  | reject (r : Reject)
  deriving DecidableEq, Repr

/-- An instruction with no operand byte. -/
def noOperand (i : Instr) (rest : List Byte) : Decoded := .ok i rest

/-- One operand byte. -/
def operand1 (f : Byte → Instr) : List Byte → Decoded
  | b :: rest => .ok (f b) rest
  | [] => .reject .needMore

/-- A two-byte little-endian operand. -/
def operand2 (f : Word16 → Instr) : List Byte → Decoded
  | b0 :: b1 :: rest => .ok (f (ofLe2 b0 b1)) rest
  | _ => .reject .needMore

/-- A four-byte little-endian operand. -/
def operand4 (f : Word → Instr) : List Byte → Decoded
  | b0 :: b1 :: b2 :: b3 :: rest => .ok (f (ofLe4 b0 b1 b2 b3)) rest
  | _ => .reject .needMore

/-- A four-byte operand, then a data byte (STS). -/
def operand4then1 (f : Word → Byte → Instr) : List Byte → Decoded
  | b0 :: b1 :: b2 :: b3 :: d :: rest => .ok (f (ofLe4 b0 b1 b2 b3) d) rest
  | _ => .reject .needMore

/-- A four-byte operand, then a two-byte operand (WriteAppFlash, 47 R342). -/
def operand4then2 (f : Word → Word16 → Instr) : List Byte → Decoded
  | b0 :: b1 :: b2 :: b3 :: l0 :: l1 :: rest => .ok (f (ofLe4 b0 b1 b2 b3) (ofLe2 l0 l1)) rest
  | _ => .reject .needMore

/-- Eight key bytes (30_encoding R107). -/
def operandKey (f : List Byte → Instr) : List Byte → Decoded
  | k0 :: k1 :: k2 :: k3 :: k4 :: k5 :: k6 :: k7 :: rest => .ok (f [k0, k1, k2, k3, k4, k5, k6, k7]) rest
  | _ => .reject .needMore

/-- The PDI instruction whose opcode byte is `op` (30_encoding R109, R112; R118 rejects the rest). Where opcodes of a
configuration coincide, the first of these rows is read (DESIGN CHOICE, entry 34). -/
def decodePdiOpcode (c : Config) (op : Byte) (rest : List Byte) : Decoded :=
  if op = c.opLds then operand4 .lds rest
  else if op = c.opSts then operand4then1 .sts rest
  else if op = ldOpcode c .indirect then noOperand .ldInd rest
  else if op = ldOpcode c .autoInc then noOperand .ldInc rest
  else if op = ldOpcode c .direct then noOperand .ldPtr rest
  else if op = stOpcode c .indirect then operand1 .stInd rest
  else if op = stOpcode c .autoInc then operand1 .stInc rest
  else if op = stOpcode c .direct then operand1 .stPtrB rest
  else if op = stPtr4Opcode c .indirect then operand4 .stIndL rest
  else if op = stPtr4Opcode c .autoInc then operand4 .stIncL rest
  else if op = stPtr4Opcode c .direct then operand4 .stPtr rest
  else if op = c.opRepeat1 then operand1 .repeatB rest
  else if op = c.opRepeat2 then operand2 .repeatW rest
  else if op = c.opKey then operandKey .key rest
  else if op &&& 0xF0 = c.opLdcsBase then noOperand (.ldcs (op &&& 0x0F)) rest
  else if op &&& 0xF0 = c.opStcsBase then operand1 (.stcs (op &&& 0x0F)) rest
  else .reject (.unknownOpcode op)

/-- The PDI wire (30_encoding R109, R117). -/
def decodePdi (c : Config) : List Byte → Decoded
  | [] => .reject .needMore
  | op :: rest => decodePdiOpcode c op rest

/-- The NVM command codes with their rows (43_nvm R242). -/
def nvmRows (c : Config) : List (Byte × Instr) :=
  [(nvmCode c .chipErase, .nvmChipErase),
   (nvmCode c .readNvm, .nvmReadNvm),
   (nvmCode c .loadFlashPageBuffer, .nvmLoadFlashPageBuffer),
   (nvmCode c .eraseFlashPageBuffer, .nvmEraseFlashPageBuffer),
   (nvmCode c .eraseFlashPage, .nvmEraseFlashPage),
   (nvmCode c .eraseAppPage, .nvmEraseAppPage),
   (nvmCode c .eraseBootPage, .nvmEraseBootPage),
   (nvmCode c .writeFlashPage, .nvmWriteFlashPage),
   (nvmCode c .writeAppPage, .nvmWriteAppPage),
   (nvmCode c .writeBootPage, .nvmWriteBootPage),
   (nvmCode c .eraseWriteFlashPage, .nvmEraseWriteFlashPage),
   (nvmCode c .eraseWriteAppPage, .nvmEraseWriteAppPage),
   (nvmCode c .eraseWriteBootPage, .nvmEraseWriteBootPage),
   (nvmCode c .eraseAppSection, .nvmEraseAppSection),
   (nvmCode c .eraseBootSection, .nvmEraseBootSection),
   (nvmCode c .writeFuse, .nvmWriteFuse),
   (nvmCode c .writeLockBits, .nvmWriteLockBits),
   (nvmCode c .loadEepromPageBuffer, .nvmLoadEepromPageBuffer),
   (nvmCode c .eraseEepromPageBuffer, .nvmEraseEepromPageBuffer),
   (nvmCode c .eraseEepromPage, .nvmEraseEepromPage),
   (nvmCode c .writeEepromPage, .nvmWriteEepromPage),
   (nvmCode c .eraseWriteEepromPage, .nvmEraseWriteEepromPage),
   (nvmCode c .eraseEeprom, .nvmEraseEeprom),
   (nvmCode c .readEeprom, .nvmReadEeprom),
   (nvmCode c .flashCrc, .nvmFlashCrc),
   (nvmCode c .appCrc, .nvmAppCrc),
   (nvmCode c .bootCrc, .nvmBootCrc)]

/-- The row whose code is `b`, in a table of one-byte rows. -/
def rowOf (b : Byte) : List (Byte × Instr) → Option Instr
  | [] => none
  | (c, i) :: rows => if c = b then some i else rowOf b rows

/-- An instruction of one byte, read from a table of rows. -/
def decodeRow (rows : List (Byte × Instr)) : List Byte → Decoded
  | [] => .reject .needMore
  | b :: rest =>
    match rowOf b rows with
    | some i => .ok i rest
    | none => .reject (.unknownOpcode b)

/-- The host link's request bytes (47 R340, R342). -/
def decodeHostRequest : List Byte → Decoded
  | [] => .reject .needMore
  | op :: rest =>
    if op = 0x00 then noOperand .hostNop rest
    else if op = 0x02 then operand4then2 .hostWriteAppFlash rest
    else if op = 0x03 then noOperand .hostWriteFuse rest
    else if op = 0x04 then noOperand .hostEraseChip rest
    else if op = 0xFF then noOperand .hostEnd rest
    else .reject (.unknownOpcode op)

/-- The host link's response bytes (47 R340). -/
def hostResponseRows : List (Byte × Instr) :=
  [(0x00, .hostRespOk), (0x01, .hostRespInvalidRequest), (0xFE, .hostRespInternalError), (0xFF, .hostRespUnknownError)]

/-- The host link's handshake byte (47 R341). -/
def hostHandshakeRows : List (Byte × Instr) := [(0xFF, .hostHandshake)]

/-- The decoder of each channel. -/
def decodeOn (c : Config) : Channel → List Byte → Decoded
  | .pdi, bs => decodePdi c bs
  | .nvmCommand, bs => decodeRow (nvmRows c) bs
  | .hostRequest, bs => decodeHostRequest bs
  | .hostResponse, bs => decodeRow hostResponseRows bs
  | .hostHandshake, bs => decodeRow hostHandshakeRows bs

/-! ## Encoding -/

/-- The channel an instruction's bytes travel on. -/
def Instr.channel : Instr → Channel
  | .lds _ | .sts _ _ | .ldInd | .ldInc | .ldPtr | .stInd _ | .stInc _ | .stPtrB _ | .stIndL _ | .stIncL _ | .stPtr _
  | .repeatB _ | .repeatW _ | .ldcs _ | .stcs _ _ | .key _ => .pdi
  | .nvmChipErase | .nvmReadNvm | .nvmLoadFlashPageBuffer | .nvmEraseFlashPageBuffer | .nvmEraseFlashPage
  | .nvmEraseAppPage | .nvmEraseBootPage | .nvmWriteFlashPage | .nvmWriteAppPage | .nvmWriteBootPage
  | .nvmEraseWriteFlashPage | .nvmEraseWriteAppPage | .nvmEraseWriteBootPage | .nvmEraseAppSection
  | .nvmEraseBootSection | .nvmWriteFuse | .nvmWriteLockBits | .nvmLoadEepromPageBuffer | .nvmEraseEepromPageBuffer
  | .nvmEraseEepromPage | .nvmWriteEepromPage | .nvmEraseWriteEepromPage | .nvmEraseEeprom | .nvmReadEeprom
  | .nvmFlashCrc | .nvmAppCrc | .nvmBootCrc => .nvmCommand
  | .hostNop | .hostWriteAppFlash _ _ | .hostWriteFuse | .hostEraseChip | .hostEnd => .hostRequest
  | .hostRespOk | .hostRespInvalidRequest | .hostRespInternalError | .hostRespUnknownError => .hostResponse
  | .hostHandshake => .hostHandshake

/-- The bytes of an instruction in wire order (30_encoding R109, R110; 43_nvm R242; 47 R340 to R342). -/
def encodeWith (c : Config) : Instr → List Byte
  | .lds a => c.opLds :: le4 a
  | .sts a d => c.opSts :: (le4 a ++ [d])
  | .ldInd => [ldOpcode c .indirect]
  | .ldInc => [ldOpcode c .autoInc]
  | .ldPtr => [ldOpcode c .direct]
  | .stInd d => [stOpcode c .indirect, d]
  | .stInc d => [stOpcode c .autoInc, d]
  | .stPtrB d => [stOpcode c .direct, d]
  | .stIndL a => stPtr4Opcode c .indirect :: le4 a
  | .stIncL a => stPtr4Opcode c .autoInc :: le4 a
  | .stPtr a => stPtr4Opcode c .direct :: le4 a
  | .repeatB n => [c.opRepeat1, n]
  | .repeatW n => c.opRepeat2 :: le2 n
  | .ldcs r => [ldcsOpcode c r]
  | .stcs r d => [stcsOpcode c r, d]
  | .key k => c.opKey :: k
  | .nvmChipErase => [nvmCode c .chipErase]
  | .nvmReadNvm => [nvmCode c .readNvm]
  | .nvmLoadFlashPageBuffer => [nvmCode c .loadFlashPageBuffer]
  | .nvmEraseFlashPageBuffer => [nvmCode c .eraseFlashPageBuffer]
  | .nvmEraseFlashPage => [nvmCode c .eraseFlashPage]
  | .nvmEraseAppPage => [nvmCode c .eraseAppPage]
  | .nvmEraseBootPage => [nvmCode c .eraseBootPage]
  | .nvmWriteFlashPage => [nvmCode c .writeFlashPage]
  | .nvmWriteAppPage => [nvmCode c .writeAppPage]
  | .nvmWriteBootPage => [nvmCode c .writeBootPage]
  | .nvmEraseWriteFlashPage => [nvmCode c .eraseWriteFlashPage]
  | .nvmEraseWriteAppPage => [nvmCode c .eraseWriteAppPage]
  | .nvmEraseWriteBootPage => [nvmCode c .eraseWriteBootPage]
  | .nvmEraseAppSection => [nvmCode c .eraseAppSection]
  | .nvmEraseBootSection => [nvmCode c .eraseBootSection]
  | .nvmWriteFuse => [nvmCode c .writeFuse]
  | .nvmWriteLockBits => [nvmCode c .writeLockBits]
  | .nvmLoadEepromPageBuffer => [nvmCode c .loadEepromPageBuffer]
  | .nvmEraseEepromPageBuffer => [nvmCode c .eraseEepromPageBuffer]
  | .nvmEraseEepromPage => [nvmCode c .eraseEepromPage]
  | .nvmWriteEepromPage => [nvmCode c .writeEepromPage]
  | .nvmEraseWriteEepromPage => [nvmCode c .eraseWriteEepromPage]
  | .nvmEraseEeprom => [nvmCode c .eraseEeprom]
  | .nvmReadEeprom => [nvmCode c .readEeprom]
  | .nvmFlashCrc => [nvmCode c .flashCrc]
  | .nvmAppCrc => [nvmCode c .appCrc]
  | .nvmBootCrc => [nvmCode c .bootCrc]
  | .hostNop => [0x00]
  | .hostWriteAppFlash a l => 0x02 :: (le4 a ++ le2 l)
  | .hostWriteFuse => [0x03]
  | .hostEraseChip => [0x04]
  | .hostEnd => [0xFF]
  | .hostRespOk => [0x00]
  | .hostRespInvalidRequest => [0x01]
  | .hostRespInternalError => [0xFE]
  | .hostRespUnknownError => [0xFF]
  | .hostHandshake => [0xFF]

/-- The bytes of an instruction under the default opcodes and codes, those of spec/opcode_table.json. -/
def encode (i : Instr) : List Byte := encodeWith {} i

/-! ## The table's words -/

/-- The bytes of a table word: byte k is bits [8k+7:8k]; bits from `nbits` up are 0; nine bytes, the longest instruction
(KEY). -/
def tableBytes (nbits w : Nat) : List Byte :=
  (List.range 9).map fun k => BitVec.ofNat 8 ((w % 2 ^ nbits) / 2 ^ (8 * k))

/-- The first channel, in this order, whose decoder accepts the bytes. Rows of several channels share a byte value, and
a table word does not say its channel: the earlier channel is taken (DESIGN CHOICE, entry 12). -/
def firstAccepted (c : Config) (bs : List Byte) : List Channel → Option (Channel × Instr)
  | [] => none
  | ch :: chs =>
    match decodeOn c ch bs with
    | .ok i _ => some (ch, i)
    | .reject _ => firstAccepted c bs chs

/-- The channels in the order of the table's rows. -/
def tableChannels : List Channel := [.pdi, .nvmCommand, .hostRequest, .hostResponse, .hostHandshake]

/-- The instruction of a word under a configuration. -/
def decodeWordWith (c : Config) (nbits w : Nat) : Option Instr :=
  (firstAccepted c (tableBytes nbits w) tableChannels).map Prod.snd

/-- The instruction of a table word: the table has the default opcodes and codes. -/
def decodeTableWord (nbits w : Nat) : Option Instr := decodeWordWith {} nbits w

end Sys2Proof
end

