-- ==== Sys2Proof/WellFormed.lean ====
section
/-!
DEFINITION. The checks on instructions, calls and configurations that their types do not make.
-/

namespace Sys2Proof

/-- An instruction the encoding of spec/opcode_table.json can carry: a CSR number of four bits (30_encoding R106), a key
of eight bytes (R107). -/
def Instr.wellFormed : Instr → Bool
  | .ldcs reg => decide (reg.toNat < 16)
  | .stcs reg _ => decide (reg.toNat < 16)
  | .key bytes => decide (bytes.length = 8)
  | _ => true

/-- A call whose arguments have the types of 10_state R46: the lengths of the storing operations are Word16 (D21), a
key has eight bytes. -/
def Op.wellFormed : Op → Bool
  | .bulkStore _ len => decide (len < 65536)
  | .writeBuffer _ len _ => decide (len < 65536)
  | .writePage _ len _ _ => decide (len < 65536)
  | .keyWith bytes => decide (bytes.length = 8)
  | _ => true

/-- A configuration 00_scope R7 admits: PAGE_SIZE from 1 to 65536, a key of eight bytes. -/
def Config.wellFormed (c : Config) : Bool :=
  decide (1 ≤ c.pageSize) && decide (c.pageSize ≤ 65536) && decide (c.pdiKey.length = 8)

end Sys2Proof
end

