-- ==== Sys2Proof/Machine/State.lean ====
section
/-!
DEFINITION. The machine's state as plain data, its reset value, and the reasons a step can stop.
-/

namespace Sys2Proof.Machine

/-! ## Core state (10_state section 1) -/

/-- The Link direction (10_state R30). -/
inductive Direction where
  | idle | transmitting | receiving
  deriving DecidableEq, Repr

/-- The session state (10_state R33). -/
inductive SessionState where
  | uninitialized | linkUp | targetInReset | programming | ended
  deriving DecidableEq, Repr

/-- The error codes of a Result (60_exceptions R360); no number is assigned (R363). -/
inductive ErrorCode where
  | serialError | serialTimeout | invalidLength | invalidSection | unknownError
  deriving DecidableEq, Repr

/-- A value an operation returns. -/
inductive Value where
  | unit
  | byte (b : Byte)
  | bytes (bs : List Byte)
  | bool (b : Bool)
  | word (w : Word)
  deriving DecidableEq, Repr

/-- What an operation gives its caller: nothing, a plain value (`active`, `realAddress`), or a Result (00_scope R11). -/
inductive Return where
  | nothing
  | value (v : Value)
  | ok (v : Value)
  | err (e : ErrorCode)
  deriving DecidableEq, Repr

/-! ## Platform port (10_state section 2) -/

/-- The three pins (10_state R40). -/
inductive Pin where
  | clock | dataOut | dataIn
  deriving DecidableEq, Repr

/-- A pin level. -/
inductive Level where
  | low | high
  deriving DecidableEq, Repr

/-- What a pin is configured as (10_state R41). -/
inductive PinState where
  | input
  | output (l : Level)
  deriving DecidableEq, Repr

/-- A Platform call that returns nothing (10_state R40), and the `Delay` primitive (R45, D33). -/
inductive Command where
  | configurePinOutput (p : Pin) (l : Level)
  | configurePinInput (p : Pin)
  | writePin (p : Pin) (l : Level)
  | initUart (baud : Nat)
  | enableClock
  | disableClock
  | enableTx
  | disableTx
  | enableRx
  | disableRx
  | resetTxComplete
  | writeByte (b : Byte)
  | delay (us : Nat)
  deriving DecidableEq, Repr

/-- One event of the trace (00_scope R13): a command, a query with its answer, or the pull of a source byte (R15). -/
inductive Event where
  | command (c : Command)
  | readPin (p : Pin) (answer : Bool)
  | rxComplete (answer : Bool)
  | txComplete (answer : Bool)
  | txBufferEmpty (answer : Bool)
  | rxError (answer : Bool)
  | readByte (b : Byte)
  | pull (b : Byte)
  deriving DecidableEq, Repr

/-- How the Platform answers a query once the answers lined up for it are used up: with a free value (00_scope R5), or
at once as in the runs of the reference target (45 R326, last item). -/
inductive Answering where
  | drawn | prompt
  deriving DecidableEq, Repr

/-- The Platform as the core drives it. The UART flags are not stored: each read is an answer (10_state R37, R43). -/
structure Platform where
  clockPin : PinState
  dataOutPin : PinState
  dataInPin : PinState
  /-- UART sub-function enables (10_state R42). -/
  txOn : Bool
  rxOn : Bool
  clockOn : Bool
  /-- The baud constant of the last `initUart` (10_state R44); none before it. -/
  baud : Option Nat
  /-- A byte has been written and its transmission has not been seen to finish (10_state R57, 70 R402). -/
  inFlight : Bool
  answering : Answering
  /-- Answers lined up for pin and flag queries, next first (entry 4). -/
  bits : List Bool
  /-- Answers lined up for `readByte`, next first (entry 4). -/
  frames : List Byte
  /-- How many free answers have been drawn (entry 4). -/
  drawn : Nat
  /-- Every event so far, NEWEST FIRST (00_scope R5). -/
  trace : List Event
  deriving DecidableEq, Repr

/-! ## Control position (10_state R36) -/

/-- An unbounded wait for one answer (70 R400). -/
inductive Wait where
  | clock (l : Level)
  | txBufferEmpty
  | txComplete
  deriving DecidableEq, Repr

/-- A point of an operation's pseudocode. A task makes at most one Platform call when it is performed. -/
inductive Task where
  /-- One Platform command. -/
  | command (c : Command)
  /-- `repeat until` one query has the awaited answer. -/
  | await (w : Wait)
  /-- The head of `recv`'s loop with `left` checks to go (40_link R148). -/
  | rxCheck (left : Nat)
  /-- `recv` after rxComplete: test rxError. -/
  | rxErrorCheck
  /-- `recv` after a good frame: `readByte`. -/
  | rxRead
  /-- `dir <- d`. -/
  | setDir (d : Direction)
  /-- `sess <- x`, and `active` with it (10_state R34, entry 18). -/
  | enter (x : SessionState)
  /-- `return r`. -/
  | finish (r : Return)
  /-- Call an operation. -/
  | run (o : Op)
  /-- `beginSession` with `left` clock cycles to wait for (40_link R145). -/
  | wake (left : Nat)
  /-- `bulkLoad` of length 1: the reply becomes a sequence (41_encoder R177). -/
  | wrapReply
  /-- `bulkLoad` with `left` replies to come; `got` holds the ones received, newest first. -/
  | collect (left : Nat) (got : List Byte)
  /-- `bulkLoad` right after a reply. -/
  | collected (left : Nat) (got : List Byte)
  /-- `bulkStore` with `left` bytes to pull and send (41_encoder R178). -/
  | store (left : Nat)
  /-- `inResetState` after its reply (42_session R212). -/
  | testReset
  /-- Stage 1 of `waitWhileBusy`, with the polls POLL_LIMIT leaves (43_nvm R248, 70 R400). -/
  | pollNvmen (left : Option Nat)
  /-- Stage 1 after a reply. -/
  | nvmenVerdict (left : Option Nat)
  /-- Stage 2 of `waitWhileBusy`. -/
  | pollBusy (left : Option Nat)
  /-- Stage 2 after a reply. -/
  | busyVerdict (left : Option Nat)
  /-- The reset-exit loop of `Session.end` (42_session R216). -/
  | resetLoop (left : Option Nat)
  /-- The reset-exit loop after `inResetState`; an error stops here. -/
  | resetVerdict (left : Option Nat)
  /-- The `ignore` around `waitWhileBusy` in `Session.end`; an error stops here. -/
  | ignoreErrors
  /-- `write` with `remaining` bytes from offset `a` on (44_flash_fuse R280). -/
  | chunks (a : Word) (remaining : Word) (preErase : Bool) (sec : FlashSection)
  /-- The dispatcher reading a WriteFuse payload (47 R343, entry 15). -/
  | hostPayload (left : Nat) (got : List Byte)
  /-- The dispatcher bringing the session up lazily (47 R344). -/
  | lazyBegin
  /-- The dispatcher's response to the host (47 R345); an error stops here. -/
  | respond
  deriving DecidableEq, Repr

/-! ## Target (10_state section 4, 45_target_contract) -/

/-- Which target is on the link: one of which only section 1 of 45_target_contract is known, or the reference target RT
of R325 and R326. -/
inductive TargetKind where
  | contract | reference
  deriving DecidableEq, Repr

/-- The target's reset line as the Reset CSR shows it (10_state R52, 45 R315): not known, asserted, released but maybe
still read as asserted, released. -/
inductive ResetLine where
  | unknown | held | leaving | released
  deriving DecidableEq, Repr

/-- What the addresses a memory does not list read as. -/
inductive Background where
  /-- Erased cells, 0xFF (PRESUMED, G11; RT only). -/
  | erased
  /-- Contents that no source gives: the free values of memory number `n`. -/
  | unknown (n : Nat)
  /-- One thing in some regions, each a base and a size, and another outside them. -/
  | parted (kept : List (Word × Nat)) (inside outside : Background)
  deriving DecidableEq, Repr

/-- A memory: the listed cells, addresses strictly rising, none equal to what its address reads as unlisted. -/
structure Memory where
  background : Background
  cells : List Host.Cell
  deriving DecidableEq, Repr

/-- The target. -/
structure Target where
  kind : TargetKind
  /-- `T.ptr` (10_state R55). -/
  ptr : Word
  /-- `T.rep` (10_state R56); 0 when no repeat is pending (45 R325). -/
  rep : Word16
  /-- A REPEAT has come whose instruction has not been executed (45 R312, 93 U3). -/
  repeated : Bool
  /-- A caller is supplying the data bytes of a repeated ST by hand (70 R406, 93 U3; entry 33). -/
  handFed : Bool
  resetLine : ResetLine
  /-- `beginSession` has woken the target, and since then its clock has not stopped and it has not been released from reset
  (70 R404, 93 U7, U22; entries 24 and 47). -/
  linked : Bool
  /-- A direct call has released the target from reset in a session (93 U7; entry 24). -/
  adrift : Bool
  /-- The key has been accepted (45 R318, R325). -/
  keyed : Bool
  /-- The last read of the Status CSR, in reset and keyed, has reported NVMEN (10_state R51, 93 U10; entry 22). -/
  awake : Bool
  /-- The PDI Control CSR (10_state R53). -/
  control : Byte
  /-- The NVM CMD register (10_state R54). -/
  cmd : Byte
  /-- The last byte written to the NVM CTRLA register (10_state R54). -/
  ctrlA : Byte
  /-- A command is running: NVM STATUS bit 7 (10_state R54, 45 R319). -/
  busy : Bool
  /-- Since STATUS was last read, a load of the page buffer or a read under ReadNvm has started a command that may still run
  (43_nvm R245; entry 51). -/
  working : Bool
  /-- A command begun since the last target reset has not been seen to end (70 R394, R403; entry 37). -/
  underway : Bool
  /-- The PDI memory space (20_memory R71). -/
  mem : Memory
  /-- The page buffer, by offset in the page (45 R322, R325). -/
  buf : Memory
  /-- The fuses (45 R325). -/
  fuse : Memory
  /-- The page whose loaded bytes the buffer holds (93 U4). -/
  bufPage : Option Nat
  /-- The page of the last load since the pointer was loaded, and whether these loads crossed a page boundary. -/
  bufRun : Option (Nat × Bool)
  /-- The pages that runs of loads have crossed between since the buffer was last erased (93 U6). -/
  bufCrossed : List Nat
  /-- The ranges of addresses, each from its first up to but not with its second, that an earlier erase has erased and
  nothing has written since (20_memory R85). -/
  erased : List (Nat × Nat)
  /-- The bytes of an instruction that is not complete (30_encoding R117). -/
  pending : List Byte
  /-- Replies not read yet, oldest first (45 R311). -/
  replies : List Byte
  /-- How many of the replies are to be read until those of a repeated LD have all been (45 R312, 93 U3; entry 50). -/
  owed : Nat
  /-- The target met a case the spec leaves to a refusal (93 U1, U2, U3, U9): nothing more is known of it (entry 9). -/
  lost : Bool
  /-- How many free values the target has used. -/
  fresh : Nat
  deriving DecidableEq, Repr

/-! ## Callers (10_state section 3, 47_host_boundary) -/

/-- Where the running call's data bytes come from (00_scope R15): the caller's bytes, or the host link (47 R342). -/
inductive ByteSource where
  | bytes (bs : List Byte)
  | hostLink
  deriving DecidableEq, Repr

/-- A call that waits to be taken (10_state R47). -/
inductive Request where
  /-- An operation of the call port, with the bytes its ByteSource yields. -/
  | call (o : Op) (src : List Byte)
  /-- One instruction of spec/opcode_table.json, as its bytes on its channel. -/
  | coded (ch : Channel) (bytes : List Byte)
  /-- The startup glue's `initUart` (10_state R44, 70 R395). -/
  | startup
  deriving DecidableEq, Repr

/-- The host link (47_host_boundary R340): bytes not yet read, oldest first; bytes sent, NEWEST FIRST; and the bytes
read of a request that is not complete, oldest first (R341, R342). -/
structure HostLink where
  rx : List Byte
  tx : List Byte
  pending : List Byte
  deriving DecidableEq, Repr

/-! ## The state -/

/-- The whole machine: the core, the Platform it drives, the target on the link, and its callers' pending requests. -/
structure State where
  /-- The parameters (00_scope R7). No step writes them (10_state R38). -/
  cfg : Config
  /-- The Link direction; none before `initialize` (10_state R30, R60). -/
  dir : Option Direction
  sess : SessionState
  active : Bool
  /-- What is left of the running operation, next task first; empty when none runs (10_state R36). -/
  control : List Task
  /-- The result the last operation returned. -/
  ret : Return
  /-- The byte the last `recv` returned: `x` in the pseudocode. -/
  reply : Byte
  source : ByteSource
  /-- Calls that wait, next first (10_state R47). -/
  calls : List Request
  platform : Platform
  target : Target
  host : HostLink
  deriving DecidableEq, Repr

/-! ## Reasons to stop -/

/-- The core has no trap (60_exceptions R365): no step ends in a fault, and the type has no constructor. -/
inductive Fault where
  deriving DecidableEq, Repr

/-- Why a step gives no next state. Each is safe: the model stops where the spec has a model refuse. -/
inductive Refusal where
  /-- `exec`, for an instruction with no meaning yet. None is left. -/
  | notModelled (mnemonic : String)
  /-- Any operation but `initialize` before it (70 R392, D27, 93 U17). -/
  | notInitialized
  /-- A second `initialize` (40_link R140, D27, 93 U17). -/
  | alreadyInitialized
  /-- `beginSession` when `dir` is not Idle (40_link R145, D26, 93 U17). -/
  | beginNotIdle
  /-- `Session.begin` while a session is active (42_session R215). -/
  | sessionIsActive
  /-- A byte source shorter than the call's length (70 R410, 93 U15). -/
  | sourceExhausted
  /-- A call whose arguments do not have the types of 10_state R46. -/
  | illTypedCall
  /-- Bytes that are no instruction of their channel (93 U1; 91 N16 for the host link). -/
  | undecoded (ch : Channel) (r : Reject)
  deriving DecidableEq, Repr

/-! ## Reset -/

/-- The Platform at driver start. Its state before `initialize` is unspecified (10_state R61): pins as inputs and UART
disabled are a DESIGN CHOICE, entry 5. -/
def Platform.reset : Platform where
  clockPin := .input
  dataOutPin := .input
  dataInPin := .input
  txOn := false
  rxOn := false
  clockOn := false
  baud := none
  inFlight := false
  answering := .drawn
  bits := []
  frames := []
  drawn := 0
  trace := []

/-- The target at driver start. No source gives its values (10_state R62): DESIGN CHOICE, entries 7 and 8. -/
def Target.reset : Target where
  kind := .contract
  ptr := 0
  rep := 0
  repeated := false
  handFed := false
  resetLine := .unknown
  linked := false
  adrift := false
  keyed := false
  awake := false
  control := 0
  cmd := 0
  ctrlA := 0
  busy := false
  working := false
  underway := false
  mem := ⟨.unknown 0, []⟩
  buf := ⟨.unknown 1, []⟩
  fuse := ⟨.unknown 2, []⟩
  bufPage := none
  bufRun := none
  bufCrossed := []
  erased := []
  pending := []
  replies := []
  owed := 0
  lost := false
  fresh := 3

/-- The machine at driver start (70 R390, 10_state R60): `dir` unspecified, `sess` Uninitialized, `active` false. -/
def State.reset : State where
  cfg := {}
  dir := none
  sess := .uninitialized
  active := false
  control := []
  ret := .nothing
  reply := 0
  source := .bytes []
  calls := []
  platform := Platform.reset
  target := Target.reset
  host := ⟨[], [], []⟩

end Sys2Proof.Machine
end

