-- ==== Sys2Proof/Machine/Flags.lean ====
section
/-!
DEFINITION. The bits the core tests in a reply, and the bits of the target's registers (10_state R37 and R51 to R54,
30_encoding R115). The core stores none of them.
-/

namespace Sys2Proof.Machine

/-- NVMEN: bit 1 of the PDI Status CSR (10_state R51). -/
def nvmEnabled (status : Byte) : Bool := status.getLsbD 1

/-- Bit 0 of the PDI Reset CSR: the target is in reset (10_state R52, 42_session R212). -/
def resetBit (reset : Byte) : Bool := reset.getLsbD 0

/-- BUSY: bit 7 of the NVM STATUS register (10_state R54). -/
def busyBit (status : Byte) : Bool := status.getLsbD 7

/-- CMDEX: bit 0 of the NVM CTRLA register (10_state R54). -/
def executeBit (ctrlA : Byte) : Bool := ctrlA.getLsbD 0

/-- A Status CSR value that reports NVMEN and nothing else (45 R326). -/
def statusByte (enabled : Bool) : Byte := if enabled then 0x02 else 0x00

/-- A Reset CSR value, `zext_8(inReset)` (45 R326). -/
def resetByte (inReset : Bool) : Byte := if inReset then 0x01 else 0x00

/-- `b` with NVMEN clear. -/
def withoutNvmen (b : Byte) : Byte := b &&& 0xFD

/-- `b` with bit 0 replaced (the other bits are no source's, 93 U9). -/
def withResetBit (b : Byte) (inReset : Bool) : Byte := (b &&& 0xFE) ||| resetByte inReset

/-- `b` with BUSY replaced. -/
def withBusyBit (b : Byte) (busy : Bool) : Byte := (b &&& 0x7F) ||| (if busy then 0x80 else 0x00)

/-- `b` with bits 2:0 replaced by the guard-time code in `control` (10_state R53). -/
def withGuardTime (b control : Byte) : Byte := (b &&& 0xF8) ||| (control &&& 0x07)

end Sys2Proof.Machine
end

