-- ==== Sys2Proof/Machine/Operands.lean ====
section
/-!
DEFINITION. Operand forms: how register numbers, addresses and commands are assembled (30_encoding R106, 43_nvm R240 and
R242, 44_flash_fuse R271 and R272), and which addresses are NVM addresses (20_memory R73).
-/

namespace Sys2Proof.Machine

/-- A CSR number as an operand of LDCS and STCS. -/
def csrOperand (r : BitVec 4) : Byte := r.setWidth 8

/-- The guard-time code as the byte written to Control: bits 7:3 are 0 (42_session R213, D9). -/
def guardTimeByte (code : BitVec 3) : Byte := code.setWidth 8

/-- The address of an NVM register: base plus offset, modulo 2^32 (43_nvm R240, 20_memory R88). -/
def nvmAddress (c : Config) : NvmRegister → Word
  | .cmd => c.nvmBase + c.nvmOffCmd
  | .ctrlA => c.nvmBase + c.nvmOffCtrlA
  | .status => c.nvmBase + c.nvmOffStatus

/-- The command an NVM command code stands for (43_nvm R242). -/
def nvmCommandOf : Instr → Option NvmCommand
  | .nvmChipErase => some .chipErase
  | .nvmReadNvm => some .readNvm
  | .nvmLoadFlashPageBuffer => some .loadFlashPageBuffer
  | .nvmEraseFlashPageBuffer => some .eraseFlashPageBuffer
  | .nvmEraseFlashPage => some .eraseFlashPage
  | .nvmEraseAppPage => some .eraseAppPage
  | .nvmEraseBootPage => some .eraseBootPage
  | .nvmWriteFlashPage => some .writeFlashPage
  | .nvmWriteAppPage => some .writeAppPage
  | .nvmWriteBootPage => some .writeBootPage
  | .nvmEraseWriteFlashPage => some .eraseWriteFlashPage
  | .nvmEraseWriteAppPage => some .eraseWriteAppPage
  | .nvmEraseWriteBootPage => some .eraseWriteBootPage
  | .nvmEraseAppSection => some .eraseAppSection
  | .nvmEraseBootSection => some .eraseBootSection
  | .nvmWriteFuse => some .writeFuse
  | .nvmWriteLockBits => some .writeLockBits
  | .nvmLoadEepromPageBuffer => some .loadEepromPageBuffer
  | .nvmEraseEepromPageBuffer => some .eraseEepromPageBuffer
  | .nvmEraseEepromPage => some .eraseEepromPage
  | .nvmWriteEepromPage => some .writeEepromPage
  | .nvmEraseWriteEepromPage => some .eraseWriteEepromPage
  | .nvmEraseEeprom => some .eraseEeprom
  | .nvmReadEeprom => some .readEeprom
  | .nvmFlashCrc => some .flashCrc
  | .nvmAppCrc => some .appCrc
  | .nvmBootCrc => some .bootCrc
  | _ => none

/-- The base address of a section (44_flash_fuse R270, R271). -/
def sectionBase (c : Config) : FlashSection → Word
  | .unspecified => c.flashBase
  | .app => c.appBase
  | .boot => c.bootBase

/-- The address lies in the region of `size` bytes from `base` on, modulo 2^32 (20_memory R73, R88). -/
def inRegion (base : Word) (size : Nat) (a : Word) : Bool := decide ((a - base).toNat < size)

/-- The address lies in one of the regions. -/
def inRegions (rs : List (Word × Nat)) (a : Word) : Bool := rs.any fun r => inRegion r.1 r.2 a

/-- The flash, App, Boot and fuse regions (20_memory R73). DESIGN CHOICE: the sizes are no source's (entry 43). -/
def nvmRegions (c : Config) : List (Word × Nat) :=
  [(c.flashBase, c.flashSize), (c.appBase, c.appSize), (c.bootBase, c.bootSize), (c.fuseBase, c.fuseSize)]

/-- An NVM address: one in those regions (20_memory R73, R78; entry 43). -/
def isNvm (c : Config) (a : Word) : Bool := inRegions (nvmRegions c) a

/-- An address of the fuse region (20_memory R73). -/
def isFuse (c : Config) (a : Word) : Bool := inRegion c.fuseBase c.fuseSize a

/-- `realAddress(off, section)`: the sum wraps modulo 2^32 (44_flash_fuse R271, D23). -/
def realAddress (c : Config) (off : Word) (sec : FlashSection) : Word := sectionBase c sec + off

/-- `waitWhileBusy` polls at all: POLL_LIMIT is not 0 (70 R400; entry 35). -/
def polls (c : Config) : Bool := c.pollLimit ≠ some 0

/-- Whether an operation sends an instruction: not the Link operations, the answers without traffic (41_encoder R182,
43_nvm R250, 44_flash_fuse R280), the calls that fail at once (60_exceptions R366), and, with POLL_LIMIT 0, those that
begin with `waitWhileBusy`. -/
def sendsInstruction (c : Config) : Op → Bool
  | .linkInit | .linkBegin | .linkEnd | .send _ | .send2 _ | .send4 _ | .recv | .sessionActive | .realAddress _ _ => false
  | .loadDirect _ | .storeDirect _ _ | .loadPointer _ | .storePointer _ _ | .storePointerAutoAddr _ _ | .repeat1 _
  | .repeat2 _ | .loadControlStatus _ | .storeControlStatus _ _ | .sendKey | .keyWith _ => true
  | .bulkLoad _ len => len ≠ 0
  | .bulkStore _ len => len ≠ 0
  | .enterResetState | .exitResetState | .inResetState | .setGuardTime _ | .sessionBegin => true
  | .writeCommand _ | .execute | .execCommand _ => true
  | .sessionEnd | .waitWhileBusy | .eraseChip | .eraseBuffer | .erasePage _ _ | .writePageFromBuffer _ _ _
  | .writePage _ _ _ _ | .fuseWrite _ _ => polls c
  | .readMemory _ len => len ≠ 0 && polls c
  | .eraseSection _ sec => sec ≠ .unspecified && polls c
  | .writeBuffer _ len _ => decide (len ≤ c.pageSize) && polls c
  | .write _ len _ _ => len ≠ 0 && polls c

/-- Whether a direct call releases the target from reset: `exitResetState`, or the STCS it is (42_session R211, R218). -/
def exitsReset (c : Config) : Op → Bool
  | .exitResetState => true
  | .storeControlStatus r d => decide (r.setWidth 4 = c.csrReset ∧ d = 0x00)
  | _ => false

/-- The section-erase command (44_flash_fuse R274); Unspecified has none. -/
def eraseSectionCommand : FlashSection → Option NvmCommand
  | .unspecified => none
  | .app => some .eraseAppSection
  | .boot => some .eraseBootSection

/-- The page-erase command (44_flash_fuse R277). -/
def erasePageCommand : FlashSection → NvmCommand
  | .unspecified => .eraseFlashPage
  | .app => .eraseAppPage
  | .boot => .eraseBootPage

/-- The page-write command for (preErase, section) (44_flash_fuse R272, R278). -/
def writePageCommand : Bool → FlashSection → NvmCommand
  | false, .unspecified => .writeFlashPage
  | false, .app => .writeAppPage
  | false, .boot => .writeBootPage
  | true, .unspecified => .eraseWriteFlashPage
  | true, .app => .eraseWriteAppPage
  | true, .boot => .eraseWriteBootPage

end Sys2Proof.Machine
end

