-- ==== Sys2Proof/Machine/Ops.lean ====
section
/-!
DEFINITION. The shared operations: memories, the Platform's commands and answers, the control position, and the one way
an operation ends in an error.
-/

namespace Sys2Proof.Machine

/-! ## Memory -/

/-- What an address reads as that no cell lists: 0xFF where erased (PRESUMED, G11), else a free value (93 U8). Entry
8. -/
def Background.byteAt (a : Nat) : Background → Byte
  | .erased => 0xFF
  | .unknown n => Config.freeMemory n a
  | .parted kept inside outside =>
    if inRegions kept (BitVec.ofNat 32 a) then inside.byteAt a else outside.byteAt a

/-- What an address of a memory reads as when no cell lists it. -/
def Memory.unlisted (m : Memory) (a : Nat) : Byte := m.background.byteAt a

/-- The listed byte at an address. -/
def lookupCell (a : Nat) : List Host.Cell → Option Byte
  | [] => none
  | (k, b) :: cs => if k = a then some b else lookupCell a cs

/-- The byte at an address. -/
def Memory.read (m : Memory) (a : Nat) : Byte := (lookupCell a m.cells).getD (m.unlisted a)

/-- List a byte at an address, keeping the addresses strictly rising. -/
def insertCell (a : Nat) (b : Byte) : List Host.Cell → List Host.Cell
  | [] => [(a, b)]
  | (k, c) :: cs =>
    if a < k then (a, b) :: (k, c) :: cs
    else if a = k then (a, b) :: cs
    else (k, c) :: insertCell a b cs

/-- No longer list an address. -/
def removeCell (a : Nat) (cs : List Host.Cell) : List Host.Cell := cs.filter fun c => c.1 ≠ a

/-- Write one byte. Writing what the address reads as unlisted leaves it unlisted. -/
def Memory.write (m : Memory) (a : Nat) (b : Byte) : Memory :=
  if b = m.unlisted a then { m with cells := removeCell a m.cells }
  else { m with cells := insertCell a b m.cells }

/-- Write `f a` at each of the `n` addresses from `base` on, modulo 2^32 (20_memory R88). -/
def Memory.fill (m : Memory) (base : Nat) (f : Nat → Byte) : Nat → Memory
  | 0 => m
  | n + 1 =>
    let a := (base + n) % 2 ^ 32
    (m.fill base f n).write a (f a)

/-- Keep what the regions hold; every other address reads as memory number `n`. -/
def Memory.keepOnly (m : Memory) (kept : List (Word × Nat)) (n : Nat) : Memory :=
  ⟨.parted kept m.background (.unknown n), m.cells.filter fun c => inRegions kept (BitVec.ofNat 32 c.1)⟩

/-- The canonical form: addresses strictly rising and inside the address space, no cell equal to the unlisted byte. -/
def Memory.wf (m : Memory) : Bool :=
  decide (m.cells.Pairwise fun c d => c.1 < d.1) &&
    m.cells.all fun c => decide (c.1 < 2 ^ 32) && decide (c.2 ≠ m.unlisted c.1)

/-! ## Ranges of addresses, each from its first up to but not with its second -/

/-- The ranges without the `n` addresses from `a` on. -/
def cutRange (a n : Nat) (rs : List (Nat × Nat)) : List (Nat × Nat) :=
  rs.flatMap fun r => [(r.1, min r.2 a), (max r.1 (a + n), r.2)].filter fun q => q.1 < q.2

/-- One of the ranges holds the `n` addresses from `a` on. -/
def coversRange (a n : Nat) (rs : List (Nat × Nat)) : Bool := rs.any fun r => decide (r.1 ≤ a) && decide (a + n ≤ r.2)

/-! ## Platform -/

/-- Append an event to the trace. -/
def Platform.record (p : Platform) (e : Event) : Platform := { p with trace := e :: p.trace }

/-- The level a pin configuration or a write gives a pin. -/
def Platform.setPin (p : Platform) (pin : Pin) (st : PinState) : Platform :=
  match pin with
  | .clock => { p with clockPin := st }
  | .dataOut => { p with dataOutPin := st }
  | .dataIn => { p with dataInPin := st }

/-- What a pin is configured as. -/
def Platform.pin (p : Platform) : Pin → PinState
  | .clock => p.clockPin
  | .dataOut => p.dataOutPin
  | .dataIn => p.dataInPin

/-- The effect of a command on the Platform's state (10_state R40 to R45). `writePin` sets the level of an output and
does nothing to an input. `delay` changes nothing (D33). -/
def Platform.apply (p : Platform) : Command → Platform
  | .configurePinOutput pin l => p.setPin pin (.output l)
  | .configurePinInput pin => p.setPin pin .input
  | .writePin pin l =>
    match p.pin pin with
    | .input => p
    | .output _ => p.setPin pin (.output l)
  | .initUart b => { p with baud := some b }
  | .enableClock => { p with clockOn := true }
  | .disableClock => { p with clockOn := false }
  | .enableTx => { p with txOn := true }
  | .disableTx => { p with txOn := false }
  | .enableRx => { p with rxOn := true }
  | .disableRx => { p with rxOn := false }
  | .resetTxComplete => p
  | .writeByte _ => { p with inFlight := true }
  | .delay _ => p

/-- Take the next yes-or-no answer: the next one lined up; else at once the awaited one, or a free value. -/
def Platform.takeBit (p : Platform) (awaited : Bool) : Bool × Platform :=
  match p.bits with
  | b :: bs => (b, { p with bits := bs })
  | [] =>
    match p.answering with
    | .prompt => (awaited, p)
    | .drawn => (Config.drawBit p.drawn, { p with drawn := p.drawn + 1 })

/-- Make a yes-or-no query: the answer and the Platform with the event recorded. -/
def Platform.query (p : Platform) (event : Bool → Event) (awaited : Bool) : Bool × Platform :=
  ((p.takeBit awaited).1, (p.takeBit awaited).2.record (event (p.takeBit awaited).1))

/-- Take the next received byte: the next one lined up; else, when the Platform answers at once, the byte on the link;
else a free value. -/
def Platform.takeFrame (p : Platform) (onLink : Option Byte) : Byte × Platform :=
  match p.frames with
  | b :: bs => (b, { p with frames := bs })
  | [] =>
    match p.answering, onLink with
    | .prompt, some b => (b, p)
    | _, _ => (Config.drawByte p.drawn, { p with drawn := p.drawn + 1 })

/-- The bytes written to the UART so far, in wire order (40_link R146), read off the trace. -/
def wireOf : List Event → List Byte
  | [] => []
  | .command (.writeByte b) :: es => wireOf es ++ [b]
  | _ :: es => wireOf es

/-- The wire bytes of a state's trace. -/
def State.wire (s : State) : List Byte := wireOf s.platform.trace

/-! ## Control position -/

/-- Put tasks before what is left of the running operation. -/
def State.push (s : State) (ts : List Task) : State := { s with control := ts ++ s.control }

/-- Whether an error stops unwinding at this task: the three places that swallow one (60_exceptions R367, 47 R345). -/
def Task.catches : Task → Bool
  | .ignoreErrors => true
  | .resetVerdict _ => true
  | .respond => true
  | _ => false

/-- What is left to do after an error: every task up to the nearest one that swallows errors is dropped. -/
def unwind : List Task → List Task
  | [] => []
  | t :: ts => if t.catches then t :: ts else unwind ts

/-- TAKING AN ERROR: the one operation by which an operation ends in an error (60_exceptions R364, R365). Nothing is
saved and nothing else changes: `dir`, `sess`, `active`, the trace and the target stand as they are. -/
def State.raise (s : State) (e : ErrorCode) : State := { s with ret := .err e, control := unwind s.control }

/-- RETURNING from an operation with a result (00_scope R11). -/
def State.finish (s : State) (r : Return) : State := { s with ret := r }

/-- `sess <- x`. `active` is true exactly when `sess` is Programming (10_state R34; DEDUCED, entry 18). -/
def State.enter (s : State) (x : SessionState) : State := { s with sess := x, active := decide (x = .programming) }

/-! ## Waits (70 R400) -/

/-- The answer that ends a wait. -/
def Wait.wanted : Wait → Bool
  | .clock .high => true
  | .clock .low => false
  | .txBufferEmpty => true
  | .txComplete => true

/-- The event of one evaluation of a wait's condition (00_scope R13). -/
def Wait.event : Wait → Bool → Event
  | .clock _, b => .readPin .clock b
  | .txBufferEmpty, b => .txBufferEmpty b
  | .txComplete, b => .txComplete b

/-- What the Platform's state learns when a wait ends: a set txComplete means the last byte has finished (10_state
R43, R57). -/
def Platform.afterWait (p : Platform) : Wait → Platform
  | .txComplete => { p with inFlight := false }
  | _ => p

/-- The three level waits of `waitClockCycle` (40_link R141, D10). -/
def waitClockCycle : List Task := [.await (.clock .high), .await (.clock .low), .await (.clock .high)]

/-! ## Host link (47_host_boundary) -/

/-- Send one byte to the host. -/
def State.hostSend (s : State) (b : Byte) : State := { s with host := { s.host with tx := b :: s.host.tx } }

/-- Read one byte from the host and acknowledge it with the handshake byte 0xFF (47 R341). -/
def State.hostTake (s : State) : Option (Byte × State) :=
  match s.host.rx with
  | [] => none
  | b :: rx => some (b, { s with host := { s.host with rx := rx, tx := 0xFF :: s.host.tx } })

end Sys2Proof.Machine
end

