-- ==== Sys2Proof/Machine/Target.lean ====
section
/-!
DEFINITION. The target on the link (45_target_contract). In the kind `contract` it does what section 1 states and every
value that section leaves open is free; in the kind `reference` it is RT (R325, R326). No operation of the core
reads it: the core sees only the answers of the Platform (R310, 00_scope R5).
-/

namespace Sys2Proof.Machine

/-! ## Free values and the lost mark -/

/-- Use up one free value. -/
def Target.advance (t : Target) : Target := { t with fresh := t.fresh + 1 }

/-- A free register byte. -/
def Target.freeByte (t : Target) : Byte := Config.freeByte t.fresh

/-- A memory of contents that no source gives. -/
def Target.freeMemory (t : Target) : Memory := ⟨.unknown t.fresh, []⟩

/-- The target met a case the spec leaves to a refusal: nothing more is known of it (93 U1, U2, U3, U9; entry 9). -/
def Target.lose (t : Target) : Target := { t with lost := true, pending := [] }

/-- A reply is read: the oldest one (entry 27). DESIGN CHOICE, entry 33: a `recv` after the last reply of a repeated LD,
one data byte more than count + 1, does nothing to the target. -/
def Target.readReply (t : Target) : Target := { t with replies := t.replies.tail, owed := t.owed - 1 }

/-- A receive fails, or the caller sends on. Where that cuts the replies of a repeated LD short of count + 1, what the
target then does is not in source, a model refuses it, and every later reply is any value (45 R312, 70 R405, R406, 93
U3; entries 33 and 50). -/
def Target.cutOff (t : Target) : Target := if t.owed = 0 then t else { t.lose with replies := [], owed := 0 }

/-- Send one reply byte. -/
def Target.send (t : Target) (b : Byte) : Target := { t with replies := t.replies ++ [b] }

/-- A free byte, used up. -/
def Target.drawByte (t : Target) : Byte × Target := (t.freeByte, t.advance)

/-- Send `n` free reply bytes. -/
def Target.sendFree (t : Target) : Nat → Target
  | 0 => t
  | n + 1 => (t.send t.freeByte).advance.sendFree n

/-- An access or a command whose effect on the NVM no rule of section 1 states (45 R310): memory, page buffer and fuses
are free, and no page is known to be erased. What runs of loads crossed is still on record. Entry 23. -/
def Target.unstated (t : Target) : Target :=
  { t with
    mem := ⟨.unknown t.fresh, []⟩, buf := ⟨.unknown (t.fresh + 1), []⟩, fuse := ⟨.unknown (t.fresh + 2), []⟩
    bufPage := none, bufRun := none, erased := [], fresh := t.fresh + 3 }

/-- A plain `MemWrite(a, 1, d)` (00_scope R14). -/
def Target.memWrite (t : Target) (a : Word) (d : Byte) : Target :=
  { t with mem := t.mem.write a.toNat d, erased := cutRange a.toNat 1 t.erased }

/-- The target is held in reset. -/
def Target.inReset (t : Target) : Bool := decide (t.resetLine = .held)

/-- Whether the source says anything of what the target replies: of RT it says all; otherwise replies are free while the
target is not held in reset, where `beginSession` has not woken it or its clock has stopped (70 R404, 93 U22), where it
has been released since, and once a direct call has released it in a session: then every later reply is (93 U7). Entry
24. -/
def Target.replyStated (t : Target) : Bool :=
  match t.kind with
  | .reference => true
  | .contract => t.inReset && t.linked && !t.adrift

/-! ## Pointer -/

/-- `T.ptr <- T.ptr + 1` (45 R314). Past 0xFFFFFFFF the pointer is a free value (93 U11). -/
def Target.incPtr (t : Target) : Target :=
  if t.ptr = 0xFFFFFFFF then { t with ptr := Config.freeWord t.fresh, fresh := t.fresh + 1 }
  else { t with ptr := t.ptr + 1 }

/-- The pointer after an access in a mode (45 R314). -/
def Target.afterAccess (t : Target) : PtrMode → Target
  | .autoInc => t.incPtr
  | _ => t

/-! ## Pages and sections (45 R321 to R323, R326) -/

/-- The first address of the page that holds `a`. DESIGN CHOICE in the kind `contract`: pages begin at the multiples of
PAGE_SIZE, as RT's do (R326), whatever the section's base (entry 44). -/
def pageStart (c : Config) (a : Nat) : Nat := a - a % c.pageSize

/-- The page from `a` on was erased beforehand (20_memory R85). -/
def Target.pageErased (t : Target) (c : Config) (a : Nat) : Bool :=
  decide (a + c.pageSize ≤ 2 ^ 32) && coversRange a c.pageSize t.erased

/-- The pages a page command triggered at `a` involves: its page, and the next one when `a` does not begin it (93 U6). -/
def pagesAt (c : Config) (a : Nat) : List Nat :=
  if a = pageStart c a then [a] else [pageStart c a, pageStart c a + c.pageSize]

/-- What the pages from each of `ps` on hold is free, and none of them is known to be erased. A page that runs past
0xFFFFFFFF goes on at 0 (20_memory R88), and nothing at all is then known to be erased (DESIGN CHOICE, entry 21). -/
def Target.freePages (t : Target) (c : Config) (ps : List Nat) : Target :=
  { t with
    mem := ps.foldl (fun m p => m.fill p (Config.freeMemory t.fresh) c.pageSize) t.mem
    erased := ps.foldl (fun rs p => if p + c.pageSize ≤ 2 ^ 32 then cutRange p c.pageSize rs else []) t.erased
    fresh := t.fresh + 1 }

/-- The page buffer holds nothing known. What runs of loads crossed may still be in it (93 U6). -/
def Target.freeBuffer (t : Target) : Target :=
  { t with buf := t.freeMemory, bufPage := none, bufRun := none, fresh := t.fresh + 1 }

/-- EraseFlashPageBuffer (45 R322): RT's cells read 0xFF; otherwise no source gives what a cleared cell reads as. -/
def Target.eraseBuffer (t : Target) : Target :=
  match t.kind with
  | .reference => { t with buf := ⟨.erased, []⟩ }
  | .contract => { t.freeBuffer with bufCrossed := [] }

/-- A buffer cell of the page from `p` on takes a byte. Cells loaded for another page are no longer known (20_memory R85,
45 R322; entry 21). -/
def Target.loadCell (t : Target) (c : Config) (p a : Nat) (d : Byte) : Target :=
  let own : Memory := if t.bufPage = some p then t.buf else t.freeMemory
  { t with buf := own.write (a % c.pageSize) d, bufPage := some p, bufRun := some (p, false), fresh := t.fresh + 1 }

/-- ST through the pointer under LoadFlashPageBuffer (45 R322, R326): the cell of `a` in its page takes the byte. Where
one run of loads goes from one page into another, what is then in the buffer is open, outside RT (93 U6). -/
def Target.loadBuffer (t : Target) (c : Config) (a : Nat) (d : Byte) : Target :=
  match t.kind with
  | .reference => { t with buf := t.buf.write (a % c.pageSize) d }
  | .contract =>
    match t.bufRun with
    | none => t.loadCell c (pageStart c a) a d
    | some (q, crossed) =>
      if q = pageStart c a ∧ crossed = false then t.loadCell c q a d
      else
        { t.freeBuffer with
          bufRun := some (pageStart c a, true)
          bufCrossed := [q, pageStart c a].foldl (fun ps p => if p ∈ ps then ps else p :: ps) t.bufCrossed }

/-- ChipErase (45 R323). RT sets all flash to 0xFF (R326). Otherwise the App flash is erased, so that it can be written
without a separate erase; which other memories it covers and what an erased cell reads as is open, so memory, fuses and
the page buffer become free (93 U19). DESIGN CHOICE, entry 21: the command does to memory what it does at its start,
whatever comes while it runs. -/
def Target.chipErase (t : Target) (c : Config) : Target :=
  match t.kind with
  | .reference => { t with mem := ⟨.erased, []⟩ }
  | .contract =>
    { t.freeBuffer with
      mem := ⟨.unknown (t.fresh + 1), []⟩, fuse := ⟨.unknown (t.fresh + 2), []⟩
      erased := (c.appBase.toNat, c.appBase.toNat + c.appSize) :: t.erased, fresh := t.fresh + 3 }

/-- An erase of the section of `size` bytes from `base` on. RT sets it to 0xFF (45 R326). Otherwise what an erased cell
reads as is open, and memory and the page buffer become free (93 U19, entry 21). -/
def Target.eraseSection (t : Target) (base : Word) (size : Nat) : Target :=
  match t.kind with
  | .reference => { t with mem := t.mem.fill base.toNat (fun _ => 0xFF) size }
  | .contract =>
    { t.freeBuffer with
      mem := ⟨.unknown (t.fresh + 1), []⟩, erased := (base.toNat, base.toNat + size) :: t.erased
      fresh := t.fresh + 2 }

/-- An STS at `a` under a section-erase command (45 R321). Which addresses trigger the erase is up to the target
(44_flash_fuse R274, 93 U19): on RT every NVM address does (DESIGN CHOICE, entry 43), otherwise it is a free value. -/
def Target.triggerSection (t : Target) (a base : Word) (size : Nat) : Target :=
  match t.kind with
  | .reference => t.eraseSection base size
  | .contract => if Config.sectionTrigger t.cmd a then t.eraseSection base size else t.unstated

/-- A page erase triggered at `a` (45 R321). RT sets the page of `a` to 0xFF (R326). Otherwise what an erased cell
reads as is open, and from an address that does not begin a page so is what the two pages hold (93 U6). The page buffer
stands, and so do the fuses where the page lies in their region (DESIGN CHOICE, entry 21). -/
def Target.erasePage (t : Target) (c : Config) (a : Nat) : Target :=
  match t.kind with
  | .reference => { t with mem := t.mem.fill (pageStart c a) (fun _ => 0xFF) c.pageSize }
  | .contract =>
    let freed := t.freePages c (pagesAt c a)
    if a = pageStart c a then { freed with erased := (a, a + c.pageSize) :: freed.erased } else freed

/-- The byte RT programs at `x` (45 R326): the page is 0xFF first in an erase-write, and programming clears bits. -/
def Target.programmed (t : Target) (c : Config) (preErase : Bool) (x : Nat) : Byte :=
  (if preErase then 0xFF else t.mem.read x) &&& t.buf.read (x % c.pageSize)

/-- The pages a commit triggered at `a` involves: those of the trigger, and those a run of loads crossed into from one of
them or through one (93 U6). -/
def Target.pagesCommitted (t : Target) (c : Config) (a : Nat) : List Nat :=
  pagesAt c a ++ (if (pagesAt c a).any (fun p => t.bufCrossed.contains p) then t.bufCrossed else [])

/-- A page write or erase-write triggered at `a` (45 R322). RT programs the page of `a` (R326). Otherwise, triggered at
the beginning of the page whose loaded bytes the buffer holds, erased by the erase-write or beforehand, it leaves
those bytes there (20_memory R85, 45 R324), each address the cell of its remainder by PAGE_SIZE, past 0xFFFFFFFF too; what
else the pages involved then hold is free (93 U4 to U6), and so is what the buffer holds. The fuses stand. DESIGN
CHOICE, entry 21; so is that a page of `bufCrossed`, loaded again since the crossing without an erase of the buffer, is
committed like any other page: the bytes loaded again stand there, and only its other bytes and the other crossed pages
are free. -/
def Target.writePage (t : Target) (c : Config) (preErase : Bool) (a : Nat) : Target :=
  match t.kind with
  | .reference => { t with mem := t.mem.fill (pageStart c a) (t.programmed c preErase) c.pageSize }
  | .contract =>
    let freed := (t.freePages c (t.pagesCommitted c a)).freeBuffer
    if a = pageStart c a ∧ t.bufPage = some a ∧ (preErase ∨ t.pageErased c a) then
      { freed with mem := freed.mem.fill a (fun x => t.buf.read (x % c.pageSize)) c.pageSize }
    else freed

/-- WriteFuse with the STS value `d` at `a` (45 R321, R326). DESIGN CHOICE, entry 21: outside RT, whose fuses are a map of
their own, the byte also stands in memory at that address, and the page buffer stands. -/
def Target.writeFuse (t : Target) (a : Word) (d : Byte) : Target :=
  match t.kind with
  | .reference => { t with fuse := t.fuse.write a.toNat d }
  | .contract => { t.memWrite a d with fuse := t.fuse.write a.toNat d }

/-! ## NVM controller (45 R319 to R323) -/

/-- Whether the NVM controller may be used: RT does not check (R326); otherwise the target is in reset and its replies are
stated, the key has been accepted (45 R318, 20_memory R87), the Status CSR has last reported NVMEN (45 R317, 93 U10) and no command runs (70
R403). DESIGN CHOICE: NVMEN stands as it was last read until Status is read again, target reset or a wrong KEY. Entry
22. -/
def Target.nvmReady (t : Target) : Bool :=
  match t.kind with
  | .reference => true
  | .contract => t.replyStated && t.keyed && t.awake && !t.busy

/-- Whether a command may be written or triggered: the controller may be used, and no load of the page buffer and no read
under ReadNvm may still be running (43_nvm R245, 70 R403). Entries 22 and 51. -/
def Target.nvmIdle (t : Target) : Bool :=
  match t.kind with
  | .reference => true
  | .contract => t.nvmReady && !t.working

/-- A command has begun (45 R319): RT's commands complete at once (R326). -/
def Target.started (t : Target) : Target :=
  match t.kind with
  | .reference => t
  | .contract => { t with busy := true, underway := true }

/-- A load of the page buffer has started its command, which may run on (43_nvm R245; entry 51). RT's completes at once
(R326). -/
def Target.loadStarted (t : Target) : Target :=
  match t.kind with
  | .reference => t
  | .contract => { t with working := true }

/-- Whether a read at `a` starts a command that may run on: outside RT, under ReadNvm at an NVM address (43_nvm R245; entry
51). -/
def Target.startsRead (t : Target) (c : Config) (a : Word) : Bool :=
  decide (t.kind = .contract) && isNvm c a && decide (t.cmd = c.nvmCodes.readNvm)

/-- Whether a store of `d` to CTRLA executes: on RT bit 0 alone decides (R325). Otherwise nothing is known of bits 7:1, nor
that a 0 there is harmless but in the core's own 0x01 (10_state R54, 91 N14; entry 48). -/
def Target.executes (t : Target) (d : Byte) : Bool :=
  match t.kind with
  | .reference => executeBit d
  | .contract => decide (d = 0x01)

/-- Whether the source says what a page command, or WriteFuse (`fuse`), does at the NVM address `a`: RT's do it at every
address (R326); otherwise WriteFuse writes a fuse and page commands a page of flash (45 R321, 44_flash_fuse R282; entry
21). -/
def Target.inScope (t : Target) (c : Config) (fuse : Bool) (a : Word) : Bool :=
  match t.kind with
  | .reference => true
  | .contract => isFuse c a == fuse
/-- Bit 0 of CTRLA is set: the target latches the command in CMD and begins executing it (45 R319). ChipErase, the erase
of the buffer and the section erases need no address; ReadNvm and LoadFlashPageBuffer have their effect at the loads
and stores that follow (43_nvm R245). What any other code does without an address is not stated (43_nvm R243, R247;
entry 23). -/
def Target.runCommand (t : Target) (c : Config) : Target :=
  let k := c.nvmCodes
  let done : Target :=
    if t.cmd = k.chipErase then t.chipErase c
    else if t.cmd = k.eraseFlashPageBuffer then t.eraseBuffer
    else if t.cmd = k.eraseAppSection then t.eraseSection c.appBase c.appSize
    else if t.cmd = k.eraseBootSection then t.eraseSection c.bootBase c.bootSize
    else if t.cmd = k.readNvm ∨ t.cmd = k.loadFlashPageBuffer then t
    else t.unstated
  done.started

/-- An STS of `d` at the NVM address `a`, under the command in CMD (45 R313, R321): the write-triggered commands. Under
any other code its effect is not stated, nor is it for a page command at a fuse address or WriteFuse elsewhere (45 R310;
entries 21 and 23). -/
def Target.trigger (t : Target) (c : Config) (a : Word) (d : Byte) : Target :=
  let k := c.nvmCodes
  let done : Target :=
    if t.cmd = k.eraseFlashPage ∨ t.cmd = k.eraseAppPage ∨ t.cmd = k.eraseBootPage then
      (if t.inScope c false a then t.erasePage c a.toNat else t.unstated)
    else if t.cmd = k.writeFlashPage ∨ t.cmd = k.writeAppPage ∨ t.cmd = k.writeBootPage then
      (if t.inScope c false a then t.writePage c false a.toNat else t.unstated)
    else if t.cmd = k.eraseWriteFlashPage ∨ t.cmd = k.eraseWriteAppPage ∨ t.cmd = k.eraseWriteBootPage then
      (if t.inScope c false a then t.writePage c true a.toNat else t.unstated)
    else if t.cmd = k.eraseAppSection then t.triggerSection a c.appBase c.appSize
    else if t.cmd = k.eraseBootSection then t.triggerSection a c.bootBase c.bootSize
    else if t.cmd = k.writeFuse then (if t.inScope c true a then t.writeFuse a d else t.unstated)
    else t.unstated
  done.started

/-- A store to CMD selects a command, a store of 0x01 to CTRLA executes it, on RT any with bit 0 set, where any other does
nothing (45 R325). Otherwise any other store to CTRLA, one to STATUS, and any while a command may not be written, have no
effect the source gives (20_memory R78, 70 R403, 91 N14; entries 22 and 48). None when `a` is no NVM register. Where two register offsets coincide the first test wins, here
and in `Target.load` (DESIGN CHOICE, entry 34). -/
def Target.storeRegister (t : Target) (c : Config) (a : Word) (d : Byte) : Option Target :=
  if a = nvmAddress c .cmd then some (if t.nvmIdle then { t with cmd := d } else t.lose)
  else if a = nvmAddress c .ctrlA then
    some (if !t.nvmIdle then t.lose
      else if t.executes d then { t with ctrlA := d }.runCommand c
      else
        match t.kind with
        | .reference => t
        | .contract => t.lose)
  else if a = nvmAddress c .status then some t.lose
  else none

/-- STS (45 R313, R319, R321): to a register of the NVM controller, to an NVM address while a command may be triggered
(else the target is lost, entry 22), or, at any other address, a plain store. -/
def Target.storeDirect (t : Target) (c : Config) (a : Word) (d : Byte) : Target :=
  match t.storeRegister c a d with
  | some t' => t'
  | none =>
    if isNvm c a then (if t.nvmIdle then t.trigger c a d else t.lose)
    else t.memWrite a d

/-- One execution of ST through the pointer (45 R314, R322): under LoadFlashPageBuffer it loads the buffer, also where the
pointer is at an NVM register (R326; DESIGN CHOICE in the kind `contract`, entry 49). Else it writes the register
there; at an NVM address its effect is not stated, since write-triggering is of STS (45 R321; entry 31). -/
def Target.storePointer (t : Target) (c : Config) (m : PtrMode) (d : Byte) : Target :=
  if t.cmd = c.nvmCodes.loadFlashPageBuffer then
    if t.nvmReady then (t.loadBuffer c t.ptr.toNat d).loadStarted.afterAccess m else t.lose
  else
    match t.storeRegister c t.ptr d with
    | some t' => t'.afterAccess m
    | none =>
      if isNvm c t.ptr then (if t.nvmIdle then t.unstated.started.afterAccess m else t.lose)
      else (t.memWrite t.ptr d).afterAccess m

/-- A read of NVM STATUS (45 R319, R320). RT reads 0x00 (R326). Otherwise bits 6:0 are free (93 U9), and bit 7 is 0
unless a command runs; one that runs, or a load or read that may still run, may have ended at any read. Before the key, and unless Status has last reported
NVMEN, the whole byte is free (43_nvm R249, 20_memory R87, 93 U10; entries 22 and 24). -/
def Target.readStatus (t : Target) : Byte × Target :=
  match t.kind with
  | .reference => (0x00, t)
  | .contract =>
    if t.keyed && t.awake then
      let still := (t.busy || t.working) && busyBit t.freeByte
      (withBusyBit t.freeByte still,
        { t with busy := still, working := false, underway := t.underway && still, fresh := t.fresh + 1 })
    else t.drawByte

/-- A read of one byte at an address, by LDS (`direct`) or by LD through the pointer (45 R313, R314, R320). RT returns
CMD and STATUS (R326); so does any target in reset and keyed that has last reported NVMEN (10_state R54: they are
ordinary memory). On RT every other load reads flash, an LDS at a fuse address too, so that what WriteFuse writes does not
read back (DESIGN CHOICE, entry 24: R326 states LD under ReadNvm alone). At an NVM address a read returns memory while the controller may be used: LDS without more (R313), LD under ReadNvm (R320); at
any other address always, also while a command runs (entry 21). That ReadNvm covers all four NVM regions is a DESIGN
CHOICE (91 N35; entry 24). Every other read is free (20_memory R80, R87; 93 U7, U8, U9; entry 24). -/
def Target.load (t : Target) (c : Config) (direct : Bool) (a : Word) : Byte × Target :=
  if !t.replyStated then t.drawByte
  else if a = nvmAddress c .status then t.readStatus
  else if a = nvmAddress c .ctrlA then t.drawByte
  else if a = nvmAddress c .cmd then
    match t.kind with
    | .reference => (t.cmd, t)
    | .contract => if t.keyed && t.awake then (t.cmd, t) else t.drawByte
  else if isNvm c a && !(t.nvmReady && (direct || decide (t.cmd = c.nvmCodes.readNvm))) then t.drawByte
  else (t.mem.read a.toNat, { t with working := t.working || t.startsRead c a })

/-- LDS: one reply (45 R311, R313). -/
def Target.loadDirect (t : Target) (c : Config) (a : Word) : Target := (t.load c true a).2.send (t.load c true a).1

/-- One execution of LD through the pointer: one reply (45 R311, R314). -/
def Target.loadPointer (t : Target) (c : Config) (m : PtrMode) : Target :=
  ((t.load c false t.ptr).2.send (t.load c false t.ptr).1).afterAccess m

/-- `n` executions of LD (45 R312), all of them once the opcode has come (DESIGN CHOICE, entry 50). -/
def Target.loadPointerTimes (t : Target) (c : Config) (m : PtrMode) : Nat → Target
  | 0 => t
  | n + 1 => (t.loadPointer c m).loadPointerTimes c m n

/-! ## Control/status registers (45 R315 to R317) -/

/-- The value of a CSR (10_state R51 to R53). RT: R326. Otherwise, where replies are stated (`Target.replyStated`), NVMEN is
0 without the key (41_encoder R181, 93 U10) and with it free, and what the NVM controller is then taken to be (45 R317, 91
N13; entry 22); Reset bit 0 is 1, and bits 2:0 of Control are the guard-time code. Everything else is free (93 U7, U9, U22;
entry 24); after the release the first 0 in Reset bit 0 is taken to show that the target has left reset (45 R315). Where two CSR numbers coincide the first test wins, here
and in `Target.writeCsr` (DESIGN CHOICE, entry 34). -/
def Target.readCsr (t : Target) (c : Config) (r : BitVec 4) : Byte × Target :=
  if r = c.csrStatus then
    match t.kind with
    | .reference => (statusByte (t.inReset && t.keyed), t)
    | .contract =>
      if !t.replyStated then t.drawByte
      else if t.keyed then (t.freeByte, { t with awake := nvmEnabled t.freeByte, fresh := t.fresh + 1 })
      else (withoutNvmen t.freeByte, t.advance)
  else if r = c.csrReset then
    match t.kind with
    | .reference => (resetByte t.inReset, t)
    | .contract =>
      match t.resetLine with
      | .held => if t.replyStated then (withResetBit t.freeByte true, t.advance) else t.drawByte
      | .released | .unknown => t.drawByte
      | .leaving =>
        (t.freeByte,
          { t with resetLine := if resetBit t.freeByte then .leaving else .released, fresh := t.fresh + 1 })
  else if r = c.csrControl then
    match t.kind with
    | .reference => (t.control, t)
    | .contract => if t.replyStated then (withGuardTime t.freeByte t.control, t.advance) else t.drawByte
  else t.drawByte

/-- What target reset leaves, asserted or released. The values it gives to target state are not in source (70 R394), and
a released target runs its own program (20_memory R84): pointer, Control, the NVM registers, the page buffer and memory
outside the NVM regions are free, and whether a key stands, also one sent out of reset (45 R318 says nothing of it).
DEDUCED: flash and fuses keep what they hold (47 R346), where no command is cut short. Entry 37. -/
def Target.resetState (t : Target) (c : Config) : Target :=
  { t.freeBuffer with
    ptr := Config.freeWord t.fresh
    control := Config.freeByte (t.fresh + 1)
    cmd := Config.freeByte (t.fresh + 2)
    ctrlA := Config.freeByte (t.fresh + 3)
    keyed := t.keyed && (Config.freeByte (t.fresh + 4)).getLsbD 0
    awake := false
    working := false
    busy := (Config.freeByte (t.fresh + 5)).getLsbD 0
    underway := false
    mem := t.mem.keepOnly (nvmRegions c) (t.fresh + 6)
    fresh := t.fresh + 7 }

/-- Target reset, asserted or released. What a command leaves that has not been seen to end is not in source (45 R310,
70 R394): memory, page buffer and fuses are then free. Entry 37. -/
def Target.afterReset (t : Target) (c : Config) : Target := (if t.underway then t.unstated else t).resetState c

/-- STCS (45 R315, R316). RT keeps everything over reset but the key over a release (R326). DEDUCED: otherwise too a key
does not outlast the release, or a wrong one in the next session could show NVMEN set (41_encoder R181; entry 37). Writes
of Reset other than the two values of 10_state R52, and of any CSR but Reset and Control, have no effect the source gives
(93 U9), nor, outside RT, do those of Control whose bits 7:3 are not 0 (10_state R53, 91 N14; entry 48). -/
def Target.writeCsr (t : Target) (c : Config) (r : BitVec 4) (d : Byte) : Target :=
  if r = c.csrReset then
    if d = c.resetSignature then
      match t.kind with
      | .reference => { t with resetLine := .held }
      | .contract => { t.afterReset c with resetLine := .held }
    else if d = 0x00 then
      match t.kind with
      | .reference => { t with resetLine := .released, keyed := false }
      | .contract =>
        if t.resetLine = .leaving ∨ t.resetLine = .released then t
        else { t.afterReset c with resetLine := .leaving, keyed := false, linked := false }
    else t.lose
  else if r = c.csrControl then
    if t.kind = .reference ∨ d &&& 0xF8 = 0 then { t with control := d } else t.lose
  else t.lose

/-- KEY (45 R318, R326): the right eight bytes are accepted while the target is in reset. A key that comes otherwise does
nothing on RT (R326). Else wrong bytes key no target (41_encoder R181), and whether they take an accepted key away, or
the right ones key a target that is not in reset, is free (entry 45); NVMEN must then be read anew. -/
def Target.acceptKey (t : Target) (c : Config) (k : List Byte) : Target :=
  if k = c.pdiKey ∧ t.inReset then { t with keyed := true }
  else
    match t.kind with
    | .reference => t
    | .contract =>
      { t with
        keyed := (t.keyed || decide (k = c.pdiKey)) && t.freeByte.getLsbD 0, awake := false, fresh := t.fresh + 1 }

/-! ## Execution of the wire bytes (45 R311, R312) -/

/-- One data byte of a possibly repeated ST: the store, then either the next data byte of the same opcode or the end of
the repeat (45 R312, 30_encoding R109). -/
def Target.repeatedStore (t : Target) (c : Config) (m : PtrMode) (opcode d : Byte) : Target :=
  let t' := t.storePointer c m d
  if t.rep = 0 then { t' with repeated := false }
  else { t' with rep := t.rep - 1, pending := if t'.lost then [] else [opcode] }

/-- An LD with the repeat that precedes it, of whatever count (45 R312): its replies are owed until the last of them has
been read (70 R406). -/
def Target.repeatedLoad (t : Target) (c : Config) (m : PtrMode) : Target :=
  let t' := t.loadPointerTimes c m (t.rep.toNat + 1)
  { t' with rep := 0, repeated := false, owed := if t.repeated ∨ t.rep ≠ 0 then t'.replies.length else t.owed }

/-- An instruction that no REPEAT may precede: after one, the source does not say what happens (93 U3). -/
def Target.unrepeated (t : Target) (run : Target → Target) : Target :=
  if t.rep = 0 ∧ t.repeated = false then run t else t.lose

/-- REPEAT (45 R312): a count for the next instruction. On RT a count of 0 is no repeat (R325). -/
def Target.repeatNext (t : Target) (n : Word16) : Target :=
  { t with rep := n, repeated := decide (t.kind = .contract ∨ n ≠ 0) }

/-- Execute one complete PDI instruction (45 R311 to R318). Instructions of the other channels do not come on the wire.
The Direct forms of LD and of the one-byte ST and the four-byte ST in the other modes have no effect the source gives
(93 U2); LD still replies once for each execution, with free bytes. -/
def Target.execute (t : Target) (c : Config) : Instr → Target
  | .lds a => t.unrepeated fun t => t.loadDirect c a
  | .sts a d => t.unrepeated fun t => t.storeDirect c a d
  | .ldInd => t.repeatedLoad c .indirect
  | .ldInc => t.repeatedLoad c .autoInc
  | .ldPtr => { t.sendFree (t.rep.toNat + 1) with rep := 0, repeated := false }.lose
  | .stInd d => t.repeatedStore c .indirect (stOpcode c .indirect) d
  | .stInc d => t.repeatedStore c .autoInc (stOpcode c .autoInc) d
  | .stPtrB _ => t.lose
  | .stIndL _ => t.lose
  | .stIncL _ => t.lose
  | .stPtr a => t.unrepeated fun t => { t with ptr := a, bufRun := none }
  | .repeatB n => t.unrepeated fun t => t.repeatNext (n.setWidth 16)
  | .repeatW n => t.unrepeated fun t => t.repeatNext n
  | .ldcs r => t.unrepeated fun t => (t.readCsr c (r.setWidth 4)).2.send (t.readCsr c (r.setWidth 4)).1
  | .stcs r d => t.unrepeated fun t => t.writeCsr c (r.setWidth 4) d
  | .key k => t.unrepeated fun t => t.acceptKey c k
  | _ => t.lose

/-- One byte arrives on the wire (45 R310, R311): it ends an instruction, which is executed, or it does not. Bytes that
begin no instruction are refused (30_encoding R118, 93 U1). -/
def Target.receive (t : Target) (c : Config) (b : Byte) : Target :=
  if t.lost then t
  else
    match decodePdi c (t.pending ++ [b]) with
    | .ok i _ => { t with pending := [] }.execute c i
    | .reject .needMore => { t with pending := t.pending ++ [b] }
    | .reject (.unknownOpcode _) => t.lose

/-! ## Streams a caller puts together (70 R406) -/

/-- The caller begins another instruction. Where one that follows a REPEAT still lacks data bytes, or owes replies that
have not been received, their count is not count + 1, and the spec has a target model refuse (70 R406, 93 U3). `byHand`:
the instruction is a one-byte ST, whose further data bytes after a REPEAT the caller must send itself. Entry 33. -/
def Target.beginInstruction (t : Target) (byHand : Bool) : Target :=
  if t.repeated ∧ t.pending ≠ [] then t.lose else { t.cutOff with handFed := t.repeated && byHand }

/-- How many data bytes a repeated ST still lacks (45 R312). -/
def Target.dataLeft (t : Target) : Nat := if t.pending = [] then 0 else t.rep.toNat + 1

/-- The caller sends `n` bytes itself. Where an ST it feeds by hand lacks fewer, or a repeated LD owes replies, the data
count is not count + 1 (70 R406, 93 U3; entry 33). -/
def Target.beginBytes (t : Target) (n : Nat) : Target := if t.handFed ∧ t.dataLeft < n then t.lose else t.cutOff

/-- What the target makes of a caller's call, before any byte of it. A `recv` is nothing to it, one too many after a
repeated LD neither (DESIGN CHOICE, entry 33: the wire does not show it). -/
def Target.atCall (t : Target) (c : Config) (o : Op) : Target :=
  match o with
  | .send _ => t.beginBytes 1
  | .send2 _ => t.beginBytes 2
  | .send4 _ => t.beginBytes 4
  | .storePointer _ _ | .bulkStore _ 1 => t.beginInstruction true
  | _ => if sendsInstruction c o then t.beginInstruction false else t

/-- `exits`: the call releases the target from reset in a session, after which every later reply is any value (42_session
R218, 93 U7; entry 24). -/
def Target.noteExit (t : Target) (exits : Bool) : Target := { t with adrift := t.adrift || exits }

end Sys2Proof.Machine
end

