-- ==== Sys2Proof/Machine/Operations.lean ====
section
/-!
DEFINITION. The operations of the call port (10_state R46): for each its pseudocode as a list of tasks, and which calls
a model refuses. A body is put before what is left of the calling operation, so that a call returns by running
out of tasks.
-/

namespace Sys2Proof.Machine

/-- The beginning of an operation: its pseudocode, or the error an argument check finds before any traffic
(60_exceptions R366). -/
inductive Body where
  | tasks (ts : List Task)
  | fails (e : ErrorCode)
  deriving DecidableEq, Repr

/-! ## Link (40_link) -/

/-- `toTransmitting()` (40_link R142): nothing when the direction is already Transmitting (R144). -/
def toTransmitting (dir : Option Direction) : List Task :=
  if dir = some .transmitting then []
  else waitClockCycle ++
    [.command (.configurePinOutput .dataOut .high), .command .enableTx, .command .disableRx, .setDir .transmitting]

/-- `toReceiving()` (40_link R143): the drain only from Transmitting (D13); nothing when already Receiving (R144). -/
def toReceiving (dir : Option Direction) : List Task :=
  if dir = some .receiving then []
  else (if dir = some .transmitting then [.await .txComplete, .command .resetTxComplete] else []) ++
    [.command .enableRx, .command .disableTx, .command (.configurePinInput .dataOut), .setDir .receiving]

/-- `send` of each byte in turn. -/
def sends (bs : List Byte) : List Task := bs.map fun b => .run (.send b)

/-- `initialize()` (40_link R140, D25). -/
def linkInitBody : List Task :=
  [.command (.configurePinInput .clock), .command (.configurePinInput .dataOut), .command (.configurePinInput .dataIn),
    .command .disableTx, .command .disableRx, .command .disableClock, .setDir .idle]

/-- `beginSession()` (40_link R145). -/
def linkBeginBody (c : Config) : List Task :=
  [.command (.configurePinOutput .clock .high), .command (.configurePinOutput .dataOut .low),
    .command (.delay c.settleDelayLowUs), .command (.writePin .dataOut .high), .command (.delay c.settleDelayHighUs),
    .command .enableClock, .command .enableTx, .setDir .transmitting, .wake c.beginClockCycles]

/-- `endSession()` (40_link R149, D14). -/
def linkEndBody (dir : Option Direction) : List Task :=
  toReceiving dir ++
    [.command .disableRx, .command .disableTx, .command .disableClock, .command (.configurePinInput .clock),
      .command (.configurePinInput .dataOut), .command (.configurePinInput .dataIn), .setDir .idle]

/-- `send(b)` (40_link R146). -/
def sendBody (dir : Option Direction) (b : Byte) : List Task :=
  toTransmitting dir ++ [.await .txBufferEmpty, .command .resetTxComplete, .command (.writeByte b)]

/-- `recv()` (40_link R148). -/
def recvBody (c : Config) (dir : Option Direction) : List Task := toReceiving dir ++ [.rxCheck c.recvPollCycles]

/-! ## Shared shapes -/

/-- `storeDirect(NVM_BASE + NVM_OFF_r, v)` (43_nvm R240). -/
def storeNvm (c : Config) (r : NvmRegister) (v : Byte) : Task := .run (.storeDirect (nvmAddress c r) v)

/-- Wait, write a command, trigger it by a store (44_flash_fuse R273, R274, R277, R278, R282). -/
def triggeredBody (cmd : NvmCommand) (a : Word) (d : Byte) : List Task :=
  [.run .waitWhileBusy, .run (.writeCommand cmd), .run (.storeDirect a d), .finish (.ok .unit)]

/-- `bulkLoad(mode, len)` (41_encoder R177). -/
def bulkLoadBody (c : Config) (m : PtrMode) (len : Word16) : List Task :=
  if len = 0 then [.finish (.ok (.bytes []))]
  else if len = 1 then [.run (.loadPointer m), .wrapReply]
  else [.run (.repeat2 (len - 1)), .run (.send (ldOpcode c m)), .collect len.toNat []]

/-- `bulkStore(mode, len, src)` (41_encoder R178). -/
def bulkStoreBody (c : Config) (m : PtrMode) (len : Nat) : List Task :=
  if len = 0 then [.finish (.ok .unit)]
  else (if 2 ≤ len then [.run (.repeat2 (BitVec.ofNat 16 (len - 1)))] else []) ++
    [.run (.send (stOpcode c m)), .store len, .finish (.ok .unit)]

/-! ## The bodies (41_encoder to 44_flash_fuse) -/

/-- The pseudocode of an operation called in state `s`. -/
def opBody (s : State) : Op → Body
  | .linkInit => .tasks linkInitBody
  | .linkBegin => .tasks (linkBeginBody s.cfg)
  | .linkEnd => .tasks (linkEndBody s.dir)
  | .send b => .tasks (sendBody s.dir b)
  | .send2 v => .tasks (sends (le2 v))
  | .send4 v => .tasks (sends (le4 v))
  | .recv => .tasks (recvBody s.cfg s.dir)
  | .loadDirect a => .tasks [.run (.send s.cfg.opLds), .run (.send4 a), .run .recv]
  | .storeDirect a d => .tasks [.run (.send s.cfg.opSts), .run (.send4 a), .run (.send d)]
  | .loadPointer m => .tasks [.run (.send (ldOpcode s.cfg m)), .run .recv]
  | .storePointer m d => .tasks [.run (.send (stOpcode s.cfg m)), .run (.send d)]
  | .storePointerAutoAddr m a => .tasks [.run (.send (stPtr4Opcode s.cfg m)), .run (.send4 a)]
  | .repeat1 n => .tasks [.run (.send s.cfg.opRepeat1), .run (.send n)]
  | .repeat2 n => .tasks [.run (.send s.cfg.opRepeat2), .run (.send2 n)]
  | .bulkLoad m len => .tasks (bulkLoadBody s.cfg m len)
  | .bulkStore m len => .tasks (bulkStoreBody s.cfg m len)
  | .loadControlStatus r => .tasks [.run (.send (ldcsOpcode s.cfg r)), .run .recv]
  | .storeControlStatus r d => .tasks [.run (.send (stcsOpcode s.cfg r)), .run (.send d)]
  | .sendKey => .tasks (sends (s.cfg.opKey :: s.cfg.pdiKey))
  | .keyWith k => .tasks (sends (s.cfg.opKey :: k))
  | .enterResetState => .tasks [.run (.storeControlStatus (csrOperand s.cfg.csrReset) s.cfg.resetSignature)]
  | .exitResetState => .tasks [.run (.storeControlStatus (csrOperand s.cfg.csrReset) 0x00)]
  | .inResetState => .tasks [.run (.loadControlStatus (csrOperand s.cfg.csrReset)), .testReset]
  | .setGuardTime code => .tasks [.run (.storeControlStatus (csrOperand s.cfg.csrControl) (guardTimeByte code))]
  | .sessionBegin =>
    .tasks [.run .linkBegin, .enter .linkUp, .run .enterResetState, .enter .targetInReset,
      .run (.setGuardTime s.cfg.guardTimeCode), .run .sendKey, .enter .programming, .finish (.ok .unit)]
  | .sessionEnd =>
    .tasks [.run .waitWhileBusy, .ignoreErrors, .resetLoop s.cfg.pollLimit, .run .linkEnd, .enter .ended,
      .finish (.ok .unit)]
  | .sessionActive => .tasks [.finish (.value (.bool s.active))]
  | .writeCommand k => .tasks [storeNvm s.cfg .cmd (nvmCode s.cfg k)]
  | .execute => .tasks [storeNvm s.cfg .ctrlA 0x01]
  | .execCommand k => .tasks [.run (.writeCommand k), .run .execute]
  | .waitWhileBusy => .tasks [.pollNvmen s.cfg.pollLimit]
  | .readMemory a len =>
    .tasks (if len = 0 then [.finish (.ok (.bytes []))]
      else [.run .waitWhileBusy, .run (.writeCommand .readNvm), .run (.storePointerAutoAddr .direct a),
        .run (.bulkLoad .autoInc len)])
  | .eraseChip => .tasks [.run .waitWhileBusy, .run (.execCommand .chipErase), .finish (.ok .unit)]
  | .realAddress off sec => .tasks [.finish (.value (.word (realAddress s.cfg off sec)))]
  | .eraseSection off sec =>
    match eraseSectionCommand sec with
    | none => .fails .invalidSection
    | some k => .tasks (triggeredBody k (realAddress s.cfg off sec) s.cfg.dummyByte)
  | .eraseBuffer => .tasks [.run .waitWhileBusy, .run (.execCommand .eraseFlashPageBuffer), .finish (.ok .unit)]
  | .writeBuffer off len sec =>
    if s.cfg.pageSize < len then .fails .invalidLength
    else .tasks [.run .waitWhileBusy, .run (.writeCommand .loadFlashPageBuffer),
      .run (.storePointerAutoAddr .direct (realAddress s.cfg off sec)), .run (.bulkStore .autoInc len)]
  | .erasePage off sec => .tasks (triggeredBody (erasePageCommand sec) (realAddress s.cfg off sec) s.cfg.dummyByte)
  | .writePageFromBuffer off pre sec =>
    .tasks (triggeredBody (writePageCommand pre sec) (realAddress s.cfg off sec) s.cfg.dummyByte)
  | .writePage off len pre sec =>
    .tasks [.run .eraseBuffer, .run (.writeBuffer off len sec), .run (.writePageFromBuffer off pre sec)]
  | .write off len pre sec => .tasks [.chunks off len pre sec]
  | .fuseWrite a d => .tasks (triggeredBody .writeFuse (s.cfg.fuseBase + a) d)

/-! ## Refused calls -/

/-- Why a model refuses a call, if it does (40_link R150): any operation but `initialize` before it, a second
`initialize` (D27), `beginSession` not from Idle, alone or in `Session.begin` (D26), and `Session.begin` while a
session is active (42_session R215), also where a direct `Link.endSession` has left `dir` Idle (DEDUCED, entry 46).
DESIGN CHOICE, entry 52: whether the startup glue has called `initUart` makes no difference (70 R395). -/
def opRefusal (s : State) : Op → Option Refusal
  | .linkInit => if s.dir = none then none else some .alreadyInitialized
  | .linkBegin =>
    if s.dir = none then some .notInitialized
    else if s.dir = some .idle then none
    else some .beginNotIdle
  | .sessionBegin =>
    if s.dir = none then some .notInitialized
    else if s.dir ≠ some .idle then some .beginNotIdle
    else if s.active then some .sessionIsActive
    else none
  | _ => if s.dir = none then some .notInitialized else none

/-- Call an operation: its body goes before what is left to do, or its argument check ends it with an error. -/
def opStart (o : Op) (s : State) : Host.Outcome State Fault Refusal :=
  match opRefusal s o with
  | some r => .refused r
  | none =>
    match opBody s o with
    | .tasks ts => .next (s.push ts)
    | .fails e => .next (s.raise e)

/-- How many bytes the operation may pull from its source (00_scope R15, 70 R410). -/
def opPulls : Op → Nat
  | .bulkStore _ len => len
  | .writeBuffer _ len _ => len
  | .writePage _ len _ _ => len
  | .write _ len _ _ => len.toNat
  | _ => 0

/-- A direct call that releases the target from reset in a session (42_session R218). -/
def State.strays (s : State) (o : Op) : Bool := decide (s.sess = .programming) && exitsReset s.cfg o

/-- A caller's call of an operation of the call port. While another runs it waits, first in line (10_state R47). -/
def State.call (s : State) (o : Op) (src : List Byte) : Host.Outcome State Fault Refusal :=
  if s.control ≠ [] then .next { s with calls := .call o src :: s.calls }
  else
    match opRefusal s o with
    | some r => .refused r
    | none =>
      if !o.wellFormed then .refused .illTypedCall
      else if src.length < opPulls o then .refused .sourceExhausted
      else
        opStart o
          { s with
            ret := .nothing, source := .bytes src, target := (s.target.atCall s.cfg o).noteExit (s.strays o) }

/-! ## Performing a task -/

/-- One evaluation of a wait's condition; the wait stays if it does not hold (70 R400). -/
def performAwait (w : Wait) (s : State) : State :=
  let q := s.platform.query w.event w.wanted
  if q.1 = w.wanted then { s with platform := q.2.afterWait w }
  else { s with platform := q.2, control := .await w :: s.control }

/-- One Platform command. A byte written while transmit is enabled appears on the wire (10_state R42), where the target
receives it, woken and clocked or not. DESIGN CHOICE, entry 47: the target receives and executes it in this very step,
although the byte may then still wait or be shifting out (10_state R57, 70 R402) and `inFlight` stays true until a wait
sees txComplete; and of the other commands only those that start and stop the clock reach it, which `beginSession` and
`endSession` make: they change nothing but the record of them, `linked`. -/
def performCommand (k : Command) (s : State) : State :=
  { s with
    platform := (s.platform.apply k).record (.command k)
    target :=
      match k with
      | .writeByte b => if s.platform.txOn then s.target.receive s.cfg b else s.target
      | .enableClock => { s.target with linked := true }
      | .disableClock => { s.target with linked := false }
      | _ => s.target }

/-- `recv` ends in a link error (40_link R148), which may cut a repeated LD short. -/
def State.recvFails (s : State) (e : ErrorCode) : State := State.raise { s with target := s.target.cutOff } e

/-- The head of `recv`'s loop (40_link R148): SerialTimeout when no check is left; else check rxComplete, and wait one
clock cycle if it is false. -/
def performRxCheck (left : Nat) (s : State) : State :=
  match left with
  | 0 => s.recvFails .serialTimeout
  | n + 1 =>
    let q := s.platform.query .rxComplete true
    State.push { s with platform := q.2 } (if q.1 then [.rxErrorCheck] else waitClockCycle ++ [.rxCheck n])

/-- The error check of `recv`, made only once rxComplete is true (D12). Whether a frame with an error is consumed is open
(91 N19): here its reply stays the next to be read (DESIGN CHOICE, entry 42), but for those of a repeated LD. -/
def performRxErrorCheck (s : State) : State :=
  let q := s.platform.query .rxError false
  if q.1 then State.recvFails { s with platform := q.2 } .serialError
  else State.push { s with platform := q.2 } [.rxRead]

/-- `readByte`: the frame leaves the link (entry 27), and `recv` returns it. A reply that came while receive was
disabled, or that no `recv` read, is still there (DESIGN CHOICE, entry 50). -/
def performRxRead (s : State) : State :=
  let f := s.platform.takeFrame s.target.replies.head?
  { s with
    platform := f.2.record (.readByte f.1)
    target := s.target.readReply
    reply := f.1
    ret := .ok (.byte f.1) }

/-- One pull of `bulkStore` (41_encoder R178, D31), just before the byte is sent. From the host link the byte comes with
its handshake (47 R342). DESIGN CHOICE, entry 14: while the host has sent none, the dispatcher waits, without bound, and
the core with it. -/
def performStore (left : Nat) (s : State) : Host.Outcome State Fault Refusal :=
  match left with
  | 0 => .next s
  | n + 1 =>
    match s.source with
    | .bytes [] => .refused .sourceExhausted
    | .bytes (d :: ds) =>
      .next (State.push { s with source := .bytes ds, platform := s.platform.record (.pull d) }
        [.run (.send d), .store n])
    | .hostLink =>
      match s.hostTake with
      | none => .next (s.push [.store (n + 1)])
      | some (d, s') =>
        .next (State.push { s' with platform := s'.platform.record (.pull d) } [.run (.send d), .store n])

/-- Stage 1 of `waitWhileBusy` (43_nvm R248), or SerialTimeout when POLL_LIMIT is used up (70 R400). -/
def performPollNvmen (left : Option Nat) (s : State) : State :=
  if left = some 0 then s.raise .serialTimeout
  else s.push [.run (.loadControlStatus (csrOperand s.cfg.csrStatus)), .nvmenVerdict (left.map Nat.pred)]

/-- The test of a stage-1 reply: NVMEN set leads to the pointer store and stage 2. -/
def performNvmenVerdict (left : Option Nat) (s : State) : State :=
  if nvmEnabled s.reply then
    s.push [.run (.storePointerAutoAddr .direct (nvmAddress s.cfg .status)), .pollBusy s.cfg.pollLimit]
  else s.push [.pollNvmen left]

/-- Stage 2 of `waitWhileBusy`. -/
def performPollBusy (left : Option Nat) (s : State) : State :=
  if left = some 0 then s.raise .serialTimeout
  else s.push [.run (.loadPointer .indirect), .busyVerdict (left.map Nat.pred)]

/-- The test of a stage-2 reply: BUSY clear ends `waitWhileBusy` with Ok. -/
def performBusyVerdict (left : Option Nat) (s : State) : State :=
  if busyBit s.reply then s.push [.pollBusy left] else s.finish (.ok .unit)

/-- The reset-exit loop of `Session.end` (42_session R216): it ends when POLL_LIMIT is used up (70 R400). -/
def performResetLoop (left : Option Nat) (s : State) : State :=
  if left = some 0 then s
  else s.push [.run .exitResetState, .run .inResetState, .resetVerdict (left.map Nat.pred)]

/-- After `inResetState` in that loop: again while it reports true; an error or false ends the loop. -/
def performResetVerdict (left : Option Nat) (s : State) : State :=
  if s.ret = .ok (.bool true) then s.push [.resetLoop left] else s

/-- The head of the loop of `write` (44_flash_fuse R280): a chunk of at most PAGE_SIZE bytes, or Ok. -/
def performChunks (a remaining : Word) (pre : Bool) (sec : FlashSection) (s : State) : State :=
  if remaining = 0 then s.finish (.ok .unit)
  else
    let n := min remaining.toNat s.cfg.pageSize
    s.push [.run (.writePage a n pre sec),
      .chunks (a + BitVec.ofNat 32 n) (remaining - BitVec.ofNat 32 n) pre sec]

/-- `bulkLoad`'s loop (41_encoder R177): one more `recv`, or Ok with the replies in order. -/
def performCollect (left : Nat) (got : List Byte) (s : State) : State :=
  match left with
  | 0 => s.finish (.ok (.bytes got.reverse))
  | n + 1 => s.push [.run .recv, .collected n got]

/-- The dispatcher reading a WriteFuse payload, one acknowledged byte a step; then the session and `Fuse.write`, with the
address and data a layout that no source gives puts into those bytes (47 R343, 91 N16; entry 15). That the session comes
up after the payload (R344), and that the dispatcher waits without bound while the host has not sent the next byte, is
DESIGN CHOICE, entry 14. -/
def performHostPayload (left : Nat) (got : List Byte) (s : State) : State :=
  match left with
  | 0 =>
    s.push [.lazyBegin, .run (.fuseWrite (Config.hostFuseAddress got.reverse) (Config.hostFuseData got.reverse)),
      .respond]
  | n + 1 =>
    match s.hostTake with
    | none => s.push [.hostPayload (n + 1) got]
    | some (b, s') => s'.push [.hostPayload n (b :: got)]

/-- The response byte for the result of a core call (47 R340, R345). After an error the data bytes not yet pulled stay on
the host link and are read as the next request (DESIGN CHOICE, entry 14). -/
def responseByte : Return → Byte
  | .err _ => 0xFE
  | _ => 0x00

/-- Perform the next task; `s.control` is what comes after it. -/
def perform (t : Task) (s : State) : Host.Outcome State Fault Refusal :=
  match t with
  | .command k => .next (performCommand k s)
  | .await w => .next (performAwait w s)
  | .rxCheck n => .next (performRxCheck n s)
  | .rxErrorCheck => .next (performRxErrorCheck s)
  | .rxRead => .next (performRxRead s)
  | .setDir d => .next { s with dir := some d }
  | .enter x => .next (s.enter x)
  | .finish r => .next (s.finish r)
  | .run o => opStart o s
  | .wake n => .next (match n with | 0 => s | k + 1 => s.push (waitClockCycle ++ [.wake k]))
  | .wrapReply => .next (s.finish (.ok (.bytes [s.reply])))
  | .collect n got => .next (performCollect n got s)
  | .collected n got => .next (s.push [.collect n (s.reply :: got)])
  | .store n => performStore n s
  | .testReset => .next (s.finish (.ok (.bool (resetBit s.reply))))
  | .pollNvmen n => .next (performPollNvmen n s)
  | .nvmenVerdict n => .next (performNvmenVerdict n s)
  | .pollBusy n => .next (performPollBusy n s)
  | .busyVerdict n => .next (performBusyVerdict n s)
  | .resetLoop n => .next (performResetLoop n s)
  | .resetVerdict n => .next (performResetVerdict n s)
  | .ignoreErrors => .next s
  | .chunks a n pre sec => .next (performChunks a n pre sec s)
  | .hostPayload n got => .next (performHostPayload n got s)
  | .lazyBegin => .next (if s.active then s else s.push [.run .sessionBegin])
  | .respond => .next (s.hostSend (responseByte s.ret))

end Sys2Proof.Machine
end

