-- ==== Sys2Proof/Machine/ControlStatus.lean ====
section
/-!
DEFINITION. The meanings of LDCS, STCS and KEY (41_encoder sections 5 and 6).
-/

namespace Sys2Proof.Machine

/-- LDCS: `loadControlStatus(reg)`, the register number masked to four bits (41_encoder R179). -/
def execLdcs (reg : Byte) (s : State) : Host.Outcome State Fault Refusal := s.call (.loadControlStatus reg) []

/-- STCS: `storeControlStatus(reg, data)`, the register number masked to four bits (41_encoder R180). -/
def execStcs (reg data : Byte) (s : State) : Host.Outcome State Fault Refusal := s.call (.storeControlStatus reg data) []

/-- KEY: the opcode and eight key bytes; with the bytes `PDI_KEY` it is `sendKey()` (41_encoder R181; entry 11). -/
def execKey (bytes : List Byte) (s : State) : Host.Outcome State Fault Refusal := s.call (.keyWith bytes) []

end Sys2Proof.Machine
end

