-- ==== Sys2Proof/Machine/DirectAccess.lean ====
section
/-!
DEFINITION. The meanings of LDS and STS (41_encoder section 1). Issuing a PDI instruction is the encoder operation of
its table row: `exec` takes the call, and each later step makes one of its Platform calls (10_state R36, D38; entry 1).
-/

namespace Sys2Proof.Machine

/-- LDS: `loadDirect(addr)` (41_encoder R170). -/
def execLds (addr : Word) (s : State) : Host.Outcome State Fault Refusal := s.call (.loadDirect addr) []

/-- STS: `storeDirect(addr, data)` (41_encoder R171). -/
def execSts (addr : Word) (data : Byte) (s : State) : Host.Outcome State Fault Refusal :=
  s.call (.storeDirect addr data) []

end Sys2Proof.Machine
end

