-- ==== Sys2Proof/Machine/HostDispatcher.lean ====
section
/-!
DEFINITION. The meanings of the host link codes, at the boundary 47_host_boundary gives the dispatcher: the requests map
onto core calls, with the session brought up lazily and every error answered with InternalError; a response or
handshake code is one byte sent to the host.
-/

namespace Sys2Proof.Machine

/-- Whether a request that brings the session up and then calls `o` sends an instruction (47 R344). -/
def State.sendsLazily (s : State) (o : Op) : Bool := !s.active || sendsInstruction s.cfg o

/-- Take a host request that needs core calls. While an operation runs it waits, first in line (10_state R47). Core calls
before `initialize` are refused (70 R392). `sends`: they send an instruction (entry 33). -/
def State.hostCall (s : State) (i : Instr) (sends : Bool) (ts : List Task) : Host.Outcome State Fault Refusal :=
  if s.control ≠ [] then .next { s with calls := .coded .hostRequest (encode i) :: s.calls }
  else if s.dir = none then .refused .notInitialized
  else
    .next
      { s with
        ret := .nothing, source := .hostLink, control := ts
        target := if sends then s.target.beginInstruction false else s.target }

/-- HOST_NOP: no core call (47 R343). The response is Ok: DEDUCED, entry 14. -/
def execHostNop (s : State) : Host.Outcome State Fault Refusal := .next (s.hostSend 0x00)

/-- HOST_WRITE_APP_FLASH: the session if none is active, then `write(addr, src, len, HOST_PREERASE, App)`, the source
pulling from the host link (47 R342, R344, R345). -/
def execHostWriteAppFlash (addr : Word) (len : Word16) (s : State) : Host.Outcome State Fault Refusal :=
  s.hostCall (.hostWriteAppFlash addr len)
    (s.sendsLazily (.write addr (len.setWidth 32) s.cfg.hostPreErase .app))
    [.lazyBegin, .run (.write addr (len.setWidth 32) s.cfg.hostPreErase .app), .respond]

/-- HOST_WRITE_FUSE: its payload, then the session if none is active, then `Fuse.write` (47 R343, R344; entry 15). -/
def execHostWriteFuse (s : State) : Host.Outcome State Fault Refusal :=
  s.hostCall .hostWriteFuse (s.sendsLazily (.fuseWrite 0 0)) [.hostPayload s.cfg.hostFuseBytes []]

/-- HOST_ERASE_CHIP: the session if none is active, then `eraseChip` (47 R343, R344). -/
def execHostEraseChip (s : State) : Host.Outcome State Fault Refusal :=
  s.hostCall .hostEraseChip (s.sendsLazily .eraseChip) [.lazyBegin, .run .eraseChip, .respond]

/-- HOST_END: `Session.end` (47 R343). -/
def execHostEnd (s : State) : Host.Outcome State Fault Refusal :=
  s.hostCall .hostEnd (sendsInstruction s.cfg .sessionEnd) [.run .sessionEnd, .respond]

/-- HOST_RESP_OK: the response byte 0x00 (47 R340). -/
def execHostRespOk (s : State) : Host.Outcome State Fault Refusal := .next (s.hostSend 0x00)

/-- HOST_RESP_INVALID_REQUEST: the response byte 0x01 (47 R340). -/
def execHostRespInvalidRequest (s : State) : Host.Outcome State Fault Refusal := .next (s.hostSend 0x01)

/-- HOST_RESP_INTERNAL_ERROR: the response byte 0xFE (47 R340, R345). -/
def execHostRespInternalError (s : State) : Host.Outcome State Fault Refusal := .next (s.hostSend 0xFE)

/-- HOST_RESP_UNKNOWN_ERROR: the response byte 0xFF (47 R340). -/
def execHostRespUnknownError (s : State) : Host.Outcome State Fault Refusal := .next (s.hostSend 0xFF)

/-- HOST_HANDSHAKE: the handshake byte 0xFF (47 R341). -/
def execHostHandshake (s : State) : Host.Outcome State Fault Refusal := .next (s.hostSend 0xFF)

end Sys2Proof.Machine
end

