-- ==== Sys2Proof/Machine/NvmCommands.lean ====
section
/-!
DEFINITION. The meanings of the NVM command codes. A code is a data byte stored to the NVM CMD register (30_encoding
R116): issuing one is `writeCommand` (43_nvm R245), which selects the command on the target. What the selected
command does when it is executed or triggered is the target's (Target.lean). Entry 10.
-/

namespace Sys2Proof.Machine

/-- NVMCMD_ChipErase: `writeCommand(ChipErase)` (43_nvm R242, R245). -/
def execNvmChipErase (s : State) : Host.Outcome State Fault Refusal := s.call (.writeCommand .chipErase) []

/-- NVMCMD_ReadNvm: `writeCommand(ReadNvm)` (43_nvm R242, R245). -/
def execNvmReadNvm (s : State) : Host.Outcome State Fault Refusal := s.call (.writeCommand .readNvm) []

/-- NVMCMD_LoadFlashPageBuffer: `writeCommand(LoadFlashPageBuffer)` (43_nvm R242, R245). -/
def execNvmLoadFlashPageBuffer (s : State) : Host.Outcome State Fault Refusal := s.call (.writeCommand .loadFlashPageBuffer) []

/-- NVMCMD_EraseFlashPageBuffer: `writeCommand(EraseFlashPageBuffer)` (43_nvm R242, R245). -/
def execNvmEraseFlashPageBuffer (s : State) : Host.Outcome State Fault Refusal := s.call (.writeCommand .eraseFlashPageBuffer) []

/-- NVMCMD_EraseFlashPage: `writeCommand(EraseFlashPage)` (43_nvm R242, R245). -/
def execNvmEraseFlashPage (s : State) : Host.Outcome State Fault Refusal := s.call (.writeCommand .eraseFlashPage) []

/-- NVMCMD_EraseAppPage: `writeCommand(EraseAppPage)` (43_nvm R242, R245). -/
def execNvmEraseAppPage (s : State) : Host.Outcome State Fault Refusal := s.call (.writeCommand .eraseAppPage) []

/-- NVMCMD_EraseBootPage: `writeCommand(EraseBootPage)` (43_nvm R242, R245). -/
def execNvmEraseBootPage (s : State) : Host.Outcome State Fault Refusal := s.call (.writeCommand .eraseBootPage) []

/-- NVMCMD_WriteFlashPage: `writeCommand(WriteFlashPage)` (43_nvm R242, R245). -/
def execNvmWriteFlashPage (s : State) : Host.Outcome State Fault Refusal := s.call (.writeCommand .writeFlashPage) []

/-- NVMCMD_WriteAppPage: `writeCommand(WriteAppPage)` (43_nvm R242, R245). -/
def execNvmWriteAppPage (s : State) : Host.Outcome State Fault Refusal := s.call (.writeCommand .writeAppPage) []

/-- NVMCMD_WriteBootPage: `writeCommand(WriteBootPage)` (43_nvm R242, R245). -/
def execNvmWriteBootPage (s : State) : Host.Outcome State Fault Refusal := s.call (.writeCommand .writeBootPage) []

/-- NVMCMD_EraseWriteFlashPage: `writeCommand(EraseWriteFlashPage)` (43_nvm R242, R245). -/
def execNvmEraseWriteFlashPage (s : State) : Host.Outcome State Fault Refusal := s.call (.writeCommand .eraseWriteFlashPage) []

/-- NVMCMD_EraseWriteAppPage: `writeCommand(EraseWriteAppPage)` (43_nvm R242, R245). -/
def execNvmEraseWriteAppPage (s : State) : Host.Outcome State Fault Refusal := s.call (.writeCommand .eraseWriteAppPage) []

/-- NVMCMD_EraseWriteBootPage: `writeCommand(EraseWriteBootPage)` (43_nvm R242, R245). -/
def execNvmEraseWriteBootPage (s : State) : Host.Outcome State Fault Refusal := s.call (.writeCommand .eraseWriteBootPage) []

/-- NVMCMD_EraseAppSection: `writeCommand(EraseAppSection)` (43_nvm R242, R245). -/
def execNvmEraseAppSection (s : State) : Host.Outcome State Fault Refusal := s.call (.writeCommand .eraseAppSection) []

/-- NVMCMD_EraseBootSection: `writeCommand(EraseBootSection)` (43_nvm R242, R245). -/
def execNvmEraseBootSection (s : State) : Host.Outcome State Fault Refusal := s.call (.writeCommand .eraseBootSection) []

/-- NVMCMD_WriteFuse: `writeCommand(WriteFuse)` (43_nvm R242, R245). -/
def execNvmWriteFuse (s : State) : Host.Outcome State Fault Refusal := s.call (.writeCommand .writeFuse) []

/-- NVMCMD_WriteLockBits: `writeCommand(WriteLockBits)` (43_nvm R242, R245). -/
def execNvmWriteLockBits (s : State) : Host.Outcome State Fault Refusal := s.call (.writeCommand .writeLockBits) []

/-- NVMCMD_LoadEepromPageBuffer: `writeCommand(LoadEepromPageBuffer)` (43_nvm R242, R245). -/
def execNvmLoadEepromPageBuffer (s : State) : Host.Outcome State Fault Refusal := s.call (.writeCommand .loadEepromPageBuffer) []

/-- NVMCMD_EraseEepromPageBuffer: `writeCommand(EraseEepromPageBuffer)` (43_nvm R242, R245). -/
def execNvmEraseEepromPageBuffer (s : State) : Host.Outcome State Fault Refusal := s.call (.writeCommand .eraseEepromPageBuffer) []

/-- NVMCMD_EraseEepromPage: `writeCommand(EraseEepromPage)` (43_nvm R242, R245). -/
def execNvmEraseEepromPage (s : State) : Host.Outcome State Fault Refusal := s.call (.writeCommand .eraseEepromPage) []

/-- NVMCMD_WriteEepromPage: `writeCommand(WriteEepromPage)` (43_nvm R242, R245). -/
def execNvmWriteEepromPage (s : State) : Host.Outcome State Fault Refusal := s.call (.writeCommand .writeEepromPage) []

/-- NVMCMD_EraseWriteEepromPage: `writeCommand(EraseWriteEepromPage)` (43_nvm R242, R245). -/
def execNvmEraseWriteEepromPage (s : State) : Host.Outcome State Fault Refusal := s.call (.writeCommand .eraseWriteEepromPage) []

/-- NVMCMD_EraseEeprom: `writeCommand(EraseEeprom)` (43_nvm R242, R245). -/
def execNvmEraseEeprom (s : State) : Host.Outcome State Fault Refusal := s.call (.writeCommand .eraseEeprom) []

/-- NVMCMD_ReadEeprom: `writeCommand(ReadEeprom)` (43_nvm R242, R245). -/
def execNvmReadEeprom (s : State) : Host.Outcome State Fault Refusal := s.call (.writeCommand .readEeprom) []

/-- NVMCMD_FlashCrc: `writeCommand(FlashCrc)` (43_nvm R242, R245). -/
def execNvmFlashCrc (s : State) : Host.Outcome State Fault Refusal := s.call (.writeCommand .flashCrc) []

/-- NVMCMD_AppCrc: `writeCommand(AppCrc)` (43_nvm R242, R245). -/
def execNvmAppCrc (s : State) : Host.Outcome State Fault Refusal := s.call (.writeCommand .appCrc) []

/-- NVMCMD_BootCrc: `writeCommand(BootCrc)` (43_nvm R242, R245). -/
def execNvmBootCrc (s : State) : Host.Outcome State Fault Refusal := s.call (.writeCommand .bootCrc) []

end Sys2Proof.Machine
end

