-- ==== Sys2Proof/Machine/PointerAccess.lean ====
section
/-!
DEFINITION. The meanings of LD and ST through the pointer register (41_encoder section 2). The core emits every form
literally, also those whose effect on the target no source gives (D37).
-/

namespace Sys2Proof.Machine

/-- LD_IND: `loadPointer(Indirect)` (41_encoder R172). -/
def execLdInd (s : State) : Host.Outcome State Fault Refusal := s.call (.loadPointer .indirect) []

/-- LD_INC: `loadPointer(IndirectAutoIncrement)` (41_encoder R172). -/
def execLdInc (s : State) : Host.Outcome State Fault Refusal := s.call (.loadPointer .autoInc) []

/-- LD_PTR: `loadPointer(Direct)` (41_encoder R172). -/
def execLdPtr (s : State) : Host.Outcome State Fault Refusal := s.call (.loadPointer .direct) []

/-- ST_IND: `storePointer(Indirect, data)` (41_encoder R173). -/
def execStInd (data : Byte) (s : State) : Host.Outcome State Fault Refusal := s.call (.storePointer .indirect data) []

/-- ST_INC: `storePointer(IndirectAutoIncrement, data)` (41_encoder R173). -/
def execStInc (data : Byte) (s : State) : Host.Outcome State Fault Refusal := s.call (.storePointer .autoInc data) []

/-- ST_PTR_B: `storePointer(Direct, data)` (41_encoder R173). -/
def execStPtrB (data : Byte) (s : State) : Host.Outcome State Fault Refusal := s.call (.storePointer .direct data) []

/-- ST_IND_L: `storePointerAutoAddr(Indirect, addr)` (41_encoder R174). -/
def execStIndL (addr : Word) (s : State) : Host.Outcome State Fault Refusal :=
  s.call (.storePointerAutoAddr .indirect addr) []

/-- ST_INC_L: `storePointerAutoAddr(IndirectAutoIncrement, addr)` (41_encoder R174). -/
def execStIncL (addr : Word) (s : State) : Host.Outcome State Fault Refusal :=
  s.call (.storePointerAutoAddr .autoInc addr) []

/-- ST_PTR: `storePointerAutoAddr(Direct, addr)` (41_encoder R174). -/
def execStPtr (addr : Word) (s : State) : Host.Outcome State Fault Refusal :=
  s.call (.storePointerAutoAddr .direct addr) []

end Sys2Proof.Machine
end

