-- ==== Sys2Proof/Machine/RepeatPrefix.lean ====
section
/-!
DEFINITION. The meanings of REPEAT (41_encoder section 3).
-/

namespace Sys2Proof.Machine

/-- REPEAT_B: `repeat1(count)` (41_encoder R175). -/
def execRepeatB (count : Byte) (s : State) : Host.Outcome State Fault Refusal := s.call (.repeat1 count) []

/-- REPEAT: `repeat2(count)` (41_encoder R176). -/
def execRepeatW (count : Word16) (s : State) : Host.Outcome State Fault Refusal := s.call (.repeat2 count) []

end Sys2Proof.Machine
end

