-- ==== Sys2Proof/Machine/Dispatch.lean ====
section
/-!
DEFINITION. The meaning of each instruction: one arm for each row of spec/opcode_table.json.
-/

namespace Sys2Proof.Machine

def exec (i : Instr) (s : State) : Host.Outcome State Fault Refusal :=
  match i with
  | .lds addr => Sys2Proof.Machine.execLds addr s
  | .sts addr data => Sys2Proof.Machine.execSts addr data s
  | .ldInd => Sys2Proof.Machine.execLdInd s
  | .ldInc => Sys2Proof.Machine.execLdInc s
  | .ldPtr => Sys2Proof.Machine.execLdPtr s
  | .stInd data => Sys2Proof.Machine.execStInd data s
  | .stInc data => Sys2Proof.Machine.execStInc data s
  | .stPtrB data => Sys2Proof.Machine.execStPtrB data s
  | .stIndL addr => Sys2Proof.Machine.execStIndL addr s
  | .stIncL addr => Sys2Proof.Machine.execStIncL addr s
  | .stPtr addr => Sys2Proof.Machine.execStPtr addr s
  | .repeatB count => Sys2Proof.Machine.execRepeatB count s
  | .repeatW count => Sys2Proof.Machine.execRepeatW count s
  | .ldcs reg => Sys2Proof.Machine.execLdcs reg s
  | .stcs reg data => Sys2Proof.Machine.execStcs reg data s
  | .key bytes => Sys2Proof.Machine.execKey bytes s
  | .nvmChipErase => Sys2Proof.Machine.execNvmChipErase s
  | .nvmReadNvm => Sys2Proof.Machine.execNvmReadNvm s
  | .nvmLoadFlashPageBuffer => Sys2Proof.Machine.execNvmLoadFlashPageBuffer s
  | .nvmEraseFlashPageBuffer => Sys2Proof.Machine.execNvmEraseFlashPageBuffer s
  | .nvmEraseFlashPage => Sys2Proof.Machine.execNvmEraseFlashPage s
  | .nvmEraseAppPage => Sys2Proof.Machine.execNvmEraseAppPage s
  | .nvmEraseBootPage => Sys2Proof.Machine.execNvmEraseBootPage s
  | .nvmWriteFlashPage => Sys2Proof.Machine.execNvmWriteFlashPage s
  | .nvmWriteAppPage => Sys2Proof.Machine.execNvmWriteAppPage s
  | .nvmWriteBootPage => Sys2Proof.Machine.execNvmWriteBootPage s
  | .nvmEraseWriteFlashPage => Sys2Proof.Machine.execNvmEraseWriteFlashPage s
  | .nvmEraseWriteAppPage => Sys2Proof.Machine.execNvmEraseWriteAppPage s
  | .nvmEraseWriteBootPage => Sys2Proof.Machine.execNvmEraseWriteBootPage s
  | .nvmEraseAppSection => Sys2Proof.Machine.execNvmEraseAppSection s
  | .nvmEraseBootSection => Sys2Proof.Machine.execNvmEraseBootSection s
  | .nvmWriteFuse => Sys2Proof.Machine.execNvmWriteFuse s
  | .nvmWriteLockBits => Sys2Proof.Machine.execNvmWriteLockBits s
  | .nvmLoadEepromPageBuffer => Sys2Proof.Machine.execNvmLoadEepromPageBuffer s
  | .nvmEraseEepromPageBuffer => Sys2Proof.Machine.execNvmEraseEepromPageBuffer s
  | .nvmEraseEepromPage => Sys2Proof.Machine.execNvmEraseEepromPage s
  | .nvmWriteEepromPage => Sys2Proof.Machine.execNvmWriteEepromPage s
  | .nvmEraseWriteEepromPage => Sys2Proof.Machine.execNvmEraseWriteEepromPage s
  | .nvmEraseEeprom => Sys2Proof.Machine.execNvmEraseEeprom s
  | .nvmReadEeprom => Sys2Proof.Machine.execNvmReadEeprom s
  | .nvmFlashCrc => Sys2Proof.Machine.execNvmFlashCrc s
  | .nvmAppCrc => Sys2Proof.Machine.execNvmAppCrc s
  | .nvmBootCrc => Sys2Proof.Machine.execNvmBootCrc s
  | .hostNop => Sys2Proof.Machine.execHostNop s
  | .hostWriteAppFlash addr len => Sys2Proof.Machine.execHostWriteAppFlash addr len s
  | .hostWriteFuse => Sys2Proof.Machine.execHostWriteFuse s
  | .hostEraseChip => Sys2Proof.Machine.execHostEraseChip s
  | .hostEnd => Sys2Proof.Machine.execHostEnd s
  | .hostRespOk => Sys2Proof.Machine.execHostRespOk s
  | .hostRespInvalidRequest => Sys2Proof.Machine.execHostRespInvalidRequest s
  | .hostRespInternalError => Sys2Proof.Machine.execHostRespInternalError s
  | .hostRespUnknownError => Sys2Proof.Machine.execHostRespUnknownError s
  | .hostHandshake => Sys2Proof.Machine.execHostHandshake s

end Sys2Proof.Machine
end

