-- ==== Sys2Proof/Machine/Fetch.lean ====
section
/-!
DEFINITION. What the idle machine takes next: a call of the caller's queue (10_state R47), or a request of the host link
(47_host_boundary). Entries 13 and 17.
-/

namespace Sys2Proof.Machine

/-- What the idle machine takes next, with the state after it has been taken. -/
inductive Fetched where
  /-- Nothing waits. -/
  | idle
  /-- The startup glue's `initUart`. -/
  | startup (s : State)
  | call (o : Op) (src : List Byte) (s : State)
  | instr (i : Instr) (s : State)
  /-- A byte of a host request that is not complete yet. -/
  | read (s : State)
  | refused (r : Refusal)

/-- Take the request at the head of the caller's queue; `s` has it removed. DESIGN CHOICE, entry 52: the startup glue's
`initUart` is taken at any time, also after `initialize` and more than once (70 R395). -/
def takeRequest (r : Request) (s : State) : Fetched :=
  match r with
  | .call o src => .call o src s
  | .startup => .startup (performCommand (.initUart s.cfg.baudConstant) s)
  | .coded ch bytes =>
    match decodeOn s.cfg ch bytes with
    | .ok i _ => .instr i s
    | .reject r => .refused (.undecoded ch r)

/-- Read one byte of a request from the host link and acknowledge it before the next is read (47 R341, R342), the opcode
byte only as the configuration says (91 N16; entry 14). With its last byte the request is taken: a session it brings up
comes after its operands (R344; DESIGN CHOICE, entry 14). -/
def takeHostRequest (s : State) : Fetched :=
  match s.host.rx with
  | [] => .idle
  | b :: rx =>
    let acks := if s.host.pending = [] ∧ s.cfg.hostAckOpcode = false then [] else [0xFF]
    let link : HostLink := { rx := rx, tx := acks ++ s.host.tx, pending := s.host.pending ++ [b] }
    match decodeHostRequest (s.host.pending ++ [b]) with
    | .ok i _ => .instr i { s with host := { link with pending := [] } }
    | .reject .needMore => .read { s with host := link }
    | .reject (.unknownOpcode u) => .refused (.undecoded .hostRequest (.unknownOpcode u))

/-- What the idle machine takes next: the caller's queue goes before the host link. -/
def fetch (s : State) : Fetched :=
  match s.calls with
  | r :: rs => takeRequest r { s with calls := rs }
  | [] => takeHostRequest s

/-- The channel on which a table word's bytes are an instruction (entry 12); the PDI wire if on none. -/
def tableChannel (c : Config) (bs : List Byte) : Channel :=
  ((firstAccepted c bs tableChannels).map Prod.fst).getD .pdi

/-- The state in which the next call taken is the instruction of a table word: it stands first in the caller's queue, no
operation runs, and the driver has been initialised, without which no call is taken (70 R392, R395; entry 13). -/
def placeTableWord (s : State) (nbits w : Nat) : State :=
  { s with
    control := []
    dir := some (s.dir.getD .idle)
    calls := .coded (tableChannel s.cfg (tableBytes nbits w)) (tableBytes nbits w) :: s.calls }

end Sys2Proof.Machine
end

