-- ==== Sys2Proof/Machine/Step.lean ====
section
/-!
DEFINITION. One step: the next task of the running operation, at most one Platform call (10_state R36, D38), or, when no
operation runs, the next call (R47). With neither, nothing changes.
-/

namespace Sys2Proof.Machine

/-- One step of the machine. -/
def step (s : State) : Host.Outcome State Fault Refusal :=
  match s.control with
  | t :: ts => perform t { s with control := ts }
  | [] =>
    match fetch s with
    | .idle => .next s
    | .startup s' => .next s'
    | .call o src s' => s'.call o src
    | .instr i s' => exec i s'
    | .read s' => .next s'
    | .refused r => .refused r

/-- The instruction of a table word, placed where `step` takes its next call. -/
def State.withFetchWord (s : State) (nbits w : Nat) : State := placeTableWord s nbits w

end Sys2Proof.Machine
end

