-- ==== Sys2Proof/Safety.lean ====
section
/-!
DEFINITION. The terms claims use: runs of one operation, an answering environment, a configuration whose opcodes can be
told apart, and the well-formedness of the state's memories.
-/

namespace Sys2Proof.Machine

/-- `u` is reached from `s` by steps of the operation that runs in `s`: each step but the last state has a task left. -/
inductive Runs : State → State → Prop where
  | refl (s : State) : Runs s s
  | step {s s' u : State} (busy : s.control ≠ []) (h : Machine.step s = .next s') (rest : Runs s' u) : Runs s u

/-- The operation that runs in `s` returns to its caller in `u`. -/
def Returns (s u : State) : Prop := Runs s u ∧ u.control = []

/-- No operation runs and the driver has been initialised: a call is taken (70 R392, 10_state R47). -/
def Ready (s : State) : Prop := s.control = [] ∧ s.dir ≠ none

/-- The Platform answers every query at once and nothing else is lined up (45 R326, last item). -/
def Prompt (s : State) : Prop :=
  s.platform.answering = .prompt ∧ s.platform.bits = [] ∧ s.platform.frames = []

/-- The opcode bytes of a configuration that carry no register number (00_scope R7, 30_encoding R112). -/
def fixedOpcodes (c : Config) : List Byte :=
  [c.opLds, c.opSts, ldOpcode c .indirect, ldOpcode c .autoInc, ldOpcode c .direct, stOpcode c .indirect,
    stOpcode c .autoInc, stOpcode c .direct, stPtr4Opcode c .indirect, stPtr4Opcode c .autoInc, stPtr4Opcode c .direct,
    c.opRepeat1, c.opRepeat2, c.opKey]

/-- The opcodes of a configuration can be told apart, and so can its NVM command codes; the defaults of 00_scope R7 and
43_nvm R242 can. -/
def Decodable (c : Config) : Prop :=
  (fixedOpcodes c).Nodup ∧ (∀ op ∈ fixedOpcodes c, op &&& 0xF0 ≠ c.opLdcsBase ∧ op &&& 0xF0 ≠ c.opStcsBase) ∧
    c.opLdcsBase ≠ c.opStcsBase ∧ c.opLdcsBase &&& 0x0F = 0 ∧ c.opStcsBase &&& 0x0F = 0 ∧
    ((nvmRows c).map Prod.fst).Nodup

/-- What no PDI instruction changes: the configuration, the session state, the callers' requests, the host link, and
the parts of the Platform that the direction transitions leave alone. -/
def CoreFrame (s u : State) : Prop :=
  u.cfg = s.cfg ∧ u.sess = s.sess ∧ u.active = s.active ∧ u.calls = s.calls ∧ u.host = s.host ∧
    u.platform.baud = s.platform.baud ∧ u.platform.clockOn = s.platform.clockOn ∧
    u.platform.clockPin = s.platform.clockPin ∧ u.platform.dataInPin = s.platform.dataInPin ∧
    u.platform.answering = s.platform.answering

/-- The target after bytes have arrived on the wire. -/
def Target.receiveAll (t : Target) (c : Config) (bs : List Byte) : Target := bs.foldl (fun t b => t.receive c b) t

/-- The bytes the core sends reach the target: transmit is enabled whenever the direction is Transmitting (10_state
R31). -/
def WireConnected (s : State) : Prop := s.dir = some .transmitting → s.platform.txOn = true

/-- REPEAT of `n + 1` executions, in either form (41_encoder R175, R176). -/
def RepeatOf (r : Instr) (n : Word16) : Prop := r = .repeatW n ∨ ∃ b, r = .repeatB b ∧ n = b.setWidth 16

/-- The one-byte ST rows: after a REPEAT, the further data bytes of one are the caller's to send (entry 33). -/
def storesOneByte : Instr → Bool
  | .stInd _ | .stInc _ | .stPtrB _ => true
  | _ => false

/-- The PDI instructions to which the target replies with one byte (45 R311). -/
def hasReply : Instr → Bool
  | .lds _ | .ldInd | .ldInc | .ldPtr | .ldcs _ => true
  | _ => false

/-- The STCS that releases the target from reset (42_session R211). -/
def leavesReset (c : Config) : Instr → Bool
  | .stcs r d => exitsReset c (.storeControlStatus r d)
  | _ => false

/-- A target that waits for an instruction's first byte: not lost, nothing pending, no repeat (30_encoding R117). -/
def Target.Waiting (t : Target) : Prop :=
  t.lost = false ∧ t.pending = [] ∧ t.rep = 0 ∧ t.repeated = false ∧ t.handFed = false

/-- The reference target in a programming session: in reset and keyed, so that it reports NVMEN (45 R326). -/
def Target.ReferenceKeyed (t : Target) : Prop :=
  t.kind = .reference ∧ t.Waiting ∧ t.replies = [] ∧ t.owed = 0 ∧ t.resetLine = .held ∧ t.keyed = true

/-- The Platform answers at once, and what it answers comes from a reference target in a programming session, so that
every poll ends: POLL_LIMIT allows one, `recv` makes a check, and the target reads the opcodes the core sends and tells a
release of reset from an assertion. -/
def Answered (s : State) : Prop :=
  Prompt s ∧ WireConnected s ∧ s.target.ReferenceKeyed ∧ Decodable s.cfg ∧ s.cfg.recvPollCycles ≠ 0 ∧
    s.cfg.pollLimit ≠ some 0 ∧ s.cfg.resetSignature ≠ 0x00

/-- Every memory of the state has its canonical form. -/
def State.memoriesWf (s : State) : Bool := s.target.mem.wf && s.target.buf.wf && s.target.fuse.wf

/-- The link's pins are inputs and the UART is disabled (10_state R31, the Idle row). -/
def Platform.Quiet (p : Platform) : Prop :=
  p.clockPin = .input ∧ p.dataOutPin = .input ∧ p.dataInPin = .input ∧ p.txOn = false ∧ p.rxOn = false ∧
    p.clockOn = false

/-- The UART's TX and RX and the DataOut pin stand as the direction says (10_state R31), and in Idle so do the clock
output and the other pins. -/
def LinkMatches (s : State) : Prop :=
  match s.dir with
  | none => True
  | some .idle => s.platform.Quiet
  | some .transmitting =>
    s.platform.txOn = true ∧ s.platform.rxOn = false ∧ s.platform.dataOutPin = .output .high
  | some .receiving => s.platform.txOn = false ∧ s.platform.rxOn = true ∧ s.platform.dataOutPin = .input

/-- The whole row of 10_state R31: with `LinkMatches`, outside Idle the clock output is on, the Clock pin a high output
and DataIn an input. -/
def RowMatches (s : State) : Prop :=
  LinkMatches s ∧ (s.dir = some .transmitting ∨ s.dir = some .receiving →
    s.platform.clockOn = true ∧ s.platform.clockPin = .output .high ∧ s.platform.dataInPin = .input)

/-! ## Shapes of traffic. Traces are newest first; wire bytes and replies are oldest first. -/

/-- The events of one `waitClockCycle` (40_link R141): it waits for high, then low, then high. -/
def ClockCycle (es : List Event) : Prop :=
  ∃ a b c : Nat,
    es = .readPin .clock true :: List.replicate c (.readPin .clock false) ++
      (.readPin .clock false :: List.replicate b (.readPin .clock true)) ++
      (.readPin .clock true :: List.replicate a (.readPin .clock false))

/-- The events of `n` clock cycles one after another. -/
inductive Cycles : Nat → List Event → Prop where
  | none : Cycles 0 []
  | more {n : Nat} {es c : List Event} (before : Cycles n es) (cycle : ClockCycle c) : Cycles (n + 1) (c ++ es)

/-- The events of `n` rounds of `recv`'s loop that found no frame (40_link R148): a check, then a clock cycle. -/
inductive EmptyRounds : Nat → List Event → Prop where
  | none : EmptyRounds 0 []
  | more {n : Nat} {es c : List Event} (before : EmptyRounds n es) (cycle : ClockCycle c) :
      EmptyRounds (n + 1) (c ++ .rxComplete false :: es)

/-- The events of `n` evaluations of a condition that failed, then one that held (00_scope R13). -/
def passed (e : Bool → Event) (n : Nat) : List Event := e true :: List.replicate n (e false)

/-- The bytes read from the UART, oldest first. -/
def readsOf : List Event → List Byte
  | [] => []
  | .readByte b :: es => readsOf es ++ [b]
  | _ :: es => readsOf es

/-- The pulls and the written bytes, oldest first. -/
def transfersOf : List Event → List Event
  | [] => []
  | .pull b :: es => transfersOf es ++ [.pull b]
  | .command (.writeByte b) :: es => transfersOf es ++ [.command (.writeByte b)]
  | _ :: es => transfersOf es

/-- The wire bytes of LDCS of the Status CSR. -/
def statusPoll (c : Config) : Byte := ldcsOpcode c (csrOperand c.csrStatus)

/-- The wire bytes of STS (41_encoder R171). -/
def stsBytes (c : Config) (a : Word) (d : Byte) : List Byte := c.opSts :: (le4 a ++ [d])

/-- The wire bytes of the pointer store (41_encoder R174, mode Direct). -/
def pointerBytes (c : Config) (a : Word) : List Byte := stPtr4Opcode c .direct :: le4 a

/-- The wire bytes of a REPEAT of `n` executions (41_encoder R176): none for one. -/
def repeatBytes (c : Config) (n : Nat) : List Byte :=
  if 2 ≤ n then c.opRepeat2 :: le2 (BitVec.ofNat 16 (n - 1)) else []

/-- The wire bytes of `bulkLoad(mode, n)` (41_encoder R177). -/
def bulkLoadBytes (c : Config) (m : PtrMode) (n : Nat) : List Byte :=
  if n = 0 then [] else repeatBytes c n ++ [ldOpcode c m]

/-- The wire bytes of `bulkStore(mode, |ds|, ds)` (41_encoder R178). -/
def bulkStoreBytes (c : Config) (m : PtrMode) (ds : List Byte) : List Byte :=
  if ds = [] then [] else repeatBytes c ds.length ++ (stOpcode c m :: ds)

/-- The wire bytes of `waitWhileBusy` with `k` polls of stage 1 and `m` of stage 2 (43_nvm R248). -/
def busyBytes (c : Config) (k m : Nat) : List Byte :=
  List.replicate k (statusPoll c) ++ (pointerBytes c (nvmAddress c .status) ++ List.replicate m (ldOpcode c .indirect))

/-- The wire bytes of a `waitWhileBusy` that returned Ok. -/
def WaitedOut (c : Config) (bs : List Byte) : Prop := ∃ k m, 1 ≤ k ∧ 1 ≤ m ∧ bs = busyBytes c k m

/-- The wire bytes of a `waitWhileBusy` that ended in an error. -/
def WaitCut (c : Config) (bs : List Byte) : Prop :=
  (∃ k, bs = List.replicate k (statusPoll c)) ∨ ∃ k m, 1 ≤ k ∧ bs = busyBytes c k m

/-- The wire bytes of a `waitWhileBusy` that ended in an error, with at most POLL_LIMIT polls in each stage (70 R400). -/
def WaitCutWithin (c : Config) (bs : List Byte) : Prop :=
  ∃ k m, (m = 0 ∧ bs = List.replicate k (statusPoll c) ∨ 1 ≤ k ∧ bs = busyBytes c k m) ∧
    ∀ N ∈ c.pollLimit, k ≤ N ∧ m ≤ N

/-- The wire bytes of one round of the reset-exit loop of `Session.end` (42_session R216). -/
def resetRound (c : Config) : List Byte :=
  [stcsOpcode c (csrOperand c.csrReset), 0x00, ldcsOpcode c (csrOperand c.csrReset)]

/-- How the reset-exit loop ends after `n` rounds whose replies were `rs` (42_session R216, 70 R400): at the first reply
with bit 0 clear, at a link error in the last round, or with POLL_LIMIT used up. -/
def ResetLoopEnds (c : Config) (n : Nat) (rs : List Byte) : Prop :=
  (∀ N ∈ c.pollLimit, n ≤ N) ∧ (∀ r ∈ rs.dropLast, r.getLsbD 0 = true) ∧
    ((rs.length = n ∧ 1 ≤ n ∧ ∀ r ∈ rs.getLast?, r.getLsbD 0 = false) ∨
      (rs.length + 1 = n ∧ ∀ r ∈ rs.getLast?, r.getLsbD 0 = true) ∨
      (rs.length = n ∧ c.pollLimit = some n ∧ ∀ r ∈ rs.getLast?, r.getLsbD 0 = true))

/-- A link error (60_exceptions R361, second column). -/
def LinkError (r : Return) : Prop := r = .err .serialError ∨ r = .err .serialTimeout

/-- What the operations that wait and then start one command send after the wait: 43_nvm R247, R251; 44_flash_fuse R273
to R275, R277, R278, R282. -/
def commandBytes (c : Config) : Op → Option (List Byte)
  | .eraseChip =>
    some (stsBytes c (nvmAddress c .cmd) (nvmCode c .chipErase) ++ stsBytes c (nvmAddress c .ctrlA) 0x01)
  | .eraseBuffer =>
    some (stsBytes c (nvmAddress c .cmd) (nvmCode c .eraseFlashPageBuffer) ++ stsBytes c (nvmAddress c .ctrlA) 0x01)
  | .eraseSection off .app =>
    some (stsBytes c (nvmAddress c .cmd) (nvmCode c .eraseAppSection) ++ stsBytes c (c.appBase + off) c.dummyByte)
  | .eraseSection off .boot =>
    some (stsBytes c (nvmAddress c .cmd) (nvmCode c .eraseBootSection) ++ stsBytes c (c.bootBase + off) c.dummyByte)
  | .erasePage off sec =>
    some (stsBytes c (nvmAddress c .cmd) (nvmCode c (erasePageCommand sec)) ++
      stsBytes c (realAddress c off sec) c.dummyByte)
  | .writePageFromBuffer off pre sec =>
    some (stsBytes c (nvmAddress c .cmd) (nvmCode c (writePageCommand pre sec)) ++
      stsBytes c (realAddress c off sec) c.dummyByte)
  | .fuseWrite a d =>
    some (stsBytes c (nvmAddress c .cmd) (nvmCode c .writeFuse) ++ stsBytes c (c.fuseBase + a) d)
  | _ => none

/-- The wire bytes with which the data `ds` goes into the page buffer (44_flash_fuse R276), after the wait. -/
def loadBufferBytes (c : Config) (a : Word) (ds : List Byte) : List Byte :=
  stsBytes c (nvmAddress c .cmd) (nvmCode c .loadFlashPageBuffer) ++
    (pointerBytes c a ++ bulkStoreBytes c .autoInc ds)

/-- The wire bytes of one successful `writePage` (44_flash_fuse R279). -/
def PageWritten (c : Config) (off : Word) (pre : Bool) (sec : FlashSection) (ds bs : List Byte) : Prop :=
  ∃ w1 w2 w3 erase commit,
    WaitedOut c w1 ∧ WaitedOut c w2 ∧ WaitedOut c w3 ∧ commandBytes c .eraseBuffer = some erase ∧
      commandBytes c (.writePageFromBuffer off pre sec) = some commit ∧
      bs = w1 ++ erase ++ w2 ++ loadBufferBytes c (realAddress c off sec) ds ++ w3 ++ commit

/-- The wire bytes of `Session.begin` (42_session R215): STCS Reset, STCS Control, KEY. -/
def beginBytes (c : Config) : List Byte :=
  [stcsOpcode c (csrOperand c.csrReset), c.resetSignature, stcsOpcode c (csrOperand c.csrControl),
    guardTimeByte c.guardTimeCode, c.opKey] ++ c.pdiKey

/-- Each chunk of `write` is one REPEAT long at most, and none is committed by a store to the NVM STATUS register. -/
def PagesMissStatus (c : Config) (off : Word) (len : Nat) (sec : FlashSection) : Prop :=
  c.pageSize ≤ 65536 ∧ ∀ k, k * c.pageSize < len →
    realAddress c (off + BitVec.ofNat 32 (k * c.pageSize)) sec ≠ nvmAddress c .status

/-- The wire bytes of a successful `write` of the data `ds` (44_flash_fuse R280, R281): one page sequence for each chunk. -/
def PagesWritten (c : Config) (off : Word) (pre : Bool) (sec : FlashSection) (ds bs : List Byte) : Prop :=
  ∃ pages : List (List Byte),
    pages.length = (ds.length + c.pageSize - 1) / c.pageSize ∧ bs = pages.flatten ∧
      ∀ k < pages.length,
        PageWritten c (off + BitVec.ofNat 32 (k * c.pageSize)) pre sec ((ds.drop (k * c.pageSize)).take c.pageSize)
          (pages.getD k [])

/-! ## Who touches the link -/

/-- The operations that write `dir` (10_state R32). -/
def isLinkTransition : Op → Bool
  | .linkInit | .linkBegin | .linkEnd | .send _ | .recv => true
  | _ => false

/-- The tasks that write `dir` or enable or disable TX or RX (10_state R32). -/
def touchesLink : Task → Bool
  | .setDir _ => true
  | .command .enableTx | .command .disableTx | .command .enableRx | .command .disableRx => true
  | _ => false

/-- No pending task ends an operation in an error by itself: errors come from the tests of 60_exceptions R360 alone. -/
def NoPendingError (s : State) : Prop := ∀ e, Task.finish (.err e) ∉ s.control

/-! ## Pages -/

/-- The address lies in the page that holds `a` (45 R326). -/
def InPage (c : Config) (a x : Nat) : Prop := pageStart c a ≤ x ∧ x < pageStart c a + c.pageSize

/-- The address is none of the three NVM registers' (10_state R54). -/
def NoRegister (c : Config) (a : Word) : Prop :=
  a ≠ nvmAddress c .cmd ∧ a ≠ nvmAddress c .ctrlA ∧ a ≠ nvmAddress c .status

/-- An address of plain memory: neither an NVM register nor an NVM address (20_memory R73). -/
def PlainAddress (c : Config) (a : Word) : Prop := NoRegister c a ∧ isNvm c a = false

/-- A load of that address, by LDS (`direct`) or through the pointer, replies with the byte of memory: it is no register,
the source says something of replies, and at an NVM address the controller may be used, under ReadNvm for a load through
the pointer (45 R313, R314, R320; entries 22, 24 and 43). -/
def Target.Reads (t : Target) (c : Config) (direct : Bool) (a : Word) : Prop :=
  NoRegister c a ∧ t.replyStated = true ∧
    (isNvm c a = true → t.nvmReady = true ∧ (direct = true ∨ t.cmd = c.nvmCodes.readNvm))

/-- An NVM address: one whose STS triggers the command in CMD (20_memory R78). -/
def TriggerAddress (c : Config) (a : Word) : Prop := NoRegister c a ∧ isNvm c a = true

end Sys2Proof.Machine
end

