-- ==== Sys2Proof/Certificates/Slice0/Obligations.lean ====
section
/-!
DEFINITION. The statements for the provers. Each says what a rule of spec/ says an instruction, an operation or the
machine does. `Returns t u` speaks of every run, so a statement about it holds for every answer of the Platform
(00_scope R5).
-/

open Sys2Proof Sys2Proof.Machine

/-! ## Encoding -/

/-- 30_encoding R109, R117; 43_nvm R242; 47 R340, R342: the bytes of an instruction decode to it, whatever follows, under
every configuration whose opcodes and codes can be told apart. -/
def Obligations.DecodeOfEncodeIsIdentity : Prop :=
  ∀ (c : Config) (i : Instr) (rest : List Byte), Decodable c → i.wellFormed = true →
    decodeOn c i.channel (encodeWith c i ++ rest) = .ok i rest

/-- 30_encoding R109, R112, R117, R118: what a decoder reads is well-formed, of its channel, and encodes to the bytes
read; a byte that is no opcode of the configuration begins no PDI instruction. -/
def Obligations.DecodedInstructionReencodes : Prop :=
  ∀ c : Config,
    (∀ (ch : Channel) (bs rest : List Byte) (i : Instr), decodeOn c ch bs = .ok i rest →
      i.wellFormed = true ∧ i.channel = ch ∧ bs = encodeWith c i ++ rest) ∧
    ∀ (op : Byte) (rest : List Byte), op ∉ fixedOpcodes c → op &&& 0xF0 ≠ c.opLdcsBase →
      op &&& 0xF0 ≠ c.opStcsBase → decodeOn c .pdi (op :: rest) = .reject (.unknownOpcode op)

/-- 30_encoding R110, 43_nvm R242, 47 R340: words of the tables and the instructions they stand for. -/
def Obligations.TableWordsDecodeAsWritten : Prop :=
  decodeOn {} .pdi [0x0C, 0xCF, 0x01, 0x00, 0x01] = .ok (.lds 0x010001CF) [] ∧
    decodeOn {} .pdi [0x4C, 0xCA, 0x01, 0x00, 0x01, 0x40] = .ok (.sts 0x010001CA 0x40) [] ∧
    decodeOn {} .pdi [0x6B, 0xCF, 0x01, 0x00, 0x01] = .ok (.stPtr 0x010001CF) [] ∧
    decodeOn {} .pdi [0xA1, 0xFF, 0x01] = .ok (.repeatW 0x01FF) [] ∧
    decodeOn {} .pdi [0xC2, 0x04] = .ok (.stcs 2 0x04) [] ∧
    decodeOn {} .pdi [0x81] = .ok (.ldcs 1) [] ∧
    decodeOn {} .nvmCommand [0x2D] = .ok .nvmEraseWriteBootPage [] ∧
    decodeOn {} .hostRequest [0x02, 0x00, 0x01, 0x00, 0x00, 0x00, 0x02] = .ok (.hostWriteAppFlash 0x100 0x200) [] ∧
    decodeOn {} .hostResponse [0xFE] = .ok .hostRespInternalError []

/-! ## The step -/

/-- 10_state R47, 30_encoding R117, 47 R341: a step of the idle machine runs the instruction its next request decodes
to, taken off the queue; with an empty queue it reads one byte of a host request and acknowledges it, and runs the
request that byte completes. That a call goes before the host link is the model's choice (entry 17), and so is the
acknowledgement of the opcode byte (entry 14). -/
def Obligations.StepRunsTheDecodedInstruction : Prop :=
  ∀ (s : State) (i : Instr) (rest : List Byte), s.control = [] →
    (∀ ch bs rs, s.calls = .coded ch bs :: rs → decodeOn s.cfg ch bs = .ok i rest →
      step s = exec i { s with calls := rs }) ∧
    ∀ b rx, s.calls = [] → s.host.rx = b :: rx →
      let acks : List Byte := if s.host.pending = [] ∧ s.cfg.hostAckOpcode = false then [] else [0xFF]
      (decodeOn s.cfg .hostRequest (s.host.pending ++ [b]) = .ok i rest →
        step s = exec i { s with host := { rx := rx, tx := acks ++ s.host.tx, pending := [] } }) ∧
      (decodeOn s.cfg .hostRequest (s.host.pending ++ [b]) = .reject .needMore →
        step s = .next { s with host := { rx := rx, tx := acks ++ s.host.tx, pending := s.host.pending ++ [b] } })

/-- Entry 13 (the model's own): the word placed by `withFetchWord` is what the very next step runs, read under the
state's configuration. -/
def Obligations.PlacedWordIsRunNext : Prop :=
  ∀ (s : State) (nbits w : Nat) (i : Instr), decodeWordWith s.cfg nbits w = some i →
    step (s.withFetchWord nbits w) = exec i { s with control := [], dir := some (s.dir.getD .idle) }

/-- 10_state R36, R38, R41, 00_scope R13: a step makes at most one Platform call, never reads DataOut or DataIn, and
never writes the configuration. -/
def Obligations.StepMakesAtMostOnePlatformCall : Prop :=
  ∀ s t : State, step s = .next t →
    t.cfg = s.cfg ∧
      (t.platform.trace = s.platform.trace ∨
        ∃ e, t.platform.trace = e :: s.platform.trace ∧ ∀ a, e ≠ .readPin .dataOut a ∧ e ≠ .readPin .dataIn a)

/-- 10_state R47: while an operation runs no waiting call is taken, and a call made then waits, first in line. -/
def Obligations.CallsWaitWhileAnOperationRuns : Prop :=
  ∀ s : State, s.control ≠ [] →
    (∀ t, step s = .next t → t.calls = s.calls) ∧
      (∀ o src, s.call o src = .next { s with calls := .call o src :: s.calls }) ∧
      ∀ (a : Word) (len : Word16), ∀ i ∈ [Instr.hostWriteAppFlash a len, .hostWriteFuse, .hostEraseChip, .hostEnd],
        exec i s = .next { s with calls := .coded .hostRequest (encode i) :: s.calls }

/-! ## Invariants -/

/-- 20_memory R71 (the canonical form is the model's, entry 8): every step keeps every memory canonical. -/
def Obligations.MemoriesStayCanonical : Prop :=
  ∀ s t : State, s.memoriesWf = true → step s = .next t → t.memoriesWf = true

/-- 10_state R60, 70 R390: the core's state at driver start; and the memories' canonical form there (entry 8). -/
def Obligations.DriverStartState : Prop :=
  State.reset.dir = none ∧ State.reset.sess = .uninitialized ∧ State.reset.active = false ∧
    State.reset.control = [] ∧ State.reset.memoriesWf = true

/-- 10_state R34: `active` is true exactly when `sess` is Programming, at driver start and after every step. -/
def Obligations.ActiveExactlyInProgramming : Prop :=
  State.reset.active = decide (State.reset.sess = .programming) ∧
    ∀ s t : State, s.active = decide (s.sess = .programming) → step s = .next t →
      t.active = decide (t.sess = .programming)

/-- 42_session R218: a call of any operation but `begin` and `end` leaves `sess` and `active` as they are at every point
of its run, whether it returns or not. -/
def Obligations.OnlySessionOperationsChangeTheSession : Prop :=
  ∀ (s t u : State) (o : Op) (src : List Byte), s.control = [] → o ≠ .sessionBegin → o ≠ .sessionEnd →
    s.call o src = .next t → Runs t u → u.sess = s.sess ∧ u.active = s.active

/-- 10_state R32: `dir` and the UART's TX and RX enables are written by link tasks alone, and only the five Link
operations bring such tasks in. -/
def Obligations.OnlyLinkOperationsTouchTheLink : Prop :=
  ∀ s t : State, step s = .next t →
    ((∀ k ts, s.control = k :: ts → touchesLink k = false) →
      t.dir = s.dir ∧ t.platform.txOn = s.platform.txOn ∧ t.platform.rxOn = s.platform.rxOn) ∧
    ∀ k ∈ t.control, touchesLink k = true →
      k ∈ s.control ∨ (∃ o ts, isLinkTransition o = true ∧ s.control = .run o :: ts) ∨
        ∃ o src rs, isLinkTransition o = true ∧ s.control = [] ∧ s.calls = .call o src :: rs

/-- 60_exceptions R362: no step produces UnknownError. -/
def Obligations.UnknownErrorIsNeverReturned : Prop :=
  (State.reset.ret ≠ .err .unknownError ∧ NoPendingError State.reset) ∧
    ∀ s t : State, s.ret ≠ .err .unknownError → NoPendingError s → step s = .next t →
      t.ret ≠ .err .unknownError ∧ NoPendingError t

/-- 60_exceptions R364, R365, R367: when an error appears, the core's state and the host link stand, the target too
unless a receive error cuts a repeated LD short (93 U3; entry 50), and what is left to run is empty or begins at the
nearest task that swallows errors. -/
def Obligations.ErrorChangesNothingElse : Prop :=
  ∀ (s t : State) (e : ErrorCode), NoPendingError s → step s = .next t → s.ret ≠ .err e → t.ret = .err e →
    t.cfg = s.cfg ∧ t.dir = s.dir ∧ t.sess = s.sess ∧ t.active = s.active ∧
      (t.target = s.target ∨ LinkError t.ret ∧ t.target = s.target.cutOff) ∧
      (s.control ≠ [] → t.host = s.host ∧ t.calls = s.calls ∧ t.source = s.source) ∧
      ∃ dropped, s.control = dropped ++ t.control ∧ (∀ k ∈ dropped, k.catches = false) ∧
        (t.control = [] ∨ ∃ k ts, t.control = k :: ts ∧ k.catches = true)

/-! ## Reset and refusals -/

/-- 40_link R140: `initialize` makes its six calls and sets `dir`, and everything else but the result and the source of
the call stands; a second one is refused. That its pin changes and the stopped clock change no more of the target than
the model's record of its clock is the model's choice (entry 47). -/
def Obligations.InitializeReachesTheSafeState : Prop :=
  ∀ s : State, s.control = [] →
    (s.dir ≠ none → s.call .linkInit [] = .refused .alreadyInitialized) ∧
    (s.dir = none → ∃ t, s.call .linkInit [] = .next t ∧
      Returns t
        { s with
          dir := some .idle, ret := .nothing, source := .bytes []
          target := { s.target with linked := false }
          platform :=
            { s.platform with
              clockPin := .input, dataOutPin := .input, dataInPin := .input
              txOn := false, rxOn := false, clockOn := false
              trace :=
                [.command .disableClock, .command .disableRx, .command .disableTx,
                  .command (.configurePinInput .dataIn), .command (.configurePinInput .dataOut),
                  .command (.configurePinInput .clock)] ++ s.platform.trace } })

/-- 70 R392: before `initialize` every other operation is refused, also one a host request needs; after it, a second
`initialize`. -/
def Obligations.OperationsBeforeInitializeAreRefused : Prop :=
  ∀ s : State, s.control = [] →
    (s.dir = none →
      (∀ o src, o ≠ .linkInit → s.call o src = .refused .notInitialized) ∧
        (∀ i : Instr, i.channel = .pdi ∨ i.channel = .nvmCommand → exec i s = .refused .notInitialized) ∧
        ∀ (a : Word) (len : Word16), ∀ i ∈ [Instr.hostWriteAppFlash a len, .hostWriteFuse, .hostEraseChip, .hostEnd],
          exec i s = .refused .notInitialized) ∧
    (s.dir ≠ none → ∀ src, s.call .linkInit src = .refused .alreadyInitialized)

/-! ## Link -/

/-- 40_link R142, R144, R146: every run of `send(b)`. -/
def Obligations.SendPutsOneByteOnTheWire : Prop :=
  ∀ (s : State) (b : Byte), Ready s →
    ∃ t, s.call (.send b) [] = .next t ∧ (Prompt s → ∃ u, Returns t u) ∧
      ∀ u, Returns t u →
        u.dir = some .transmitting ∧ u.wire = s.wire ++ [b] ∧ u.ret = .nothing ∧ u.platform.inFlight = true ∧
        CoreFrame s u ∧
        ∃ n,
          let sent := Event.command (.writeByte b) :: .command .resetTxComplete :: passed .txBufferEmpty n
          (s.dir = some .transmitting →
            u.platform.trace = sent ++ s.platform.trace ∧ u.platform.txOn = s.platform.txOn ∧
              u.platform.rxOn = s.platform.rxOn ∧ u.platform.dataOutPin = s.platform.dataOutPin) ∧
          (s.dir ≠ some .transmitting →
            u.platform.txOn = true ∧ u.platform.rxOn = false ∧ u.platform.dataOutPin = .output .high ∧
            ∃ cycle, ClockCycle cycle ∧
              u.platform.trace =
                sent ++ [.command .disableRx, .command .enableTx, .command (.configurePinOutput .dataOut .high)] ++
                  cycle ++ s.platform.trace)

/-- 40_link R147, 20_memory R74: `send2` and `send4` send the least significant byte first. -/
def Obligations.MultiByteSendsAreLittleEndian : Prop :=
  ∀ s : State, Ready s →
    (∀ v : Word16, ∃ t, s.call (.send2 v) [] = .next t ∧ (Prompt s → ∃ u, Returns t u) ∧ ∀ u, Returns t u →
      u.dir = some .transmitting ∧ u.ret = .nothing ∧ CoreFrame s u ∧
        u.wire = s.wire ++ [v.extractLsb' 0 8, v.extractLsb' 8 8]) ∧
    ∀ v : Word, ∃ t, s.call (.send4 v) [] = .next t ∧ (Prompt s → ∃ u, Returns t u) ∧ ∀ u, Returns t u →
      u.dir = some .transmitting ∧ u.ret = .nothing ∧ CoreFrame s u ∧
        u.wire = s.wire ++ [v.extractLsb' 0 8, v.extractLsb' 8 8, v.extractLsb' 16 8, v.extractLsb' 24 8]

/-- 40_link R143, R144, R148, R151: every run of `recv()`: the transition with its drain, then the bounded poll. -/
def Obligations.RecvDrainsThenPollsBounded : Prop :=
  ∀ s : State, Ready s →
    ∃ t, s.call .recv [] = .next t ∧ (Prompt s → s.cfg.recvPollCycles ≠ 0 → ∃ u, Returns t u) ∧
      ∀ u, Returns t u →
        u.dir = some .receiving ∧ u.wire = s.wire ∧ CoreFrame s u ∧
        ∃ poll switch,
          u.platform.trace = poll ++ switch ++ s.platform.trace ∧
          (s.dir = some .receiving → switch = []) ∧
          (s.dir ≠ some .receiving →
            u.platform.txOn = false ∧ u.platform.rxOn = true ∧ u.platform.dataOutPin = .input ∧
            ∃ drain,
              switch =
                [.command (.configurePinInput .dataOut), .command .disableTx, .command .enableRx] ++ drain ∧
              (s.dir ≠ some .transmitting → drain = []) ∧
              (s.dir = some .transmitting → ∃ n, drain = .command .resetTxComplete :: passed .txComplete n)) ∧
          ((∃ b k rounds, u.ret = .ok (.byte b) ∧ k < s.cfg.recvPollCycles ∧ EmptyRounds k rounds ∧
              poll = [.readByte b, .rxError false, .rxComplete true] ++ rounds) ∨
            (∃ k rounds, u.ret = .err .serialError ∧ k < s.cfg.recvPollCycles ∧ EmptyRounds k rounds ∧
              poll = [.rxError true, .rxComplete true] ++ rounds) ∨
            (u.ret = .err .serialTimeout ∧ EmptyRounds s.cfg.recvPollCycles poll))

/-- 40_link R145: `beginSession` from Idle, for every answer of the Clock pin; from any other direction it is refused.
That the wake sequence changes no more of the target than the model's record of it is the model's choice (entry 47). -/
def Obligations.BeginSessionWakesTheTarget : Prop :=
  ∀ s : State, s.control = [] →
    (s.dir = none → s.call .linkBegin [] = .refused .notInitialized) ∧
    (s.dir = some .transmitting ∨ s.dir = some .receiving → s.call .linkBegin [] = .refused .beginNotIdle) ∧
    (s.dir = some .idle → ∃ t, s.call .linkBegin [] = .next t ∧ (Prompt s → ∃ u, Returns t u) ∧
      ∀ u, Returns t u →
        u.dir = some .transmitting ∧ u.sess = s.sess ∧ u.active = s.active ∧ u.ret = .nothing ∧
        u.target = { s.target with linked := true } ∧ u.host = s.host ∧ u.calls = s.calls ∧
        u.platform.txOn = true ∧ u.platform.rxOn = s.platform.rxOn ∧ u.platform.clockOn = true ∧
        u.platform.clockPin = .output .high ∧ u.platform.dataOutPin = .output .high ∧
        u.platform.dataInPin = s.platform.dataInPin ∧
        ∃ wake, Cycles s.cfg.beginClockCycles wake ∧
          u.platform.trace =
            wake ++
              [.command .enableTx, .command .enableClock, .command (.delay s.cfg.settleDelayHighUs),
                .command (.writePin .dataOut .high), .command (.delay s.cfg.settleDelayLowUs),
                .command (.configurePinOutput .dataOut .low), .command (.configurePinOutput .clock .high)] ++
              s.platform.trace)

/-- 40_link R149: every run of `endSession()`, from every direction. That the teardown changes no more of the target
than the model's record of its clock is the model's choice (entry 47). -/
def Obligations.EndSessionTearsTheLinkDown : Prop :=
  ∀ s : State, Ready s →
    ∃ t, s.call .linkEnd [] = .next t ∧ (Prompt s → ∃ u, Returns t u) ∧
      ∀ u, Returns t u →
        u.dir = some .idle ∧ u.platform.Quiet ∧ u.sess = s.sess ∧ u.active = s.active ∧ u.ret = .nothing ∧
        u.target = { s.target with linked := false } ∧ u.host = s.host ∧ u.calls = s.calls ∧
        ∃ switch,
          u.platform.trace =
            [.command (.configurePinInput .dataIn), .command (.configurePinInput .dataOut),
              .command (.configurePinInput .clock), .command .disableClock, .command .disableTx,
              .command .disableRx] ++ switch ++ s.platform.trace ∧
          (s.dir = some .receiving → switch = []) ∧
          (s.dir = some .idle →
            switch = [.command (.configurePinInput .dataOut), .command .disableTx, .command .enableRx]) ∧
          (s.dir = some .transmitting → ∃ n,
            switch =
              [.command (.configurePinInput .dataOut), .command .disableTx, .command .enableRx,
                .command .resetTxComplete] ++ passed .txComplete n)

/-- 60_exceptions R368, 70 R400: a wait whose answers never satisfy it goes on for any number of evaluations. -/
def Obligations.UnsatisfiedWaitGoesOn : Prop :=
  ∀ (s : State) (w : Wait) (ts : List Task) (n : Nat) (bs : List Bool), s.control = .await w :: ts →
    s.platform.bits = List.replicate n (!w.wanted) ++ bs →
    ∃ t, Runs s t ∧ t.control = s.control ∧ t.platform.bits = bs ∧ t.ret = s.ret ∧ t.dir = s.dir ∧
      t.platform.trace = List.replicate n (w.event !w.wanted) ++ s.platform.trace

/-- 10_state R31, 40_link R152, 70 R404: outside a transition TX, RX and DataOut stand as `dir` says, and in Idle so do
the clock output and the other pins: every operation that begins so returns so. The whole row of R31 is kept by every
operation called in a session, and is reached by both begins; any other operation called in Idle leaves the clock
output off. -/
def Obligations.EveryOperationLeavesTheLinkMatching : Prop :=
  ∀ (s t u : State) (o : Op) (src : List Byte), s.control = [] → LinkMatches s → s.call o src = .next t →
    Returns t u →
    LinkMatches u ∧
      (RowMatches s → s.dir ≠ some .idle ∨ o = .linkBegin ∨ o = .sessionBegin → RowMatches u) ∧
      (s.dir = some .idle → o ≠ .linkBegin → o ≠ .sessionBegin → u.platform.clockOn = false)

/-! ## PDI instructions -/

/-- 41_encoder R171, R173 to R176, R180, R181: STS, ST_IND, ST_INC, ST_PTR_B, ST_IND_L, ST_INC_L, ST_PTR, REPEAT_B,
REPEAT, STCS and KEY complete: exactly their bytes go out, the target receives them, and nothing else of the core but
`dir` changes. The model's own: what a target whose repeated instruction lacks data makes of the call (entry 33), that
a target takes the bytes at once, also where it has not been woken or has no clock (entry 47), and the record of a
direct release from reset in a session (42_session R218, 93 U7; entry 24). -/
def Obligations.InstructionsWithoutReplyComplete : Prop :=
  ∀ (i : Instr) (s : State), i.channel = .pdi → hasReply i = false → (∀ k, i = .key k → k.length = 8) →
    Ready s →
    ∃ t, exec i s = .next t ∧ (Prompt s → ∃ u, Returns t u) ∧
      ∀ u, Returns t u →
        u.wire = s.wire ++ encodeWith s.cfg i ∧ u.dir = some .transmitting ∧ u.ret = .nothing ∧ u.reply = s.reply ∧
        u.platform.frames = s.platform.frames ∧ CoreFrame s u ∧
        (WireConnected s →
          u.target =
            ((s.target.beginInstruction (storesOneByte i)).noteExit
              (decide (s.sess = .programming) && leavesReset s.cfg i)).receiveAll s.cfg (encodeWith s.cfg i))

/-- 41_encoder R170, R172, R179: LDS, LD_IND, LD_INC, LD_PTR and LDCS complete: exactly their bytes go out and one
byte comes back, or a link error does. The model's own: what a target whose repeated instruction lacks data makes of the
call (entry 33), that a target takes the bytes at once, also where it has not been woken or has no clock (entry 47), that
the byte read is the target's oldest reply (entry 27), that a frame with an error leaves it there (entry 42), and what a
link error does that cuts a repeated LD short (entry 50). -/
def Obligations.InstructionsWithReplyComplete : Prop :=
  ∀ (i : Instr) (s : State), hasReply i = true → Ready s →
    ∀ T, T = (s.target.beginInstruction false).receiveAll s.cfg (encodeWith s.cfg i) →
    ∃ t, exec i s = .next t ∧
      (Prompt s → WireConnected s → s.cfg.recvPollCycles ≠ 0 → ∀ b, T.replies.head? = some b →
        ∃ u, Returns t u ∧ u.ret = .ok (.byte b)) ∧
      ∀ u, Returns t u →
        u.wire = s.wire ++ encodeWith s.cfg i ∧ u.dir = some .receiving ∧ CoreFrame s u ∧
        ((∃ b, u.ret = .ok (.byte b) ∧ u.reply = b ∧
            (WireConnected s → u.target = T.readReply)) ∨
          (LinkError u.ret ∧ u.reply = s.reply ∧ (WireConnected s → u.target = T.cutOff)))

/-- 43_nvm R242, R245: each of the 27 NVM command codes completes: it is stored to the CMD register, which selects the
command when a command may be written; no memory byte changes. That a table row stands for this store is the model's
reading (entry 10), when a command may be written is entries 22 and 51, that memory stands where it may not be and the
target is lost is entry 9, that a target which owes replies of a repeated LD is lost by the call is entry 33, and that
a target takes the bytes at once, also where it has not been woken or has no clock, is entry 47. -/
def Obligations.NvmCommandCodesAreStoredToCmd : Prop :=
  ∀ (i : Instr) (k : NvmCommand) (s : State), nvmCommandOf i = some k → Ready s →
    encodeWith s.cfg i = [nvmCode s.cfg k] ∧
    ∃ t, exec i s = .next t ∧ (Prompt s → ∃ u, Returns t u) ∧
      ∀ u, Returns t u →
        u.wire = s.wire ++ stsBytes s.cfg (nvmAddress s.cfg .cmd) (nvmCode s.cfg k) ∧ u.dir = some .transmitting ∧
        u.ret = .nothing ∧ u.reply = s.reply ∧ CoreFrame s u ∧
        (Decodable s.cfg → WireConnected s → s.target.Waiting →
          u.target.mem = s.target.mem ∧ u.target.buf = s.target.buf ∧ u.target.fuse = s.target.fuse ∧
          (s.target.nvmIdle = true → s.target.owed = 0 → u.target = { s.target with cmd := nvmCode s.cfg k }))

/-- 41_encoder R178, R182: `bulkStore` pulls and sends exactly its bytes, each pull just before its send. -/
def Obligations.BulkStoreSendsEachPulledByte : Prop :=
  ∀ (s : State) (m : PtrMode) (src : List Byte) (len : Nat), Ready s → len < 65536 → len ≤ src.length →
    ∃ t, s.call (.bulkStore m len) src = .next t ∧ (Prompt s → ∃ u, Returns t u) ∧
      ∀ u, Returns t u →
        u.ret = .ok .unit ∧ u.wire = s.wire ++ bulkStoreBytes s.cfg m (src.take len) ∧
        u.source = .bytes (src.drop len) ∧ CoreFrame s u ∧
        (len = 0 → u.platform.trace = s.platform.trace) ∧
        ∃ new, u.platform.trace = new ++ s.platform.trace ∧
          transfersOf new =
            ((bulkStoreBytes s.cfg m (src.take len)).take
              ((bulkStoreBytes s.cfg m (src.take len)).length - len)).map (fun b => .command (.writeByte b)) ++
              (src.take len).flatMap (fun d => [.pull d, .command (.writeByte d)])

/-- 41_encoder R177, R182: `bulkLoad` sends its opcodes, then gives exactly `len` replies in order, or an error alone. -/
def Obligations.BulkLoadGivesEveryReplyOrAnError : Prop :=
  ∀ (s : State) (m : PtrMode) (len : Word16), Ready s →
    ∃ t, s.call (.bulkLoad m len) [] = .next t ∧ (Prompt s → s.cfg.recvPollCycles ≠ 0 → ∃ u, Returns t u) ∧
      ∀ u, Returns t u →
        u.wire = s.wire ++ bulkLoadBytes s.cfg m len.toNat ∧ CoreFrame s u ∧
        (len = 0 → u.platform.trace = s.platform.trace ∧ u.ret = .ok (.bytes [])) ∧
        ∃ new, u.platform.trace = new ++ s.platform.trace ∧
          ((u.ret = .ok (.bytes (readsOf new)) ∧ (readsOf new).length = len.toNat) ∨
            (LinkError u.ret ∧ (readsOf new).length < len.toNat))

/-! ## Session -/

/-- 42_session R210, R211, R213: the reset and guard-time primitives. -/
def Obligations.ResetPrimitivesStoreTheirRegister : Prop :=
  ∀ s : State, Ready s →
    (∃ t, s.call .enterResetState [] = .next t ∧ (Prompt s → ∃ u, Returns t u) ∧ ∀ u, Returns t u →
      CoreFrame s u ∧ u.dir = some .transmitting ∧ u.ret = .nothing ∧
      u.wire = s.wire ++ [s.cfg.opStcsBase ||| s.cfg.csrReset.setWidth 8, s.cfg.resetSignature]) ∧
    (∃ t, s.call .exitResetState [] = .next t ∧ (Prompt s → ∃ u, Returns t u) ∧ ∀ u, Returns t u →
      CoreFrame s u ∧ u.dir = some .transmitting ∧ u.ret = .nothing ∧
      u.wire = s.wire ++ [s.cfg.opStcsBase ||| s.cfg.csrReset.setWidth 8, 0x00]) ∧
    ∀ code : BitVec 3, ∃ t, s.call (.setGuardTime code) [] = .next t ∧ (Prompt s → ∃ u, Returns t u) ∧ ∀ u, Returns t u →
      CoreFrame s u ∧ u.dir = some .transmitting ∧ u.ret = .nothing ∧
      u.wire = s.wire ++ [s.cfg.opStcsBase ||| s.cfg.csrControl.setWidth 8, code.setWidth 8]

/-- 42_session R212: `inResetState` reads the Reset CSR and reports bit 0 of the reply, whatever the other bits are. -/
def Obligations.InResetStateReportsBitZero : Prop :=
  ∀ s : State, Ready s →
    ∃ t, s.call .inResetState [] = .next t ∧ (Prompt s → ∃ u, Returns t u) ∧
      ∀ u, Returns t u →
        u.wire = s.wire ++ [s.cfg.opLdcsBase ||| s.cfg.csrReset.setWidth 8] ∧ CoreFrame s u ∧
        u.dir = some .receiving ∧
        ((∃ b new, u.platform.trace = .readByte b :: new ++ s.platform.trace ∧
            u.ret = .ok (.bool (b.getLsbD 0))) ∨ LinkError u.ret)

/-- 42_session R215: `begin` from Idle, for every answer: it returns Ok in Programming, or does not return; from
Transmitting or Receiving it is refused, and while a session is active (from Idle, that is entry 46). What a target
whose repeated instruction lacks data makes of the call is entry 33, and that the wake sequence changes no more of the
target than the model's record of it and that the target takes each byte at once entry 47. -/
def Obligations.SessionBeginReachesProgramming : Prop :=
  ∀ s : State, s.control = [] →
    (s.dir = some .transmitting ∨ s.dir = some .receiving → s.call .sessionBegin [] = .refused .beginNotIdle) ∧
    (s.dir = some .idle → s.active = true → s.call .sessionBegin [] = .refused .sessionIsActive) ∧
    (s.dir = some .idle → s.active = false →
      ∃ t, s.call .sessionBegin [] = .next t ∧ (Prompt s → ∃ u, Returns t u) ∧
        ∀ u, Returns t u →
          u.ret = .ok .unit ∧ u.dir = some .transmitting ∧ u.sess = .programming ∧ u.active = true ∧
          u.wire = s.wire ++ beginBytes s.cfg ∧ u.host = s.host ∧ u.calls = s.calls ∧
          u.target =
            ({ s.target.beginInstruction false with linked := true } : Target).receiveAll s.cfg (beginBytes s.cfg) ∧
          ∃ v w, Runs t v ∧ Runs v w ∧ Runs w u ∧ v.sess = .linkUp ∧ v.wire = s.wire ∧
            w.sess = .targetInReset ∧ w.wire = s.wire ++ (beginBytes s.cfg).take 2)

/-- 70 R393, R400, 42_session R216: every run of `Session.end`, whatever errors its receives meet: the ignored wait, then
rounds of STCS Reset 0x00 and LDCS Reset until a reply has bit 0 clear, a receive fails or POLL_LIMIT is used up, and
only then the teardown; it returns Ok, and `begin` is allowed again. -/
def Obligations.SessionEndAlwaysCloses : Prop :=
  ∀ s : State, Ready s →
    ∃ t, s.call .sessionEnd [] = .next t ∧ (Answered s → ∃ u, Returns t u) ∧
      ∀ u, Returns t u →
        u.ret = .ok .unit ∧ u.dir = some .idle ∧ u.sess = .ended ∧ u.active = false ∧ u.platform.Quiet ∧
        u.host = s.host ∧ u.calls = s.calls ∧ (∃ v, u.call .sessionBegin [] = .next v) ∧
        ∃ n wait rounds switch,
          u.platform.trace =
            [.command (.configurePinInput .dataIn), .command (.configurePinInput .dataOut),
              .command (.configurePinInput .clock), .command .disableClock, .command .disableTx,
              .command .disableRx] ++ switch ++ rounds ++ wait ++ s.platform.trace ∧
          (WaitedOut s.cfg (wireOf wait) ∨ WaitCut s.cfg (wireOf wait)) ∧
          wireOf rounds = (List.replicate n (resetRound s.cfg)).flatten ∧
          ResetLoopEnds s.cfg n (readsOf rounds) ∧ wireOf switch = [] ∧ (1 ≤ n → switch = [])

/-- 42_session R219, 44_flash_fuse R271: `active` reports the flag, and `realAddress` adds the section's base modulo
2^32; neither makes a Platform call or changes anything else. -/
def Obligations.PureCallsAnswerAtOnce : Prop :=
  ∀ s : State, Ready s →
    (∃ t, s.call .sessionActive [] = .next t ∧
      Returns t { s with ret := .value (.bool s.active), source := .bytes [] }) ∧
    ∀ off : Word,
      ∀ p ∈ [(FlashSection.unspecified, s.cfg.flashBase), (.app, s.cfg.appBase), (.boot, s.cfg.bootBase)],
        ∃ t, s.call (.realAddress off p.1) [] = .next t ∧
          Returns t { s with ret := .value (.word (p.2 + off)), source := .bytes [] }

/-! ## NVM -/

/-- 43_nvm R248, R249, 70 R400: every run of `waitWhileBusy`: the stage-1 polls, one pointer store, the stage-2 polls;
each stage ends at the first reply that satisfies its test; POLL_LIMIT bounds the polls of each stage, in runs that
return Ok and in runs that end in an error. -/
def Obligations.WaitWhileBusyPollsInTwoStages : Prop :=
  ∀ s : State, Ready s →
    ∃ t, s.call .waitWhileBusy [] = .next t ∧ (Answered s → ∃ u, Returns t u ∧ u.ret = .ok .unit) ∧
      ∀ u, Returns t u →
        CoreFrame s u ∧
        ∃ new, u.platform.trace = new ++ s.platform.trace ∧
          ((∃ xs x ys y,
              u.ret = .ok .unit ∧ readsOf new = xs ++ [x] ++ ys ++ [y] ∧
              (∀ b ∈ xs, b.getLsbD 1 = false) ∧ x.getLsbD 1 = true ∧ (∀ b ∈ ys, b.getLsbD 7 = true) ∧
              y.getLsbD 7 = false ∧ wireOf new = busyBytes s.cfg (xs.length + 1) (ys.length + 1) ∧
              ∀ N, s.cfg.pollLimit = some N → xs.length < N ∧ ys.length < N) ∨
            (LinkError u.ret ∧ WaitCutWithin s.cfg (wireOf new)))

/-- 43_nvm R246, R247: `execute` stores 0x01 to CTRLA; `execCommand` is `writeCommand` and `execute`. -/
def Obligations.ExecuteStoresCtrlA : Prop :=
  ∀ s : State, Ready s →
    (∃ t, s.call .execute [] = .next t ∧ (Prompt s → ∃ u, Returns t u) ∧ ∀ u, Returns t u →
      CoreFrame s u ∧ u.dir = some .transmitting ∧ u.ret = .nothing ∧
      u.wire = s.wire ++ stsBytes s.cfg (s.cfg.nvmBase + s.cfg.nvmOffCtrlA) 0x01) ∧
    ∀ k, ∃ t, s.call (.execCommand k) [] = .next t ∧ (Prompt s → ∃ u, Returns t u) ∧ ∀ u, Returns t u →
      CoreFrame s u ∧ u.dir = some .transmitting ∧ u.ret = .nothing ∧
      u.wire = s.wire ++ stsBytes s.cfg (s.cfg.nvmBase + s.cfg.nvmOffCmd) (nvmCode s.cfg k) ++
        stsBytes s.cfg (s.cfg.nvmBase + s.cfg.nvmOffCtrlA) 0x01

/-- 43_nvm R251, R252, 44_flash_fuse R274, R275, R277, R278, R282: eraseChip, eraseSection, eraseBuffer, erasePage,
writePageFromBuffer and Fuse.write wait first, then send their command and its trigger; an error comes from the
wait, before any byte of the command. -/
def Obligations.CommandsAreSentOnlyAfterTheWait : Prop :=
  ∀ (s : State) (o : Op) (tail : List Byte), Ready s → commandBytes s.cfg o = some tail →
    ∃ t, s.call o [] = .next t ∧ (Answered s → ∃ u, Returns t u ∧ u.ret = .ok .unit) ∧
      ∀ u, Returns t u →
        CoreFrame s u ∧
        ((u.ret = .ok .unit ∧ u.dir = some .transmitting ∧ ∃ w, WaitedOut s.cfg w ∧ u.wire = s.wire ++ w ++ tail) ∨
          (LinkError u.ret ∧ ∃ w, WaitCut s.cfg w ∧ u.wire = s.wire ++ w))

/-- 43_nvm R250: every run of `readMemory`: the result is the last `len` replies. -/
def Obligations.ReadMemoryReadsThroughThePointer : Prop :=
  ∀ (s : State) (a : Word) (len : Word16), Ready s →
    ∃ t, s.call (.readMemory a len) [] = .next t ∧ (Answered s → ∃ u, Returns t u) ∧
      ∀ u, Returns t u →
        CoreFrame s u ∧
        (len = 0 → u.ret = .ok (.bytes []) ∧ u.platform.trace = s.platform.trace) ∧
        (len ≠ 0 →
          let tail :=
            stsBytes s.cfg (nvmAddress s.cfg .cmd) (nvmCode s.cfg .readNvm) ++ pointerBytes s.cfg a ++
              bulkLoadBytes s.cfg .autoInc len.toNat
          (∃ new polls bs w, u.platform.trace = new ++ s.platform.trace ∧ readsOf new = polls ++ bs ∧
              bs.length = len.toNat ∧ u.ret = .ok (.bytes bs) ∧ WaitedOut s.cfg w ∧
              u.wire = s.wire ++ w ++ tail) ∨
            (LinkError u.ret ∧
              ((∃ w, WaitCut s.cfg w ∧ u.wire = s.wire ++ w) ∨
                ∃ w, WaitedOut s.cfg w ∧ u.wire = s.wire ++ w ++ tail)))

/-! ## Flash and fuse -/

/-- 60_exceptions R366(1), 44_flash_fuse R274, R276: the argument checks end the call with their error at once, with no
Platform call. -/
def Obligations.ArgumentErrorsComeBeforeTraffic : Prop :=
  ∀ (s : State) (off : Word), Ready s →
    s.call (.eraseSection off .unspecified) [] =
        .next { s with ret := .err .invalidSection, source := .bytes [] } ∧
      ∀ sec len src, s.cfg.pageSize < len → len < 65536 → len ≤ src.length →
        s.call (.writeBuffer off len sec) src =
          .next { s with ret := .err .invalidLength, source := .bytes src }

/-- 44_flash_fuse R276: every run of `writeBuffer` with a length the page holds. -/
def Obligations.WriteBufferLoadsThePageBuffer : Prop :=
  ∀ (s : State) (off : Word) (sec : FlashSection) (len : Nat) (src : List Byte), Ready s →
    len ≤ s.cfg.pageSize → len < 65536 → len ≤ src.length →
    ∃ t, s.call (.writeBuffer off len sec) src = .next t ∧ (Answered s → ∃ u, Returns t u ∧ u.ret = .ok .unit) ∧
      ∀ u, Returns t u →
        CoreFrame s u ∧
        ((u.ret = .ok .unit ∧ u.source = .bytes (src.drop len) ∧
            ∃ w, WaitedOut s.cfg w ∧
              u.wire = s.wire ++ w ++ loadBufferBytes s.cfg (realAddress s.cfg off sec) (src.take len)) ∨
          (LinkError u.ret ∧ u.source = .bytes src ∧ ∃ w, WaitCut s.cfg w ∧ u.wire = s.wire ++ w))

/-- 44_flash_fuse R279, 60_exceptions R366: every run of `writePage` called directly: the buffer is erased, loaded and
committed, and the first error ends it; a length above a page gives InvalidLength only after the traffic of
`eraseBuffer`. -/
def Obligations.WritePageStopsAtTheFirstError : Prop :=
  ∀ (s : State) (off : Word) (pre : Bool) (sec : FlashSection) (len : Nat) (src : List Byte), Ready s →
    len < 65536 → len ≤ src.length →
    ∃ t, s.call (.writePage off len pre sec) src = .next t ∧ (Answered s → ∃ u, Returns t u) ∧
      ∀ u, Returns t u →
        CoreFrame s u ∧
        ∃ erase commit,
          commandBytes s.cfg .eraseBuffer = some erase ∧
          commandBytes s.cfg (.writePageFromBuffer off pre sec) = some commit ∧
          ((LinkError u.ret ∧ u.source = .bytes src ∧ ∃ w, WaitCut s.cfg w ∧ u.wire = s.wire ++ w) ∨
            ∃ w1, WaitedOut s.cfg w1 ∧
              (s.cfg.pageSize < len →
                u.ret = .err .invalidLength ∧ u.source = .bytes src ∧ u.wire = s.wire ++ w1 ++ erase) ∧
              (len ≤ s.cfg.pageSize →
                (LinkError u.ret ∧ u.source = .bytes src ∧
                    ∃ w2, WaitCut s.cfg w2 ∧ u.wire = s.wire ++ w1 ++ erase ++ w2) ∨
                  ∃ w2, WaitedOut s.cfg w2 ∧ u.source = .bytes (src.drop len) ∧
                    let loaded :=
                      s.wire ++ w1 ++ erase ++ w2 ++
                        loadBufferBytes s.cfg (realAddress s.cfg off sec) (src.take len)
                    (LinkError u.ret ∧ ∃ w3, WaitCut s.cfg w3 ∧ u.wire = loaded ++ w3) ∨
                      (u.ret = .ok .unit ∧ ∃ w3, WaitedOut s.cfg w3 ∧ u.wire = loaded ++ w3 ++ commit)))

/-- 44_flash_fuse R280, R281: `write` that returns Ok has sent exactly ceil(len / PAGE_SIZE) page sequences, chunk k at
offset off + k * PAGE_SIZE with its bytes of the source; any other result is a link error. -/
def Obligations.WriteSendsOneSequencePerPage : Prop :=
  ∀ (s : State) (off len : Word) (pre : Bool) (sec : FlashSection) (src : List Byte), Ready s →
    1 ≤ s.cfg.pageSize → len.toNat ≤ src.length →
    ∃ t, s.call (.write off len pre sec) src = .next t ∧
      (Answered s → PagesMissStatus s.cfg off len.toNat sec → ∃ u, Returns t u ∧ u.ret = .ok .unit) ∧
      ∀ u, Returns t u →
        CoreFrame s u ∧
        ((u.ret = .ok .unit ∧ u.source = .bytes (src.drop len.toNat) ∧
            ∃ bs, PagesWritten s.cfg off pre sec (src.take len.toNat) bs ∧ u.wire = s.wire ++ bs) ∨
          LinkError u.ret)

/-! ## The target -/

/-- 30_encoding R109, R117, 45 R311: a target that waits for an opcode executes each instruction when its last byte has
arrived. -/
def Obligations.TargetExecutesOnTheLastByte : Prop :=
  ∀ (t : Target) (c : Config) (i : Instr), t.Waiting → Decodable c → i.channel = .pdi → i.wellFormed = true →
    t.receiveAll c (encodeWith c i) = t.execute c i ∧
      ∀ n < (encodeWith c i).length,
        t.receiveAll c ((encodeWith c i).take n) = { t with pending := (encodeWith c i).take n }

/-- 30_encoding R109, 41_encoder R175, R176, 45 R312, R314: REPEAT n, in either form, before LD gives n + 1 replies; the
pointer stays, or advances once for each in the auto-increment mode; no memory changes. After the Direct form, whose
replies are free, the target is lost (93 U2, entry 9). -/
def Obligations.RepeatedLoadRepliesOncePerExecution : Prop :=
  ∀ (t : Target) (c : Config) (r : Instr) (n : Word16), t.Waiting → Decodable c → RepeatOf r n →
    (∀ u, u = t.receiveAll c (encodeWith c r ++ encodeWith c .ldInd) →
      u.Waiting ∧ u.replies.length = t.replies.length + (n.toNat + 1) ∧ u.ptr = t.ptr ∧
        u.mem = t.mem ∧ u.buf = t.buf ∧ u.fuse = t.fuse) ∧
    (∀ u, u = t.receiveAll c (encodeWith c r ++ encodeWith c .ldInc) →
      u.Waiting ∧ u.replies.length = t.replies.length + (n.toNat + 1) ∧
        u.mem = t.mem ∧ u.buf = t.buf ∧ u.fuse = t.fuse ∧
        (t.ptr.toNat + n.toNat + 1 < 2 ^ 32 → u.ptr = t.ptr + BitVec.ofNat 32 (n.toNat + 1))) ∧
    ∀ u, u = t.receiveAll c (encodeWith c r ++ encodeWith c .ldPtr) →
      u.lost = true ∧ u.rep = 0 ∧ u.replies.length = t.replies.length + (n.toNat + 1) ∧ u.ptr = t.ptr ∧
        u.mem = t.mem ∧ u.buf = t.buf ∧ u.fuse = t.fuse

/-- 41_encoder R177, 45 R312 to R314, R320: what single and repeated loads reply, where it is the byte of memory: LDS
at its operand, LD_IND the byte at the pointer, again for each execution, LD_INC the bytes from the pointer on. Where
that is, is `Target.Reads`: which addresses are NVM addresses, when the controller may be used and when a reply is
stated are the model's (entries 43, 22 and 24), and so are the count of replies owed (entry 50), that outside RT a read
under ReadNvm leaves BUSY as it was and is on record as one that may still run (entry 51), that plain memory replies as
before while a command runs (entry 21), and what the reference target's LDS reads at a fuse address (entry 24). On the
reference target a REPEAT of count 0 is none (R325). -/
def Obligations.LoadsReadMemory : Prop :=
  ∀ (t : Target) (c : Config), t.Waiting →
    (∀ a, t.Reads c true a →
      t.execute c (.lds a) =
        { t with replies := t.replies ++ [t.mem.read a.toNat], working := t.working || t.startsRead c a }) ∧
    (t.Reads c false t.ptr →
      ∀ u, u = { t with
          replies := t.replies ++ [t.mem.read t.ptr.toNat], working := t.working || t.startsRead c t.ptr } →
        t.execute c .ldInd = u ∧
          (t.ptr ≠ 0xFFFFFFFF → t.execute c .ldInc = { u with ptr := t.ptr + 1 })) ∧
    ∀ (r : Instr) (n : Word16), Decodable c → RepeatOf r n →
      (t.Reads c false t.ptr →
        t.receiveAll c (encodeWith c r ++ encodeWith c .ldInd) =
          { t with
            replies := t.replies ++ List.replicate (n.toNat + 1) (t.mem.read t.ptr.toNat)
            working := t.working || t.startsRead c t.ptr
            owed := if n = 0 ∧ t.kind = .reference then t.owed else t.replies.length + (n.toNat + 1) }) ∧
      (t.ptr.toNat + n.toNat + 1 < 2 ^ 32 → (∀ k ≤ n.toNat, t.Reads c false (t.ptr + BitVec.ofNat 32 k)) →
        t.receiveAll c (encodeWith c r ++ encodeWith c .ldInc) =
          { t with
            ptr := t.ptr + BitVec.ofNat 32 (n.toNat + 1)
            working :=
              t.working || (List.range (n.toNat + 1)).any (fun k => t.startsRead c (t.ptr + BitVec.ofNat 32 k))
            owed := if n = 0 ∧ t.kind = .reference then t.owed else t.replies.length + (n.toNat + 1)
            replies := t.replies ++ (List.range (n.toNat + 1)).map (fun k => t.mem.read (t.ptr.toNat + k)) })

/-- 41_encoder R178, 45 R312, R314: ST_INC with its REPEAT, in either form, writes its data bytes at consecutive
addresses of plain memory from the pointer on; ST_IND writes them all at the pointer, where the last one stands. Every
other byte of memory, the page buffer and the fuses are unchanged. The model's own: which addresses are plain memory
(entry 43), and that it takes a store at all times, also out of reset (entry 22) and while a command runs (entry 21).
-/
def Obligations.RepeatedStoreWritesConsecutiveBytes : Prop :=
  ∀ (t : Target) (c : Config) (r : Instr) (n : Word16) (ds : List Byte), t.Waiting → Decodable c → RepeatOf r n →
    ds.length = n.toNat + 1 → t.cmd ≠ c.nvmCodes.loadFlashPageBuffer →
    (t.ptr.toNat + ds.length < 2 ^ 32 → (∀ k < ds.length, PlainAddress c (t.ptr + BitVec.ofNat 32 k)) →
      ∀ u, u = t.receiveAll c (encodeWith c r ++ stOpcode c .autoInc :: ds) →
        u.Waiting ∧ u.ptr = t.ptr + BitVec.ofNat 32 ds.length ∧ u.buf = t.buf ∧ u.fuse = t.fuse ∧
          u.replies = t.replies ∧
          ∀ x, u.mem.read x =
            if t.ptr.toNat ≤ x ∧ x < t.ptr.toNat + ds.length then ds.getD (x - t.ptr.toNat) 0 else t.mem.read x) ∧
    (PlainAddress c t.ptr →
      ∀ u, u = t.receiveAll c (encodeWith c r ++ stOpcode c .indirect :: ds) →
        u.Waiting ∧ u.ptr = t.ptr ∧ u.buf = t.buf ∧ u.fuse = t.fuse ∧ u.replies = t.replies ∧
          ∀ x, u.mem.read x = if x = t.ptr.toNat then ds.getD n.toNat 0 else t.mem.read x)

/-- 45 R313, R314: at an address of plain memory STS writes its byte at its operand, and LDS then replies with it;
ST_IND and ST_INC, not under LoadFlashPageBuffer, write theirs at the pointer. Every other byte is unchanged. Which
addresses are plain memory is the model's choice (entry 43), and so are that it takes a store at all times, also out of
reset (entry 22), and reads and takes stores as before while a command runs (entry 21), and that outside RT a reply is
stated only where `Target.replyStated` says so (entry 24). -/
def Obligations.PlainStoresWriteOneByte : Prop :=
  ∀ (t : Target) (c : Config) (a : Word) (d : Byte), t.Waiting →
    (PlainAddress c a →
      ∃ m, t.execute c (.sts a d) = { t with mem := m, erased := cutRange a.toNat 1 t.erased } ∧
        (∀ x, m.read x = if x = a.toNat then d else t.mem.read x) ∧
        (t.replyStated = true → ((t.execute c (.sts a d)).execute c (.lds a)).replies = t.replies ++ [d])) ∧
    (PlainAddress c t.ptr → t.cmd ≠ c.nvmCodes.loadFlashPageBuffer →
      ∃ m, (∀ x, m.read x = if x = t.ptr.toNat then d else t.mem.read x) ∧
        t.execute c (.stInd d) = { t with mem := m, erased := cutRange t.ptr.toNat 1 t.erased } ∧
        (t.ptr ≠ 0xFFFFFFFF →
          t.execute c (.stInc d) =
            { t with mem := m, erased := cutRange t.ptr.toNat 1 t.erased, ptr := t.ptr + 1 }))

/-- 45 R311 to R318: LDS, LD_IND, LD_INC, LD_PTR, LDCS, STCS, KEY, REPEAT_B, REPEAT, ST_PTR, ST_PTR_B, ST_IND_L and
ST_INC_L store nothing: every byte of memory, page buffer and fuses reads as before, whatever the target's state.
Outside RT a store to the Reset CSR keeps the fuses and the NVM addresses, as the model reads 47 R346, unless it cuts a
command short (entry 37). That memory stands where the target is lost is the model's choice (entry 9). And ST_PTR loads
the pointer with its operand (R314), which ends a run of loads of the page buffer (the model's record, entry 21). -/
def Obligations.OtherInstructionsStoreNothing : Prop :=
  ∀ (t : Target) (c : Config),
    (t.Waiting → ∀ a, t.execute c (.stPtr a) = { t with ptr := a, bufRun := none }) ∧
    ∀ i : Instr, (∀ a d, i ≠ .sts a d) → (∀ d, i ≠ .stInd d) → (∀ d, i ≠ .stInc d) →
      ∀ x, (t.kind = .reference ∨ t.underway = false ∨ (∀ r d, i = .stcs r d → r.setWidth 4 ≠ c.csrReset) →
          (t.execute c i).fuse.read x = t.fuse.read x ∧
          (isNvm c (BitVec.ofNat 32 x) = true → (t.execute c i).mem.read x = t.mem.read x)) ∧
        (t.kind = .reference ∨ (∀ r d, i = .stcs r d → r.setWidth 4 ≠ c.csrReset) →
          (t.execute c i).mem.read x = t.mem.read x ∧ (t.execute c i).buf.read x = t.buf.read x)

/-- 44_flash_fuse R273, 45 R321: the value of the store to an NVM address that triggers an erase or a page write does not
matter. -/
def Obligations.TriggerValueDoesNotMatter : Prop :=
  ∀ (t : Target) (c : Config) (a : Word) (d d' : Byte), TriggerAddress c a →
    t.cmd ∈
      [c.nvmCodes.eraseFlashPage, c.nvmCodes.eraseAppPage, c.nvmCodes.eraseBootPage, c.nvmCodes.writeFlashPage,
        c.nvmCodes.writeAppPage, c.nvmCodes.writeBootPage, c.nvmCodes.eraseWriteFlashPage,
        c.nvmCodes.eraseWriteAppPage, c.nvmCodes.eraseWriteBootPage, c.nvmCodes.eraseAppSection,
        c.nvmCodes.eraseBootSection] →
    t.storeDirect c a d = t.storeDirect c a d'

/-- 45 R326 (the spec's reference target): the page commands. Only the page of the trigger address changes. Which
addresses are NVM addresses is the model's choice (entry 43). -/
def Obligations.ReferencePageCommands : Prop :=
  ∀ (t : Target) (c : Config) (a : Word) (d : Byte), t.Waiting → t.kind = .reference → Decodable c →
    TriggerAddress c a → 1 ≤ c.pageSize → pageStart c a.toNat + c.pageSize ≤ 2 ^ 32 →
    ∀ k pre, (t.cmd = nvmCode c (erasePageCommand k) →
        ∃ m, t.execute c (.sts a d) = { t with mem := m } ∧
          ∀ x, (InPage c a.toNat x → m.read x = 0xFF) ∧ (¬InPage c a.toNat x → m.read x = t.mem.read x)) ∧
      (t.cmd = nvmCode c (writePageCommand pre k) →
        ∃ m, t.execute c (.sts a d) = { t with mem := m } ∧
          ∀ x,
            (InPage c a.toNat x →
              m.read x = (if pre then 0xFF else t.mem.read x) &&& t.buf.read (x % c.pageSize)) ∧
            (¬InPage c a.toNat x → m.read x = t.mem.read x))

/-- 45 R319, R326 (the spec's reference target): ChipErase and EraseFlashPageBuffer through bit 0 of CTRLA, the section
erases through either trigger, WriteFuse through its store. Which addresses are NVM addresses, and the extents of the
sections, are the model's choice (entries 43 and 25). -/
def Obligations.ReferenceWholeCommands : Prop :=
  ∀ (t : Target) (c : Config) (a : Word) (d v : Byte), t.Waiting → t.kind = .reference → Decodable c →
    nvmAddress c .ctrlA ≠ nvmAddress c .cmd → TriggerAddress c a → v.getLsbD 0 = true →
    let executed := t.execute c (.sts (nvmAddress c .ctrlA) v)
    (t.cmd = nvmCode c .chipErase →
      (∀ x, executed.mem.read x = 0xFF) ∧ executed.buf = t.buf ∧ executed.fuse = t.fuse ∧ executed.Waiting) ∧
    (t.cmd = nvmCode c .eraseFlashPageBuffer →
      (∀ x, executed.buf.read x = 0xFF) ∧ executed.mem = t.mem ∧ executed.fuse = t.fuse ∧ executed.Waiting) ∧
    (t.cmd = nvmCode c .writeFuse → ∀ u, u = t.execute c (.sts a d) →
      u.mem = t.mem ∧ u.buf = t.buf ∧ u.Waiting ∧ ∀ x, u.fuse.read x = if x = a.toNat then d else t.fuse.read x) ∧
    ∀ u, u = executed ∨ u = t.execute c (.sts a d) →
      (t.cmd = nvmCode c .eraseAppSection → c.appBase.toNat + c.appSize ≤ 2 ^ 32 →
        u.buf = t.buf ∧ u.fuse = t.fuse ∧ u.Waiting ∧
        ∀ x, u.mem.read x =
          if c.appBase.toNat ≤ x ∧ x < c.appBase.toNat + c.appSize then 0xFF else t.mem.read x) ∧
      (t.cmd = nvmCode c .eraseBootSection → c.bootBase.toNat + c.bootSize ≤ 2 ^ 32 →
        u.buf = t.buf ∧ u.fuse = t.fuse ∧ u.Waiting ∧
        ∀ x, u.mem.read x =
          if c.bootBase.toNat ≤ x ∧ x < c.bootBase.toNat + c.bootSize then 0xFF else t.mem.read x)

/-- 20_memory R85, 45 R324, R326: on the reference target, the bytes the core sends to erase the buffer, load it with 0
to PAGE_SIZE bytes, commit it at a page boundary and read back give exactly the bytes supplied, in order, where the
page is erased by the commit itself, by an earlier page erase or by a chip erase (`first`). The page then holds the
bytes and erased cells, and outside it nothing changes. Which addresses are NVM addresses is the model's choice (entry
43). -/
def Obligations.PageRoundTripOnTheReferenceTarget : Prop :=
  ∀ (t : Target) (c : Config) (a : Word) (d : Byte) (ds : List Byte) (pre : Bool) (sec : FlashSection)
    (first : List Byte), t.Waiting → t.kind = .reference → Decodable c →
    nvmAddress c .ctrlA ≠ nvmAddress c .cmd → 1 ≤ c.pageSize → ds.length ≤ c.pageSize → ds.length ≤ 65536 →
    a.toNat % c.pageSize = 0 → a.toNat + c.pageSize < 2 ^ 32 → isNvm c a = true →
    (∀ k < c.pageSize, NoRegister c (a + BitVec.ofNat 32 k)) →
    let select := fun k => stsBytes c (nvmAddress c .cmd) (nvmCode c k)
    let execute := stsBytes c (nvmAddress c .ctrlA) 0x01
    (pre = true ∧ first = [] ∨ (∃ k v, first = select (erasePageCommand k) ++ stsBytes c a v) ∨
      first = select .chipErase ++ execute) →
    ∀ v, v = t.receiveAll c first →
    ∀ u, u = v.receiveAll c
        (select .eraseFlashPageBuffer ++ execute ++ loadBufferBytes c a ds ++ select (writePageCommand pre sec) ++
          stsBytes c a d) →
      (∀ x, ¬InPage c a.toNat x → u.mem.read x = v.mem.read x) ∧
        (∀ k < c.pageSize, u.mem.read (a.toNat + k) = ds.getD k 0xFF) ∧
        (u.receiveAll c (select .readNvm ++ pointerBytes c a ++ bulkLoadBytes c .autoInc ds.length)).replies =
          t.replies ++ ds

/-- 45 R315 to R318, R326, 10_state R51 to R53: STCS Reset and Control, LDCS Reset, Status and Control, KEY. On the
reference target exactly as R326 says. Otherwise the signature holds the target in reset, and LDCS Reset then reports
it where replies are stated; after STCS Reset 0x00 the reply may be any (R315, 93 U7), and the first 0 shows that the
target has left reset. Deduced by the model: wrong bytes give a target no key, and held without it, where replies are
stated, it reports NVMEN clear (R181, 93 U10; entry 45). The model's own there: what target reset keeps where it cuts
no command short, and that the release takes the key (entry 37), where replies are stated (entries 24 and 47), that
STCS Control stores its byte and changes nothing else, and outside RT loses the target where bits 7:3 are not 0 (entry
48), what a 0 in bit 0 of the Reset CSR is taken to show outside reset (entry 24), what else a KEY leaves (entry 45),
and that a target held and keyed is taken to be as awake as LDCS Status last said, and as asleep after target reset and
a wrong KEY (entry 22). -/
def Obligations.TargetControlRegisters : Prop :=
  ∀ (t : Target) (c : Config), t.Waiting → c.csrReset ≠ c.csrStatus → c.csrControl ≠ c.csrStatus →
    c.csrControl ≠ c.csrReset → c.resetSignature ≠ 0x00 →
    (∀ d, t.execute c (.stcs (csrOperand c.csrControl) d) =
      if t.kind = .reference ∨ d.extractLsb' 3 5 = 0 then { t with control := d } else t.lose) ∧
    (t.resetLine = .held → t.execute c (.key c.pdiKey) = { t with keyed := true }) ∧
    (t.kind = .reference →
      t.execute c (.stcs (csrOperand c.csrReset) c.resetSignature) = { t with resetLine := .held } ∧
        t.execute c (.stcs (csrOperand c.csrReset) 0x00) = { t with resetLine := .released, keyed := false } ∧
        t.execute c (.ldcs (csrOperand c.csrReset)) =
          { t with replies := t.replies ++ [if t.resetLine = .held then 0x01 else 0x00] } ∧
        t.execute c (.ldcs (csrOperand c.csrStatus)) =
          { t with replies := t.replies ++ [if t.resetLine = .held ∧ t.keyed = true then 0x02 else 0x00] } ∧
        t.execute c (.ldcs (csrOperand c.csrControl)) = { t with replies := t.replies ++ [t.control] } ∧
        ∀ k, t.execute c (.key k) =
          { t with keyed := t.keyed || decide (k = c.pdiKey ∧ t.resetLine = .held) }) ∧
    (t.kind = .contract →
      (∀ d u, u = t.execute c (.stcs (csrOperand c.csrReset) d) → d = c.resetSignature ∨ d = 0x00 →
        u.Waiting ∧ u.replies = t.replies ∧
          (t.underway = false →
            u.fuse = t.fuse ∧ ∀ x, isNvm c (BitVec.ofNat 32 x) = true → u.mem.read x = t.mem.read x) ∧
          (t.keyed = false → u.keyed = false) ∧
          (d = c.resetSignature → u.resetLine = .held ∧ u.awake = false ∧ u.linked = t.linked ∧ u.adrift = t.adrift) ∧
          (d = 0x00 → (u.resetLine = if t.resetLine = .released then .released else .leaving) ∧
            (t.resetLine = .held → u.keyed = false ∧ u.linked = false))) ∧
      (∃ r l n, t.execute c (.ldcs (csrOperand c.csrReset)) =
          { t with replies := t.replies ++ [r], resetLine := l, fresh := n } ∧
        (t.resetLine = .held → l = .held) ∧ (t.replyStated = true → r.getLsbD 0 = true) ∧
        (t.resetLine = .leaving → l = if r.getLsbD 0 then .leaving else .released) ∧
        (t.resetLine = .released → l = .released)) ∧
      (t.keyed = false → ∀ k, k ≠ c.pdiKey → ∃ n, t.execute c (.key k) = { t with awake := false, fresh := n }) ∧
      (t.replyStated = true → t.keyed = false → ∃ r n, t.execute c (.ldcs (csrOperand c.csrStatus)) =
          { t with replies := t.replies ++ [r], fresh := n } ∧ r.getLsbD 1 = false) ∧
      (t.replyStated = true → t.keyed = true → ∃ r n, t.execute c (.ldcs (csrOperand c.csrStatus)) =
          { t with replies := t.replies ++ [r], awake := r.getLsbD 1, fresh := n }) ∧
      (t.replyStated = true → ∃ r n, t.execute c (.ldcs (csrOperand c.csrControl)) =
          { t with replies := t.replies ++ [r], fresh := n } ∧ r.extractLsb' 0 3 = t.control.extractLsb' 0 3))

/-- 45 R319, R320, R326, 10_state R54: reads of the NVM registers, by LDS and by LD through the pointer, and bit 0 of
CTRLA. On the reference target STATUS reads 0x00. Otherwise bit 7 of STATUS is whether a command still runs, and is 0
when none did. CMD reads as the selected command. A store of 0x01 to CTRLA, on the reference target any with bit 0 set,
begins the command in CMD, whatever it is. That the registers' values are stated only while the target is in reset, its
replies are stated, it is keyed and has last reported NVMEN, and when the controller may be used, are entries 24 and
22; that the records of a command underway and of a load or read that may still run follow bit 7 is entries 37 and 51;
that outside RT any other store to CTRLA loses the target, and the record of its last byte, which RT does not have
(R325), are entry 48; that the pointer, CMD and the replies stand under a command whose effect no rule states is entry
23. -/
def Obligations.NvmRegistersAreReadAndExecuted : Prop :=
  ∀ (t : Target) (c : Config) (i : Instr), t.Waiting →
    (i = .lds (nvmAddress c .status) ∨ i = .ldInd ∧ t.ptr = nvmAddress c .status →
      (t.kind = .reference → t.execute c i = { t with replies := t.replies ++ [0x00] }) ∧
      (t.kind = .contract → t.replyStated = true → t.keyed = true → t.awake = true →
        ∃ r n, t.execute c i =
            { t with
              replies := t.replies ++ [r], busy := r.getLsbD 7, working := false
              underway := t.underway && r.getLsbD 7, fresh := n } ∧
          (t.busy = false → t.working = false → r.getLsbD 7 = false))) ∧
    (i = .lds (nvmAddress c .cmd) ∨ i = .ldInd ∧ t.ptr = nvmAddress c .cmd →
      nvmAddress c .cmd ≠ nvmAddress c .status → nvmAddress c .cmd ≠ nvmAddress c .ctrlA →
      t.kind = .reference ∨ t.replyStated = true ∧ t.keyed = true ∧ t.awake = true →
      t.execute c i = { t with replies := t.replies ++ [t.cmd] }) ∧
    ∀ d, i = .sts (nvmAddress c .ctrlA) d → nvmAddress c .ctrlA ≠ nvmAddress c .cmd → t.nvmIdle = true →
      ∀ u, u = t.execute c i →
      (d = 0x01 ∨ t.kind = .reference ∧ d.getLsbD 0 = true →
        u.lost = false ∧ u.ctrlA = d ∧ u.cmd = t.cmd ∧ u.ptr = t.ptr ∧ u.replies = t.replies ∧
          u.busy = (t.busy || decide (t.kind = .contract))) ∧
      (t.kind = .contract → d ≠ 0x01 → u = t.lose) ∧ (t.kind = .reference → d.getLsbD 0 = false → u = t)

/-- 20_memory R85, 45 R321 to R324, 93 U4 to U6: outside the reference target. WriteFuse by an STS at a fuse address
stores its value in the fuse there, and, by the model's choice (entry 21), in memory at that address; nothing else of
either changes. ST through the pointer under LoadFlashPageBuffer sets the pointer's cell of the page buffer, which then
holds bytes of the pointer's page, and keeps the page's other cells. A page erase or page write triggered at the
beginning of a page, not at a fuse address, changes no byte outside the page, unless a run of loads crossed into it.
The commit of a page whose loaded bytes the buffer holds leaves exactly the buffer there, where the commit erases the
page or it was erased before: a page erase leaves its page erased, and ChipErase every page of the App section. What
else a page then holds is free; that a page erase and WriteFuse leave the buffer, and page commands the fuses, is the
model's choice (entry 21); where pages begin, entry 44; that a pointer at a register makes no difference to the buffer,
entry 49; when a command may be triggered, entries 22 and 51. At a fuse address a page command, and elsewhere
WriteFuse, runs with an effect that is not stated (entries 21 and 23). -/
def Obligations.AlignedPageCommandsStayInThePage : Prop :=
  ∀ (t : Target) (c : Config), t.Waiting → t.kind = .contract → t.nvmReady = true → Decodable c → 1 ≤ c.pageSize →
    (∀ (i : Instr) (d : Byte) (p : Nat), t.cmd = nvmCode c .loadFlashPageBuffer → i = .stInd d ∨ i = .stInc d →
      p = pageStart c t.ptr.toNat → (t.bufRun = none ∨ t.bufRun = some (p, false)) →
      ∀ u, u = t.execute c i →
        u.Waiting ∧ u.mem = t.mem ∧ u.fuse = t.fuse ∧ u.replies = t.replies ∧ u.bufPage = some p ∧
        u.bufRun = some (p, false) ∧ u.buf.read (t.ptr.toNat % c.pageSize) = d ∧
        (t.bufPage = some p → ∀ x, x ≠ t.ptr.toNat % c.pageSize → u.buf.read x = t.buf.read x) ∧
        u.working = true ∧ u.busy = false ∧
        (i = .stInd d → u.ptr = t.ptr) ∧ (i = .stInc d → t.ptr ≠ 0xFFFFFFFF → u.ptr = t.ptr + 1)) ∧
    (∀ (a : Word) (d : Byte) k pre, t.working = false → TriggerAddress c a → isFuse c a = false →
      a.toNat % c.pageSize = 0 → a.toNat + c.pageSize ≤ 2 ^ 32 →
      a.toNat ∉ t.bufCrossed →
      t.cmd = nvmCode c (erasePageCommand k) ∨ t.cmd = nvmCode c (writePageCommand pre k) →
      ∀ u, u = t.execute c (.sts a d) →
        u.lost = false ∧ u.busy = true ∧ u.fuse = t.fuse ∧
        (∀ x, ¬InPage c a.toNat x → u.mem.read x = t.mem.read x) ∧
        (t.cmd = nvmCode c (erasePageCommand k) →
          u.pageErased c a.toNat = true ∧ u.buf = t.buf ∧ u.bufPage = t.bufPage) ∧
        (t.cmd = nvmCode c (writePageCommand pre k) → t.bufPage = some a.toNat →
          pre = true ∨ t.pageErased c a.toNat = true →
          ∀ x, InPage c a.toNat x → u.mem.read x = t.buf.read (x % c.pageSize))) ∧
    (∀ (a : Word) (d : Byte), t.cmd = nvmCode c .writeFuse → t.working = false → TriggerAddress c a →
      ∀ u, u = t.execute c (.sts a d) →
        u.lost = false ∧ u.busy = true ∧ u.replies = t.replies ∧
        (isFuse c a = true → u.buf = t.buf ∧ u.bufPage = t.bufPage ∧
          ∀ x, u.fuse.read x = (if x = a.toNat then d else t.fuse.read x) ∧
            u.mem.read x = if x = a.toNat then d else t.mem.read x)) ∧
    (∀ (a : Word) (d : Byte) k pre, t.working = false → TriggerAddress c a → isFuse c a = true →
      t.cmd = nvmCode c (erasePageCommand k) ∨ t.cmd = nvmCode c (writePageCommand pre k) →
      ∀ u, u = t.execute c (.sts a d) → u.lost = false ∧ u.busy = true ∧ u.replies = t.replies) ∧
    (t.working = false → t.cmd = nvmCode c .chipErase → nvmAddress c .ctrlA ≠ nvmAddress c .cmd →
      ∀ u, u = t.execute c (.sts (nvmAddress c .ctrlA) 0x01) →
        u.lost = false ∧ u.busy = true ∧
        ∀ x, c.appBase.toNat ≤ x → x + c.pageSize ≤ c.appBase.toNat + c.appSize → x + c.pageSize ≤ 2 ^ 32 →
          u.pageErased c x = true)

/-! ## Host link -/

/-- 47 R340, R341 (the response to NOP is the model's, entry 14): NOP, the four responses and the handshake send one
byte to the host and change nothing else. -/
def Obligations.HostBytesAreSent : Prop :=
  ∀ s : State,
    ∀ p ∈ [(Instr.hostNop, (0x00 : Byte)), (.hostRespOk, 0x00), (.hostRespInvalidRequest, 0x01),
        (.hostRespInternalError, 0xFE), (.hostRespUnknownError, 0xFF), (.hostHandshake, 0xFF)],
      exec p.1 s = .next { s with host := { s.host with tx := p.2 :: s.host.tx } }

/-- 47 R343, R345: End completes: every run of it ends the session and answers Ok. -/
def Obligations.HostEndEndsTheSession : Prop :=
  ∀ s : State, Ready s →
    ∃ t, exec .hostEnd s = .next t ∧ (Answered s → ∃ u, Returns t u) ∧
      ∀ u, Returns t u →
        u.dir = some .idle ∧ u.sess = .ended ∧ u.active = false ∧ u.platform.Quiet ∧ u.calls = s.calls ∧
        u.host = { s.host with tx := 0x00 :: s.host.tx }

/-- 47 R343, R344, R345: EraseChip completes: the session comes up if none is active, then `eraseChip`; Ok or
InternalError is answered. -/
def Obligations.HostEraseChipBringsTheSessionUp : Prop :=
  ∀ s : State, Ready s → (s.active = true ∨ s.dir = some .idle) →
    ∃ t, exec .hostEraseChip s = .next t ∧
      (Answered s → s.active = true → ∃ u, Returns t u ∧ u.ret = .ok .unit) ∧
      ∀ u, Returns t u →
        u.active = true ∧ u.calls = s.calls ∧
        ((u.ret = .ok .unit ∧ u.host = { s.host with tx := 0x00 :: s.host.tx } ∧
            ∃ w tail, WaitedOut s.cfg w ∧ commandBytes s.cfg .eraseChip = some tail ∧
              u.wire = s.wire ++ (if s.active then [] else beginBytes s.cfg) ++ w ++ tail) ∨
          (LinkError u.ret ∧ u.host = { s.host with tx := 0xFE :: s.host.tx } ∧
            ∃ w, WaitCut s.cfg w ∧ u.wire = s.wire ++ (if s.active then [] else beginBytes s.cfg) ++ w))

/-- 47 R341, R342, R344, R345: WriteAppFlash completes: the session comes up if none is active, then `write` in the App
section, its data read from the host link and acknowledged byte by byte. The value of preErase is HOST_PREERASE. That
every handshake stands before the response is the model's choice (entry 14, 91 N16). -/
def Obligations.HostWriteAppFlashStreamsTheData : Prop :=
  ∀ (s : State) (a : Word) (len : Word16), Ready s → (s.active = true ∨ s.dir = some .idle) →
    1 ≤ s.cfg.pageSize →
    ∃ t, exec (.hostWriteAppFlash a len) s = .next t ∧
      (Answered s → s.active = true → PagesMissStatus s.cfg a len.toNat .app → len.toNat ≤ s.host.rx.length →
        ∃ u, Returns t u ∧ u.ret = .ok .unit) ∧
      ∀ u, Returns t u →
        u.active = true ∧ u.calls = s.calls ∧
        ((u.ret = .ok .unit ∧ len.toNat ≤ s.host.rx.length ∧
            u.host =
              { s.host with
                rx := s.host.rx.drop len.toNat
                tx := 0x00 :: (List.replicate len.toNat 0xFF ++ s.host.tx) } ∧
            ∃ bs, PagesWritten s.cfg a s.cfg.hostPreErase .app (s.host.rx.take len.toNat) bs ∧
              u.wire = s.wire ++ (if s.active then [] else beginBytes s.cfg) ++ bs) ∨
          (LinkError u.ret ∧ ∃ k ≤ len.toNat,
            u.host = { s.host with rx := s.host.rx.drop k, tx := 0xFE :: (List.replicate k 0xFF ++ s.host.tx) }))

/-- 47 R343, R344, R345: WriteFuse completes: its payload is read and acknowledged, the session comes up if none is
active, and then `Fuse.write` runs. The model's own: the payload's length, address and data (entry 15), that it is read
before the session comes up, and that every handshake stands before the response (entry 14, 91 N16). -/
def Obligations.HostWriteFuseWritesTheFuse : Prop :=
  ∀ s : State, Ready s → (s.active = true ∨ s.dir = some .idle) →
    ∃ t, exec .hostWriteFuse s = .next t ∧
      (Answered s → s.active = true → s.cfg.hostFuseBytes ≤ s.host.rx.length →
        ∃ u, Returns t u ∧ u.ret = .ok .unit) ∧
      ∀ u, Returns t u →
        let n := s.cfg.hostFuseBytes
        let payload := s.host.rx.take n
        u.active = true ∧ u.calls = s.calls ∧ n ≤ s.host.rx.length ∧
        ((u.ret = .ok .unit ∧
            u.host = { s.host with rx := s.host.rx.drop n, tx := 0x00 :: (List.replicate n 0xFF ++ s.host.tx) } ∧
            ∃ w tail, WaitedOut s.cfg w ∧
              commandBytes s.cfg (.fuseWrite (Config.hostFuseAddress payload) (Config.hostFuseData payload)) =
                some tail ∧
              u.wire = s.wire ++ (if s.active then [] else beginBytes s.cfg) ++ w ++ tail) ∨
          (LinkError u.ret ∧
            u.host = { s.host with rx := s.host.rx.drop n, tx := 0xFE :: (List.replicate n 0xFF ++ s.host.tx) } ∧
            ∃ w, WaitCut s.cfg w ∧ u.wire = s.wire ++ (if s.active then [] else beginBytes s.cfg) ++ w))

/-! ## Noninterference -/

/-- 45_target_contract R310 (its head: no rule of the core depends on the target), 00_scope R5: where the Platform's
answers are draws, replacing the target changes nothing of a step but the target. -/
def Obligations.TheCoreSeesTheTargetOnlyThroughAnswers : Prop :=
  ∀ (s : State) (T : Target), s.platform.answering = .drawn →
    (∀ t, step s = .next t → t.platform.answering = .drawn ∧
      ∃ T', step { s with target := T } = .next { t with target := T' }) ∧
    ∀ r, step s = .refused r → step { s with target := T } = .refused r
end

