-- ==== Sys2Proof/Laws/Memory.lean ====
section
/-!
SUPPORT. The laws of memory: a read after a write, the canonical form that every operation keeps, and ranges of addresses.
-/

namespace Sys2Proof.Machine

@[simp] theorem Memory.write_background (m : Memory) (a : Nat) (b : Byte) :
    (m.write a b).background = m.background := by
  unfold Memory.write; split <;> rfl

@[simp] theorem Memory.write_unlisted (m : Memory) (a : Nat) (b : Byte) (x : Nat) :
    (m.write a b).unlisted x = m.unlisted x := by
  simp [Memory.unlisted]

theorem lookup_insert (a : Nat) (b : Byte) (x : Nat) (cs : List Host.Cell) :
    lookupCell x (insertCell a b cs) = if a = x then some b else lookupCell x cs := by
  induction cs with
  | nil => simp [insertCell, lookupCell]
  | cons c cs ih =>
    obtain ⟨k, v⟩ := c
    simp only [insertCell]
    split
    · simp [lookupCell]
    · split
      · subst a; simp only [lookupCell]; split <;> simp_all
      · simp only [lookupCell, ih]
        split <;> split <;> simp_all

theorem lookup_remove (a x : Nat) (cs : List Host.Cell) :
    lookupCell x (removeCell a cs) = if x = a then none else lookupCell x cs := by
  induction cs with
  | nil => simp [removeCell, lookupCell]
  | cons c cs ih =>
    obtain ⟨k, v⟩ := c
    simp only [removeCell] at ih ⊢
    by_cases hk : k = a
    · subst hk
      simp only [List.filter_cons, ne_eq, not_true_eq_false, decide_false, Bool.false_eq_true, if_false, ih,
        lookupCell]
      by_cases hx : x = k
      · simp [hx]
      · simp [hx, Ne.symm hx]
    · simp only [List.filter_cons, ne_eq, hk, not_false_eq_true, decide_true, if_true, lookupCell, ih]
      by_cases hx : x = a
      · subst hx; simp [hk]
      · simp [hx]

/-- Reading after a write: the written address reads the written byte, every other address reads as before. -/
theorem Memory.read_write (m : Memory) (a : Nat) (b : Byte) (x : Nat) :
    (m.write a b).read x = if x = a then b else m.read x := by
  by_cases hx : x = a
  · subst hx
    unfold Memory.write
    split
    · rename_i h; simp [Memory.read, Memory.unlisted, lookup_remove] at *; exact h.symm
    · simp [Memory.read, lookup_insert]
  · unfold Memory.write
    split
    · simp [Memory.read, Memory.unlisted, lookup_remove, hx]
    · simp [Memory.read, Memory.unlisted, lookup_insert, Ne.symm hx]

/-- The canonical form, clause by clause. -/
theorem Memory.wf_iff (m : Memory) :
    m.wf = true ↔ (m.cells.Pairwise fun c d => c.1 < d.1) ∧
      ∀ c ∈ m.cells, c.1 < 2 ^ 32 ∧ c.2 ≠ m.unlisted c.1 := by
  simp [Memory.wf]

theorem mem_insertCell {a : Nat} {b : Byte} {cs : List Host.Cell} {c : Host.Cell} (h : c ∈ insertCell a b cs) :
    c = (a, b) ∨ c ∈ cs := by
  induction cs with
  | nil => simp [insertCell] at h; exact .inl h
  | cons d cs ih =>
    obtain ⟨k, v⟩ := d
    simp only [insertCell] at h
    split at h
    · simpa using h
    · split at h
      · rcases List.mem_cons.1 h with h | h
        · exact .inl h
        · exact .inr (List.mem_cons_of_mem _ h)
      · rcases List.mem_cons.1 h with h | h
        · exact .inr (h ▸ List.mem_cons_self ..)
        · exact (ih h).imp id (List.mem_cons_of_mem _)

theorem pairwise_insertCell {a : Nat} {b : Byte} {cs : List Host.Cell}
    (h : cs.Pairwise fun c d => c.1 < d.1) : (insertCell a b cs).Pairwise fun c d => c.1 < d.1 := by
  induction cs with
  | nil => simp [insertCell]
  | cons d cs ih =>
    obtain ⟨k, v⟩ := d
    rw [List.pairwise_cons] at h
    simp only [insertCell]
    split
    · rename_i hlt
      refine List.pairwise_cons.2 ⟨fun c hc => ?_, List.pairwise_cons.2 h⟩
      rcases List.mem_cons.1 hc with rfl | hc
      · exact hlt
      · exact lt_trans hlt (h.1 c hc)
    · split
      · rename_i heq; subst heq; exact List.pairwise_cons.2 h
      · rename_i hge hne
        refine List.pairwise_cons.2 ⟨fun c hc => ?_, ih h.2⟩
        rcases mem_insertCell hc with rfl | hc
        · simp only; omega
        · exact h.1 c hc

/-- A write keeps the canonical form. -/
theorem Memory.write_wf {m : Memory} {a : Nat} {b : Byte} (h : m.wf = true) (ha : a < 2 ^ 32) :
    (m.write a b).wf = true := by
  rw [Memory.wf_iff] at h ⊢
  simp only [Memory.write_unlisted]
  unfold Memory.write
  split
  · exact ⟨h.1.filter _, fun c hc => h.2 c (List.mem_filter.1 hc).1⟩
  · rename_i hb
    refine ⟨pairwise_insertCell h.1, fun c hc => ?_⟩
    rcases mem_insertCell hc with rfl | hc
    · exact ⟨ha, hb⟩
    · exact h.2 c hc

/-- Filling a range keeps the canonical form. -/
theorem Memory.fill_wf {m : Memory} (base : Nat) (f : Nat → Byte) (n : Nat) (h : m.wf = true) :
    (m.fill base f n).wf = true := by
  induction n with
  | zero => exact h
  | succ n ih => exact Memory.write_wf ih (Nat.mod_lt _ (by norm_num))

/-- Reading after a fill: an address of the range reads its new byte, every other address reads as before. -/
theorem Memory.read_fill (m : Memory) (base : Nat) (f : Nat → Byte) (n x : Nat) :
    (m.fill base f n).read x = if ∃ k < n, x = (base + k) % 2 ^ 32 then f x else m.read x := by
  induction n with
  | zero => simp [Memory.fill]
  | succ n ih =>
    simp only [Memory.fill, Memory.read_write, ih]
    by_cases hx : x = (base + n) % 2 ^ 32
    · rw [if_pos hx, if_pos ⟨n, Nat.lt_succ_self n, hx⟩, ← hx]
    · rw [if_neg hx]
      refine if_congr ⟨fun ⟨k, hk, e⟩ => ⟨k, Nat.lt_succ_of_lt hk, e⟩, fun ⟨k, hk, e⟩ => ⟨k, ?_, e⟩⟩ rfl rfl
      rcases Nat.lt_succ_iff_lt_or_eq.1 hk with hk | rfl
      · exact hk
      · exact absurd e hx

theorem lookup_filter (p : Nat → Bool) (x : Nat) (cs : List Host.Cell) :
    lookupCell x (cs.filter fun c => p c.1) = if p x then lookupCell x cs else none := by
  induction cs with
  | nil => simp [lookupCell]
  | cons c cs ih =>
    obtain ⟨k, v⟩ := c
    by_cases hk : p k = true
    · simp only [List.filter_cons, hk, if_true, lookupCell, ih]
      by_cases hx : k = x
      · subst hx; simp [hk]
      · simp [hx]
    · simp only [List.filter_cons, hk, lookupCell]
      by_cases hx : k = x
      · subst hx; simpa [hk] using ih
      · simpa [hx] using ih

/-- What the kept regions hold stays. -/
theorem Memory.keepOnly_read (m : Memory) {kept : List (Word × Nat)} (n : Nat) {x : Nat}
    (h : inRegions kept (BitVec.ofNat 32 x) = true) : (m.keepOnly kept n).read x = m.read x := by
  simp [Memory.read, Memory.keepOnly, lookup_filter fun k => inRegions kept (BitVec.ofNat 32 k), h, Memory.unlisted,
    Background.byteAt]

/-- Keeping some regions keeps the canonical form. -/
theorem Memory.keepOnly_wf {m : Memory} (kept : List (Word × Nat)) (n : Nat) (h : m.wf = true) :
    (m.keepOnly kept n).wf = true := by
  rw [Memory.wf_iff] at h ⊢
  refine ⟨h.1.filter _, fun c hc => ?_⟩
  obtain ⟨hm, hk⟩ := List.mem_filter.1 hc
  refine ⟨(h.2 c hm).1, ?_⟩
  simpa [Memory.unlisted, Memory.keepOnly, Background.byteAt, hk] using (h.2 c hm).2

/-- A memory that lists nothing is canonical. -/
theorem Memory.empty_wf (b : Background) : (Memory.mk b []).wf = true := by simp [Memory.wf]

/-- The memories of the machine at driver start are canonical: they list nothing. -/
theorem reset_memories_list_nothing :
    State.reset.target.mem.cells = [] ∧ State.reset.target.buf.cells = [] ∧ State.reset.target.fuse.cells = [] :=
  ⟨rfl, rfl, rfl⟩

/-! ## Ranges of addresses -/

theorem coversRange_iff (a n : Nat) (rs : List (Nat × Nat)) :
    coversRange a n rs = true ↔ ∃ r ∈ rs, r.1 ≤ a ∧ a + n ≤ r.2 := by
  simp [coversRange]

/-- A range that is left after a cut lies in one that was there, below the cut or above it. -/
theorem mem_cutRange {a n : Nat} {rs : List (Nat × Nat)} {q : Nat × Nat} (h : q ∈ cutRange a n rs) :
    q.1 < q.2 ∧ ∃ r ∈ rs, r.1 ≤ q.1 ∧ q.2 ≤ r.2 ∧ (q.2 ≤ a ∨ a + n ≤ q.1) := by
  simp only [cutRange, List.mem_flatMap, List.mem_filter, List.mem_cons, List.not_mem_nil, or_false,
    decide_eq_true_eq] at h
  obtain ⟨r, hr, rfl | rfl, hq⟩ := h
  · exact ⟨hq, r, hr, le_refl _, min_le_left _ _, .inl (min_le_right _ _)⟩
  · exact ⟨hq, r, hr, le_max_left _ _, le_refl _, .inr (le_max_right _ _)⟩

end Sys2Proof.Machine
end

