-- ==== Sys2Proof/Laws/PerInstr.lean ====
section
/-!
SUPPORT. For each row of spec/opcode_table.json: the bytes of a well-formed instruction begin with the row's match under
its mask and are as many as the row's encoding has (30_encoding R108 to R110, R116; 43_nvm R242; 47 R340, R342).
-/

namespace Sys2Proof.Laws.TableByte

/-- The row of an instruction: mask and match of its first byte, and how many bytes it has. -/
def row : Instr → Byte × Byte × Nat
  | .lds _ => (0xFF, 0x0C, 5)
  | .sts _ _ => (0xFF, 0x4C, 6)
  | .ldInd => (0xFF, 0x20, 1)
  | .ldInc => (0xFF, 0x24, 1)
  | .ldPtr => (0xFF, 0x28, 1)
  | .stInd _ => (0xFF, 0x60, 2)
  | .stInc _ => (0xFF, 0x64, 2)
  | .stPtrB _ => (0xFF, 0x68, 2)
  | .stIndL _ => (0xFF, 0x63, 5)
  | .stIncL _ => (0xFF, 0x67, 5)
  | .stPtr _ => (0xFF, 0x6B, 5)
  | .repeatB _ => (0xFF, 0xA0, 2)
  | .repeatW _ => (0xFF, 0xA1, 3)
  | .ldcs _ => (0xF0, 0x80, 1)
  | .stcs _ _ => (0xF0, 0xC0, 2)
  | .key _ => (0xFF, 0xE0, 9)
  | .nvmChipErase => (0xFF, 0x40, 1)
  | .nvmReadNvm => (0xFF, 0x43, 1)
  | .nvmLoadFlashPageBuffer => (0xFF, 0x23, 1)
  | .nvmEraseFlashPageBuffer => (0xFF, 0x26, 1)
  | .nvmEraseFlashPage => (0xFF, 0x2B, 1)
  | .nvmEraseAppPage => (0xFF, 0x22, 1)
  | .nvmEraseBootPage => (0xFF, 0x2A, 1)
  | .nvmWriteFlashPage => (0xFF, 0x2E, 1)
  | .nvmWriteAppPage => (0xFF, 0x24, 1)
  | .nvmWriteBootPage => (0xFF, 0x2C, 1)
  | .nvmEraseWriteFlashPage => (0xFF, 0x2F, 1)
  | .nvmEraseWriteAppPage => (0xFF, 0x25, 1)
  | .nvmEraseWriteBootPage => (0xFF, 0x2D, 1)
  | .nvmEraseAppSection => (0xFF, 0x20, 1)
  | .nvmEraseBootSection => (0xFF, 0x68, 1)
  | .nvmWriteFuse => (0xFF, 0x4C, 1)
  | .nvmWriteLockBits => (0xFF, 0x08, 1)
  | .nvmLoadEepromPageBuffer => (0xFF, 0x33, 1)
  | .nvmEraseEepromPageBuffer => (0xFF, 0x36, 1)
  | .nvmEraseEepromPage => (0xFF, 0x32, 1)
  | .nvmWriteEepromPage => (0xFF, 0x34, 1)
  | .nvmEraseWriteEepromPage => (0xFF, 0x35, 1)
  | .nvmEraseEeprom => (0xFF, 0x30, 1)
  | .nvmReadEeprom => (0xFF, 0x06, 1)
  | .nvmFlashCrc => (0xFF, 0x78, 1)
  | .nvmAppCrc => (0xFF, 0x38, 1)
  | .nvmBootCrc => (0xFF, 0x39, 1)
  | .hostNop => (0xFF, 0x00, 1)
  | .hostWriteAppFlash _ _ => (0xFF, 0x02, 7)
  | .hostWriteFuse => (0xFF, 0x03, 1)
  | .hostEraseChip => (0xFF, 0x04, 1)
  | .hostEnd => (0xFF, 0xFF, 1)
  | .hostRespOk => (0xFF, 0x00, 1)
  | .hostRespInvalidRequest => (0xFF, 0x01, 1)
  | .hostRespInternalError => (0xFF, 0xFE, 1)
  | .hostRespUnknownError => (0xFF, 0xFF, 1)
  | .hostHandshake => (0xFF, 0xFF, 1)

/-- The first byte matches the row and the length is the row's. -/
def Statement (i : Instr) : Prop :=
  i.wellFormed = true →
    ((encode i).headD 0) &&& (row i).1 = (row i).2.1 ∧ (encode i).length = (row i).2.2

/-- Bits 7:4 of the LDCS opcode. -/
theorem ldcs_masked (reg : Byte) : ldcsOpcode {} reg &&& 0xF0 = (0x80 : Byte) := by
  revert reg; decide

/-- Bits 7:4 of the STCS opcode. -/
theorem stcs_masked (reg : Byte) : stcsOpcode {} reg &&& 0xF0 = (0xC0 : Byte) := by
  revert reg; decide

theorem lds (addr : Word) : Statement (.lds addr) :=
  fun _ => ⟨by simp [encode, encodeWith, row], rfl⟩

theorem sts (addr : Word) (data : Byte) : Statement (.sts addr data) :=
  fun _ => ⟨by simp [encode, encodeWith, row], rfl⟩

theorem ldInd : Statement (.ldInd) := fun _ => ⟨rfl, rfl⟩

theorem ldInc : Statement (.ldInc) := fun _ => ⟨rfl, rfl⟩

theorem ldPtr : Statement (.ldPtr) := fun _ => ⟨rfl, rfl⟩

theorem stInd (data : Byte) : Statement (.stInd data) :=
  fun _ => ⟨by simp [encode, encodeWith, row, stOpcode, modeBits], rfl⟩

theorem stInc (data : Byte) : Statement (.stInc data) :=
  fun _ => ⟨by simp [encode, encodeWith, row, stOpcode, modeBits], rfl⟩

theorem stPtrB (data : Byte) : Statement (.stPtrB data) :=
  fun _ => ⟨by simp [encode, encodeWith, row, stOpcode, modeBits], rfl⟩

theorem stIndL (addr : Word) : Statement (.stIndL addr) :=
  fun _ => ⟨by simp [encode, encodeWith, row, stPtr4Opcode, modeBits], rfl⟩

theorem stIncL (addr : Word) : Statement (.stIncL addr) :=
  fun _ => ⟨by simp [encode, encodeWith, row, stPtr4Opcode, modeBits], rfl⟩

theorem stPtr (addr : Word) : Statement (.stPtr addr) :=
  fun _ => ⟨by simp [encode, encodeWith, row, stPtr4Opcode, modeBits], rfl⟩

theorem repeatB (count : Byte) : Statement (.repeatB count) :=
  fun _ => ⟨by simp [encode, encodeWith, row], rfl⟩

theorem repeatW (count : Word16) : Statement (.repeatW count) :=
  fun _ => ⟨by simp [encode, encodeWith, row], rfl⟩

theorem ldcs (reg : Byte) : Statement (.ldcs reg) := by
  intro _
  exact ⟨ldcs_masked reg, rfl⟩

theorem stcs (reg data : Byte) : Statement (.stcs reg data) := by
  intro _
  exact ⟨stcs_masked reg, rfl⟩

theorem key (bytes : List Byte) : Statement (.key bytes) := by
  intro h
  exact ⟨by simp [encode, encodeWith, row], by simpa [encode, encodeWith, row, Instr.wellFormed] using h⟩

theorem nvmChipErase : Statement (.nvmChipErase) := fun _ => ⟨rfl, rfl⟩

theorem nvmReadNvm : Statement (.nvmReadNvm) := fun _ => ⟨rfl, rfl⟩

theorem nvmLoadFlashPageBuffer : Statement (.nvmLoadFlashPageBuffer) := fun _ => ⟨rfl, rfl⟩

theorem nvmEraseFlashPageBuffer : Statement (.nvmEraseFlashPageBuffer) := fun _ => ⟨rfl, rfl⟩

theorem nvmEraseFlashPage : Statement (.nvmEraseFlashPage) := fun _ => ⟨rfl, rfl⟩

theorem nvmEraseAppPage : Statement (.nvmEraseAppPage) := fun _ => ⟨rfl, rfl⟩

theorem nvmEraseBootPage : Statement (.nvmEraseBootPage) := fun _ => ⟨rfl, rfl⟩

theorem nvmWriteFlashPage : Statement (.nvmWriteFlashPage) := fun _ => ⟨rfl, rfl⟩

theorem nvmWriteAppPage : Statement (.nvmWriteAppPage) := fun _ => ⟨rfl, rfl⟩

theorem nvmWriteBootPage : Statement (.nvmWriteBootPage) := fun _ => ⟨rfl, rfl⟩

theorem nvmEraseWriteFlashPage : Statement (.nvmEraseWriteFlashPage) := fun _ => ⟨rfl, rfl⟩

theorem nvmEraseWriteAppPage : Statement (.nvmEraseWriteAppPage) := fun _ => ⟨rfl, rfl⟩

theorem nvmEraseWriteBootPage : Statement (.nvmEraseWriteBootPage) := fun _ => ⟨rfl, rfl⟩

theorem nvmEraseAppSection : Statement (.nvmEraseAppSection) := fun _ => ⟨rfl, rfl⟩

theorem nvmEraseBootSection : Statement (.nvmEraseBootSection) := fun _ => ⟨rfl, rfl⟩

theorem nvmWriteFuse : Statement (.nvmWriteFuse) := fun _ => ⟨rfl, rfl⟩

theorem nvmWriteLockBits : Statement (.nvmWriteLockBits) := fun _ => ⟨rfl, rfl⟩

theorem nvmLoadEepromPageBuffer : Statement (.nvmLoadEepromPageBuffer) := fun _ => ⟨rfl, rfl⟩

theorem nvmEraseEepromPageBuffer : Statement (.nvmEraseEepromPageBuffer) := fun _ => ⟨rfl, rfl⟩

theorem nvmEraseEepromPage : Statement (.nvmEraseEepromPage) := fun _ => ⟨rfl, rfl⟩

theorem nvmWriteEepromPage : Statement (.nvmWriteEepromPage) := fun _ => ⟨rfl, rfl⟩

theorem nvmEraseWriteEepromPage : Statement (.nvmEraseWriteEepromPage) := fun _ => ⟨rfl, rfl⟩

theorem nvmEraseEeprom : Statement (.nvmEraseEeprom) := fun _ => ⟨rfl, rfl⟩

theorem nvmReadEeprom : Statement (.nvmReadEeprom) := fun _ => ⟨rfl, rfl⟩

theorem nvmFlashCrc : Statement (.nvmFlashCrc) := fun _ => ⟨rfl, rfl⟩

theorem nvmAppCrc : Statement (.nvmAppCrc) := fun _ => ⟨rfl, rfl⟩

theorem nvmBootCrc : Statement (.nvmBootCrc) := fun _ => ⟨rfl, rfl⟩

theorem hostNop : Statement (.hostNop) := fun _ => ⟨rfl, rfl⟩

theorem hostWriteAppFlash (addr : Word) (len : Word16) : Statement (.hostWriteAppFlash addr len) :=
  fun _ => ⟨by simp [encode, encodeWith, row], rfl⟩

theorem hostWriteFuse : Statement (.hostWriteFuse) := fun _ => ⟨rfl, rfl⟩

theorem hostEraseChip : Statement (.hostEraseChip) := fun _ => ⟨rfl, rfl⟩

theorem hostEnd : Statement (.hostEnd) := fun _ => ⟨rfl, rfl⟩

theorem hostRespOk : Statement (.hostRespOk) := fun _ => ⟨rfl, rfl⟩

theorem hostRespInvalidRequest : Statement (.hostRespInvalidRequest) := fun _ => ⟨rfl, rfl⟩

theorem hostRespInternalError : Statement (.hostRespInternalError) := fun _ => ⟨rfl, rfl⟩

theorem hostRespUnknownError : Statement (.hostRespUnknownError) := fun _ => ⟨rfl, rfl⟩

theorem hostHandshake : Statement (.hostHandshake) := fun _ => ⟨rfl, rfl⟩

end Sys2Proof.Laws.TableByte
end

