-- ==== Sys2Proof/Laws/State.lean ====
section
/-!
SUPPORT. One lemma per field for each update of the state and of the Platform that the shared operations make.
-/

namespace Sys2Proof.Machine

section StateUpdates
variable (s : State) (ts : List Task) (e : ErrorCode) (r : Return) (x : SessionState) (b : Byte)

@[simp] theorem State.push_control : (s.push ts).control = ts ++ s.control := rfl
@[simp] theorem State.push_cfg : (s.push ts).cfg = s.cfg := rfl
@[simp] theorem State.push_dir : (s.push ts).dir = s.dir := rfl
@[simp] theorem State.push_sess : (s.push ts).sess = s.sess := rfl
@[simp] theorem State.push_active : (s.push ts).active = s.active := rfl
@[simp] theorem State.push_ret : (s.push ts).ret = s.ret := rfl
@[simp] theorem State.push_reply : (s.push ts).reply = s.reply := rfl
@[simp] theorem State.push_source : (s.push ts).source = s.source := rfl
@[simp] theorem State.push_calls : (s.push ts).calls = s.calls := rfl
@[simp] theorem State.push_platform : (s.push ts).platform = s.platform := rfl
@[simp] theorem State.push_target : (s.push ts).target = s.target := rfl
@[simp] theorem State.push_host : (s.push ts).host = s.host := rfl

@[simp] theorem State.raise_control : (s.raise e).control = unwind s.control := rfl
@[simp] theorem State.raise_cfg : (s.raise e).cfg = s.cfg := rfl
@[simp] theorem State.raise_dir : (s.raise e).dir = s.dir := rfl
@[simp] theorem State.raise_sess : (s.raise e).sess = s.sess := rfl
@[simp] theorem State.raise_active : (s.raise e).active = s.active := rfl
@[simp] theorem State.raise_ret : (s.raise e).ret = .err e := rfl
@[simp] theorem State.raise_reply : (s.raise e).reply = s.reply := rfl
@[simp] theorem State.raise_source : (s.raise e).source = s.source := rfl
@[simp] theorem State.raise_calls : (s.raise e).calls = s.calls := rfl
@[simp] theorem State.raise_platform : (s.raise e).platform = s.platform := rfl
@[simp] theorem State.raise_target : (s.raise e).target = s.target := rfl
@[simp] theorem State.raise_host : (s.raise e).host = s.host := rfl

@[simp] theorem State.recvFails_control : (s.recvFails e).control = unwind s.control := rfl
@[simp] theorem State.recvFails_cfg : (s.recvFails e).cfg = s.cfg := rfl
@[simp] theorem State.recvFails_dir : (s.recvFails e).dir = s.dir := rfl
@[simp] theorem State.recvFails_sess : (s.recvFails e).sess = s.sess := rfl
@[simp] theorem State.recvFails_active : (s.recvFails e).active = s.active := rfl
@[simp] theorem State.recvFails_ret : (s.recvFails e).ret = .err e := rfl
@[simp] theorem State.recvFails_reply : (s.recvFails e).reply = s.reply := rfl
@[simp] theorem State.recvFails_source : (s.recvFails e).source = s.source := rfl
@[simp] theorem State.recvFails_calls : (s.recvFails e).calls = s.calls := rfl
@[simp] theorem State.recvFails_platform : (s.recvFails e).platform = s.platform := rfl
@[simp] theorem State.recvFails_target : (s.recvFails e).target = s.target.cutOff := rfl
@[simp] theorem State.recvFails_host : (s.recvFails e).host = s.host := rfl

@[simp] theorem State.finish_control : (s.finish r).control = s.control := rfl
@[simp] theorem State.finish_cfg : (s.finish r).cfg = s.cfg := rfl
@[simp] theorem State.finish_dir : (s.finish r).dir = s.dir := rfl
@[simp] theorem State.finish_sess : (s.finish r).sess = s.sess := rfl
@[simp] theorem State.finish_active : (s.finish r).active = s.active := rfl
@[simp] theorem State.finish_ret : (s.finish r).ret = r := rfl
@[simp] theorem State.finish_reply : (s.finish r).reply = s.reply := rfl
@[simp] theorem State.finish_source : (s.finish r).source = s.source := rfl
@[simp] theorem State.finish_calls : (s.finish r).calls = s.calls := rfl
@[simp] theorem State.finish_platform : (s.finish r).platform = s.platform := rfl
@[simp] theorem State.finish_target : (s.finish r).target = s.target := rfl
@[simp] theorem State.finish_host : (s.finish r).host = s.host := rfl

@[simp] theorem State.enter_control : (s.enter x).control = s.control := rfl
@[simp] theorem State.enter_cfg : (s.enter x).cfg = s.cfg := rfl
@[simp] theorem State.enter_dir : (s.enter x).dir = s.dir := rfl
@[simp] theorem State.enter_sess : (s.enter x).sess = x := rfl
@[simp] theorem State.enter_active : (s.enter x).active = decide (x = .programming) := rfl
@[simp] theorem State.enter_ret : (s.enter x).ret = s.ret := rfl
@[simp] theorem State.enter_reply : (s.enter x).reply = s.reply := rfl
@[simp] theorem State.enter_source : (s.enter x).source = s.source := rfl
@[simp] theorem State.enter_calls : (s.enter x).calls = s.calls := rfl
@[simp] theorem State.enter_platform : (s.enter x).platform = s.platform := rfl
@[simp] theorem State.enter_target : (s.enter x).target = s.target := rfl
@[simp] theorem State.enter_host : (s.enter x).host = s.host := rfl

@[simp] theorem State.hostSend_control : (s.hostSend b).control = s.control := rfl
@[simp] theorem State.hostSend_cfg : (s.hostSend b).cfg = s.cfg := rfl
@[simp] theorem State.hostSend_dir : (s.hostSend b).dir = s.dir := rfl
@[simp] theorem State.hostSend_sess : (s.hostSend b).sess = s.sess := rfl
@[simp] theorem State.hostSend_active : (s.hostSend b).active = s.active := rfl
@[simp] theorem State.hostSend_ret : (s.hostSend b).ret = s.ret := rfl
@[simp] theorem State.hostSend_reply : (s.hostSend b).reply = s.reply := rfl
@[simp] theorem State.hostSend_source : (s.hostSend b).source = s.source := rfl
@[simp] theorem State.hostSend_calls : (s.hostSend b).calls = s.calls := rfl
@[simp] theorem State.hostSend_platform : (s.hostSend b).platform = s.platform := rfl
@[simp] theorem State.hostSend_target : (s.hostSend b).target = s.target := rfl
@[simp] theorem State.hostSend_rx : (s.hostSend b).host.rx = s.host.rx := rfl
@[simp] theorem State.hostSend_pending : (s.hostSend b).host.pending = s.host.pending := rfl
@[simp] theorem State.hostSend_tx : (s.hostSend b).host.tx = b :: s.host.tx := rfl

end StateUpdates

section CommandTask
variable (k : Command) (s : State)

@[simp] theorem performCommand_control : (performCommand k s).control = s.control := rfl
@[simp] theorem performCommand_cfg : (performCommand k s).cfg = s.cfg := rfl
@[simp] theorem performCommand_dir : (performCommand k s).dir = s.dir := rfl
@[simp] theorem performCommand_sess : (performCommand k s).sess = s.sess := rfl
@[simp] theorem performCommand_active : (performCommand k s).active = s.active := rfl
@[simp] theorem performCommand_ret : (performCommand k s).ret = s.ret := rfl
@[simp] theorem performCommand_reply : (performCommand k s).reply = s.reply := rfl
@[simp] theorem performCommand_source : (performCommand k s).source = s.source := rfl
@[simp] theorem performCommand_calls : (performCommand k s).calls = s.calls := rfl
@[simp] theorem performCommand_host : (performCommand k s).host = s.host := rfl
@[simp] theorem performCommand_platform :
    (performCommand k s).platform = (s.platform.apply k).record (.command k) := rfl

/-- What reaches the target is a byte written while transmit is enabled (10_state R42), and that the clock starts or
stops. -/
theorem performCommand_target :
    (performCommand k s).target =
      match k with
      | .writeByte b => if s.platform.txOn then s.target.receive s.cfg b else s.target
      | .enableClock => { s.target with linked := true }
      | .disableClock => { s.target with linked := false }
      | _ => s.target := rfl

end CommandTask

section PlatformUpdates
variable (p : Platform) (e : Event) (pin : Pin) (st : PinState)

@[simp] theorem Platform.record_trace : (p.record e).trace = e :: p.trace := rfl
@[simp] theorem Platform.record_clockPin : (p.record e).clockPin = p.clockPin := rfl
@[simp] theorem Platform.record_dataOutPin : (p.record e).dataOutPin = p.dataOutPin := rfl
@[simp] theorem Platform.record_dataInPin : (p.record e).dataInPin = p.dataInPin := rfl
@[simp] theorem Platform.record_txOn : (p.record e).txOn = p.txOn := rfl
@[simp] theorem Platform.record_rxOn : (p.record e).rxOn = p.rxOn := rfl
@[simp] theorem Platform.record_clockOn : (p.record e).clockOn = p.clockOn := rfl
@[simp] theorem Platform.record_baud : (p.record e).baud = p.baud := rfl
@[simp] theorem Platform.record_inFlight : (p.record e).inFlight = p.inFlight := rfl
@[simp] theorem Platform.record_answering : (p.record e).answering = p.answering := rfl
@[simp] theorem Platform.record_bits : (p.record e).bits = p.bits := rfl
@[simp] theorem Platform.record_frames : (p.record e).frames = p.frames := rfl
@[simp] theorem Platform.record_drawn : (p.record e).drawn = p.drawn := rfl

/-- A pin reads as it was last set; setting one leaves the others. -/
theorem Platform.pin_setPin (q : Pin) : (p.setPin pin st).pin q = if q = pin then st else p.pin q := by
  cases pin <;> cases q <;> simp [Platform.setPin, Platform.pin]

@[simp] theorem Platform.setPin_txOn : (p.setPin pin st).txOn = p.txOn := by cases pin <;> rfl
@[simp] theorem Platform.setPin_rxOn : (p.setPin pin st).rxOn = p.rxOn := by cases pin <;> rfl
@[simp] theorem Platform.setPin_clockOn : (p.setPin pin st).clockOn = p.clockOn := by cases pin <;> rfl
@[simp] theorem Platform.setPin_trace : (p.setPin pin st).trace = p.trace := by cases pin <;> rfl

/-- No command appends to the trace by itself, lines answers up or uses them: `record` and `takeBit` do. -/
theorem Platform.apply_keeps (k : Command) :
    (p.apply k).trace = p.trace ∧ (p.apply k).bits = p.bits ∧ (p.apply k).frames = p.frames ∧
      (p.apply k).answering = p.answering ∧ (p.apply k).drawn = p.drawn := by
  cases k with
  | configurePinOutput q l => cases q <;> exact ⟨rfl, rfl, rfl, rfl, rfl⟩
  | configurePinInput q => cases q <;> exact ⟨rfl, rfl, rfl, rfl, rfl⟩
  | writePin q l =>
    simp only [Platform.apply]
    split
    · exact ⟨rfl, rfl, rfl, rfl, rfl⟩
    · cases q <;> exact ⟨rfl, rfl, rfl, rfl, rfl⟩
  | _ => exact ⟨rfl, rfl, rfl, rfl, rfl⟩

end PlatformUpdates

end Sys2Proof.Machine
end

