-- ==== Sys2Proof/Laws/Perform.lean ====
section
/-!
SUPPORT. What performing one task can do, whatever the task: the trace only grows, and an operation that starts
changes the control position or ends in its argument check's error.
-/

namespace Sys2Proof.Machine

/-- What starting an operation can do. -/
theorem opStart_next {o : Op} {s t : State} (h : opStart o s = .next t) :
    opRefusal s o = none ∧
      ((∃ ts, opBody s o = .tasks ts ∧ t = s.push ts) ∨ ∃ e, opBody s o = .fails e ∧ t = s.raise e) := by
  unfold opStart at h
  split at h
  · cases h
  · rename_i hr
    refine ⟨hr, ?_⟩
    split at h
    · rename_i ts hb; exact .inl ⟨ts, hb, (Host.Outcome.next.inj h).symm⟩
    · rename_i e hb; exact .inr ⟨e, hb, (Host.Outcome.next.inj h).symm⟩

/-- What a caller's call can do: it waits, or it starts. -/
theorem call_next {o : Op} {src : List Byte} {s t : State} (h : s.call o src = .next t) :
    (s.control ≠ [] ∧ t = { s with calls := .call o src :: s.calls }) ∨
      (s.control = [] ∧ o.wellFormed = true ∧ opPulls o ≤ src.length ∧
        opStart o
            { s with ret := .nothing, source := .bytes src, target := (s.target.atCall s.cfg o).noteExit (s.strays o) } =
          .next t) := by
  unfold State.call at h
  split at h
  · rename_i hc; exact .inl ⟨hc, (Host.Outcome.next.inj h).symm⟩
  · rename_i hc
    split at h
    · cases h
    · split at h
      · cases h
      · rename_i hw
        split at h
        · cases h
        · rename_i hl
          exact .inr ⟨not_not.1 hc, by simpa using hw, by omega, h⟩

/-- Starting an operation, call by call: the state with its body first. -/
theorem opStart_trace {o : Op} {s t : State} (h : opStart o s = .next t) :
    t.platform = s.platform ∧ t.host = s.host ∧ t.calls = s.calls ∧ t.cfg = s.cfg ∧ t.dir = s.dir ∧
      t.sess = s.sess ∧ t.active = s.active ∧ t.target = s.target ∧ t.source = s.source ∧ t.reply = s.reply := by
  obtain ⟨-, ⟨ts, -, rfl⟩ | ⟨e, -, rfl⟩⟩ := opStart_next h <;> exact ⟨rfl, rfl, rfl, rfl, rfl, rfl, rfl, rfl, rfl, rfl⟩

/-- Reading a host byte touches the host link alone. -/
theorem hostTake_some {s s' : State} {b : Byte} (h : s.hostTake = some (b, s')) :
    ∃ rx, s.host.rx = b :: rx ∧ s' = { s with host := { s.host with rx := rx, tx := 0xFF :: s.host.tx } } := by
  unfold State.hostTake at h
  split at h
  · cases h
  · rename_i b' rx hrx
    obtain ⟨rfl, rfl⟩ := Prod.mk.inj (Option.some.inj h)
    exact ⟨rx, hrx, rfl⟩

/-- The three things one pull of `bulkStore` can do. -/
theorem performStore_next {n : Nat} {s t : State} (h : performStore n s = .next t) :
    (n = 0 ∧ t = s) ∨
      (∃ k d ds, n = k + 1 ∧ s.source = .bytes (d :: ds) ∧
        t = State.push { s with source := .bytes ds, platform := s.platform.record (.pull d) }
          [.run (.send d), .store k]) ∨
      (∃ k, n = k + 1 ∧ s.source = .hostLink ∧ s.host.rx = [] ∧ t = s.push [.store n]) ∨
      ∃ k d rx, n = k + 1 ∧ s.source = .hostLink ∧ s.host.rx = d :: rx ∧
        t = State.push
          { s with host := { s.host with rx := rx, tx := 0xFF :: s.host.tx }, platform := s.platform.record (.pull d) }
          [.run (.send d), .store k] := by
  unfold performStore at h
  split at h
  · exact .inl ⟨rfl, (Host.Outcome.next.inj h).symm⟩
  · rename_i k
    split at h
    · cases h
    · rename_i d ds hs; exact .inr (.inl ⟨k, d, ds, rfl, hs, (Host.Outcome.next.inj h).symm⟩)
    · rename_i hs
      split at h
      · rename_i hn
        refine .inr (.inr (.inl ⟨k, rfl, hs, ?_, (Host.Outcome.next.inj h).symm⟩))
        unfold State.hostTake at hn
        split at hn
        · assumption
        · cases hn
      · rename_i d s' hn
        obtain ⟨rx, hrx, rfl⟩ := hostTake_some hn
        exact .inr (.inr (.inr ⟨k, d, rx, rfl, hs, hrx, (Host.Outcome.next.inj h).symm⟩))

/-- A query appends its event; a command appends its own. -/
theorem Platform.query_trace (p : Platform) (e : Bool → Event) (a : Bool) :
    (p.query e a).2.trace = e (p.query e a).1 :: p.trace := by
  simp only [Platform.query, Platform.record_trace, Platform.takeBit]
  split
  · rfl
  · split <;> rfl

/-- Performing a task only adds to the trace. -/
theorem perform_trace {k : Task} {s t : State} (h : perform k s = .next t) :
    ∃ new, t.platform.trace = new ++ s.platform.trace := by
  cases k <;> simp only [perform, Host.Outcome.next.injEq] at h
  case command k => exact ⟨[.command k], by rw [← h]; simp [(Platform.apply_keeps _ _).1]⟩
  case await w =>
    refine ⟨[w.event (s.platform.query w.event w.wanted).1], ?_⟩
    rw [← h]; simp only [performAwait]
    split
    · cases w <;> simp [Platform.afterWait, Platform.query_trace]
    · simp [Platform.query_trace]
  case rxCheck n =>
    cases n with
    | zero => exact ⟨[], by rw [← h]; rfl⟩
    | succ n =>
      refine ⟨[.rxComplete (s.platform.query .rxComplete true).1], ?_⟩
      rw [← h]; simp [performRxCheck, Platform.query_trace]
  case rxErrorCheck =>
    refine ⟨[.rxError (s.platform.query .rxError false).1], ?_⟩
    rw [← h]; simp only [performRxErrorCheck]
    split <;> simp [Platform.query_trace]
  case rxRead =>
    refine ⟨[.readByte (s.platform.takeFrame s.target.replies.head?).1], ?_⟩
    rw [← h]
    simp only [performRxRead, Platform.record_trace, Platform.takeFrame]
    split
    · rfl
    · split <;> rfl
  case run o => exact ⟨[], by rw [(opStart_trace h).1]; rfl⟩
  case store n =>
    rcases performStore_next h with ⟨-, rfl⟩ | ⟨_, d, _, -, -, rfl⟩ | ⟨_, -, -, -, rfl⟩ | ⟨_, d, _, -, -, -, rfl⟩
    · exact ⟨[], rfl⟩
    · exact ⟨[.pull d], rfl⟩
    · exact ⟨[], rfl⟩
    · exact ⟨[.pull d], rfl⟩
  case hostPayload n got =>
    refine ⟨[], ?_⟩
    rw [← h]
    unfold performHostPayload
    split
    · rfl
    · split
      · rfl
      · rename_i hn; obtain ⟨_, _, rfl⟩ := hostTake_some hn; rfl
  case wake n => exact ⟨[], by rw [← h]; cases n <;> rfl⟩
  case lazyBegin => exact ⟨[], by rw [← h]; split <;> rfl⟩
  all_goals
    refine ⟨[], ?_⟩
    rw [← h]
    first
      | rfl
      | (simp only [performPollNvmen, performNvmenVerdict, performPollBusy, performBusyVerdict, performResetLoop,
          performResetVerdict, performChunks]
         split <;> rfl)
      | (unfold performCollect; split <;> rfl)

end Sys2Proof.Machine
end

