-- ==== Sys2Proof/Laws/Run.lean ====
section
/-!
SUPPORT. How a run of an operation is taken apart: one step at its next task, then what each shared operation (a wait, a
command, the two direction transitions, `send`) can do, for every answer of the Platform.
-/

namespace Sys2Proof.Machine

/-- A running operation's step performs its next task. -/
theorem step_task {s : State} {t : Task} {ts : List Task} (h : s.control = t :: ts) :
    step s = perform t { s with control := ts } := by
  simp [step, h]

theorem Runs.trans {s t u : State} (h : Runs s t) (h' : Runs t u) : Runs s u := by
  induction h with
  | refl => exact h'
  | step busy hs _ ih => exact .step busy hs (ih h')

/-- A run that returns performs the next task first. -/
theorem Returns.head {s u : State} {t : Task} {ts : List Task} (h : Returns s u) (hc : s.control = t :: ts) :
    ∃ s', perform t { s with control := ts } = .next s' ∧ Returns s' u := by
  obtain ⟨hr, hu⟩ := h
  cases hr with
  | refl => rw [hc] at hu; cases hu
  | step busy hs rest => exact ⟨_, step_task hc ▸ hs, rest, hu⟩

/-- The converse: one performed task before a run that returns. -/
theorem Returns.cons {s s' u : State} {t : Task} {ts : List Task} (hc : s.control = t :: ts)
    (hp : perform t { s with control := ts } = .next s') (h : Returns s' u) : Returns s u :=
  ⟨.step (by simp [hc]) (step_task hc ▸ hp) h.1, h.2⟩

/-- An operation that has nothing left to do has returned. -/
theorem Returns.done {s u : State} (h : Returns s u) (hc : s.control = []) : u = s := by
  obtain ⟨hr, -⟩ := h
  cases hr with
  | refl => rfl
  | step busy _ _ => exact absurd hc busy

/-- The state an operation returns in is unique. -/
theorem Returns.unique {s u v : State} (hu : Returns s u) (hv : Returns s v) : u = v := by
  obtain ⟨hr, hc⟩ := hu
  induction hr with
  | refl s => exact (hv.done hc).symm
  | step busy hs _ ih =>
    obtain ⟨hr', hc'⟩ := hv
    cases hr' with
    | refl => exact absurd hc' busy
    | step _ hs' rest' =>
      obtain rfl := Host.Outcome.next.inj (hs.symm.trans hs')
      exact ih ⟨rest', hc'⟩ hc

/-- Taking an answer uses up a lined-up answer or a free value; nothing else of the Platform changes. -/
theorem Platform.takeBit_keeps (p : Platform) (a : Bool) :
    ∃ bits drawn, (p.takeBit a).2 = { p with bits := bits, drawn := drawn } := by
  unfold Platform.takeBit
  split
  · exact ⟨_, _, rfl⟩
  · split
    · exact ⟨_, _, rfl⟩
    · exact ⟨_, _, rfl⟩

/-- When the Platform answers at once, the answer is the awaited one and nothing is used up. -/
theorem Platform.takeBit_prompt (p : Platform) (a : Bool) (hb : p.bits = []) (ha : p.answering = .prompt) :
    p.takeBit a = (a, p) := by
  simp [Platform.takeBit, hb, ha]

/-- The state after a wait that failed `n` times and then held; `ts` comes next. -/
def waitedFor (s : State) (w : Wait) (ts : List Task) (bits : List Bool) (drawn : Nat) (inFlight : Bool) (n : Nat) :
    State :=
  { s with
    control := ts
    platform :=
      { s.platform with
        bits := bits, drawn := drawn, inFlight := inFlight
        trace := w.event w.wanted :: List.replicate n (w.event !w.wanted) ++ s.platform.trace } }

/-- A wait that is over: some answers were used up, and the last event is the awaited answer. -/
theorem await_passes {s u : State} {w : Wait} {ts : List Task} (h : Returns s u) (hc : s.control = .await w :: ts) :
    ∃ bits drawn inFlight n, Returns (waitedFor s w ts bits drawn inFlight n) u := by
  obtain ⟨hr, hu⟩ := h
  induction hr with
  | refl => rw [hc] at hu; cases hu
  | @step s s' u busy hs rest ih =>
    rw [step_task hc] at hs
    obtain ⟨bits, drawn, hk⟩ := s.platform.takeBit_keeps w.wanted
    simp only [perform, performAwait, Platform.query, hk, Platform.record, Host.Outcome.next.injEq] at hs
    split at hs
    · rename_i heq
      refine ⟨bits, drawn, (({ s.platform with bits := bits, drawn := drawn } : Platform).afterWait w).inFlight, 0, ?_⟩
      have : s' = waitedFor s w ts bits drawn
          (({ s.platform with bits := bits, drawn := drawn } : Platform).afterWait w).inFlight 0 := by
        rw [← hs, heq]; cases w <;> rfl
      exact this ▸ ⟨rest, hu⟩
    · rename_i hne
      have hb : (s.platform.takeBit w.wanted).1 = !w.wanted := by
        cases hw : w.wanted <;> cases hx : (s.platform.takeBit w.wanted).1 <;> simp_all
      rw [hb] at hs
      obtain ⟨bits', drawn', fl', n, hret⟩ := ih (by rw [← hs]) hu
      refine ⟨bits', drawn', fl', n + 1, ?_⟩
      rw [← hs] at hret
      simpa [waitedFor, List.replicate_succ', List.append_assoc] using hret

/-- Whatever returns from `t` returns from `s`: `s` runs on to `t`. -/
def Leads (s t : State) : Prop := ∀ u, Returns t u → Returns s u

theorem Leads.trans {s t v : State} (h : Leads s t) (h' : Leads t v) : Leads s v := fun u hu => h u (h' u hu)

/-- One task performed. -/
theorem Leads.next {s t v : State} {k : Task} {ts : List Task} (h : Leads s t) (hc : t.control = k :: ts)
    (hp : perform k { t with control := ts } = .next v) : Leads s v :=
  h.trans fun _ hu => Returns.cons hc hp hu

/-- When the Platform answers at once, a wait is over after one evaluation. -/
theorem Leads.await {s t : State} {w : Wait} {ts : List Task} (h : Leads s t) (hc : t.control = .await w :: ts)
    (hp : Prompt t) : ∃ fl, Leads s (waitedFor t w ts t.platform.bits t.platform.drawn fl 0) := by
  refine ⟨(t.platform.afterWait w).inFlight, h.next hc ?_⟩
  obtain ⟨ha, hb, -⟩ := hp
  simp only [perform, performAwait, Platform.query, Platform.takeBit_prompt _ _ hb ha, if_true]
  cases w <;> rfl

theorem Prompt.waited {t : State} {w : Wait} (h : Prompt t) (ts : List Task) (fl : Bool) :
    Prompt (waitedFor t w ts t.platform.bits t.platform.drawn fl 0) := h

@[simp] theorem wireOf_writeByte (b : Byte) (es : List Event) :
    wireOf (.command (.writeByte b) :: es) = wireOf es ++ [b] := rfl

/-- Only `writeByte` puts a byte on the wire. -/
theorem wireOf_cons_other {e : Event} {es : List Event} (h : ∀ b, e ≠ .command (.writeByte b)) :
    wireOf (e :: es) = wireOf es := by
  cases e with
  | command k => cases k <;> first | rfl | exact absurd rfl (h _)
  | _ => rfl

@[simp] theorem wireOf_wait (w : Wait) (b : Bool) (es : List Event) : wireOf (w.event b :: es) = wireOf es := by
  cases w <;> rfl

@[simp] theorem wireOf_waits (w : Wait) (b : Bool) (n : Nat) (es : List Event) :
    wireOf (List.replicate n (w.event b) ++ es) = wireOf es := by
  induction n with
  | zero => rfl
  | succ n ih => rw [List.replicate_succ, List.cons_append, wireOf_wait, ih]

/-- Calling an operation that a model does not refuse puts its pseudocode first. -/
theorem opStart_tasks {o : Op} {s : State} {ts : List Task} (hr : opRefusal s o = none)
    (hb : opBody s o = .tasks ts) : opStart o s = .next (s.push ts) := by
  simp [opStart, hr, hb]

/-- After `initialize` no operation but a second one, `beginSession` and `Session.begin` is refused (40_link R150). -/
theorem opRefusal_none {o : Op} {s : State} (hd : s.dir ≠ none) (h1 : o ≠ .linkInit) (h2 : o ≠ .linkBegin)
    (h3 : o ≠ .sessionBegin) : opRefusal s o = none := by
  cases o <;> simp_all [opRefusal]

@[simp] theorem readsOf_readByte (b : Byte) (es : List Event) : readsOf (.readByte b :: es) = readsOf es ++ [b] := rfl

@[simp] theorem readsOf_command (k : Command) (es : List Event) : readsOf (.command k :: es) = readsOf es := rfl

@[simp] theorem readsOf_wait (w : Wait) (b : Bool) (es : List Event) : readsOf (w.event b :: es) = readsOf es := by
  cases w <;> rfl

@[simp] theorem readsOf_waits (w : Wait) (b : Bool) (n : Nat) (es : List Event) :
    readsOf (List.replicate n (w.event b) ++ es) = readsOf es := by
  induction n with
  | zero => rfl
  | succ n ih => rw [List.replicate_succ, List.cons_append, readsOf_wait, ih]

@[simp] theorem transfersOf_writeByte (b : Byte) (es : List Event) :
    transfersOf (.command (.writeByte b) :: es) = transfersOf es ++ [.command (.writeByte b)] := rfl

@[simp] theorem transfersOf_pull (b : Byte) (es : List Event) :
    transfersOf (.pull b :: es) = transfersOf es ++ [.pull b] := rfl

/-- Commands other than `writeByte` are no transfers. -/
theorem transfersOf_cons_other {k : Command} {es : List Event} (h : ∀ b, k ≠ .writeByte b) :
    transfersOf (.command k :: es) = transfersOf es := by
  cases k <;> first | rfl | exact absurd rfl (h _)

@[simp] theorem transfersOf_wait (w : Wait) (b : Bool) (es : List Event) :
    transfersOf (w.event b :: es) = transfersOf es := by
  cases w <;> rfl

@[simp] theorem transfersOf_waits (w : Wait) (b : Bool) (n : Nat) (es : List Event) :
    transfersOf (List.replicate n (w.event b) ++ es) = transfersOf es := by
  induction n with
  | zero => rfl
  | succ n ih => rw [List.replicate_succ, List.cons_append, transfersOf_wait, ih]

/-- The bytes written, read and transferred in two runs one after the other. -/
theorem wireOf_append (es fs : List Event) : wireOf (es ++ fs) = wireOf fs ++ wireOf es := by
  induction es with
  | nil => simp [wireOf]
  | cons e es ih =>
    rw [List.cons_append]
    by_cases h : ∃ b, e = .command (.writeByte b)
    · obtain ⟨b, rfl⟩ := h; simp [ih]
    · push Not at h; rw [wireOf_cons_other h, wireOf_cons_other h, ih]

theorem readsOf_append (es fs : List Event) : readsOf (es ++ fs) = readsOf fs ++ readsOf es := by
  induction es with
  | nil => simp [readsOf]
  | cons e es ih => cases e <;> simp [readsOf, ih]

theorem transfersOf_append (es fs : List Event) : transfersOf (es ++ fs) = transfersOf fs ++ transfersOf es := by
  induction es with
  | nil => simp [transfersOf]
  | cons e es ih =>
    cases e with
    | command k => cases k <;> simp [transfersOf, ih]
    | _ => simp [transfersOf, ih]

/-- A run only adds to the trace. -/
theorem Runs.trace {s u : State} (h : Runs s u) : ∃ new, u.platform.trace = new ++ s.platform.trace := by
  induction h with
  | refl => exact ⟨[], rfl⟩
  | @step s s' u busy hs _ ih =>
    obtain ⟨t, ts, hc⟩ := List.exists_cons_of_ne_nil busy
    rw [step_task hc] at hs
    obtain ⟨new, hn⟩ := perform_trace hs
    obtain ⟨new', hn'⟩ := ih
    exact ⟨new' ++ new, by rw [hn', hn, List.append_assoc]⟩

/-- A run only adds to the wire. -/
theorem Runs.wire_length {s u : State} (h : Runs s u) : s.wire.length ≤ u.wire.length := by
  obtain ⟨new, hn⟩ := h.trace
  simp [State.wire, hn, wireOf_append]

/-! ## Sending -/

/-- What sending `bs` has done when it returns, for every answer of the Platform (40_link R142, R146). -/
structure Sent (s : State) (bs : List Byte) (s' : State) : Prop where
  wire : s'.wire = s.wire ++ bs
  reads : readsOf s'.platform.trace = readsOf s.platform.trace
  transfers :
    transfersOf s'.platform.trace = transfersOf s.platform.trace ++ bs.map fun b => .command (.writeByte b)
  dir : s'.dir = if bs = [] then s.dir else some .transmitting
  frame : CoreFrame s s'
  frames : s'.platform.frames = s.platform.frames
  ret : s'.ret = s.ret
  reply : s'.reply = s.reply
  source : s'.source = s.source
  target : WireConnected s → s'.target = s.target.receiveAll s.cfg bs
  connected : WireConnected s → WireConnected s'

theorem CoreFrame.refl (s : State) : CoreFrame s s :=
  ⟨rfl, rfl, rfl, rfl, rfl, rfl, rfl, rfl, rfl, rfl⟩

theorem CoreFrame.trans {s t u : State} (h : CoreFrame s t) (h' : CoreFrame t u) : CoreFrame s u := by
  obtain ⟨h1, h2, h3, h4, h5, h6, h7, h8, h9, h10⟩ := h
  obtain ⟨g1, g2, g3, g4, g5, g6, g7, g8, g9, g10⟩ := h'
  exact ⟨g1.trans h1, g2.trans h2, g3.trans h3, g4.trans h4, g5.trans h5, g6.trans h6, g7.trans h7, g8.trans h8,
    g9.trans h9, g10.trans h10⟩

theorem Target.receiveAll_append (t : Target) (c : Config) (as bs : List Byte) :
    t.receiveAll c (as ++ bs) = (t.receiveAll c as).receiveAll c bs := by
  simp [Target.receiveAll]

/-- Link activity that sends, reads and transfers nothing and ends in direction `d`. -/
structure Quietly (s : State) (d : Option Direction) (s' : State) : Prop where
  wire : s'.wire = s.wire
  reads : readsOf s'.platform.trace = readsOf s.platform.trace
  transfers : transfersOf s'.platform.trace = transfersOf s.platform.trace
  dir : s'.dir = d
  frame : CoreFrame s s'
  frames : s'.platform.frames = s.platform.frames
  ret : s'.ret = s.ret
  reply : s'.reply = s.reply
  source : s'.source = s.source
  target : s'.target = s.target

theorem Quietly.trans {s t u : State} {d e : Option Direction} (h : Quietly s d t) (h' : Quietly t e u) :
    Quietly s e u where
  wire := h'.wire.trans h.wire
  reads := h'.reads.trans h.reads
  transfers := h'.transfers.trans h.transfers
  dir := h'.dir
  frame := h.frame.trans h'.frame
  frames := h'.frames.trans h.frames
  ret := h'.ret.trans h.ret
  reply := h'.reply.trans h.reply
  source := h'.source.trans h.source
  target := h'.target.trans h.target

/-- Sending nothing changes nothing. -/
theorem Sent.nil (s : State) (ts : List Task) : Sent s [] { s with control := ts } where
  wire := by simp [State.wire]
  reads := rfl
  transfers := by simp
  dir := by simp
  frame := CoreFrame.refl s
  frames := rfl
  ret := rfl
  reply := rfl
  source := rfl
  target _ := rfl
  connected h := h

/-- Sending one list of bytes after another. -/
theorem Sent.append {s t u : State} {as bs : List Byte} (h : Sent s as t) (h' : Sent t bs u) : Sent s (as ++ bs) u where
  wire := by rw [h'.wire, h.wire, List.append_assoc]
  reads := h'.reads.trans h.reads
  transfers := by rw [h'.transfers, h.transfers, List.map_append, List.append_assoc]
  dir := by
    rw [h'.dir, h.dir]
    by_cases hb : bs = []
    · simp [hb]
    · simp [hb]
  frame := h.frame.trans h'.frame
  frames := h'.frames.trans h.frames
  ret := h'.ret.trans h.ret
  reply := h'.reply.trans h.reply
  source := h'.source.trans h.source
  target hw := by rw [h'.target (h.connected hw), h.target hw, h.frame.1, Target.receiveAll_append]
  connected hw := h'.connected (h.connected hw)

/-- Sending keeps the driver initialised. -/
theorem Sent.dir_ne {s s' : State} {bs : List Byte} (h : Sent s bs s') (hd : s.dir ≠ none) : s'.dir ≠ none := by
  rw [h.dir]; split
  · exact hd
  · simp

/-- The tasks of the transition into Transmitting and of `send(b)` after it. -/
theorem sendBody_transmitting {dir : Option Direction} (h : dir = some .transmitting) (b : Byte) :
    sendBody dir b = [.await .txBufferEmpty, .command .resetTxComplete, .command (.writeByte b)] := by
  simp [sendBody, toTransmitting, h]

theorem sendBody_other {dir : Option Direction} (h : dir ≠ some .transmitting) (b : Byte) :
    sendBody dir b =
      [.await (.clock .high), .await (.clock .low), .await (.clock .high),
        .command (.configurePinOutput .dataOut .high), .command .enableTx, .command .disableRx, .setDir .transmitting,
        .await .txBufferEmpty, .command .resetTxComplete, .command (.writeByte b)] := by
  simp [sendBody, toTransmitting, h, waitClockCycle]

/-- A task that always gives a next state, before a run that returns. -/
theorem Returns.next {s u s' : State} {t : Task} {ts : List Task} (h : Returns s u) (hc : s.control = t :: ts)
    (hp : perform t { s with control := ts } = .next s') : Returns s' u := by
  obtain ⟨s1, h1, h2⟩ := h.head hc
  obtain rfl := Host.Outcome.next.inj (hp.symm.trans h1)
  exact h2

/-- Calling an operation that is not refused: its body comes next. -/
theorem Returns.run {s u : State} {o : Op} {ts body : List Task} (h : Returns s u) (hc : s.control = .run o :: ts)
    (hr : opRefusal s o = none) (hb : opBody s o = .tasks body) :
    Returns { s with control := body ++ ts } u := by
  refine h.next (s' := State.push { s with control := ts } body) hc ?_
  refine opStart_tasks (s := { s with control := ts }) ?_ ?_
  · rw [← hr]; cases o <;> rfl
  · rw [← hb]; cases o <;> rfl

/-- A wait changes neither the wire nor anything of the core. -/
theorem waitedFor_quietly (s : State) (w : Wait) (ts : List Task) (bits : List Bool) (drawn : Nat) (fl : Bool)
    (n : Nat) : Quietly s s.dir (waitedFor s w ts bits drawn fl n) := by
  constructor
  · simp [State.wire, waitedFor]
  · simp [waitedFor]
  · simp [waitedFor]
  · rfl
  · exact ⟨rfl, rfl, rfl, rfl, rfl, rfl, rfl, rfl, rfl, rfl⟩
  · rfl
  · rfl
  · rfl
  · rfl
  · rfl

/-- Sending after link activity that ends in Transmitting with TX on. -/
theorem Quietly.sent {s t u : State} {d : Option Direction} {bs : List Byte} (h : Quietly s d t)
    (hw : WireConnected s → WireConnected t) (hd : bs = [] → t.dir = s.dir) (h' : Sent t bs u) : Sent s bs u where
  wire := by rw [h'.wire, h.wire]
  reads := h'.reads.trans h.reads
  transfers := by rw [h'.transfers, h.transfers]
  dir := by rw [h'.dir]; split; exacts [hd ‹_›, rfl]
  frame := h.frame.trans h'.frame
  frames := h'.frames.trans h.frames
  ret := h'.ret.trans h.ret
  reply := h'.reply.trans h.reply
  source := h'.source.trans h.source
  target hs := by rw [h'.target (hw hs), h.target, h.frame.1]
  connected hs := h'.connected (hw hs)

/-- The commands that switch to transmit. -/
def switchedToTransmit (s : State) (ts : List Task) : State :=
  { performCommand .disableRx (performCommand .enableTx (performCommand (.configurePinOutput .dataOut .high) s)) with
    dir := some .transmitting, control := ts }

theorem switchedToTransmit_quietly (s : State) (ts : List Task) :
    Quietly s (some .transmitting) (switchedToTransmit s ts) := by
  constructor
  · simp [State.wire, wireOf_cons_other, Platform.apply, Platform.setPin, switchedToTransmit]
  · simp [Platform.apply, Platform.setPin, switchedToTransmit]
  · simp [transfersOf_cons_other, Platform.apply, Platform.setPin, switchedToTransmit]
  · rfl
  · simp [CoreFrame, Platform.apply, Platform.setPin, switchedToTransmit]
  · simp [Platform.apply, Platform.setPin, switchedToTransmit]
  · simp [switchedToTransmit]
  · simp [switchedToTransmit]
  · simp [switchedToTransmit]
  · simp [performCommand_target, switchedToTransmit]

/-- The last two commands of `send(b)`. -/
def byteWritten (s : State) (b : Byte) (ts : List Task) : State :=
  { performCommand (.writeByte b) (performCommand .resetTxComplete s) with control := ts }

theorem byteWritten_sent (s : State) (b : Byte) (ts : List Task) (hd : s.dir = some .transmitting) :
    Sent s [b] (byteWritten s b ts) := by
  constructor
  · simp [State.wire, wireOf_cons_other, Platform.apply, byteWritten]
  · simp [Platform.apply, byteWritten]
  · simp [transfersOf_cons_other, Platform.apply, byteWritten]
  · simpa [byteWritten] using hd
  · exact ⟨rfl, rfl, rfl, rfl, rfl, rfl, rfl, rfl, rfl, rfl⟩
  · rfl
  · rfl
  · rfl
  · rfl
  · intro hw
    simp [performCommand_target, Platform.apply, hw hd, Target.receiveAll, byteWritten]
  · intro hw _; simpa [Platform.apply, byteWritten] using hw hd

/-- Sending after a quiet wait in direction Transmitting. -/
theorem Sent.after {s t u : State} {b : Byte} (h : Sent t [b] u) (q : Quietly s s.dir t)
    (hd : s.dir = some .transmitting) (hw : t.platform.txOn = s.platform.txOn) : Sent s [b] u :=
  q.sent (fun hs _ => hw ▸ hs hd) (by simp) h

section SendParts
variable {s t u : State} {b : Byte} {ts : List Task}

/-- A wait that is over has been quiet. -/
theorem await_quietly {w : Wait} (h : Returns s u) (hc : s.control = .await w :: ts) :
    ∃ s', Quietly s s.dir s' ∧ s'.control = ts ∧ Returns s' u := by
  obtain ⟨b, d, f, n, h1⟩ := await_passes h hc
  exact ⟨_, waitedFor_quietly s w ts b d f n, rfl, h1⟩

/-- What a wait that failed `n` times and then held has done, event by event. -/
structure WaitedFor (s : State) (w : Wait) (n : Nat) (s' : State) : Prop where
  quiet : Quietly s s.dir s'
  trace : s'.platform.trace = w.event w.wanted :: List.replicate n (w.event !w.wanted) ++ s.platform.trace
  txOn : s'.platform.txOn = s.platform.txOn
  rxOn : s'.platform.rxOn = s.platform.rxOn
  dataOutPin : s'.platform.dataOutPin = s.platform.dataOutPin

/-- A wait that is over, with its events. -/
theorem await_waits {w : Wait} (h : Returns s u) (hc : s.control = .await w :: ts) :
    ∃ n s', WaitedFor s w n s' ∧ s'.control = ts ∧ Returns s' u := by
  obtain ⟨b, d, f, n, h1⟩ := await_passes h hc
  exact ⟨n, _, ⟨waitedFor_quietly s w ts b d f n, rfl, rfl, rfl, rfl⟩, rfl, h1⟩

/-- When the Platform answers at once, a wait is over. -/
theorem Leads.await_quietly {w : Wait} (h : Leads s t) (hc : t.control = .await w :: ts) (hp : Prompt t) :
    ∃ s', Quietly t t.dir s' ∧ Prompt s' ∧ s'.control = ts ∧ Leads s s' := by
  obtain ⟨fl, h1⟩ := h.await hc hp
  exact ⟨_, waitedFor_quietly t w ts _ _ fl 0, hp, rfl, h1⟩

/-- The tasks that switch to transmit. -/
def switchTasks : List Task :=
  [.command (.configurePinOutput .dataOut .high), .command .enableTx, .command .disableRx, .setDir .transmitting]

theorem switch_passes (h : Returns s u) (hc : s.control = switchTasks ++ ts) :
    Returns (switchedToTransmit s ts) u :=
  (((h.next hc rfl).next rfl rfl).next rfl rfl).next rfl rfl

theorem Leads.switch (h : Leads s t) (hc : t.control = switchTasks ++ ts) : Leads s (switchedToTransmit t ts) :=
  (((h.next hc rfl).next rfl rfl).next rfl rfl).next rfl rfl

/-- The end of `send(b)` in direction Transmitting. -/
theorem writeTasks_pass (h : Returns s u)
    (hc : s.control = .await .txBufferEmpty :: .command .resetTxComplete :: .command (.writeByte b) :: ts)
    (hd : s.dir = some .transmitting) : ∃ s', Sent s [b] s' ∧ s'.control = ts ∧ Returns s' u := by
  obtain ⟨b1, d1, f1, n1, h1⟩ := await_passes h hc
  have q := waitedFor_quietly s .txBufferEmpty (.command .resetTxComplete :: .command (.writeByte b) :: ts) b1 d1 f1 n1
  exact ⟨_, (byteWritten_sent _ b ts (q.dir.trans hd)).after q hd rfl, rfl, (h1.next rfl rfl).next rfl rfl⟩

theorem Leads.writeTasks (h : Leads s t)
    (hc : t.control = .await .txBufferEmpty :: .command .resetTxComplete :: .command (.writeByte b) :: ts)
    (hd : t.dir = some .transmitting) (hp : Prompt t) :
    ∃ s', Sent t [b] s' ∧ Prompt s' ∧ s'.control = ts ∧ Leads s s' := by
  obtain ⟨f1, h1⟩ := h.await hc hp
  have q := waitedFor_quietly t .txBufferEmpty (.command .resetTxComplete :: .command (.writeByte b) :: ts)
    t.platform.bits t.platform.drawn f1 0
  exact ⟨_, (byteWritten_sent _ b ts (q.dir.trans hd)).after q hd rfl, hp, rfl, (h1.next rfl rfl).next rfl rfl⟩

/-- `send(b)` returns only when it has done what `Sent` says. -/
theorem send_passes (h : Returns s u) (hc : s.control = .run (.send b) :: ts) (hd : s.dir ≠ none) :
    ∃ s', Sent s [b] s' ∧ s'.control = ts ∧ Returns s' u := by
  have hr : opRefusal s (.send b) = none := opRefusal_none hd (by simp) (by simp) (by simp)
  have h1 := h.run hc hr rfl
  by_cases ht : s.dir = some .transmitting
  · rw [sendBody_transmitting ht] at h1
    obtain ⟨s', hs, hc', h'⟩ := writeTasks_pass h1 rfl ht
    exact ⟨s', (Sent.nil s _).append hs, hc', h'⟩
  · rw [sendBody_other ht] at h1
    obtain ⟨s1, q1, c1, h1⟩ := await_quietly h1 rfl
    obtain ⟨s2, q2, c2, h2⟩ := await_quietly h1 c1
    obtain ⟨s3, q3, c3, h3⟩ := await_quietly h2 c2
    have h4 := switch_passes h3 c3
    obtain ⟨s', hs, hc', h'⟩ := writeTasks_pass h4 rfl rfl
    have q := ((q1.trans q2).trans q3).trans (switchedToTransmit_quietly s3
      (.await .txBufferEmpty :: .command .resetTxComplete :: .command (.writeByte b) :: ts))
    exact ⟨s', (Sent.nil s _).append (q.sent (fun _ _ => rfl) (by simp) hs), hc', h'⟩

/-- When the Platform answers at once, `send(b)` returns. -/
theorem Leads.send (h : Leads s t) (hc : t.control = .run (.send b) :: ts) (hd : t.dir ≠ none) (hp : Prompt t) :
    ∃ s', Sent t [b] s' ∧ Prompt s' ∧ s'.control = ts ∧ Leads s s' := by
  have hr : opRefusal t (.send b) = none := opRefusal_none hd (by simp) (by simp) (by simp)
  have h1 := h.next hc (opStart_tasks (s := { t with control := ts }) (o := .send b) hr rfl)
  simp only [State.push] at h1
  by_cases ht : t.dir = some .transmitting
  · rw [sendBody_transmitting ht] at h1
    obtain ⟨s', hs, hp', hc', h'⟩ := h1.writeTasks rfl ht hp
    exact ⟨s', (Sent.nil t _).append hs, hp', hc', h'⟩
  · rw [sendBody_other ht] at h1
    obtain ⟨s1, q1, p1, c1, h1⟩ := h1.await_quietly rfl hp
    obtain ⟨s2, q2, p2, c2, h2⟩ := h1.await_quietly c1 p1
    obtain ⟨s3, q3, p3, c3, h3⟩ := h2.await_quietly c2 p2
    have h4 := h3.switch c3
    obtain ⟨s', hs, hp', hc', h'⟩ := h4.writeTasks rfl rfl p3
    have q := ((q1.trans q2).trans q3).trans (switchedToTransmit_quietly s3
      (.await .txBufferEmpty :: .command .resetTxComplete :: .command (.writeByte b) :: ts))
    exact ⟨s', (Sent.nil t _).append (q.sent (fun _ _ => rfl) (by simp) hs), hp', hc', h'⟩

/-- When the Platform answers at once, a list of `send`s returns. -/
theorem Leads.sends {bs : List Byte} (h : Leads s t) (hc : t.control = sends bs ++ ts) (hd : t.dir ≠ none)
    (hp : Prompt t) : ∃ s', Sent t bs s' ∧ Prompt s' ∧ s'.control = ts ∧ Leads s s' := by
  induction bs generalizing t with
  | nil => exact ⟨t, Sent.nil t t.control, hp, by simpa [Machine.sends] using hc, h⟩
  | cons b bs ih =>
    obtain ⟨t1, hs1, hp1, hc1, h1⟩ := h.send (ts := Machine.sends bs ++ ts) (by simpa [Machine.sends] using hc) hd hp
    obtain ⟨t2, hs2, hp2, hc2, h2⟩ := ih h1 hc1 (hs1.dir_ne hd) hp1
    exact ⟨t2, hs1.append hs2, hp2, hc2, h2⟩

end SendParts

/-- Sending a list of bytes, one `send` each. -/
theorem sends_pass {s u : State} {bs : List Byte} {ts : List Task} (h : Returns s u)
    (hc : s.control = sends bs ++ ts) (hd : s.dir ≠ none) :
    ∃ s', Sent s bs s' ∧ s'.control = ts ∧ Returns s' u := by
  induction bs generalizing s with
  | nil =>
    refine ⟨s, ?_, by simpa [sends] using hc, h⟩
    exact Sent.nil s s.control
  | cons b bs ih =>
    obtain ⟨s1, hs1, hc1, h1⟩ := send_passes (ts := sends bs ++ ts) h (by simpa [sends] using hc) hd
    obtain ⟨s2, hs2, hc2, h2⟩ := ih h1 hc1 (hs1.dir_ne hd)
    exact ⟨s2, hs1.append hs2, hc2, h2⟩

/-! ## A caller's call -/

/-- The state of a caller's call as if the operation were the next task. -/
def State.calling (s : State) (o : Op) (src : List Byte) : State :=
  { s with ret := .nothing, source := .bytes src, control := [.run o], target := (s.target.atCall s.cfg o).noteExit (s.strays o) }

/-- A ready machine takes a call: it answers a next state, whose runs are those of the operation. -/
theorem call_taken {s : State} {o : Op} {src : List Byte} (hs : s.control = []) (hw : o.wellFormed = true)
    (hl : opPulls o ≤ src.length) (hr : opRefusal s o = none) {body : List Task}
    (hb : opBody (s.calling o src) o = .tasks body) :
    s.call o src = .next { s.calling o src with control := body } ∧
      ∀ u, Returns { s.calling o src with control := body } u ↔ Returns (s.calling o src) u := by
  let t : State := { s with ret := .nothing, source := .bytes src, control := [], target := (s.target.atCall s.cfg o).noteExit (s.strays o) }
  have hr' : opRefusal t o = none := by rw [← hr]; cases o <;> rfl
  have hb' : opBody t o = .tasks body := by rw [← hb]; cases o <;> rfl
  have hp := opStart_tasks hr' hb'
  refine ⟨?_, fun u => ⟨fun h => Returns.cons (ts := []) rfl ?_ h, fun h => ?_⟩⟩
  · have e : ({ s with ret := .nothing, source := .bytes src, target := (s.target.atCall s.cfg o).noteExit (s.strays o) } : State) = t := by
      simp only [t, ← hs]
    unfold State.call
    rw [if_neg (by simp [hs]), hr]
    simp only [hw, Bool.not_true, Bool.false_eq_true, if_false, Nat.not_lt.2 hl]
    rw [e, hp]
    simp [State.push, State.calling, t]
  · exact hp.trans (by simp [State.push, State.calling, t])
  · simpa using h.run (ts := []) (body := body) rfl (by rw [← hr]; cases o <;> rfl) hb

end Sys2Proof.Machine
end

