-- ==== Sys2Proof/Laws/Recv.lean ====
section
/-!
SUPPORT. What `recv` can do: the transition into Receiving, the bounded poll, and its three outcomes.
-/

namespace Sys2Proof.Machine

/-- One full clock cycle is quiet. -/
theorem waitClockCycle_quietly {s u : State} {ts : List Task} (h : Returns s u)
    (hc : s.control = waitClockCycle ++ ts) : ∃ s', Quietly s s.dir s' ∧ s'.control = ts ∧ Returns s' u := by
  obtain ⟨s1, q1, c1, h1⟩ := await_quietly h hc
  obtain ⟨s2, q2, c2, h2⟩ := await_quietly h1 c1
  obtain ⟨s3, q3, c3, h3⟩ := await_quietly h2 c2
  have q := (q1.trans q2).trans q3
  rw [q2.dir, q1.dir] at q
  exact ⟨s3, q, c3, h3⟩

/-- The state after the commands that switch to receive. -/
def switchedToReceive (s : State) (ts : List Task) : State :=
  { performCommand (.configurePinInput .dataOut) (performCommand .disableTx (performCommand .enableRx s)) with
    dir := some .receiving, control := ts }

theorem switchedToReceive_quietly (s : State) (ts : List Task) :
    Quietly s (some .receiving) (switchedToReceive s ts) := by
  constructor
  · simp [State.wire, wireOf_cons_other, Platform.apply, Platform.setPin, switchedToReceive]
  · simp [Platform.apply, Platform.setPin, switchedToReceive]
  · simp [transfersOf_cons_other, Platform.apply, Platform.setPin, switchedToReceive]
  · rfl
  · simp [CoreFrame, Platform.apply, Platform.setPin, switchedToReceive]
  · simp [Platform.apply, Platform.setPin, switchedToReceive]
  · simp [switchedToReceive]
  · simp [switchedToReceive]
  · simp [switchedToReceive]
  · simp [performCommand_target, switchedToReceive]

/-- The commands that switch to receive are quiet, and leave RX on, TX off and DataOut an input. -/
theorem switchToReceive_quietly {s u : State} {ts : List Task} (h : Returns s u)
    (hc : s.control = .command .enableRx :: .command .disableTx :: .command (.configurePinInput .dataOut) ::
      .setDir .receiving :: ts) :
    ∃ s', Quietly s (some .receiving) s' ∧ s'.control = ts ∧ Returns s' u ∧ s'.platform.txOn = false ∧
      s'.platform.rxOn = true ∧ s'.platform.dataOutPin = .input :=
  ⟨_, switchedToReceive_quietly s ts, rfl, (((h.next hc rfl).next rfl rfl).next rfl rfl).next rfl rfl, rfl, rfl, rfl⟩

/-- A `resetTxComplete` is quiet. -/
theorem resetTxComplete_keeps (s : State) (ts : List Task) :
    Quietly s s.dir (performCommand .resetTxComplete { s with control := ts }) := by
  constructor
  · simp [State.wire, wireOf_cons_other, Platform.apply]
  · simp [Platform.apply]
  · simp [transfersOf_cons_other, Platform.apply]
  · rfl
  · exact ⟨rfl, rfl, rfl, rfl, rfl, rfl, rfl, rfl, rfl, rfl⟩
  · rfl
  · rfl
  · rfl
  · rfl
  · rfl

theorem resetTxComplete_quietly {s u : State} {ts : List Task} (h : Returns s u)
    (hc : s.control = .command .resetTxComplete :: ts) :
    ∃ s', Quietly s s.dir s' ∧ s'.control = ts ∧ Returns s' u :=
  ⟨_, resetTxComplete_keeps s ts, rfl, h.next hc rfl⟩

/-- The transition into Receiving (40_link R143), from any direction. -/
theorem toReceiving_quietly {s u : State} {ts : List Task} (h : Returns s u)
    (hc : s.control = toReceiving s.dir ++ ts) :
    ∃ s', Quietly s (some .receiving) s' ∧ s'.control = ts ∧ Returns s' u := by
  by_cases hr : s.dir = some .receiving
  · refine ⟨s, ⟨rfl, rfl, rfl, hr, CoreFrame.refl s, rfl, rfl, rfl, rfl, rfl⟩, ?_, h⟩
    simpa [toReceiving, hr] using hc
  · by_cases ht : s.dir = some .transmitting
    · obtain ⟨s1, q1, c1, h1⟩ := await_quietly (w := .txComplete) h
        (by simpa [toReceiving, ht] using hc)
      obtain ⟨s2, q2, c2, h2⟩ := resetTxComplete_quietly h1 c1
      obtain ⟨s3, q3, c3, h3, -⟩ := switchToReceive_quietly h2 c2
      exact ⟨s3, (q1.trans q2).trans q3, c3, h3⟩
    · obtain ⟨s3, q3, c3, h3, -⟩ := switchToReceive_quietly (ts := ts) h (by simpa [toReceiving, ht, hr] using hc)
      exact ⟨s3, q3, c3, h3⟩

/-- What a successful `recv` has done: it returns `b`, which the UART gave. -/
structure Received (s : State) (b : Byte) (s' : State) : Prop where
  wire : s'.wire = s.wire
  reads : readsOf s'.platform.trace = readsOf s.platform.trace ++ [b]
  transfers : transfersOf s'.platform.trace = transfersOf s.platform.trace
  dir : s'.dir = some .receiving
  frame : CoreFrame s s'
  ret : s'.ret = .ok (.byte b)
  reply : s'.reply = b
  source : s'.source = s.source
  target : s'.target = s.target.readReply

/-- What a `recv` that failed has done: nothing but the transition and the poll, and maybe a repeated LD cut short. -/
structure RecvFailed (s s' : State) : Prop where
  wire : s'.wire = s.wire
  reads : readsOf s'.platform.trace = readsOf s.platform.trace
  transfers : transfersOf s'.platform.trace = transfersOf s.platform.trace
  dir : s'.dir = some .receiving
  frame : CoreFrame s s'
  error : LinkError s'.ret
  reply : s'.reply = s.reply
  source : s'.source = s.source
  target : s'.target = s.target.cutOff

theorem Quietly.received {s t u : State} {d : Option Direction} {b : Byte} (h : Quietly s d t)
    (h' : Received t b u) : Received s b u where
  wire := h'.wire.trans h.wire
  reads := by rw [h'.reads, h.reads]
  transfers := h'.transfers.trans h.transfers
  dir := h'.dir
  frame := h.frame.trans h'.frame
  ret := h'.ret
  reply := h'.reply
  source := h'.source.trans h.source
  target := by rw [h'.target, h.target]

theorem Quietly.recvFailed {s t u : State} {d : Option Direction} (h : Quietly s d t) (h' : RecvFailed t u) :
    RecvFailed s u where
  wire := h'.wire.trans h.wire
  reads := h'.reads.trans h.reads
  transfers := h'.transfers.trans h.transfers
  dir := h'.dir
  frame := h.frame.trans h'.frame
  error := h'.error
  reply := h'.reply.trans h.reply
  source := h'.source.trans h.source
  target := by rw [h'.target, h.target]

/-- Taking a received byte uses up a lined-up byte or a free value; nothing else of the Platform changes. -/
theorem Platform.takeFrame_keeps (p : Platform) (l : Option Byte) :
    ∃ frames drawn, (p.takeFrame l).2 = { p with frames := frames, drawn := drawn } := by
  unfold Platform.takeFrame
  split
  · exact ⟨_, _, rfl⟩
  · split
    · exact ⟨_, _, rfl⟩
    · exact ⟨_, _, rfl⟩

/-- `readByte` ends `recv` with the byte. -/
theorem performRxRead_received (s : State) (hd : s.dir = some .receiving) : ∃ b, Received s b (performRxRead s) := by
  obtain ⟨frames, drawn, hf⟩ := s.platform.takeFrame_keeps s.target.replies.head?
  refine ⟨(s.platform.takeFrame s.target.replies.head?).1, ?_⟩
  simp only [performRxRead, hf]
  exact ⟨rfl, rfl, rfl, hd, ⟨rfl, rfl, rfl, rfl, rfl, rfl, rfl, rfl, rfl, rfl⟩, rfl, rfl, rfl, rfl⟩

/-- When the Platform answers at once, the byte is the next reply on the link, if there is one. -/
theorem performRxRead_prompt (s : State) (hd : s.dir = some .receiving) (hp : Prompt s) :
    ∃ b, Received s b (performRxRead s) ∧ (∀ x, s.target.replies.head? = some x → b = x) ∧
      Prompt (performRxRead s) := by
  obtain ⟨b, hb⟩ := performRxRead_received s hd
  refine ⟨b, hb, fun x hx => ?_, ?_⟩
  · rw [← hb.reply]
    simp [performRxRead, Platform.takeFrame, hp.1, hp.2.2, hx]
  · simp only [Prompt, performRxRead, Platform.record_answering, Platform.record_bits, Platform.record_frames,
      Platform.takeFrame, hp.1, hp.2.2]
    cases s.target.replies.head? <;> simp [hp.1, hp.2.1, hp.2.2]

/-- A query that sends and reads nothing is quiet, whatever comes next. -/
theorem query_quietly (s : State) (e : Bool → Event) (a : Bool) (ts : List Task) (h : e = .rxComplete ∨ e = .rxError) :
    Quietly s s.dir { s with platform := (s.platform.query e a).2, control := ts } := by
  obtain ⟨bits, drawn, hk⟩ := s.platform.takeBit_keeps a
  simp only [Platform.query, hk]
  rcases h with rfl | rfl <;>
    exact ⟨rfl, rfl, rfl, rfl, ⟨rfl, rfl, rfl, rfl, rfl, rfl, rfl, rfl, rfl, rfl⟩, rfl, rfl, rfl, rfl, rfl⟩

/-- An error ends `recv` right after a query. -/
theorem Quietly.raised {s t : State} {d : Option Direction} (h : Quietly s d t) (hd : d = some .receiving)
    (ts : List Task) (e : ErrorCode) (he : e = .serialError ∨ e = .serialTimeout) : RecvFailed s { t with ret := .err e, control := ts, target := t.target.cutOff } where
  wire := h.wire
  reads := h.reads
  transfers := h.transfers
  dir := h.dir.trans hd
  frame := h.frame
  error := by rcases he with rfl | rfl; exacts [.inl rfl, .inr rfl]
  reply := h.reply
  source := h.source
  target := by rw [h.target]

/-- The error check of `recv` and what follows it. -/
theorem rxErrorCheck_passes {s u : State} {ts : List Task} (h : Returns s u) (hc : s.control = .rxErrorCheck :: ts)
    (hd : s.dir = some .receiving) :
    (∃ s' b, Received s b s' ∧ s'.control = ts ∧ Returns s' u) ∨
      ∃ s', RecvFailed s s' ∧ s'.control = unwind ts ∧ Returns s' u := by
  have h1 := h.next hc rfl
  simp only [performRxErrorCheck] at h1
  split at h1
  · refine .inr ⟨_, ?_, rfl, h1⟩
    exact (query_quietly s .rxError false ts (.inr rfl)).raised hd _ _ (.inl rfl)
  · have q := query_quietly s .rxError false (.rxRead :: ts) (.inr rfl)
    obtain ⟨b, hb⟩ := performRxRead_received
      { s with platform := (s.platform.query .rxError false).2, control := ts } hd
    have q' := query_quietly s .rxError false ts (.inr rfl)
    exact .inl ⟨_, b, q'.received hb, rfl, h1.next rfl rfl⟩

/-- The poll of `recv` (40_link R148), with `n` checks to go. -/
theorem rxCheck_passes {s u : State} {n : Nat} {ts : List Task} (h : Returns s u)
    (hc : s.control = .rxCheck n :: ts) (hd : s.dir = some .receiving) :
    (∃ s' b, Received s b s' ∧ s'.control = ts ∧ Returns s' u) ∨
      ∃ s', RecvFailed s s' ∧ s'.control = unwind ts ∧ Returns s' u := by
  induction n generalizing s with
  | zero =>
    refine .inr ⟨_, ?_, rfl, h.next hc rfl⟩
    exact ⟨rfl, rfl, rfl, hd, CoreFrame.refl s, .inr rfl, rfl, rfl, rfl⟩
  | succ n ih =>
    have h1 := h.next hc rfl
    simp only [performRxCheck] at h1
    split at h1
    · have q := query_quietly s .rxComplete true (.rxErrorCheck :: ts) (.inl rfl)
      rcases rxErrorCheck_passes (ts := ts) h1 rfl hd with ⟨s', b, hr, hc', h'⟩ | ⟨s', hf, hc', h'⟩
      · exact .inl ⟨s', b, q.received hr, hc', h'⟩
      · exact .inr ⟨s', q.recvFailed hf, hc', h'⟩
    · have q := query_quietly s .rxComplete true (waitClockCycle ++ .rxCheck n :: ts) (.inl rfl)
      obtain ⟨s2, q2, c2, h2⟩ := waitClockCycle_quietly (ts := .rxCheck n :: ts) h1 (by simp [State.push])
      have q := q.trans q2
      rcases ih h2 c2 (q2.dir.trans hd) with ⟨s', b, hr, hc', h'⟩ | ⟨s', hf, hc', h'⟩
      · exact .inl ⟨s', b, q.received hr, hc', h'⟩
      · exact .inr ⟨s', q.recvFailed hf, hc', h'⟩

/-- `recv()` (40_link R148) returns a byte, or unwinds with a link error. -/
theorem recv_passes {s u : State} {ts : List Task} (h : Returns s u) (hc : s.control = .run .recv :: ts)
    (hd : s.dir ≠ none) :
    (∃ s' b, Received s b s' ∧ s'.control = ts ∧ Returns s' u) ∨
      ∃ s', RecvFailed s s' ∧ s'.control = unwind ts ∧ Returns s' u := by
  have h1 := h.run hc (opRefusal_none hd (by simp) (by simp) (by simp)) rfl
  have q0 : Quietly s s.dir { s with control := recvBody s.cfg s.dir ++ ts } :=
    ⟨rfl, rfl, rfl, rfl, CoreFrame.refl s, rfl, rfl, rfl, rfl, rfl⟩
  obtain ⟨s1, q1, c1, h2⟩ := toReceiving_quietly (ts := .rxCheck s.cfg.recvPollCycles :: ts) h1
    (by simp [recvBody])
  have q := q0.trans q1
  rcases rxCheck_passes h2 c1 q.dir with ⟨s', b, hr, hc', h'⟩ | ⟨s', hf, hc', h'⟩
  · exact .inl ⟨s', b, q.received hr, hc', h'⟩
  · exact .inr ⟨s', q.recvFailed hf, hc', h'⟩

/-! ## When the Platform answers at once -/

section PromptRuns
variable {s t : State} {ts : List Task}

theorem Leads.toReceiving (h : Leads s t) (hc : t.control = toReceiving t.dir ++ ts) (hp : Prompt t) :
    ∃ s', Quietly t (some .receiving) s' ∧ Prompt s' ∧ s'.control = ts ∧ Leads s s' := by
  have switch : ∀ {v : State}, Leads s v → Prompt v →
      v.control = .command .enableRx :: .command .disableTx :: .command (.configurePinInput .dataOut) ::
        .setDir .receiving :: ts →
      ∃ s', Quietly v (some .receiving) s' ∧ Prompt s' ∧ s'.control = ts ∧ Leads s s' := by
    intro v hv hpv hcv
    have h1 := (((hv.next hcv rfl).next rfl rfl).next rfl rfl).next rfl rfl
    exact ⟨_, switchedToReceive_quietly v ts, hpv, rfl, h1⟩
  by_cases hr : t.dir = some .receiving
  · refine ⟨t, ⟨rfl, rfl, rfl, hr, CoreFrame.refl t, rfl, rfl, rfl, rfl, rfl⟩, hp, ?_, h⟩
    simpa [Machine.toReceiving, hr] using hc
  · by_cases ht : t.dir = some .transmitting
    · obtain ⟨s1, q1, p1, c1, h1⟩ := h.await_quietly (w := .txComplete)
        (by simpa [Machine.toReceiving, ht] using hc) hp
      have h2 := h1.next c1 rfl
      obtain ⟨s3, q3, p3, c3, h3⟩ := switch h2 p1 rfl
      exact ⟨s3, (q1.trans (resetTxComplete_keeps s1 _)).trans q3, p3, c3, h3⟩
    · exact switch h hp (by simpa [Machine.toReceiving, ht, hr] using hc)

/-- When the Platform answers at once, `recv` returns a byte at its first check: the next reply on the link, if there is
one. -/
theorem Leads.recv (h : Leads s t) (hc : t.control = .run .recv :: ts) (hd : t.dir ≠ none) (hp : Prompt t)
    (hn : t.cfg.recvPollCycles ≠ 0) :
    ∃ s' b, Received t b s' ∧ Prompt s' ∧ s'.control = ts ∧ Leads s s' ∧
      ∀ x, t.target.replies.head? = some x → b = x := by
  have hr : opRefusal t .recv = none := opRefusal_none hd (by simp) (by simp) (by simp)
  have h1 := h.next hc (opStart_tasks (s := { t with control := ts }) (o := .recv) hr rfl)
  simp only [State.push, recvBody, List.append_assoc] at h1
  obtain ⟨s1, q1, p1, c1, h1⟩ := h1.toReceiving rfl hp
  obtain ⟨n, hn'⟩ := Nat.exists_eq_succ_of_ne_zero hn
  have h2 := h1.next (ts := ts) (v := State.push { s1 with
      control := ts, platform := s1.platform.record (.rxComplete true) } [.rxErrorCheck]) (by simpa using c1) (by
    simp [perform, performRxCheck, hn', Platform.query, Platform.takeBit_prompt _ _ p1.2.1 p1.1])
  have h3 := h2.next (ts := ts) (v := State.push { s1 with
      control := ts
      platform := (s1.platform.record (.rxComplete true)).record (.rxError false) } [.rxRead]) rfl (by
    simp [perform, performRxErrorCheck, Platform.query,
      Platform.takeBit_prompt (s1.platform.record (.rxComplete true)) false p1.2.1 p1.1, State.push])
  have h4 := h3.next (ts := ts) rfl rfl
  have q2 : Quietly s1 (some .receiving)
      { s1 with
        control := ts, platform := (s1.platform.record (.rxComplete true)).record (.rxError false) } :=
    ⟨rfl, rfl, rfl, q1.dir, ⟨rfl, rfl, rfl, rfl, rfl, rfl, rfl, rfl, rfl, rfl⟩, rfl, rfl, rfl, rfl, rfl⟩
  have q0 : Quietly t t.dir { t with control := Machine.toReceiving t.dir ++ ([.rxCheck t.cfg.recvPollCycles] ++ ts) } :=
    ⟨rfl, rfl, rfl, rfl, CoreFrame.refl t, rfl, rfl, rfl, rfl, rfl⟩
  obtain ⟨b, hb, hbx, pb⟩ := performRxRead_prompt _ q2.dir
    (show Prompt { s1 with
        control := ts, platform := (s1.platform.record (.rxComplete true)).record (.rxError false) } from p1)
  refine ⟨_, b, (q0.trans (q1.trans q2)).received hb, pb, rfl, h4, fun x hx => hbx x ?_⟩
  have : s1.target = t.target := q1.target
  simpa [this] using hx

end PromptRuns

end Sys2Proof.Machine
end

