-- ==== Sys2Proof/Laws/Traffic.lean ====
section
/-!
SUPPORT. What the encoder's operations and the two-stage wait can do when a caller's body runs them: the bytes they
send and read, and where a link error leaves them.
-/

namespace Sys2Proof.Machine

/-- Traffic: the bytes `ws` sent and the bytes `rs` read, in that state of the core's frame. -/
structure Moved (s : State) (ws rs : List Byte) (s' : State) : Prop where
  wire : s'.wire = s.wire ++ ws
  reads : readsOf s'.platform.trace = readsOf s.platform.trace ++ rs
  transfers :
    transfersOf s'.platform.trace = transfersOf s.platform.trace ++ ws.map fun b => .command (.writeByte b)
  frame : CoreFrame s s'
  source : s'.source = s.source
  ready : s.dir ≠ none → s'.dir ≠ none

theorem Moved.refl (s : State) (ts : List Task) : Moved s [] [] { s with control := ts } where
  wire := by simp [State.wire]
  reads := by simp
  transfers := by simp
  frame := CoreFrame.refl s
  source := rfl
  ready h := h

theorem Moved.trans {s t u : State} {ws vs rs qs : List Byte} (h : Moved s ws rs t) (h' : Moved t vs qs u) :
    Moved s (ws ++ vs) (rs ++ qs) u where
  wire := by rw [h'.wire, h.wire, List.append_assoc]
  reads := by rw [h'.reads, h.reads, List.append_assoc]
  transfers := by rw [h'.transfers, h.transfers, List.map_append, List.append_assoc]
  frame := h.frame.trans h'.frame
  source := h'.source.trans h.source
  ready hd := h'.ready (h.ready hd)

theorem Sent.moved {s s' : State} {bs : List Byte} (h : Sent s bs s') : Moved s bs [] s' :=
  ⟨h.wire, by rw [h.reads, List.append_nil], h.transfers, h.frame, h.source, h.dir_ne⟩

theorem Received.moved {s s' : State} {b : Byte} (h : Received s b s') : Moved s [] [b] s' :=
  ⟨by rw [h.wire, List.append_nil], h.reads, by rw [h.transfers]; simp, h.frame, h.source,
    fun _ => by rw [h.dir]; simp⟩

theorem RecvFailed.moved {s s' : State} (h : RecvFailed s s') : Moved s [] [] s' :=
  ⟨by rw [h.wire, List.append_nil], by rw [h.reads, List.append_nil], by rw [h.transfers]; simp, h.frame, h.source,
    fun _ => by rw [h.dir]; simp⟩

/-- Changing the result or the tasks is no traffic. -/
theorem Moved.finish {s t : State} {ws rs : List Byte} (h : Moved s ws rs t) (ts : List Task) (r : Return) :
    Moved s ws rs { t with control := ts, ret := r } :=
  ⟨h.wire, h.reads, h.transfers, h.frame, h.source, h.ready⟩

/-- Changing the tasks is no traffic. -/
theorem Moved.setControl {s t : State} {ws rs : List Byte} (h : Moved s ws rs t) (ts : List Task) :
    Moved s ws rs { t with control := ts } :=
  ⟨h.wire, h.reads, h.transfers, h.frame, h.source, h.ready⟩

/-! ## Instructions without a reply -/

section Stores
variable {s u : State} {ts : List Task}

/-- A body of `send`s: the operation sends their bytes. -/
theorem run_sends {o : Op} {bs : List Byte} (h : Returns s u) (hc : s.control = .run o :: ts) (hd : s.dir ≠ none)
    (h1 : o ≠ .linkInit) (h2 : o ≠ .linkBegin) (h3 : o ≠ .sessionBegin) (hb : opBody s o = .tasks (sends bs)) :
    ∃ s', Sent s bs s' ∧ s'.control = ts ∧ Returns s' u := by
  have hr := h.run hc (opRefusal_none hd h1 h2 h3) hb
  obtain ⟨s', hs, hc', h'⟩ := sends_pass (bs := bs) (ts := ts) hr rfl hd
  exact ⟨s', (Sent.nil s _).append hs, hc', h'⟩

theorem send2_passes {v : Word16} (h : Returns s u) (hc : s.control = .run (.send2 v) :: ts) (hd : s.dir ≠ none) :
    ∃ s', Sent s (le2 v) s' ∧ s'.control = ts ∧ Returns s' u :=
  run_sends h hc hd (by simp) (by simp) (by simp) rfl

theorem send4_passes {v : Word} (h : Returns s u) (hc : s.control = .run (.send4 v) :: ts) (hd : s.dir ≠ none) :
    ∃ s', Sent s (le4 v) s' ∧ s'.control = ts ∧ Returns s' u :=
  run_sends h hc hd (by simp) (by simp) (by simp) rfl

theorem sendKey_passes (h : Returns s u) (hc : s.control = .run .sendKey :: ts) (hd : s.dir ≠ none) :
    ∃ s', Sent s (s.cfg.opKey :: s.cfg.pdiKey) s' ∧ s'.control = ts ∧ Returns s' u :=
  run_sends h hc hd (by simp) (by simp) (by simp) rfl

/-- STS (41_encoder R171). -/
theorem storeDirect_passes {a : Word} {d : Byte} (h : Returns s u) (hc : s.control = .run (.storeDirect a d) :: ts)
    (hd : s.dir ≠ none) : ∃ s', Sent s (stsBytes s.cfg a d) s' ∧ s'.control = ts ∧ Returns s' u := by
  have hr := h.run hc (opRefusal_none hd (by simp) (by simp) (by simp)) rfl
  obtain ⟨s1, h1, c1, r1⟩ := send_passes hr rfl hd
  obtain ⟨s2, h2, c2, r2⟩ := send4_passes r1 c1 (h1.dir_ne hd)
  obtain ⟨s3, h3, c3, r3⟩ := send_passes r2 c2 (h2.dir_ne (h1.dir_ne hd))
  exact ⟨s3, (((Sent.nil s _).append h1).append h2).append h3, c3, r3⟩

/-- The four-byte ST (41_encoder R174). -/
theorem storePointerAutoAddr_passes {m : PtrMode} {a : Word} (h : Returns s u)
    (hc : s.control = .run (.storePointerAutoAddr m a) :: ts) (hd : s.dir ≠ none) :
    ∃ s', Sent s (stPtr4Opcode s.cfg m :: le4 a) s' ∧ s'.control = ts ∧ Returns s' u := by
  have hr := h.run hc (opRefusal_none hd (by simp) (by simp) (by simp)) rfl
  obtain ⟨s1, h1, c1, r1⟩ := send_passes hr rfl hd
  obtain ⟨s2, h2, c2, r2⟩ := send4_passes r1 c1 (h1.dir_ne hd)
  exact ⟨s2, ((Sent.nil s _).append h1).append h2, c2, r2⟩

/-- REPEAT with a two-byte count (41_encoder R176). -/
theorem repeat2_passes {n : Word16} (h : Returns s u) (hc : s.control = .run (.repeat2 n) :: ts)
    (hd : s.dir ≠ none) : ∃ s', Sent s (s.cfg.opRepeat2 :: le2 n) s' ∧ s'.control = ts ∧ Returns s' u := by
  have hr := h.run hc (opRefusal_none hd (by simp) (by simp) (by simp)) rfl
  obtain ⟨s1, h1, c1, r1⟩ := send_passes hr rfl hd
  obtain ⟨s2, h2, c2, r2⟩ := send2_passes r1 c1 (h1.dir_ne hd)
  exact ⟨s2, ((Sent.nil s _).append h1).append h2, c2, r2⟩

/-- STCS (41_encoder R180). -/
theorem storeControlStatus_passes {r d : Byte} (h : Returns s u)
    (hc : s.control = .run (.storeControlStatus r d) :: ts) (hd : s.dir ≠ none) :
    ∃ s', Sent s [stcsOpcode s.cfg r, d] s' ∧ s'.control = ts ∧ Returns s' u :=
  run_sends h hc hd (by simp) (by simp) (by simp) rfl

/-- `writeCommand` (43_nvm R245). -/
theorem writeCommand_passes {k : NvmCommand} (h : Returns s u) (hc : s.control = .run (.writeCommand k) :: ts)
    (hd : s.dir ≠ none) :
    ∃ s', Sent s (stsBytes s.cfg (nvmAddress s.cfg .cmd) (nvmCode s.cfg k)) s' ∧ s'.control = ts ∧ Returns s' u := by
  have hr := h.run hc (opRefusal_none hd (by simp) (by simp) (by simp)) rfl
  obtain ⟨s1, h1, c1, r1⟩ := storeDirect_passes hr rfl hd
  exact ⟨s1, (Sent.nil s _).append h1, c1, r1⟩

/-- `execute` (43_nvm R246). -/
theorem execute_passes (h : Returns s u) (hc : s.control = .run .execute :: ts) (hd : s.dir ≠ none) :
    ∃ s', Sent s (stsBytes s.cfg (nvmAddress s.cfg .ctrlA) 0x01) s' ∧ s'.control = ts ∧ Returns s' u := by
  have hr := h.run hc (opRefusal_none hd (by simp) (by simp) (by simp)) rfl
  obtain ⟨s1, h1, c1, r1⟩ := storeDirect_passes hr rfl hd
  exact ⟨s1, (Sent.nil s _).append h1, c1, r1⟩

/-- `execCommand` (43_nvm R247). -/
theorem execCommand_passes {k : NvmCommand} (h : Returns s u) (hc : s.control = .run (.execCommand k) :: ts)
    (hd : s.dir ≠ none) :
    ∃ s',
      Sent s (stsBytes s.cfg (nvmAddress s.cfg .cmd) (nvmCode s.cfg k) ++
        stsBytes s.cfg (nvmAddress s.cfg .ctrlA) 0x01) s' ∧ s'.control = ts ∧ Returns s' u := by
  have hr := h.run hc (opRefusal_none hd (by simp) (by simp) (by simp)) rfl
  obtain ⟨s1, h1, c1, r1⟩ := writeCommand_passes hr rfl hd
  obtain ⟨s2, h2, c2, r2⟩ := execute_passes r1 c1 (h1.dir_ne hd)
  rw [h1.frame.1] at h2
  exact ⟨s2, ((Sent.nil s _).append h1).append h2, c2, r2⟩

end Stores

/-! ## Instructions with a reply -/

/-- The bytes `ws` sent, then one reply: the byte, or a link error that unwinds. -/
def Exchange (s u : State) (ws : List Byte) (ts : List Task) : Prop :=
  (∃ t s' b, Sent s ws t ∧ Received t b s' ∧ s'.control = ts ∧ Returns s' u) ∨
    ∃ t s', Sent s ws t ∧ RecvFailed t s' ∧ s'.control = unwind ts ∧ Returns s' u

section Loads
variable {s u : State} {ts : List Task}

/-- A run of `recv` after the bytes `ws`. -/
theorem Sent.exchange {t : State} {ws : List Byte} (h : Sent s ws t) (hc : t.control = .run .recv :: ts)
    (hd : s.dir ≠ none) (h' : Returns t u) : Exchange s u ws ts := by
  rcases recv_passes h' hc (h.dir_ne hd) with ⟨s', b, hr, hc', r⟩ | ⟨s', hf, hc', r⟩
  · exact .inl ⟨t, s', b, h, hr, hc', r⟩
  · exact .inr ⟨t, s', h, hf, hc', r⟩

/-- LD (41_encoder R172). -/
theorem loadPointer_passes {m : PtrMode} (h : Returns s u) (hc : s.control = .run (.loadPointer m) :: ts)
    (hd : s.dir ≠ none) : Exchange s u [ldOpcode s.cfg m] ts := by
  have hr := h.run hc (opRefusal_none hd (by simp) (by simp) (by simp)) rfl
  obtain ⟨s1, h1, c1, r1⟩ := send_passes hr rfl hd
  exact ((Sent.nil s _).append h1).exchange c1 hd r1

/-- LDCS (41_encoder R179). -/
theorem loadControlStatus_passes {r : Byte} (h : Returns s u) (hc : s.control = .run (.loadControlStatus r) :: ts)
    (hd : s.dir ≠ none) : Exchange s u [ldcsOpcode s.cfg r] ts := by
  have hr := h.run hc (opRefusal_none hd (by simp) (by simp) (by simp)) rfl
  obtain ⟨s1, h1, c1, r1⟩ := send_passes hr rfl hd
  exact ((Sent.nil s _).append h1).exchange c1 hd r1

/-- LDS (41_encoder R170). -/
theorem loadDirect_passes {a : Word} (h : Returns s u) (hc : s.control = .run (.loadDirect a) :: ts)
    (hd : s.dir ≠ none) : Exchange s u (s.cfg.opLds :: le4 a) ts := by
  have hr := h.run hc (opRefusal_none hd (by simp) (by simp) (by simp)) rfl
  obtain ⟨s1, h1, c1, r1⟩ := send_passes hr rfl hd
  obtain ⟨s2, h2, c2, r2⟩ := send4_passes r1 c1 (h1.dir_ne hd)
  exact (((Sent.nil s _).append h1).append h2).exchange c2 hd r2

/-- An exchange as traffic. -/
theorem Exchange.moved {ws : List Byte} (h : Exchange s u ws ts) :
    (∃ s' b, Moved s ws [b] s' ∧ s'.reply = b ∧ s'.ret = .ok (.byte b) ∧ s'.control = ts ∧ Returns s' u) ∨
      ∃ s', Moved s ws [] s' ∧ LinkError s'.ret ∧ s'.control = unwind ts ∧ Returns s' u := by
  rcases h with ⟨t, s', b, hs, hr, hc, r⟩ | ⟨t, s', hs, hf, hc, r⟩
  · refine .inl ⟨s', b, ?_, hr.reply, hr.ret, hc, r⟩
    simpa using hs.moved.trans hr.moved
  · refine .inr ⟨s', ?_, hf.error, hc, r⟩
    simpa using hs.moved.trans hf.moved

end Loads

/-! ## The two-stage wait (43_nvm R248) -/

section Wait
variable {s u : State} {ts : List Task}

/-- Every poll bound of `waitWhileBusy` leaves room for the polls `n` says were made. -/
def Within (left : Option Nat) (n : Nat) : Prop := ∀ N, left = some N → n ≤ N

theorem within_pred {left : Option Nat} {n : Nat} (h0 : left ≠ some 0) (h : Within (left.map Nat.pred) n) :
    Within left (n + 1) := by
  intro N hN
  subst hN
  have := h (N - 1) rfl
  have : N ≠ 0 := by rintro rfl; exact h0 rfl
  omega

/-- Stage 2: polls of NVM STATUS until BUSY is clear, a link error, or the bound. -/
theorem pollBusy_passes {left : Option Nat} (h : Returns s u) (hc : s.control = .pollBusy left :: ts)
    (hd : s.dir ≠ none) :
    (∃ s' ys y, Moved s (List.replicate (ys.length + 1) (ldOpcode s.cfg .indirect)) (ys ++ [y]) s' ∧
        (∀ b ∈ ys, busyBit b = true) ∧ busyBit y = false ∧ Within left (ys.length + 1) ∧ s'.ret = .ok .unit ∧
        s'.control = ts ∧ Returns s' u) ∨
      ∃ s' m rs, Moved s (List.replicate m (ldOpcode s.cfg .indirect)) rs s' ∧ LinkError s'.ret ∧
        s'.control = unwind ts ∧ Returns s' u := by
  obtain ⟨k, hk⟩ : ∃ k, u.wire.length - s.wire.length ≤ k := ⟨_, le_rfl⟩
  induction k using Nat.strong_induction_on generalizing s left with
  | _ k ih =>
    have h1 := h.next hc rfl
    simp only [performPollBusy] at h1
    split at h1
    · exact .inr ⟨_, 0, [], (Moved.refl s _).finish _ _, .inr rfl, rfl, h1⟩
    · rename_i h0
      have q0 := Moved.refl s (.run (.loadPointer .indirect) :: .busyVerdict (left.map Nat.pred) :: ts)
      rcases (loadPointer_passes (ts := .busyVerdict (left.map Nat.pred) :: ts) h1 rfl hd).moved with
        ⟨s2, b, m2, hb, -, c2, h2⟩ | ⟨s2, m2, he, c2, h2⟩
      · have m2 := q0.trans m2
        have h3 := h2.next c2 rfl
        simp only [performBusyVerdict] at h3
        have hlen : s2.wire.length = s.wire.length + 1 := by simp [m2.wire]
        cases hbb : busyBit b with
        | true =>
          rw [if_pos (by simpa [hb] using hbb)] at h3
          have hle := h2.1.wire_length
          have m3 : Moved s [ldOpcode s.cfg .indirect] [b]
              (State.push { s2 with control := ts } [.pollBusy (left.map Nat.pred)]) :=
            (by simpa using m2 : Moved s _ _ s2).setControl _
          have hcfg : s2.cfg = s.cfg := m2.frame.1
          rcases ih (u.wire.length - s2.wire.length) (by omega) h3 rfl (m3.ready hd) le_rfl with
            ⟨s', ys, y, hm, hys, hy, hw, hr, hc', h'⟩ | ⟨s', m, rs, hm, he, hc', h'⟩
          · refine .inl ⟨s', b :: ys, y, ?_, ?_, hy, within_pred h0 hw, hr, hc', h'⟩
            · have := m3.trans hm
              rw [State.push_cfg] at this
              simpa [hcfg, List.replicate_succ] using this
            · simpa [hbb] using hys
          · refine .inr ⟨s', m + 1, b :: rs, ?_, he, hc', h'⟩
            have := m3.trans hm
            rw [State.push_cfg] at this
            simpa [hcfg, List.replicate_succ] using this
        | false =>
          rw [if_neg (by simp [hb, hbb])] at h3
          refine .inl ⟨_, [], b, (by simpa using m2 : Moved s _ _ s2).finish ts (.ok .unit), by simp, hbb, ?_, rfl, rfl, h3⟩
          intro N hN
          have : N ≠ 0 := by rintro rfl; exact h0 hN
          simp only [List.length_nil]; omega
      · refine .inr ⟨s2, 1, [], by simpa using q0.trans m2, he, ?_, h2⟩
        simpa [unwind, Task.catches] using c2

/-- Stage 1: polls of the Status CSR until NVMEN is set, a link error, or the bound; then the pointer store and stage
2 begins. -/
theorem pollNvmen_passes {left : Option Nat} (h : Returns s u) (hc : s.control = .pollNvmen left :: ts)
    (hd : s.dir ≠ none) :
    (∃ s' xs x,
        Moved s (List.replicate (xs.length + 1) (statusPoll s.cfg) ++ pointerBytes s.cfg (nvmAddress s.cfg .status))
          (xs ++ [x]) s' ∧
        (∀ b ∈ xs, nvmEnabled b = false) ∧ nvmEnabled x = true ∧ Within left (xs.length + 1) ∧
        s'.control = .pollBusy s.cfg.pollLimit :: ts ∧ Returns s' u) ∨
      ∃ s' k rs, Moved s (List.replicate k (statusPoll s.cfg)) rs s' ∧ LinkError s'.ret ∧
        s'.control = unwind ts ∧ Returns s' u := by
  obtain ⟨k, hk⟩ : ∃ k, u.wire.length - s.wire.length ≤ k := ⟨_, le_rfl⟩
  induction k using Nat.strong_induction_on generalizing s left with
  | _ k ih =>
    have h1 := h.next hc rfl
    simp only [performPollNvmen] at h1
    split at h1
    · exact .inr ⟨_, 0, [], (Moved.refl s _).finish _ _, .inr rfl, rfl, h1⟩
    · rename_i h0
      have q0 := Moved.refl s
        (.run (.loadControlStatus (csrOperand s.cfg.csrStatus)) :: .nvmenVerdict (left.map Nat.pred) :: ts)
      rcases (loadControlStatus_passes (ts := .nvmenVerdict (left.map Nat.pred) :: ts) h1 rfl hd).moved with
        ⟨s2, b, m2, hb, -, c2, h2⟩ | ⟨s2, m2, he, c2, h2⟩
      · have m2 : Moved s [statusPoll s.cfg] [b] s2 := by simpa [statusPoll] using q0.trans m2
        have hcfg : s2.cfg = s.cfg := m2.frame.1
        have h3 := h2.next c2 rfl
        simp only [performNvmenVerdict] at h3
        cases hbb : nvmEnabled b with
        | false =>
          rw [if_neg (by simp [hb, hbb])] at h3
          have hlen : s2.wire.length = s.wire.length + 1 := by simp [m2.wire]
          have hle := h2.1.wire_length
          have m3 : Moved s [statusPoll s.cfg] [b]
              (State.push { s2 with control := ts } [.pollNvmen (left.map Nat.pred)]) := m2.setControl _
          rcases ih (u.wire.length - s2.wire.length) (by omega) h3 rfl (m3.ready hd) le_rfl with
            ⟨s', xs, x, hm, hxs, hx, hw, hc', h'⟩ | ⟨s', m, rs, hm, he, hc', h'⟩
          · rw [State.push_cfg] at hm hc'
            refine .inl ⟨s', b :: xs, x, ?_, ?_, hx, within_pred h0 hw, by rw [hc', hcfg], h'⟩
            · simpa [hcfg, List.replicate_succ] using m3.trans hm
            · simpa [hbb] using hxs
          · rw [State.push_cfg] at hm
            refine .inr ⟨s', m + 1, b :: rs, ?_, he, hc', h'⟩
            simpa [hcfg, List.replicate_succ] using m3.trans hm
        | true =>
          rw [if_pos (by simp [hb, hbb])] at h3
          obtain ⟨s4, hs4, c4, h4⟩ := storePointerAutoAddr_passes
            (ts := .pollBusy s2.cfg.pollLimit :: ts) h3 rfl (m2.ready hd)
          have m4 := (m2.setControl _).trans hs4.moved
          simp only [State.push_cfg, hcfg] at m4
          refine .inl ⟨s4, [], b, by simpa [pointerBytes] using m4, by simp, hbb, ?_, by rw [c4, hcfg], h4⟩
          intro N hN
          have : N ≠ 0 := by rintro rfl; exact h0 hN
          simp only [List.length_nil]; omega
      · refine .inr ⟨s2, 1, [], by simpa [statusPoll] using q0.trans m2, he, ?_, h2⟩
        simpa [unwind, Task.catches] using c2

/-- What a `waitWhileBusy` that returns Ok has done. -/
structure Waited (s s' : State) (ws rs : List Byte) : Prop where
  moved : Moved s ws rs s'
  ret : s'.ret = .ok .unit
  shape :
    ∃ xs x ys y, rs = xs ++ [x] ++ ys ++ [y] ∧ (∀ b ∈ xs, nvmEnabled b = false) ∧ nvmEnabled x = true ∧
      (∀ b ∈ ys, busyBit b = true) ∧ busyBit y = false ∧ ws = busyBytes s.cfg (xs.length + 1) (ys.length + 1) ∧
      Within s.cfg.pollLimit (xs.length + 1) ∧ Within s.cfg.pollLimit (ys.length + 1)

/-- `waitWhileBusy()` (43_nvm R248) returns Ok after both stages, or unwinds with a link error out of one. -/
theorem waitWhileBusy_passes (h : Returns s u) (hc : s.control = .run .waitWhileBusy :: ts) (hd : s.dir ≠ none) :
    (∃ s' ws rs, Waited s s' ws rs ∧ s'.control = ts ∧ Returns s' u) ∨
      ∃ s' ws rs, WaitCut s.cfg ws ∧ Moved s ws rs s' ∧ LinkError s'.ret ∧ s'.control = unwind ts ∧ Returns s' u := by
  have h1 := h.run hc (opRefusal_none hd (by simp) (by simp) (by simp)) rfl
  rcases pollNvmen_passes (ts := ts) h1 rfl hd with
    ⟨s1, xs, x, m1, hxs, hx, w1, c1, r1⟩ | ⟨s1, k, rs, m1, he, c1, r1⟩
  · have m1 := (Moved.refl s _).trans m1
    have hcfg : s1.cfg = s.cfg := m1.frame.1
    rcases pollBusy_passes r1 c1 (m1.ready hd) with
      ⟨s2, ys, y, m2, hys, hy, w2, hr, c2, r2⟩ | ⟨s2, m, rs, m2, he, c2, r2⟩
    · have m2 := m1.trans m2
      refine .inl ⟨s2, _, _, ⟨m2, hr, xs, x, ys, y, ?_, hxs, hx, hys, hy, ?_, w1, w2⟩, c2, r2⟩
      · simp
      · simp [busyBytes, hcfg]
    · refine .inr ⟨s2, _, xs ++ [x] ++ rs, .inr ⟨xs.length + 1, m, by omega, rfl⟩, ?_, he, c2, r2⟩
      simpa [busyBytes, hcfg] using m1.trans m2
  · exact .inr ⟨s1, _, rs, .inl ⟨k, rfl⟩, by simpa using (Moved.refl s _).trans m1, he, c1, r1⟩

end Wait

/-! ## Bulk transfers (41_encoder R177, R178) -/

section Bulk
variable {s u : State} {ts : List Task}

/-- The receive loop of `bulkLoad`, with `n` replies to come. -/
theorem collect_passes {n : Nat} {got : List Byte} (h : Returns s u) (hc : s.control = .collect n got :: ts)
    (hd : s.dir ≠ none) :
    (∃ s' rs, Moved s [] rs s' ∧ rs.length = n ∧ s'.ret = .ok (.bytes (got.reverse ++ rs)) ∧ s'.control = ts ∧
        Returns s' u) ∨
      ∃ s' rs, Moved s [] rs s' ∧ rs.length < n ∧ LinkError s'.ret ∧ s'.control = unwind ts ∧ Returns s' u := by
  induction n generalizing s got with
  | zero =>
    refine .inl ⟨_, [], (Moved.refl s _).finish ts (.ok (.bytes got.reverse)), rfl, by simp, rfl, h.next hc rfl⟩
  | succ n ih =>
    have h1 := h.next hc rfl
    simp only [performCollect] at h1
    have q0 := Moved.refl s (.run .recv :: .collected n got :: ts)
    rcases recv_passes (ts := .collected n got :: ts) h1 rfl hd with ⟨s2, b, hr, c2, h2⟩ | ⟨s2, hf, c2, h2⟩
    · have m2 : Moved s [] [b] s2 := by simpa using q0.trans hr.moved
      have h3 := h2.next c2 rfl
      have m3 : Moved s [] [b] (State.push { s2 with control := ts } [.collect n (s2.reply :: got)]) :=
        m2.setControl _
      rcases ih h3 rfl (m3.ready hd) with ⟨s', rs, hm, hl, hret, hc', h'⟩ | ⟨s', rs, hm, hl, he, hc', h'⟩
      · refine .inl ⟨s', b :: rs, by simpa using m3.trans hm, by simp [hl], ?_, hc', h'⟩
        simpa [hr.reply] using hret
      · exact .inr ⟨s', b :: rs, by simpa using m3.trans hm, by simpa using hl, he, hc', h'⟩
    · refine .inr ⟨s2, [], by simpa using q0.trans hf.moved, by simp, hf.error, ?_, h2⟩
      simpa [unwind, Task.catches] using c2

/-- `bulkLoad(mode, len)` gives every reply, or unwinds with a link error. -/
theorem bulkLoad_passes {m : PtrMode} {len : Word16} (h : Returns s u) (hc : s.control = .run (.bulkLoad m len) :: ts)
    (hd : s.dir ≠ none) :
    (∃ s' rs, Moved s (bulkLoadBytes s.cfg m len.toNat) rs s' ∧ rs.length = len.toNat ∧
        s'.ret = .ok (.bytes rs) ∧ s'.control = ts ∧ Returns s' u) ∨
      ∃ s' rs, Moved s (bulkLoadBytes s.cfg m len.toNat) rs s' ∧ rs.length < len.toNat ∧ LinkError s'.ret ∧
        s'.control = unwind ts ∧ Returns s' u := by
  have h1 := h.run hc (opRefusal_none hd (by simp) (by simp) (by simp)) rfl
  simp only [bulkLoadBody] at h1
  by_cases h0 : len = 0
  · subst h0
    refine .inl ⟨_, [], ?_, rfl, rfl, rfl, h1.next rfl rfl⟩
    rw [show bulkLoadBytes s.cfg m (0 : Word16).toNat = [] by simp [bulkLoadBytes]]
    exact (Moved.refl s _).finish ts (.ok (.bytes []))
  · have hl0 : len.toNat ≠ 0 := fun e => h0 (BitVec.eq_of_toNat_eq (by simpa using e))
    by_cases h1' : len = 1
    · subst h1'
      rw [if_neg (by decide), if_pos rfl] at h1
      have q0 := Moved.refl s ([.run (.loadPointer m), .wrapReply] ++ ts)
      rcases (loadPointer_passes (ts := .wrapReply :: ts) h1 rfl hd).moved with
        ⟨s2, b, m2, hb, -, c2, h2⟩ | ⟨s2, m2, he, c2, h2⟩
      · refine .inl ⟨_, [b], ?_, rfl, ?_, ?_, h2.next c2 rfl⟩
        · rw [show bulkLoadBytes s.cfg m (1 : Word16).toNat = [ldOpcode s.cfg m] by
            simp [bulkLoadBytes, repeatBytes]]
          exact (q0.trans m2).finish ts (.ok (.bytes [s2.reply]))
        · simp [State.finish, hb]
        · rfl
      · refine .inr ⟨s2, [], ?_, by decide, he, ?_, h2⟩
        · simpa [bulkLoadBytes, repeatBytes] using q0.trans m2
        · simpa [unwind, Task.catches] using c2
    · have hl1 : len.toNat ≠ 1 := fun e => h1' (BitVec.eq_of_toNat_eq (by simpa using e))
      rw [if_neg h0, if_neg h1'] at h1
      obtain ⟨s2, hs2, c2, h2⟩ := repeat2_passes
        (ts := .run (.send (ldOpcode s.cfg m)) :: .collect len.toNat [] :: ts) h1 rfl hd
      have m2 := (Moved.refl s _).trans hs2.moved
      obtain ⟨s3, hs3, c3, h3⟩ := send_passes h2 c2 (m2.ready hd)
      have m3 := m2.trans hs3.moved
      have hcount : len - 1 = BitVec.ofNat 16 (len.toNat - 1) := by
        apply BitVec.eq_of_toNat_eq
        have := len.isLt
        rw [BitVec.toNat_sub, BitVec.toNat_ofNat]
        show (2 ^ 16 - 1 + len.toNat) % 2 ^ 16 = _
        omega
      have hbytes : bulkLoadBytes s.cfg m len.toNat =
          s.cfg.opRepeat2 :: le2 (len - 1) ++ [ldOpcode s.cfg m] := by
        rw [hcount]
        simp [bulkLoadBytes, repeatBytes, hl0, show 2 ≤ len.toNat by omega]
      have m3 : Moved s (bulkLoadBytes s.cfg m len.toNat) [] s3 := by rw [hbytes]; simpa using m3
      rcases collect_passes h3 c3 (m3.ready hd) with ⟨s', rs, hm, hl, hret, hc', h'⟩ | ⟨s', rs, hm, hl, he, hc', h'⟩
      · exact .inl ⟨s', rs, by simpa using m3.trans hm, hl, by simpa using hret, hc', h'⟩
      · exact .inr ⟨s', rs, by simpa using m3.trans hm, hl, he, hc', h'⟩

/-- What the pull loop of `bulkStore` has done: the bytes `ds`, each pulled and then sent. -/
structure Pulled (s : State) (ds : List Byte) (s' : State) : Prop where
  wire : s'.wire = s.wire ++ ds
  reads : readsOf s'.platform.trace = readsOf s.platform.trace
  transfers :
    transfersOf s'.platform.trace =
      transfersOf s.platform.trace ++ ds.flatMap fun d => [.pull d, .command (.writeByte d)]
  frame : CoreFrame s { s' with host := s.host }
  ret : s'.ret = s.ret
  ready : s.dir ≠ none → s'.dir ≠ none

/-- One pull and one send, then the rest. -/
theorem Pulled.cons {s t v : State} {d : Byte} {ds : List Byte} {ts : List Task} {src : ByteSource} {hl : HostLink}
    (h : Sent { s with control := ts, source := src, host := hl, platform := s.platform.record (.pull d) } [d] t)
    (h' : Pulled t ds v) : Pulled s (d :: ds) v where
  wire := by
    rw [h'.wire, h.wire]
    simp [State.wire, wireOf_cons_other]
  reads := by rw [h'.reads, h.reads]; rfl
  transfers := by rw [h'.transfers, h.transfers]; simp
  frame := by
    obtain ⟨h1, h2, h3, h4, h5, h6, h7, h8, h9, h10⟩ := h.frame
    obtain ⟨g1, g2, g3, g4, g5, g6, g7, g8, g9, g10⟩ := h'.frame
    exact ⟨g1.trans h1, g2.trans h2, g3.trans h3, g4.trans h4, rfl, g6.trans h6, g7.trans h7, g8.trans h8,
      g9.trans h9, g10.trans h10⟩
  ret := h'.ret.trans h.ret
  ready hd := h'.ready (h.dir_ne hd)

theorem Pulled.nil (s : State) (ts : List Task) : Pulled s [] { s with control := ts } :=
  ⟨by simp [State.wire], rfl, by simp, CoreFrame.refl s, rfl, id⟩

/-- The pull loop from the caller's bytes. -/
theorem store_passes {n : Nat} {ds : List Byte} (h : Returns s u) (hc : s.control = .store n :: ts)
    (hd : s.dir ≠ none) (hs : s.source = .bytes ds) (hn : n ≤ ds.length) :
    ∃ s', Pulled s (ds.take n) s' ∧ s'.source = .bytes (ds.drop n) ∧ s'.host = s.host ∧ s'.control = ts ∧
      Returns s' u := by
  induction n generalizing s ds with
  | zero => exact ⟨_, Pulled.nil s ts, hs, rfl, rfl, h.next hc rfl⟩
  | succ n ih =>
    obtain ⟨d, ds, rfl⟩ : ∃ d ds', ds = d :: ds' := by cases ds with
      | nil => simp at hn
      | cons d ds => exact ⟨d, ds, rfl⟩
    have h1 := h.next (s' := State.push
      { s with control := ts, source := .bytes ds, platform := s.platform.record (.pull d) }
      [.run (.send d), .store n]) hc (by simp [perform, performStore, hs])
    obtain ⟨s2, hs2, c2, h2⟩ := send_passes (ts := .store n :: ts) h1 rfl hd
    have hsrc : s2.source = .bytes ds := hs2.source
    obtain ⟨s3, hp, hsrc3, hh, c3, h3⟩ := ih h2 c2 (hs2.dir_ne hd) hsrc (by simpa using hn)
    have hhost : s2.host = s.host := hs2.frame.2.2.2.2.1
    exact ⟨s3, Pulled.cons (src := .bytes ds) (hl := s.host) hs2 hp, hsrc3, hh.trans hhost, c3, h3⟩

/-- While the host link has sent nothing, the pull loop does not return. -/
theorem store_waits {n : Nat} (hc : s.control = .store (n + 1) :: ts) (hs : s.source = .hostLink)
    (hr : s.host.rx = []) : ¬Returns s u := by
  rintro ⟨h, hu⟩
  induction h with
  | refl => rw [hc] at hu; cases hu
  | step busy hstep _ ih =>
    rw [step_task hc] at hstep
    simp only [perform, performStore, hs, State.hostTake, hr, Host.Outcome.next.injEq] at hstep
    exact ih (by rw [← hstep]; rfl) (by rw [← hstep]; rfl) (by rw [← hstep]; exact hr) hu

/-- The pull loop from the host link: each byte is acknowledged with 0xFF. -/
theorem store_passes_host {n : Nat} (h : Returns s u) (hc : s.control = .store n :: ts)
    (hd : s.dir ≠ none) (hs : s.source = .hostLink) :
    n ≤ s.host.rx.length ∧
      ∃ s', Pulled s (s.host.rx.take n) s' ∧ s'.source = .hostLink ∧
        s'.host = { s.host with rx := s.host.rx.drop n, tx := List.replicate n 0xFF ++ s.host.tx } ∧ s'.control = ts ∧
        Returns s' u := by
  induction n generalizing s with
  | zero => exact ⟨Nat.zero_le _, _, Pulled.nil s ts, hs, rfl, rfl, h.next hc rfl⟩
  | succ n ih =>
    cases hrx : s.host.rx with
    | nil => exact absurd h (store_waits hc hs hrx)
    | cons d rx =>
      have h1 := h.next (s' := State.push
        { s with
          control := ts, source := .hostLink, host := { s.host with rx := rx, tx := 0xFF :: s.host.tx }
          platform := s.platform.record (.pull d) }
        [.run (.send d), .store n]) hc (by simp [perform, performStore, hs, State.hostTake, hrx])
      obtain ⟨s2, hs2, c2, h2⟩ := send_passes (ts := .store n :: ts) h1 rfl hd
      have hsrc : s2.source = .hostLink := hs2.source
      have hhost : s2.host = { s.host with rx := rx, tx := 0xFF :: s.host.tx } := hs2.frame.2.2.2.2.1
      obtain ⟨hn, s3, hp, hsrc3, hh, c3, h3⟩ := ih h2 c2 (hs2.dir_ne hd) hsrc
      rw [hhost] at hn hp hh
      refine ⟨by simpa using hn, s3, ?_, hsrc3, ?_, c3, h3⟩
      · exact Pulled.cons (src := .hostLink) hs2 hp
      · rw [hh]; simp [List.replicate_succ']

end Bulk

end Sys2Proof.Machine
end

