-- ==== Sys2Proof/Laws/Sequences.lean ====
section
/-!
SUPPORT. What the NVM and flash sequences can do when a caller's body runs them: wait and then one command, the page
buffer load, one page, and the chunks of a long write.
-/

namespace Sys2Proof.Machine

variable {s u : State} {ts : List Task}

/-- The bytes of a wait that returned Ok. -/
theorem Waited.out {s' : State} {ws rs : List Byte} (w : Waited s s' ws rs) : WaitedOut s.cfg ws := by
  obtain ⟨xs, x, ys, y, -, -, -, -, -, h, -, -⟩ := w.shape
  exact ⟨_, _, by omega, by omega, h⟩

/-- A command sequence that returned Ok: a completed wait, then the bytes `tail`. -/
def Commanded (s : State) (tail : List Byte) (ts : List Task) (u : State) : Prop :=
  ∃ s' w rs, WaitedOut s.cfg w ∧ Moved s (w ++ tail) rs s' ∧ s'.ret = .ok .unit ∧ s'.dir = some .transmitting ∧
    s'.control = ts ∧ Returns s' u

/-- A sequence that a link error ended in its wait. -/
def CutInWait (s : State) (ts : List Task) (u : State) : Prop :=
  ∃ s' w rs, WaitCut s.cfg w ∧ Moved s w rs s' ∧ LinkError s'.ret ∧ s'.control = unwind ts ∧ Returns s' u

/-- Wait, write a command, trigger it by a store (44_flash_fuse R273, R274, R277, R278, R282). -/
theorem triggered_passes {cmd : NvmCommand} {a : Word} {d : Byte} (h : Returns s u)
    (hc : s.control = triggeredBody cmd a d ++ ts) (hd : s.dir ≠ none) :
    Commanded s (stsBytes s.cfg (nvmAddress s.cfg .cmd) (nvmCode s.cfg cmd) ++ stsBytes s.cfg a d) ts u ∨
      CutInWait s ts u := by
  rcases waitWhileBusy_passes h hc hd with ⟨s1, ws, rs, w, c, r⟩ | ⟨s1, ws, rs, wc, m, e, c, r⟩
  · have hcfg : s1.cfg = s.cfg := w.moved.frame.1
    obtain ⟨s2, hs2, c2, r2⟩ := writeCommand_passes r c (w.moved.ready hd)
    obtain ⟨s3, hs3, c3, r3⟩ := storeDirect_passes r2 c2 (hs2.dir_ne (w.moved.ready hd))
    have hcfg2 : s2.cfg = s.cfg := hs2.frame.1.trans hcfg
    have m := (w.moved.trans hs2.moved).trans hs3.moved
    rw [hcfg, hcfg2] at m
    refine .inl ⟨{ s3 with control := ts, ret := .ok .unit }, ws, rs, w.out, ?_, rfl, ?_, rfl, r3.next c3 rfl⟩
    · simpa using m.finish ts (.ok .unit)
    · have := hs3.dir; simpa [stsBytes] using this
  · exact .inr ⟨s1, ws, rs, wc, m, e, by simpa [unwind, Task.catches] using c, r⟩

/-- Wait, then a command without an address (43_nvm R251, 44_flash_fuse R275). -/
theorem executed_passes {cmd : NvmCommand} (h : Returns s u)
    (hc : s.control = .run .waitWhileBusy :: .run (.execCommand cmd) :: .finish (.ok .unit) :: ts) (hd : s.dir ≠ none) :
    Commanded s
        (stsBytes s.cfg (nvmAddress s.cfg .cmd) (nvmCode s.cfg cmd) ++ stsBytes s.cfg (nvmAddress s.cfg .ctrlA) 0x01)
        ts u ∨
      CutInWait s ts u := by
  rcases waitWhileBusy_passes h hc hd with ⟨s1, ws, rs, w, c, r⟩ | ⟨s1, ws, rs, wc, m, e, c, r⟩
  · have hcfg : s1.cfg = s.cfg := w.moved.frame.1
    obtain ⟨s2, hs2, c2, r2⟩ := execCommand_passes r c (w.moved.ready hd)
    have m := w.moved.trans hs2.moved
    rw [hcfg] at m
    refine .inl ⟨{ s2 with control := ts, ret := .ok .unit }, ws, rs, w.out, ?_, rfl, ?_, rfl, r2.next c2 rfl⟩
    · simpa using m.finish ts (.ok .unit)
    · have := hs2.dir; simpa [stsBytes] using this
  · exact .inr ⟨s1, ws, rs, wc, m, e, by simpa [unwind, Task.catches] using c, r⟩

/-! ## Data -/

/-- The data bytes the running operation can pull. -/
def State.supply (s : State) : List Byte :=
  match s.source with
  | .bytes ds => ds
  | .hostLink => s.host.rx

/-- `n` data bytes have been pulled: off the caller's bytes, or off the host link with their handshakes (47 R342). -/
structure Took (s : State) (n : Nat) (s' : State) : Prop where
  bytes : ∀ ds, s.source = .bytes ds → s'.source = .bytes (ds.drop n) ∧ s'.host = s.host
  hostLink :
    s.source = .hostLink →
      s'.source = .hostLink ∧
        s'.host = { s.host with rx := s.host.rx.drop n, tx := List.replicate n 0xFF ++ s.host.tx }

theorem Took.supply {n : Nat} {s' : State} (h : Took s n s') : s'.supply = s.supply.drop n := by
  unfold State.supply
  cases hs : s.source with
  | bytes ds => simp [(h.bytes ds hs).1]
  | hostLink => simp [(h.hostLink hs).1, (h.hostLink hs).2]

theorem Took.zero {s' : State} (hs : s'.source = s.source) (hh : s'.host = s.host) :
    Took s 0 s' :=
  ⟨fun ds e => ⟨by rw [hs, e]; rfl, hh⟩, fun e => ⟨hs.trans e, by rw [hh]; rfl⟩⟩

theorem Took.trans {t : State} {n m : Nat} (h : Took s n t) (h' : Took t m u) : Took s (n + m) u where
  bytes ds e := by
    obtain ⟨a, b⟩ := h.bytes ds e
    obtain ⟨c, d⟩ := h'.bytes _ a
    exact ⟨by rw [c, List.drop_drop], d.trans b⟩
  hostLink e := by
    obtain ⟨a, b⟩ := h.hostLink e
    obtain ⟨c, d⟩ := h'.hostLink a
    refine ⟨c, ?_⟩
    rw [d, b]
    simp only [HostLink.mk.injEq, List.drop_drop, true_and, and_true]
    rw [← List.append_assoc, List.replicate_append_replicate, Nat.add_comm]

/-- A sequence that has pulled `n` data bytes and sent `bs`. -/
structure Wrote (s : State) (bs : List Byte) (n : Nat) (s' : State) : Prop where
  wire : s'.wire = s.wire ++ bs
  frame : CoreFrame s { s' with host := s.host }
  took : Took s n s'
  ready : s.dir ≠ none → s'.dir ≠ none

theorem Moved.wrote {ws rs : List Byte} {s' : State} (h : Moved s ws rs s') : Wrote s ws 0 s' where
  wire := h.wire
  frame := by
    obtain ⟨a, b, c, d, e, f, g, i, j, k⟩ := h.frame
    exact ⟨a, b, c, d, rfl, f, g, i, j, k⟩
  took := Took.zero h.source h.frame.2.2.2.2.1
  ready := h.ready

theorem Wrote.trans {t : State} {as bs : List Byte} {n m : Nat} (h : Wrote s as n t) (h' : Wrote t bs m u) :
    Wrote s (as ++ bs) (n + m) u where
  wire := by rw [h'.wire, h.wire, List.append_assoc]
  frame := by
    obtain ⟨a, b, c, d, -, f, g, i, j, k⟩ := h.frame
    obtain ⟨a', b', c', d', -, f', g', i', j', k'⟩ := h'.frame
    exact ⟨a'.trans a, b'.trans b, c'.trans c, d'.trans d, rfl, f'.trans f, g'.trans g, i'.trans i, j'.trans j,
      k'.trans k⟩
  took := h.took.trans h'.took
  ready hd := h'.ready (h.ready hd)

theorem Wrote.setControl {bs : List Byte} {n : Nat} {s' : State} (h : Wrote s bs n s') (ts : List Task) (r : Return) :
    Wrote s bs n { s' with control := ts, ret := r } :=
  ⟨h.wire, h.frame, ⟨h.took.bytes, h.took.hostLink⟩, h.ready⟩

/-- A pull loop that returns has had enough caller's bytes. -/
theorem store_supplied {n : Nat} {ds : List Byte} (h : Returns s u) (hc : s.control = .store n :: ts)
    (hd : s.dir ≠ none) (hs : s.source = .bytes ds) : n ≤ ds.length := by
  induction n generalizing s ds with
  | zero => exact Nat.zero_le _
  | succ n ih =>
    cases ds with
    | nil =>
      obtain ⟨s', hp, -⟩ := h.head hc
      simp [perform, performStore, hs] at hp
    | cons d ds =>
      have h1 := h.next (s' := State.push
        { s with control := ts, source := .bytes ds, platform := s.platform.record (.pull d) }
        [.run (.send d), .store n]) hc (by simp [perform, performStore, hs])
      obtain ⟨s2, hs2, c2, h2⟩ := send_passes (ts := .store n :: ts) h1 rfl hd
      have := ih h2 c2 (hs2.dir_ne hd) (hs2.source : s2.source = .bytes ds)
      simpa using this

/-- The pull loop, from either source. -/
theorem store_wrote {n : Nat} (h : Returns s u) (hc : s.control = .store n :: ts) (hd : s.dir ≠ none) :
    n ≤ s.supply.length ∧
      ∃ s', Wrote s (s.supply.take n) n s' ∧ s'.ret = s.ret ∧ s'.control = ts ∧ Returns s' u := by
  cases hs : s.source with
  | bytes ds =>
    have hn := store_supplied h hc hd hs
    obtain ⟨s', hp, hsrc, hh, c, r⟩ := store_passes h hc hd hs hn
    have e : s.supply = ds := by simp [State.supply, hs]
    rw [e]
    refine ⟨hn, s', ⟨hp.wire, hp.frame, ⟨fun ds' e' => ?_, fun e' => ?_⟩, hp.ready⟩, hp.ret, c, r⟩
    · rw [hs] at e'; cases e'; exact ⟨hsrc, hh⟩
    · rw [hs] at e'; cases e'
  | hostLink =>
    obtain ⟨hn, s', hp, hsrc, hh, c, r⟩ := store_passes_host h hc hd hs
    have e : s.supply = s.host.rx := by simp [State.supply, hs]
    rw [e]
    refine ⟨hn, s', ⟨hp.wire, hp.frame, ⟨fun ds' e' => ?_, fun _ => ⟨hsrc, hh⟩⟩, hp.ready⟩, hp.ret, c, r⟩
    rw [hs] at e'; cases e'

/-- `bulkStore(mode, len)` (41_encoder R178) returns Ok with its bytes sent. -/
theorem bulkStore_wrote {m : PtrMode} {len : Nat} (h : Returns s u) (hc : s.control = .run (.bulkStore m len) :: ts)
    (hd : s.dir ≠ none) :
    len ≤ s.supply.length ∧
      ∃ s', Wrote s (bulkStoreBytes s.cfg m (s.supply.take len)) len s' ∧ s'.ret = .ok .unit ∧ s'.control = ts ∧
        Returns s' u := by
  have h1 := h.run hc (opRefusal_none hd (by simp) (by simp) (by simp)) rfl
  simp only [bulkStoreBody] at h1
  by_cases h0 : len = 0
  · subst h0
    rw [if_pos rfl] at h1
    refine ⟨Nat.zero_le _, { s with control := ts, ret := .ok .unit }, ?_, rfl, rfl, h1.next rfl rfl⟩
    have := ((Moved.refl s ts).finish ts (.ok .unit)).wrote
    simpa [bulkStoreBytes] using this
  · rw [if_neg h0] at h1
    have key : ∀ t : State, Wrote s (repeatBytes s.cfg len) 0 t → t.supply = s.supply →
        t.control = .run (.send (stOpcode s.cfg m)) :: .store len :: .finish (.ok .unit) :: ts → Returns t u →
        len ≤ s.supply.length ∧
          ∃ s', Wrote s (bulkStoreBytes s.cfg m (s.supply.take len)) len s' ∧ s'.ret = .ok .unit ∧
            s'.control = ts ∧ Returns s' u := by
      intro t w hsup c r
      obtain ⟨s2, hs2, c2, h2⟩ := send_passes r c (w.ready hd)
      have w2 := w.trans hs2.moved.wrote
      have hsup2 : s2.supply = s.supply := by
        have := hs2.moved.wrote.took.supply
        rw [this, hsup]; rfl
      obtain ⟨hn, s3, w3, -, c3, h3⟩ := store_wrote h2 c2 (w2.ready hd)
      rw [hsup2] at hn w3
      refine ⟨hn, { s3 with control := ts, ret := .ok .unit }, ?_, rfl, rfl, h3.next c3 rfl⟩
      have hne : s.supply.take len ≠ [] := by
        intro e
        have := congrArg List.length e
        simp only [List.length_take, List.length_nil] at this
        omega
      have := (w2.trans w3).setControl ts (.ok .unit)
      simpa [bulkStoreBytes, hne, hn] using this
    by_cases h2 : 2 ≤ len
    · rw [if_pos h2] at h1
      obtain ⟨s2, hs2, c2, h2'⟩ := repeat2_passes
        (ts := .run (.send (stOpcode s.cfg m)) :: .store len :: .finish (.ok .unit) :: ts) h1 rfl hd
      have w := ((Moved.refl s _).trans hs2.moved).wrote
      refine key s2 ?_ ?_ c2 h2'
      · simpa [repeatBytes, h2] using w
      · rw [w.took.supply]; rfl
    · rw [if_neg h2] at h1
      refine key _ ?_ ?_ rfl h1
      · have := (Moved.refl s ([] ++ [.run (.send (stOpcode s.cfg m)), .store len, .finish (.ok .unit)] ++ ts)).wrote
        simpa [repeatBytes, h2] using this
      · rfl

/-! ## Pages (44_flash_fuse R276, R279, R280) -/

/-- `writeBuffer(off, len, section)` with a length the page holds. -/
theorem writeBuffer_passes {off : Word} {len : Nat} {sec : FlashSection} (h : Returns s u)
    (hc : s.control = .run (.writeBuffer off len sec) :: ts) (hd : s.dir ≠ none) (hl : len ≤ s.cfg.pageSize) :
    (len ≤ s.supply.length ∧
        ∃ s' w, WaitedOut s.cfg w ∧
          Wrote s (w ++ loadBufferBytes s.cfg (realAddress s.cfg off sec) (s.supply.take len)) len s' ∧
          s'.ret = .ok .unit ∧ s'.control = ts ∧ Returns s' u) ∨
      CutInWait s ts u := by
  have h1 := h.run hc (opRefusal_none hd (by simp) (by simp) (by simp)) (by simp [opBody, Nat.not_lt.2 hl]; rfl)
  have q0 := Moved.refl s ([.run .waitWhileBusy, .run (.writeCommand .loadFlashPageBuffer),
    .run (.storePointerAutoAddr .direct (realAddress s.cfg off sec)), .run (.bulkStore .autoInc len)] ++ ts)
  rcases waitWhileBusy_passes h1 rfl hd with ⟨s1, ws, rs, w, c, r⟩ | ⟨s1, ws, rs, wc, m, e, c, r⟩
  · have hcfg : s1.cfg = s.cfg := w.moved.frame.1
    obtain ⟨s2, hs2, c2, r2⟩ := writeCommand_passes r c (w.moved.ready hd)
    obtain ⟨s3, hs3, c3, r3⟩ := storePointerAutoAddr_passes r2 c2 (hs2.dir_ne (w.moved.ready hd))
    have hcfg2 : s2.cfg = s.cfg := hs2.frame.1.trans hcfg
    have hcfg3 : s3.cfg = s.cfg := hs3.frame.1.trans hcfg2
    have w3 := (((q0.trans w.moved).trans hs2.moved).trans hs3.moved).wrote
    have hsup : s3.supply = s.supply := by rw [w3.took.supply]; rfl
    obtain ⟨hn, s4, w4, hr4, c4, r4⟩ := bulkStore_wrote r3 c3 (w3.ready hd)
    have w5 := w3.trans w4
    rw [hsup] at hn w5
    rw [hcfg, hcfg2, hcfg3] at w5
    refine .inl ⟨hn, s4, ws, w.out, ?_, hr4, c4, r4⟩
    simpa [loadBufferBytes, pointerBytes] using w5
  · refine .inr ⟨s1, ws, rs, wc, ?_, e, by simpa [unwind, Task.catches] using c, r⟩
    simpa using q0.trans m

/-- `writePage(off, len, preErase, section)` with a length the page holds: one page sequence, or a link error. -/
theorem writePage_passes {off : Word} {len : Nat} {pre : Bool} {sec : FlashSection} (h : Returns s u)
    (hc : s.control = .run (.writePage off len pre sec) :: ts) (hd : s.dir ≠ none) (hl : len ≤ s.cfg.pageSize) :
    (len ≤ s.supply.length ∧
        ∃ s' bs, PageWritten s.cfg off pre sec (s.supply.take len) bs ∧ Wrote s bs len s' ∧ s'.ret = .ok .unit ∧
          s'.control = ts ∧ Returns s' u) ∨
      ∃ s' bs n, n ≤ len ∧ Wrote s bs n s' ∧ LinkError s'.ret ∧ s'.control = unwind ts ∧ Returns s' u := by
  have h1 := h.run hc (opRefusal_none hd (by simp) (by simp) (by simp)) rfl
  have q0 := (Moved.refl s ([.run .eraseBuffer, .run (.writeBuffer off len sec),
    .run (.writePageFromBuffer off pre sec)] ++ ts)).wrote
  have h2 := h1.run (ts := [.run (.writeBuffer off len sec), .run (.writePageFromBuffer off pre sec)] ++ ts) rfl
    (opRefusal_none hd (by simp) (by simp) (by simp)) rfl
  have cut : ∀ {n : Nat} {bs : List Byte} {t : State} {ts' : List Task}, n ≤ len → Wrote s bs n t → CutInWait t ts' u →
      unwind ts' = unwind ts →
      ∃ s' bs n, n ≤ len ∧ Wrote s bs n s' ∧ LinkError s'.ret ∧ s'.control = unwind ts ∧ Returns s' u := by
    rintro n bs t ts' hn w ⟨s', w', rs, -, m, e, c, r⟩ hu
    exact ⟨s', _, _, hn, w.trans m.wrote, e, c.trans hu, r⟩
  have q1 := (Moved.refl s ([.run .waitWhileBusy, .run (.execCommand .eraseFlashPageBuffer), .finish (.ok .unit)] ++
    ([.run (.writeBuffer off len sec), .run (.writePageFromBuffer off pre sec)] ++ ts))).wrote
  rcases executed_passes h2 rfl hd with ⟨s1, w1, rs1, hw1, m1, -, -, c1, r1⟩ | hcut
  · have W1 := q1.trans m1.wrote
    have hcfg1 : s1.cfg = s.cfg := W1.frame.1
    have hsup1 : s1.supply = s.supply := by rw [W1.took.supply]; rfl
    rcases writeBuffer_passes r1 c1 (W1.ready hd) (by rw [hcfg1]; exact hl) with
      ⟨hn, s2, w2, hw2, m2, -, c2, r2⟩ | hcut
    · have W2 := W1.trans m2
      have hcfg2 : s2.cfg = s.cfg := W2.frame.1
      rw [hsup1] at hn
      have r3 := r2.run c2 (opRefusal_none (W2.ready hd) (by simp) (by simp) (by simp)) rfl
      have q2 := (Moved.refl s2 (triggeredBody (writePageCommand pre sec) (realAddress s2.cfg off sec) s2.cfg.dummyByte
        ++ ts)).wrote
      rcases triggered_passes r3 rfl (W2.ready hd) with ⟨s3, w3, rs3, hw3, m3, hr3, -, c3, r4⟩ | hcut
      · have W3 := (W2.trans q2).trans m3.wrote
        refine .inl ⟨hn, s3, w1 ++ (stsBytes s.cfg (nvmAddress s.cfg .cmd) (nvmCode s.cfg .eraseFlashPageBuffer) ++
            stsBytes s.cfg (nvmAddress s.cfg .ctrlA) 0x01) ++ w2 ++
            loadBufferBytes s.cfg (realAddress s.cfg off sec) (s.supply.take len) ++ w3 ++
            (stsBytes s.cfg (nvmAddress s.cfg .cmd) (nvmCode s.cfg (writePageCommand pre sec)) ++
              stsBytes s.cfg (realAddress s.cfg off sec) s.cfg.dummyByte),
          ⟨w1, w2, w3, _, _, hw1, ?_, ?_, rfl, rfl, rfl⟩, ?_, hr3, c3, r4⟩
        · rw [← hcfg1]; exact hw2
        · rw [← hcfg2]; exact hw3
        · rw [hcfg1, hsup1] at W3
          simp only [hcfg2] at W3
          simpa using W3
      · exact .inr (cut (by omega) (W2.trans q2) hcut rfl)
    · exact .inr (cut (by omega) W1 hcut (by simp [unwind, Task.catches]))
  · exact .inr (cut (by omega) q1 hcut (by simp [unwind, Task.catches]))

end Sys2Proof.Machine
end

