-- ==== Sys2Proof/Laws/Step.lean ====
section
/-!
SUPPORT. What taking a request can do: every instruction is a call, a host request or one byte to the host.
-/

namespace Sys2Proof.Machine

/-- The three forms of a meaning: an operation's call, the dispatcher's tasks, one byte sent to the host. -/
theorem exec_forms (i : Instr) :
    (∃ o, ∀ s, exec i s = s.call o []) ∨ (∃ (b : State → Bool) (ts : State → List Task), ∀ s, exec i s = s.hostCall i (b s) (ts s)) ∨
      ∃ b, ∀ s, exec i s = .next (s.hostSend b) := by
  cases i <;>
    first
      | exact .inl ⟨_, fun _ => rfl⟩
      | exact .inr (.inr ⟨_, fun _ => rfl⟩)
      | exact .inr (.inl ⟨_, _, fun _ => rfl⟩)

/-- The idle machine takes a waiting call. -/
theorem step_call {s : State} {o : Op} {src : List Byte} {rs : List Request} (hc : s.control = [])
    (hq : s.calls = .call o src :: rs) : step s = State.call { s with calls := rs } o src := by
  simp [step, hc, fetch, hq, takeRequest]

/-- The idle machine takes the startup glue's `initUart`. -/
theorem step_startup {s : State} {rs : List Request} (hc : s.control = []) (hq : s.calls = .startup :: rs) :
    step s = .next (performCommand (.initUart s.cfg.baudConstant) { s with calls := rs }) := by
  simp [step, hc, fetch, hq, takeRequest]

/-- With nothing waiting the idle machine stands still (entry 36). -/
theorem step_idle {s : State} (hc : s.control = []) (hq : s.calls = []) (hr : s.host.rx = []) : step s = .next s := by
  simp [step, hc, fetch, hq, takeHostRequest, hr]

/-- What a host request's call can do. -/
theorem hostCall_next {i : Instr} {sends : Bool} {ts : List Task} {s t : State} (h : s.hostCall i sends ts = .next t) :
    (s.control ≠ [] ∧ t = { s with calls := .coded .hostRequest (encode i) :: s.calls }) ∨
      (s.control = [] ∧ s.dir ≠ none ∧
        t =
          { s with
            ret := .nothing, source := .hostLink, control := ts
            target := if sends then s.target.beginInstruction false else s.target }) := by
  unfold State.hostCall at h
  split at h
  · rename_i hc; exact .inl ⟨hc, (Host.Outcome.next.inj h).symm⟩
  · rename_i hc
    split at h
    · cases h
    · rename_i hd; exact .inr ⟨not_not.1 hc, hd, (Host.Outcome.next.inj h).symm⟩

end Sys2Proof.Machine
end

