-- ==== Sys2Proof/Laws/Target.lean ====
section
/-!
SUPPORT. What the target operations can do: the arm of each PDI instruction, and the fields that each shared operation
leaves alone.
-/

namespace Sys2Proof.Machine

section Arms
variable (t : Target) (c : Config)

theorem Target.execute_lds (a : Word) : t.execute c (.lds a) = t.unrepeated fun t => t.loadDirect c a := rfl
theorem Target.execute_sts (a : Word) (d : Byte) :
    t.execute c (.sts a d) = t.unrepeated fun t => t.storeDirect c a d := rfl
theorem Target.execute_ldInd : t.execute c .ldInd = t.repeatedLoad c .indirect := rfl
theorem Target.execute_ldInc : t.execute c .ldInc = t.repeatedLoad c .autoInc := rfl
theorem Target.execute_ldPtr :
    t.execute c .ldPtr = { t.sendFree (t.rep.toNat + 1) with rep := 0, repeated := false }.lose := rfl
theorem Target.execute_stInd (d : Byte) :
    t.execute c (.stInd d) = t.repeatedStore c .indirect (stOpcode c .indirect) d := rfl
theorem Target.execute_stInc (d : Byte) :
    t.execute c (.stInc d) = t.repeatedStore c .autoInc (stOpcode c .autoInc) d := rfl
theorem Target.execute_stPtrB (d : Byte) : t.execute c (.stPtrB d) = t.lose := rfl
theorem Target.execute_stIndL (a : Word) : t.execute c (.stIndL a) = t.lose := rfl
theorem Target.execute_stIncL (a : Word) : t.execute c (.stIncL a) = t.lose := rfl
theorem Target.execute_stPtr (a : Word) :
    t.execute c (.stPtr a) = t.unrepeated fun t => { t with ptr := a, bufRun := none } := rfl
theorem Target.execute_repeatB (n : Byte) :
    t.execute c (.repeatB n) = t.unrepeated fun t => t.repeatNext (n.setWidth 16) := rfl
theorem Target.execute_repeatW (n : Word16) : t.execute c (.repeatW n) = t.unrepeated fun t => t.repeatNext n := rfl
theorem Target.execute_ldcs (r : Byte) :
    t.execute c (.ldcs r) =
      t.unrepeated fun t => (t.readCsr c (r.setWidth 4)).2.send (t.readCsr c (r.setWidth 4)).1 := rfl
theorem Target.execute_stcs (r d : Byte) :
    t.execute c (.stcs r d) = t.unrepeated fun t => t.writeCsr c (r.setWidth 4) d := rfl
theorem Target.execute_key (k : List Byte) : t.execute c (.key k) = t.unrepeated fun t => t.acceptKey c k := rfl

/-- With no repeat pending an instruction runs. -/
theorem Target.unrepeated_of_rep {t : Target} (h : t.rep = 0) (hr : t.repeated = false) (run : Target → Target) :
    t.unrepeated run = run t :=
  if_pos ⟨h, hr⟩

/-- A target that waits for an instruction runs it. -/
theorem Target.Waiting.unrepeated {t : Target} (h : t.Waiting) (run : Target → Target) : t.unrepeated run = run t :=
  Target.unrepeated_of_rep h.2.2.1 h.2.2.2.1 run

/-- Where no reply of a repeated LD is to be read, none is cut off. -/
theorem Target.cutOff_of_owed {t : Target} (ho : t.owed = 0) : t.cutOff = t := if_pos ho

/-- A target whose repeated LD has not had all its replies read is lost by the next instruction. -/
theorem Target.beginInstruction_of_owed {t : Target} (ho : t.owed ≠ 0) (byHand : Bool) :
    (t.beginInstruction byHand).lost = true := by
  unfold Target.beginInstruction
  split
  · rfl
  · simp [Target.cutOff, ho, Target.lose]

/-- A caller's call is nothing to a target that waits for an instruction and owes no reply. -/
theorem Target.Waiting.beginInstruction {t : Target} (h : t.Waiting) (ho : t.owed = 0) (byHand : Bool) :
    t.beginInstruction byHand = t := by
  obtain ⟨-, -, -, hr, hh⟩ := h
  rw [Target.beginInstruction, Target.cutOff_of_owed ho]
  cases t
  simp_all

theorem Target.Waiting.atCall {t : Target} (h : t.Waiting) (ho : t.owed = 0) (c : Config) (o : Op) :
    t.atCall c o = t := by
  have hb : ∀ n, t.beginBytes n = t := fun n => by simp [Target.beginBytes, h.2.2.2.2, Target.cutOff_of_owed ho]
  unfold Target.atCall
  split <;> first | exact hb _ | exact h.beginInstruction ho _ | skip
  split
  · exact h.beginInstruction ho _
  · rfl

end Arms

/-! ## What each shared operation leaves alone -/

section Frames
variable (t : Target) (c : Config)

/-- Free replies use up free values and add to the replies; they change nothing else. -/
theorem Target.sendFree_keeps (n : Nat) :
    ∃ rs k, rs.length = n ∧ t.sendFree n = { t with replies := t.replies ++ rs, fresh := k } := by
  induction n generalizing t with
  | zero => exact ⟨[], t.fresh, rfl, by simp [Target.sendFree]⟩
  | succ n ih =>
    obtain ⟨rs, k, hl, h⟩ := ih (t.send t.freeByte).advance
    refine ⟨t.freeByte :: rs, k, by simp [hl], ?_⟩
    rw [Target.sendFree, h]
    simp [Target.send, Target.advance]

/-- A read of STATUS uses up free values and may end a running command; it changes nothing else. -/
theorem Target.readStatus_keeps : ∃ b k w n,
    t.readStatus.2 = { t with busy := b, working := k, underway := w, fresh := n } := by
  unfold Target.readStatus
  split
  · exact ⟨_, _, _, _, rfl⟩
  · split <;> exact ⟨_, _, _, _, rfl⟩

/-- So does a load, which may also start a read. -/
theorem Target.load_keeps (direct : Bool) (a : Word) :
    ∃ b k w n, (t.load c direct a).2 = { t with busy := b, working := k, underway := w, fresh := n } := by
  unfold Target.load
  split
  · exact ⟨_, _, _, _, rfl⟩
  · split
    · exact t.readStatus_keeps
    · split
      · exact ⟨_, _, _, _, rfl⟩
      · split
        · split
          · exact ⟨_, _, _, _, rfl⟩
          · split <;> exact ⟨_, _, _, _, rfl⟩
        · split <;> exact ⟨_, _, _, _, rfl⟩

/-- Away from the registers and the NVM addresses a load returns memory, where the source says anything of replies. -/
theorem Target.load_plain {a : Word} (h : PlainAddress c a) (hr : t.replyStated = true) (direct : Bool) :
    t.load c direct a = (t.mem.read a.toNat, t) := by
  simp [Target.load, Target.startsRead, hr, h.1.1, h.1.2.1, h.1.2.2, h.2]

/-- Where a load replies with the byte of memory. -/
theorem Target.load_reads {direct : Bool} {a : Word} (h : t.Reads c direct a) :
    t.load c direct a = (t.mem.read a.toNat, { t with working := t.working || t.startsRead c a }) := by
  obtain ⟨⟨h1, h2, h3⟩, h4, h5⟩ := h
  simp only [Target.load, h4, h1, h2, h3, if_false, Bool.not_true, Bool.false_eq_true]
  cases hn : isNvm c a
  · simp
  · rcases (h5 hn).2 with h7 | h7 <;> simp [(h5 hn).1, h7]

/-- A read of a CSR uses up free values and may show that the target has left reset or what its NVM controller is; it
changes nothing else. -/
theorem Target.readCsr_keeps (r : BitVec 4) :
    ∃ l w n, (t.readCsr c r).2 = { t with resetLine := l, awake := w, fresh := n } := by
  unfold Target.readCsr
  repeat' split
  all_goals exact ⟨_, _, _, rfl⟩

/-- An access in any mode moves the pointer and uses up free values at most. -/
theorem Target.afterAccess_keeps (m : PtrMode) : ∃ p n, t.afterAccess m = { t with ptr := p, fresh := n } := by
  cases m with
  | autoInc =>
    simp only [Target.afterAccess, Target.incPtr]
    split <;> exact ⟨_, _, rfl⟩
  | _ => exact ⟨_, _, rfl⟩

/-- One LD adds its reply. -/
theorem Target.loadPointer_keeps (m : PtrMode) :
    ∃ p b j w n r, t.loadPointer c m =
      { t with
        ptr := p, busy := b, working := j, underway := w, fresh := n, replies := t.replies ++ [r] } := by
  obtain ⟨b, j, w, n, h⟩ := t.load_keeps c false t.ptr
  obtain ⟨p, k, h'⟩ :=
    ((t.load c false t.ptr).2.send (t.load c false t.ptr).1).afterAccess_keeps m
  refine ⟨p, b, j, w, k, (t.load c false t.ptr).1, ?_⟩
  rw [Target.loadPointer, h', h]
  rfl

/-- An LD without a repeat is one execution, and no further reply is owed. -/
theorem Target.repeatedLoad_once (h : t.rep = 0) (hr : t.repeated = false) (m : PtrMode) :
    t.repeatedLoad c m = { t.loadPointer c m with rep := 0, repeated := false, owed := t.owed } := by
  simp [Target.repeatedLoad, h, hr, Target.loadPointerTimes]

/-- An LD after a REPEAT owes every reply that then waits, until all have been read; no repeat is left. -/
theorem Target.repeatedLoad_owed (h : t.repeated = true) (m : PtrMode) :
    (t.repeatedLoad c m).owed = (t.repeatedLoad c m).replies.length ∧ (t.repeatedLoad c m).rep = 0 ∧
      (t.repeatedLoad c m).repeated = false :=
  ⟨if_pos (.inl h), rfl, rfl⟩

/-- A store away from the three NVM registers is none of theirs. -/
theorem Target.storeRegister_none {a : Word} (h : NoRegister c a) (d : Byte) : t.storeRegister c a d = none := by
  simp [Target.storeRegister, h.1, h.2.1, h.2.2]

/-- ST through the pointer under LoadFlashPageBuffer, while the controller may be used, wherever the pointer is. -/
theorem Target.storePointer_loads (hc : t.cmd = c.nvmCodes.loadFlashPageBuffer) (hr : t.nvmReady = true) (m : PtrMode)
    (d : Byte) : t.storePointer c m d = (t.loadBuffer c t.ptr.toNat d).loadStarted.afterAccess m := by
  simp [Target.storePointer, hc, hr]

/-- Target reset, asserted or released, keeps the reply queue and the link interface. -/
theorem Target.afterReset_keeps :
    (t.afterReset c).replies = t.replies ∧ (t.afterReset c).lost = t.lost ∧ (t.afterReset c).owed = t.owed ∧
      (t.afterReset c).kind = t.kind ∧ (t.afterReset c).pending = t.pending ∧
      (t.afterReset c).rep = t.rep ∧ (t.afterReset c).repeated = t.repeated ∧
      (t.afterReset c).handFed = t.handFed ∧ (t.afterReset c).resetLine = t.resetLine := by
  unfold Target.afterReset
  split <;> exact ⟨rfl, rfl, rfl, rfl, rfl, rfl, rfl, rfl, rfl⟩

/-- Where it cuts no command short, it is `resetState`. -/
theorem Target.afterReset_of_underway (h : t.underway = false) : t.afterReset c = t.resetState c := by
  simp [Target.afterReset, h]

/-- Then it keeps the fuses, what an NVM address holds and what is known to be erased. -/
theorem Target.afterReset_memory (h : t.underway = false) :
    (t.afterReset c).fuse = t.fuse ∧ (t.afterReset c).erased = t.erased ∧
      ∀ x, isNvm c (BitVec.ofNat 32 x) = true → (t.afterReset c).mem.read x = t.mem.read x := by
  rw [t.afterReset_of_underway c h]
  exact ⟨rfl, rfl, fun _ hx => t.mem.keepOnly_read (t.fresh + 6) hx⟩

/-- It gives no key. -/
theorem Target.afterReset_keyed (h : t.keyed = false) : (t.afterReset c).keyed = false := by
  unfold Target.afterReset
  split <;> simp [Target.resetState, Target.unstated, h]

/-- After it the NVM controller is not known to be awake, and no command is known to run. -/
theorem Target.afterReset_asleep : (t.afterReset c).awake = false ∧ (t.afterReset c).underway = false := ⟨rfl, rfl⟩

/-- Noting a direct release changes nothing else, and one that is none nothing at all. -/
@[simp] theorem Target.noteExit_false : t.noteExit false = t := by
  simp [Target.noteExit]

@[simp] theorem Target.noteExit_waiting (b : Bool) : (t.noteExit b).Waiting ↔ t.Waiting := Iff.rfl

/-- Replies are stated only while the target is held, woken and clocked, and no direct call has released it. -/
theorem Target.replyStated_contract (hk : t.kind = .contract) :
    t.replyStated = true ↔ t.resetLine = .held ∧ t.linked = true ∧ t.adrift = false := by
  simp [Target.replyStated, Target.inReset, hk, and_assoc]

/-- STS at an address of plain memory. -/
theorem Target.storeDirect_plain {a : Word} (h : PlainAddress c a) (d : Byte) :
    t.storeDirect c a d = t.memWrite a d := by
  simp [Target.storeDirect, t.storeRegister_none c h.1, h.2]

/-- A command may be written only while the controller may be used. -/
theorem Target.nvmReady_of_idle {t : Target} (h : t.nvmIdle = true) : t.nvmReady = true := by
  unfold Target.nvmIdle at h
  split at h
  · next hk => simp [Target.nvmReady, hk]
  · exact ((Bool.and_eq_true _ _).mp h).1

/-- On RT what a command does is stated everywhere, and every store with bit 0 set executes. -/
theorem Target.inScope_reference (hk : t.kind = .reference) (fuse : Bool) (a : Word) : t.inScope c fuse a = true := by
  simp [Target.inScope, hk]

theorem Target.executes_reference (hk : t.kind = .reference) (d : Byte) : t.executes d = executeBit d := by
  simp [Target.executes, hk]

theorem Target.inScope_contract (hk : t.kind = .contract) (fuse : Bool) (a : Word) :
    t.inScope c fuse a = (isFuse c a == fuse) := by
  simp [Target.inScope, hk]

theorem Target.executes_contract (hk : t.kind = .contract) (d : Byte) : t.executes d = decide (d = 0x01) := by
  simp [Target.executes, hk]

/-- STS at an NVM address while a command may be triggered. -/
theorem Target.storeDirect_trigger {a : Word} (h : TriggerAddress c a) (hr : t.nvmIdle = true) (d : Byte) :
    t.storeDirect c a d = t.trigger c a d := by
  simp [Target.storeDirect, t.storeRegister_none c h.1, h.2, hr]

end Frames

end Sys2Proof.Machine
end

