-- ==== Sys2Proof/Tests/Slice0.lean ====
section
/-!
SUPPORT. Tests: the well-formedness checks, the decoding of a word of every row, a few operations against the vectors of
95_test_vectors, and for each statement with hypotheses a witness that meets them. Expected values are the spec's.
-/

namespace Sys2Proof.Tests

open Sys2Proof Sys2Proof.Machine

/-! ## Helpers -/

/-- The state in which the running operation has returned, within `n` steps. -/
def finishRun : Nat → State → Option State
  | 0, _ => none
  | n + 1, s =>
    if s.control = [] then some s
    else
      match step s with
      | .next t => finishRun n t
      | _ => none

/-- The state in which a call has returned. -/
def ran (o : Host.Outcome State Fault Refusal) : Option State :=
  match o with
  | .next t => finishRun 5000 t
  | _ => none

theorem finishRun_returns {n : Nat} {s u : State} (h : finishRun n s = some u) : Returns s u := by
  induction n generalizing s with
  | zero => exact absurd h (by simp [finishRun])
  | succ n ih =>
    rw [finishRun] at h
    split at h
    · next hc => exact Option.some.inj h ▸ ⟨.refl s, hc⟩
    · next hc =>
      split at h
      · next t ht => exact ⟨.step hc ht (ih h).1, (ih h).2⟩
      · exact absurd h (by simp)

theorem ran_returns {o : Host.Outcome State Fault Refusal} (h : (ran o).isSome = true) :
    ∃ t u, o = .next t ∧ Returns t u := by
  obtain ⟨u, hu⟩ := Option.isSome_iff_exists.1 h
  cases o with
  | next t => exact ⟨t, u, rfl, finishRun_returns hu⟩
  | fault f => exact absurd hu (by simp [ran])
  | refused r => exact absurd hu (by simp [ran])

/-- The reference target of 45 R325, with erased memory. -/
def target : Target :=
  { Target.reset with
    kind := .reference, resetLine := .released, mem := ⟨.erased, []⟩, buf := ⟨.erased, []⟩, fuse := ⟨.erased, []⟩ }

/-- The reference target in a session. -/
def keyed : Target := { target with resetLine := .held, keyed := true }

/-- The driver after `initialize`, with a Platform that answers at once. -/
def idle : State :=
  { State.reset with dir := some .idle, platform := { Platform.reset with answering := .prompt }, target := target }

/-- In a session, transmitting. -/
def linked : State :=
  { idle with
    dir := some .transmitting, sess := .programming, active := true, target := keyed
    platform := { idle.platform with txOn := true, clockOn := true, clockPin := .output .high, dataOutPin := .output .high } }

/-- In a session, receiving. -/
def listening : State :=
  { linked with
    dir := some .receiving, platform := { linked.platform with txOn := false, rxOn := true, dataOutPin := .input } }

/-- In a session in which no reply ever comes. -/
def deaf : State := { linked with cfg := { recvPollCycles := 0 } }

/-- A run's result and the bytes it wrote. -/
def traffic (o : Host.Outcome State Fault Refusal) : Option (Return × List Byte) := (ran o).map fun u => (u.ret, u.wire)

/-! ## Well-formedness -/

theorem test_ill_formed_csr : (Instr.ldcs 16).wellFormed = false ∧ (Instr.stcs 16 0).wellFormed = false ∧
    (Instr.ldcs 15).wellFormed = true ∧ (Instr.stcs 15 0).wellFormed = true := by decide

theorem test_ill_formed_key : (Instr.key [1, 2, 3, 4, 5, 6, 7]).wellFormed = false ∧
    (Instr.key [1, 2, 3, 4, 5, 6, 7, 8, 9]).wellFormed = false ∧
    (Op.keyWith [1, 2, 3, 4, 5, 6, 7]).wellFormed = false := by decide

theorem test_ill_formed_lengths : (Op.bulkStore .autoInc 65536).wellFormed = false ∧
    (Op.writeBuffer 0 65536 .app).wellFormed = false ∧ (Op.writePage 0 65536 false .app).wellFormed = false ∧
    (Op.bulkStore .autoInc 65535).wellFormed = true := by decide

theorem test_ill_formed_config : ({ pageSize := 0 } : Config).wellFormed = false ∧
    ({ pageSize := 65537 } : Config).wellFormed = false ∧ ({ pdiKey := [0xFF] } : Config).wellFormed = false ∧
    ({} : Config).wellFormed = true := by decide

/-! ## Decoding: the words of 30_encoding R109 and R110, 43_nvm R242, 47 R340 to R342 -/

theorem test_decode_lds : decodeOn {} .pdi [0x0C, 0x01, 0x02, 0x03, 0x80] = .ok (.lds 0x80030201) [] := by decide
theorem test_decode_sts : decodeOn {} .pdi [0x4C, 0x01, 0x02, 0x03, 0x80, 0x5A] = .ok (.sts 0x80030201 0x5A) [] := by
  decide
theorem test_decode_ld : decodeOn {} .pdi [0x20] = .ok .ldInd [] ∧ decodeOn {} .pdi [0x24] = .ok .ldInc [] ∧
    decodeOn {} .pdi [0x28] = .ok .ldPtr [] := by decide
theorem test_decode_st : decodeOn {} .pdi [0x60, 0x11] = .ok (.stInd 0x11) [] ∧
    decodeOn {} .pdi [0x64, 0x22] = .ok (.stInc 0x22) [] ∧ decodeOn {} .pdi [0x68, 0x33] = .ok (.stPtrB 0x33) [] := by decide
theorem test_decode_st_pointer : decodeOn {} .pdi [0x63, 1, 2, 3, 4] = .ok (.stIndL 0x04030201) [] ∧
    decodeOn {} .pdi [0x67, 1, 2, 3, 4] = .ok (.stIncL 0x04030201) [] ∧
    decodeOn {} .pdi [0x6B, 1, 2, 3, 4] = .ok (.stPtr 0x04030201) [] := by decide
theorem test_decode_repeat : decodeOn {} .pdi [0xA0, 0xFE] = .ok (.repeatB 0xFE) [] ∧
    decodeOn {} .pdi [0xA1, 0x34, 0x12] = .ok (.repeatW 0x1234) [] := by decide
theorem test_decode_csr : decodeOn {} .pdi [0x80] = .ok (.ldcs 0) [] ∧ decodeOn {} .pdi [0x8F] = .ok (.ldcs 15) [] ∧
    decodeOn {} .pdi [0xC1, 0x59] = .ok (.stcs 1 0x59) [] ∧ decodeOn {} .pdi [0xCF, 0x01] = .ok (.stcs 15 0x01) [] := by decide
theorem test_decode_key : decodeOn {} .pdi [0xE0, 0xFF, 0x88, 0xD8, 0xCD, 0x45, 0xAB, 0x89, 0x12] =
    .ok (.key [0xFF, 0x88, 0xD8, 0xCD, 0x45, 0xAB, 0x89, 0x12]) [] := by decide

theorem test_decode_rejects : decodeOn {} .pdi [0x2C] = .reject (.unknownOpcode 0x2C) ∧
    decodeOn {} .pdi [0x6C] = .reject (.unknownOpcode 0x6C) ∧ decodeOn {} .pdi [0xA2] = .reject (.unknownOpcode 0xA2) ∧
    decodeOn {} .pdi [0xE1] = .reject (.unknownOpcode 0xE1) ∧ decodeOn {} .pdi [0x4C, 1, 2, 3, 4] = .reject .needMore ∧
    decodeOn {} .nvmCommand [0x21] = .reject (.unknownOpcode 0x21) ∧
    decodeOn {} .hostRequest [0x01] = .reject (.unknownOpcode 0x01) ∧
    decodeOn {} .hostResponse [0x02] = .reject (.unknownOpcode 0x02) ∧
    decodeOn {} .hostHandshake [0xFE] = .reject (.unknownOpcode 0xFE) := by decide

/-- The one-byte rows of a channel, each with its byte. -/
def decodesAs (ch : Channel) (rows : List (Byte × Instr)) : Prop := ∀ r ∈ rows, decodeOn {} ch [r.1] = .ok r.2 []

theorem test_decode_nvm_flash : decodesAs .nvmCommand
    [(0x40, .nvmChipErase), (0x43, .nvmReadNvm), (0x23, .nvmLoadFlashPageBuffer), (0x26, .nvmEraseFlashPageBuffer),
      (0x2B, .nvmEraseFlashPage), (0x2E, .nvmWriteFlashPage), (0x2F, .nvmEraseWriteFlashPage),
      (0x78, .nvmFlashCrc)] := by unfold decodesAs; decide

theorem test_decode_nvm_app_boot : decodesAs .nvmCommand
    [(0x22, .nvmEraseAppPage), (0x24, .nvmWriteAppPage), (0x25, .nvmEraseWriteAppPage), (0x20, .nvmEraseAppSection),
      (0x38, .nvmAppCrc), (0x2A, .nvmEraseBootPage), (0x2C, .nvmWriteBootPage), (0x2D, .nvmEraseWriteBootPage),
      (0x68, .nvmEraseBootSection), (0x39, .nvmBootCrc)] := by unfold decodesAs; decide

theorem test_decode_nvm_other : decodesAs .nvmCommand
    [(0x4C, .nvmWriteFuse), (0x08, .nvmWriteLockBits), (0x33, .nvmLoadEepromPageBuffer),
      (0x36, .nvmEraseEepromPageBuffer), (0x32, .nvmEraseEepromPage), (0x34, .nvmWriteEepromPage),
      (0x35, .nvmEraseWriteEepromPage), (0x30, .nvmEraseEeprom), (0x06, .nvmReadEeprom)] := by unfold decodesAs; decide

theorem test_decode_host : decodesAs .hostRequest
      [(0x00, .hostNop), (0x03, .hostWriteFuse), (0x04, .hostEraseChip), (0xFF, .hostEnd)] ∧
    decodeOn {} .hostRequest [0x02, 1, 2, 3, 4, 5, 6] = .ok (.hostWriteAppFlash 0x04030201 0x0605) [] ∧
    decodesAs .hostResponse [(0x00, .hostRespOk), (0x01, .hostRespInvalidRequest), (0xFE, .hostRespInternalError),
      (0xFF, .hostRespUnknownError)] ∧
    decodesAs .hostHandshake [(0xFF, .hostHandshake)] := by unfold decodesAs; decide

theorem test_table_words : decodeTableWord 48 0x5A8003020100 = some .hostNop ∧
    decodeTableWord 48 0x5A010001CA4C = some (.sts 0x010001CA 0x5A) ∧ decodeTableWord 8 0x43 = some .nvmReadNvm ∧
    decodeTableWord 8 0xFE = some .hostRespInternalError := by decide

/-! ## Operations against 95_test_vectors -/

/-- P1: the wire bytes of `begin` and the state it leaves. -/
theorem test_bring_up : (ran (idle.call .sessionBegin [])).map
      (fun u => (u.wire, u.target.keyed, u.target.control, u.platform.trace.length)) =
    some ([0xC1, 0x59, 0xC2, 0x04, 0xE0, 0xFF, 0x88, 0xD8, 0xCD, 0x45, 0xAB, 0x89, 0x12], true, 0x04, 100) := by
  decide +kernel

/-- WWB: a `waitWhileBusy` against an idle, keyed target. -/
theorem test_wait_while_busy : traffic (linked.call .waitWhileBusy []) =
    some (.ok .unit, [0x80, 0x6B, 0xCF, 0x01, 0x00, 0x01, 0x20]) := by decide +kernel

/-- P2: `eraseChip`. -/
theorem test_erase_chip : traffic (linked.call .eraseChip []) =
    some (.ok .unit, [0x80, 0x6B, 0xCF, 0x01, 0x00, 0x01, 0x20, 0x4C, 0xCA, 0x01, 0x00, 0x01, 0x40,
      0x4C, 0xCB, 0x01, 0x00, 0x01, 0x01]) := by decide +kernel

/-- P3: after `writePage(0, DE AD BE EF, preErase, App)` memory holds the bytes, then erased cells. -/
theorem test_page_write : (ran (linked.call (.writePage 0 4 true .app) [0xDE, 0xAD, 0xBE, 0xEF])).map
      (fun u => (u.ret, [0x800000, 0x800003, 0x800004].map u.target.mem.read)) =
    some (.ok .unit, [0xDE, 0xEF, 0xFF]) := by decide +kernel

/-- V-FL-1 to V-FL-5: real addresses wrap, and `eraseSection` of no section is an error without traffic. -/
theorem test_real_address : realAddress {} 0xFFFFFFFF .boot = 0x0081FFFF ∧
    (idle.call (.eraseSection 0 .unspecified) [] = .next { idle with ret := .err .invalidSection }) := ⟨by decide, rfl⟩

/-- V-ENC-16, V-ENC-17: no REPEAT for one byte, one REPEAT with count 2 for three. -/
theorem test_bulk_store : traffic (linked.call (.bulkStore .autoInc 1) [0xAA]) = some (.ok .unit, [0x64, 0xAA]) ∧
    traffic (linked.call (.bulkStore .autoInc 3) [1, 2, 3]) =
      some (.ok .unit, [0xA1, 0x02, 0x00, 0x64, 1, 2, 3]) := by decide +kernel

/-- V-ENC-18, V-ENC-19: the CSR number is masked to four bits. -/
theorem test_csr_mask : traffic (linked.call (.storeControlStatus 0x1F 0xAA) []) = some (.nothing, [0xCF, 0xAA]) ∧
    (traffic (linked.call (.loadControlStatus 0x12) [])).map Prod.snd = some [0x82] := by decide +kernel

/-- Each of a few instructions takes its call, with nothing sent yet. -/
theorem test_exec_takes_the_call :
    exec (.sts 1 2) linked = .next { linked with control := [.run (.send 0x4C), .run (.send4 1), .run (.send 2)] } ∧
    exec (.ldcs 0) linked = .next { linked with control := [.run (.send 0x80), .run .recv] } ∧
    exec (.repeatW 7) linked = .next { linked with control := [.run (.send 0xA1), .run (.send2 7)] } ∧
    exec .hostEnd linked =
      .next { linked with source := .hostLink, control := [.run .sessionEnd, .respond] } := ⟨rfl, rfl, rfl, rfl⟩

/-! ## Witnesses: hypotheses of the statements, met together -/

theorem test_witness_DecodeOfEncodeIsIdentity : Decodable {} ∧
    (Instr.ldcs 15).wellFormed = true ∧ (Instr.key [1, 2, 3, 4, 5, 6, 7, 8]).wellFormed = true :=
  ⟨by unfold Decodable; decide, by decide⟩

/-- Bytes that decode, and bytes just outside the two register ranges. -/
theorem test_witness_DecodedInstructionReencodes :
    decodeOn {} .pdi [0x8F, 0x20] = .ok (.ldcs 15) [0x20] ∧ decodeOn {} .hostHandshake [0xFF] = .ok .hostHandshake [] ∧
      ∀ op ∈ ([0x7F, 0x90, 0xBF, 0xD0] : List Byte),
        op ∉ fixedOpcodes {} ∧ op &&& 0xF0 ≠ ({} : Config).opLdcsBase ∧ op &&& 0xF0 ≠ ({} : Config).opStcsBase := by
  decide

/-- A queued instruction; a request of one byte, the first and the last byte of a longer one. -/
theorem test_witness_StepRunsTheDecodedInstruction :
    (∃ s : State, s.control = [] ∧ s.calls = [.coded .pdi [0x24]] ∧ decodeOn s.cfg .pdi [0x24] = .ok .ldInc []) ∧
      (∃ s : State, s.control = [] ∧ s.calls = [] ∧ s.host = ⟨[0x00, 0x04], [], []⟩ ∧
        decodeOn s.cfg .hostRequest ([] ++ [0x00]) = .ok .hostNop []) ∧
      decodeOn {} .hostRequest ([] ++ [0x02]) = .reject .needMore ∧
      decodeOn {} .hostRequest ([2, 0, 1, 0, 0, 3] ++ [0]) = .ok (.hostWriteAppFlash 0x100 3) [] :=
  ⟨⟨{ idle with calls := [.coded .pdi [0x24]] }, rfl, rfl, by decide⟩,
    ⟨{ idle with host := ⟨[0x00, 0x04], [], []⟩ }, rfl, rfl, rfl, by decide⟩, by decide, by decide⟩

theorem test_witness_PlacedWordIsRunNext : decodeWordWith idle.cfg 8 0x24 = some .ldInc := by decide

/-- The next states that `StepMakesAtMostOnePlatformCall`, `MemoriesStayCanonical` and `ActiveExactlyInProgramming` speak
of: a step with an event, one that writes a byte to the target, one that enters Programming. -/
theorem test_witness_steps :
    (∃ t, step { linked with control := [.await .txBufferEmpty] } = .next t ∧ t.platform.trace = [.txBufferEmpty true]) ∧
    (linked.memoriesWf = true ∧ ∃ t, step { linked with control := [.command (.writeByte 0x24)] } = .next t ∧
      t.target.replies.length = 1) ∧
    ∃ t, step { linked with sess := .linkUp, active := false, control := [.enter .programming] } = .next t ∧
      t.active = true :=
  ⟨⟨_, rfl, by decide⟩, ⟨by decide, _, rfl, by decide⟩, ⟨_, rfl, by decide⟩⟩

theorem test_witness_CallsWaitWhileAnOperationRuns :
    ∃ s t : State, s.control ≠ [] ∧ s.calls = [.startup] ∧ step s = .next t :=
  ⟨{ linked with control := [.command .enableTx], calls := [.startup] }, _, by decide, rfl, rfl⟩

theorem test_witness_OnlySessionOperationsChangeTheSession :
    linked.control = [] ∧ ∃ t u, linked.call .eraseChip [] = .next t ∧ Runs t u := by
  obtain ⟨t, u, h, r⟩ := ran_returns (o := linked.call .eraseChip []) (by decide +kernel)
  exact ⟨rfl, t, u, h, r.1⟩

/-- A step whose head does not touch the link; one that brings link tasks in. -/
theorem test_witness_OnlyLinkOperationsTouchTheLink :
    (∃ t, step { linked with control := [.command (.writePin .dataOut .low)] } = .next t) ∧
    ∃ t, step { listening with control := [.run (.send 1)] } = .next t ∧ .command .enableTx ∈ t.control :=
  ⟨⟨_, rfl⟩, ⟨_, rfl, by decide⟩⟩

theorem test_witness_UnknownErrorIsNeverReturned :
    linked.ret ≠ .err .unknownError ∧ NoPendingError { linked with control := [.rxCheck 0] } ∧
      ∃ t, step { linked with control := [.rxCheck 0] } = .next t ∧ t.ret = .err .serialTimeout :=
  ⟨by decide, by simp [NoPendingError], _, rfl, by decide⟩

/-- An error that a running task meets, caught and not; and one that a call's argument check meets. -/
theorem test_witness_ErrorChangesNothingElse :
    (∃ t, NoPendingError { linked with control := [.rxCheck 0, .testReset, .respond] } ∧
      step { linked with control := [.rxCheck 0, .testReset, .respond] } = .next t ∧ t.ret = .err .serialTimeout) ∧
    (∃ t, NoPendingError { linked with control := [.rxCheck 0, .testReset] } ∧
      step { linked with control := [.rxCheck 0, .testReset] } = .next t ∧ t.ret = .err .serialTimeout) ∧
    ∃ t, step { linked with calls := [.call (.eraseSection 0 .unspecified) []] } = .next t ∧
      t.ret = .err .invalidSection :=
  ⟨⟨_, by simp [NoPendingError], rfl, by decide⟩, ⟨_, by simp [NoPendingError], rfl, by decide⟩, ⟨_, rfl, by decide⟩⟩

theorem test_witness_InitializeReachesTheSafeState :
    (State.reset.control = [] ∧ State.reset.dir = none ∧ (ran (State.reset.call .linkInit [])).isSome = true) ∧
      idle.control = [] ∧ idle.dir ≠ none := by decide

theorem test_witness_OperationsBeforeInitializeAreRefused :
    State.reset.control = [] ∧ State.reset.dir = none ∧ (Instr.key []).channel = .pdi ∧
      Instr.nvmBootCrc.channel = .nvmCommand := by decide

theorem ready_idle : Ready idle := ⟨rfl, by decide⟩
theorem ready_linked : Ready linked := ⟨rfl, by decide⟩
theorem ready_listening : Ready listening := ⟨rfl, by decide⟩
theorem ready_deaf : Ready deaf := ⟨rfl, by decide⟩
theorem prompt_idle : Prompt idle := ⟨rfl, rfl, rfl⟩
theorem prompt_linked : Prompt linked := ⟨rfl, rfl, rfl⟩

/-- V-LINK-6: `send` from each direction. -/
theorem test_witness_SendPutsOneByteOnTheWire : Ready idle ∧ Prompt idle ∧
    traffic (idle.call (.send 0x80) []) = some (.nothing, [0x80]) ∧
    traffic (linked.call (.send 0x80) []) = some (.nothing, [0x80]) ∧
    traffic (listening.call (.send 0x80) []) = some (.nothing, [0x80]) :=
  ⟨ready_idle, prompt_idle, by decide +kernel⟩

theorem test_witness_MultiByteSendsAreLittleEndian : Ready linked ∧
    traffic (linked.call (.send2 0x1234) []) = some (.nothing, [0x34, 0x12]) ∧
    traffic (linked.call (.send4 0x12345678) []) = some (.nothing, [0x78, 0x56, 0x34, 0x12]) :=
  ⟨ready_linked, by decide +kernel⟩

/-- `recv` with a frame, with a bad frame, with none; from each direction. -/
theorem test_witness_RecvDrainsThenPollsBounded : Ready listening ∧ Prompt linked ∧
    (∀ s ∈ [idle, linked, listening], (traffic (({ s with target := { keyed with replies := [7] } } : State).call .recv [])).map
      Prod.fst = some (.ok (.byte 7))) ∧
    (ran (({ listening with platform := { listening.platform with bits := [true, true] } } : State).call .recv [])).map
      State.ret = some (.err .serialError) ∧
    (traffic (deaf.call .recv [])).map Prod.fst = some (.err .serialTimeout) :=
  ⟨ready_listening, prompt_linked, by decide +kernel⟩

theorem test_witness_BeginSessionWakesTheTarget : idle.control = [] ∧ idle.dir = some .idle ∧ Prompt idle ∧
    (ran (idle.call .linkBegin [])).isSome = true ∧ linked.dir = some .transmitting ∧ listening.dir = some .receiving :=
  ⟨rfl, rfl, prompt_idle, by decide +kernel, rfl, rfl⟩

theorem test_witness_EndSessionTearsTheLinkDown : Ready linked ∧ Prompt linked ∧
    (∀ s ∈ [idle, linked, listening], (ran (s.call .linkEnd [])).isSome = true) :=
  ⟨ready_linked, prompt_linked, by decide +kernel⟩

theorem test_witness_UnsatisfiedWaitGoesOn :
    ∃ s : State, s.control = [.await (.clock .low)] ∧ s.platform.bits = List.replicate 2 (!(Wait.clock .low).wanted) ++ [] :=
  ⟨{ linked with control := [.await (.clock .low)], platform := { linked.platform with bits := [true, true] } }, rfl,
    by decide⟩

theorem quiet_idle : LinkMatches idle := ⟨rfl, rfl, rfl, rfl, rfl, rfl⟩

/-- Begin and a send from Idle; `Session.end` and a send in a session. -/
theorem test_witness_EveryOperationLeavesTheLinkMatching :
    (LinkMatches idle ∧ RowMatches idle ∧ ∀ o ∈ [Op.sessionBegin, .linkBegin, .send 1],
      ∃ t u, idle.call o [] = .next t ∧ Returns t u) ∧
    (RowMatches linked ∧ ∃ t u, linked.call .sessionEnd [] = .next t ∧ Returns t u) ∧
    RowMatches listening ∧ ∃ t u, listening.call (.send 1) [] = .next t ∧ Returns t u := by
  refine ⟨⟨quiet_idle, ⟨quiet_idle, by decide⟩, fun o ho => ?_⟩,
    ⟨⟨⟨rfl, rfl, rfl⟩, fun _ => ⟨rfl, rfl, rfl⟩⟩, ran_returns (by decide +kernel)⟩,
    ⟨⟨rfl, rfl, rfl⟩, fun _ => ⟨rfl, rfl, rfl⟩⟩, ran_returns (by decide +kernel)⟩
  fin_cases ho <;> exact ran_returns (by decide +kernel)

theorem decodable : Decodable {} := by unfold Decodable; decide
theorem decodable_small : Decodable { pageSize := 4 } := by unfold Decodable; decide
theorem wire_connected : WireConnected linked := fun _ => rfl
theorem waiting : keyed.Waiting := ⟨rfl, rfl, rfl, rfl, rfl⟩
theorem waiting_reset : Target.reset.Waiting := ⟨rfl, rfl, rfl, rfl, rfl⟩

/-- The state in which every poll ends: the completion clauses of the operations speak of it. -/
theorem answered : Answered linked :=
  ⟨prompt_linked, wire_connected, ⟨rfl, waiting, rfl, rfl, rfl, rfl⟩, decodable, by decide⟩

/-- The last page of the address space is a page too; a page at STATUS is not admitted. -/
theorem test_witness_PagesMissStatus : PagesMissStatus {} 0 65536 .app ∧ PagesMissStatus {} 0 0 .app ∧
    ¬PagesMissStatus {} (0x010001CF - 0x00800000) 1 .app := by
  refine ⟨⟨by decide, fun k hk => ?_⟩, ⟨by decide, fun k hk => ?_⟩, fun h => h.2 0 (by decide) (by decide)⟩
  · have : k < 128 := by simp at hk; omega
    have all : ∀ k < 128, realAddress {} (0 + BitVec.ofNat 32 (k * 512)) .app ≠ nvmAddress {} .status := by decide +kernel
    exact all k this
  · exact absurd hk (by omega)

theorem test_witness_InstructionsWithoutReplyComplete :
    (∀ i ∈ [Instr.sts 1 2, .stInd 1, .stInc 1, .stPtrB 1, .stIndL 1, .stIncL 1, .stPtr 1, .repeatB 1, .repeatW 1,
        .stcs 0xFF 1, .key [1, 2, 3, 4, 5, 6, 7, 8]], i.channel = .pdi ∧ hasReply i = false) ∧
      Ready linked ∧ Prompt linked ∧ WireConnected linked :=
  ⟨by decide, ready_linked, prompt_linked, wire_connected⟩

/-- An instruction that is answered, and one that times out. -/
theorem test_witness_InstructionsWithReplyComplete :
    (∀ i ∈ [Instr.lds 0x010001CF, .ldInd, .ldInc, .ldPtr, .ldcs 0], hasReply i = true) ∧
      Ready linked ∧ Prompt linked ∧ WireConnected linked ∧ linked.cfg.recvPollCycles ≠ 0 ∧
      (linked.target.receiveAll linked.cfg (encode (.ldcs 0))).replies.head? = some 0x02 ∧
      traffic (exec (.ldcs 0) linked) = some (.ok (.byte 0x02), [0x80]) ∧
      traffic (exec (.ldcs 0) deaf) = some (.err .serialTimeout, [0x80]) :=
  ⟨by decide, ready_linked, prompt_linked, wire_connected, by decide +kernel⟩

theorem test_witness_NvmCommandCodesAreStoredToCmd :
    nvmCommandOf .nvmBootCrc = some .bootCrc ∧ Ready linked ∧ Prompt linked ∧ Decodable linked.cfg ∧
      WireConnected linked ∧ linked.target.Waiting ∧ linked.target.nvmIdle = true ∧ linked.target.owed = 0 ∧
      (ran (exec .nvmBootCrc linked)).map (fun u => u.target.cmd) = some 0x39 :=
  ⟨rfl, ready_linked, prompt_linked, decodable, wire_connected, waiting, rfl, rfl, by decide +kernel⟩

theorem test_witness_BulkStoreSendsEachPulledByte : Ready linked ∧ Prompt linked ∧ 65535 < 65536 ∧
    (traffic (linked.call (.bulkStore .indirect 0) [])) = some (.ok .unit, []) ∧
    (traffic (linked.call (.bulkStore .indirect 2) [5, 6, 7])) = some (.ok .unit, [0xA1, 1, 0, 0x60, 5, 6]) :=
  ⟨ready_linked, prompt_linked, by decide +kernel⟩

theorem test_witness_BulkLoadGivesEveryReplyOrAnError : Ready linked ∧ Prompt linked ∧ linked.cfg.recvPollCycles ≠ 0 ∧
    traffic (({ linked with target := { keyed with cmd := 0x43 } } : State).call (.bulkLoad .autoInc 2) []) =
      some (.ok (.bytes [0xFF, 0xFF]), [0xA1, 1, 0, 0x24]) ∧
    traffic (deaf.call (.bulkLoad .autoInc 1) []) = some (.err .serialTimeout, [0x24]) ∧
    traffic (deaf.call (.bulkLoad .autoInc 0) []) = some (.ok (.bytes []), []) :=
  ⟨ready_linked, prompt_linked, by decide +kernel⟩

theorem test_witness_ResetPrimitivesStoreTheirRegister : Ready linked ∧
    traffic (linked.call .enterResetState []) = some (.nothing, [0xC1, 0x59]) ∧
    traffic (linked.call .exitResetState []) = some (.nothing, [0xC1, 0x00]) ∧
    traffic (linked.call (.setGuardTime 7) []) = some (.nothing, [0xC2, 0x07]) :=
  ⟨ready_linked, by decide +kernel⟩

theorem test_witness_InResetStateReportsBitZero : Ready linked ∧
    traffic (linked.call .inResetState []) = some (.ok (.bool true), [0x81]) ∧
    traffic (({ linked with platform := { linked.platform with frames := [0xFE] } } : State).call .inResetState []) =
      some (.ok (.bool false), [0x81]) ∧
    traffic (deaf.call .inResetState []) = some (.err .serialTimeout, [0x81]) :=
  ⟨ready_linked, by decide +kernel⟩

/-- From Idle; from Idle with the session left active by a direct end of the link session; in a session. -/
theorem test_witness_SessionBeginReachesProgramming : idle.control = [] ∧ idle.dir = some .idle ∧ idle.active = false ∧
    Prompt idle ∧ (ran (linked.call .linkEnd [])).map (fun u => (u.dir, u.active, u.control)) =
      some (some .idle, true, []) ∧ linked.dir = some .transmitting ∧ listening.dir = some .receiving :=
  ⟨rfl, rfl, rfl, prompt_idle, by decide +kernel, rfl, rfl⟩

/-- Session.end with replies, with none, with two rounds, and with POLL_LIMIT 0. -/
theorem test_witness_SessionEndAlwaysCloses : Ready linked ∧
    (∀ s ∈ [linked, deaf], (traffic (s.call .sessionEnd [])).map Prod.fst = some (.ok .unit)) ∧
    (traffic (linked.call .sessionEnd [])).map Prod.snd =
      some [0x80, 0x6B, 0xCF, 0x01, 0x00, 0x01, 0x20, 0xC1, 0x00, 0x81] ∧
    (traffic (({ linked with platform := { linked.platform with frames := [2, 0, 1, 0] } } : State).call .sessionEnd
      [])).map Prod.snd =
      some [0x80, 0x6B, 0xCF, 0x01, 0x00, 0x01, 0x20, 0xC1, 0x00, 0x81, 0xC1, 0x00, 0x81] ∧
    traffic (({ linked with cfg := { pollLimit := some 0 } } : State).call .sessionEnd []) = some (.ok .unit, []) :=
  ⟨ready_linked, by decide +kernel⟩

/-- The three ends of the reset loop: bit 0 clear in the second reply, an error in the first round, POLL_LIMIT of 0. -/
theorem test_reset_loop_ends :
    ResetLoopEnds {} 2 [1, 0] ∧ ResetLoopEnds {} 1 [] ∧ ResetLoopEnds { pollLimit := some 0 } 0 [] := by
  simp [ResetLoopEnds]

theorem test_witness_PureCallsAnswerAtOnce : Ready linked ∧
    traffic (linked.call .sessionActive []) = some (.value (.bool true), []) ∧
    traffic (linked.call (.realAddress 0x100 .boot) []) = some (.value (.word 0x00820100), []) :=
  ⟨ready_linked, by decide⟩

/-- V-NVM-2, V-NVM-6: polls in two stages; POLL_LIMIT used up in the first, and 0. -/
theorem test_witness_WaitWhileBusyPollsInTwoStages : Ready linked ∧
    traffic (({ linked with platform := { linked.platform with frames := [0x00, 0x00, 0x02, 0x80, 0x80, 0x00] } } :
        State).call .waitWhileBusy []) =
      some (.ok .unit, [0x80, 0x80, 0x80, 0x6B, 0xCF, 0x01, 0x00, 0x01, 0x20, 0x20, 0x20]) ∧
    traffic (({ linked with
        cfg := { pollLimit := some 3 }, platform := { linked.platform with frames := [0, 0, 0] } } :
        State).call .waitWhileBusy []) = some (.err .serialTimeout, [0x80, 0x80, 0x80]) ∧
    traffic (({ linked with cfg := { pollLimit := some 0 } } : State).call .waitWhileBusy []) =
      some (.err .serialTimeout, []) :=
  ⟨ready_linked, by decide +kernel⟩

theorem test_witness_ExecuteStoresCtrlA : Ready linked ∧
    traffic (linked.call .execute []) = some (.nothing, [0x4C, 0xCB, 0x01, 0x00, 0x01, 0x01]) :=
  ⟨ready_linked, by decide +kernel⟩

/-- An operation of each kind; the wait cut by a timeout. -/
theorem test_witness_CommandsAreSentOnlyAfterTheWait : Ready linked ∧
    (∀ o ∈ [Op.eraseChip, .eraseBuffer, .eraseSection 0 .app, .eraseSection 0 .boot, .erasePage 0 .unspecified,
      .writePageFromBuffer 0 true .boot, .fuseWrite 2 0xFF], (commandBytes linked.cfg o).isSome = true) ∧
    traffic (linked.call (.fuseWrite 2 0xBF) []) =
      some (.ok .unit, [0x80, 0x6B, 0xCF, 0x01, 0x00, 0x01, 0x20, 0x4C, 0xCA, 0x01, 0x00, 0x01, 0x4C,
        0x4C, 0x22, 0x00, 0x8F, 0x00, 0xBF]) ∧
    traffic (deaf.call .eraseBuffer []) = some (.err .serialTimeout, [0x80]) :=
  ⟨ready_linked, by decide +kernel⟩

/-- V-NVM-10, V-NVM-11, and the two places an error can come from. -/
theorem test_witness_ReadMemoryReadsThroughThePointer : Ready linked ∧
    traffic (linked.call (.readMemory 0x800000 0) []) = some (.ok (.bytes []), []) ∧
    traffic (linked.call (.readMemory 0x800000 1) []) =
      some (.ok (.bytes [0xFF]), [0x80, 0x6B, 0xCF, 0x01, 0x00, 0x01, 0x20, 0x4C, 0xCA, 0x01, 0x00, 0x01, 0x43,
        0x6B, 0x00, 0x00, 0x80, 0x00, 0x24]) ∧
    traffic (deaf.call (.readMemory 0x800000 1) []) = some (.err .serialTimeout, [0x80]) :=
  ⟨ready_linked, by decide +kernel⟩

/-- V-FL-6: 513 bytes do not fit a page of 512. -/
theorem test_witness_ArgumentErrorsComeBeforeTraffic : Ready idle ∧ idle.cfg.pageSize < 513 ∧ 513 < 65536 ∧
    513 ≤ (List.replicate 513 (0 : Byte)).length := ⟨ready_idle, by decide +kernel⟩

/-- V-FL-8, V-FL-9: one byte and none; a length of a whole page is admitted; the wait cut. -/
theorem test_witness_WriteBufferLoadsThePageBuffer : Ready linked ∧ 512 ≤ linked.cfg.pageSize ∧
    (traffic (linked.call (.writeBuffer 0x10 1 .boot) [0xAB])).map (fun p => (p.1, p.2.drop 7)) =
      some (.ok .unit, [0x4C, 0xCA, 0x01, 0x00, 0x01, 0x23, 0x6B, 0x10, 0x00, 0x82, 0x00, 0x64, 0xAB]) ∧
    (traffic (linked.call (.writeBuffer 0x10 0 .boot) [])).map (fun p => p.2.length) = some 18 ∧
    traffic (deaf.call (.writeBuffer 0x10 1 .boot) [0xAB]) = some (.err .serialTimeout, [0x80]) :=
  ⟨ready_linked, by decide +kernel⟩

/-- E2 with pages of two bytes: three bytes take two sequences; no byte takes none. -/
theorem test_witness_WriteSendsOneSequencePerPage : Ready linked ∧ 1 ≤ linked.cfg.pageSize ∧
    (ran (({ linked with cfg := { pageSize := 2 } } : State).call (.write 0 3 true .app) [1, 2, 3])).map
      (fun u => (u.ret, [0x800000, 0x800001, 0x800002, 0x800003].map u.target.mem.read)) =
      some (.ok .unit, [1, 2, 3, 0xFF]) ∧
    traffic (linked.call (.write 0 0 true .app) []) = some (.ok .unit, []) ∧
    (traffic (deaf.call (.write 0 3 true .app) [1, 2, 3])).map Prod.fst = some (.err .serialTimeout) :=
  ⟨ready_linked, by decide +kernel⟩

/-- V-FL-11: a length above a page fails after the traffic of `eraseBuffer`; a whole page does not. -/
theorem test_witness_WritePageStopsAtTheFirstError : Ready linked ∧
    traffic (({ linked with cfg := { pageSize := 2 } } : State).call (.writePage 0 3 true .app) [1, 2, 3]) =
      some (.err .invalidLength, [0x80, 0x6B, 0xCF, 0x01, 0x00, 0x01, 0x20, 0x4C, 0xCA, 0x01, 0x00, 0x01, 0x26,
        0x4C, 0xCB, 0x01, 0x00, 0x01, 0x01]) ∧
    (traffic (({ linked with cfg := { pageSize := 2 } } : State).call (.writePage 0 2 true .app) [1, 2, 3])).map
      (fun p => (p.1, p.2.length)) = some (.ok .unit, 62) ∧
    traffic (deaf.call (.writePage 0 3 true .app) [1, 2, 3]) = some (.err .serialTimeout, [0x80]) :=
  ⟨ready_linked, by decide +kernel⟩

theorem test_witness_TargetExecutesOnTheLastByte : keyed.Waiting ∧ Decodable {} ∧ (Instr.stcs 15 0).channel = .pdi ∧
    (Instr.stcs 15 0).wellFormed = true := ⟨waiting, decodable, by decide⟩

/-- Both forms of REPEAT, with their largest counts. -/
theorem test_witness_RepeatOf : RepeatOf (.repeatW 0xFFFF) 0xFFFF ∧ RepeatOf (.repeatB 0xFF) 0xFF :=
  ⟨.inl rfl, .inr ⟨0xFF, rfl, by decide⟩⟩

theorem test_witness_RepeatedLoadRepliesOncePerExecution : keyed.Waiting ∧ Decodable {} ∧
    RepeatOf (.repeatW 0xFFFF) 0xFFFF ∧ keyed.ptr.toNat + (0xFFFF : Word16).toNat + 1 < 2 ^ 32 ∧
    (keyed.receiveAll {} (encode (.repeatW 2) ++ encode .ldInc)).replies.length = 3 ∧
    (keyed.receiveAll {} (encode (.repeatB 2) ++ encode .ldPtr)).replies.length = 3 :=
  ⟨waiting, decodable, .inl rfl, by decide +kernel⟩

/-- A target about to read flash at 0x800000, or to store there. -/
def atFlash (cmd : Byte) : Target := { keyed with ptr := 0x800000, cmd := cmd }

/-- A target of section 1 of 45_target_contract in a session. -/
def contracted (cmd : Byte) : Target :=
  { Target.reset with
    resetLine := .held, linked := true, keyed := true, awake := true, cmd := cmd, ptr := 0x800000 }

theorem waiting_contracted (cmd : Byte) : (contracted cmd).Waiting := ⟨rfl, rfl, rfl, rfl, rfl⟩

/-- On both kinds of target: a load through the pointer under ReadNvm, an LDS of an NVM address under any command, loads
of plain memory under a command other than ReadNvm. -/
theorem test_witness_LoadsReadMemory : (atFlash 0x43).Waiting ∧ (contracted 0x43).Waiting ∧ Decodable {} ∧
    (∀ t ∈ [atFlash 0x43, contracted 0x43], t.Reads {} false t.ptr ∧ t.ptr ≠ 0xFFFFFFFF ∧
      t.ptr.toNat + (1 : Word16).toNat + 1 < 2 ^ 32 ∧
      ∀ k ≤ (1 : Word16).toNat, t.Reads {} false (t.ptr + BitVec.ofNat 32 k)) ∧
    (∀ t ∈ [atFlash 0x40, contracted 0x40], t.Reads {} true 0x800000 ∧ t.Reads {} false 0x7FFFFF) :=
  ⟨waiting, waiting_contracted _, decodable, by unfold Target.Reads NoRegister; decide,
    by unfold Target.Reads NoRegister; decide⟩

/-- Two bytes, and an end of the data just below the top of the address space. -/
theorem test_witness_RepeatedStoreWritesConsecutiveBytes : keyed.Waiting ∧ Decodable {} ∧
    RepeatOf (.repeatB 1) 1 ∧ ([1, 2] : List Byte).length = (1 : Word16).toNat + 1 ∧ keyed.cmd ≠ ({} : Config).nvmCodes.loadFlashPageBuffer ∧
    (0xFFFFFFFD : Word).toNat + 2 < 2 ^ 32 ∧
    (∀ k < 2, PlainAddress {} ((0xFFFFFFFD : Word) + BitVec.ofNat 32 k)) ∧ PlainAddress {} 0xFFFFFFFF :=
  ⟨waiting, decodable, .inr ⟨1, rfl, by decide⟩, by unfold PlainAddress NoRegister; decide⟩

/-- The addresses just below the flash region and just above the fuse region. -/
theorem test_witness_PlainStoresWriteOneByte : keyed.Waiting ∧ PlainAddress {} 0x7FFFFF ∧ PlainAddress {} 0x8F0028 ∧
    PlainAddress {} keyed.ptr ∧ keyed.replyStated = true ∧
    keyed.cmd ≠ ({} : Config).nvmCodes.loadFlashPageBuffer ∧ keyed.ptr ≠ 0xFFFFFFFF :=
  ⟨waiting, by unfold PlainAddress NoRegister; decide⟩

theorem test_witness_OtherInstructionsStoreNothing :
    ((∀ a d, Instr.stcs 2 0 ≠ .sts a d) ∧ (∀ d, Instr.stcs 2 0 ≠ .stInd d) ∧ ∀ d, Instr.stcs 2 0 ≠ .stInc d) ∧
      (∀ r d, Instr.stcs 2 0 = .stcs r d → r.setWidth 4 ≠ ({} : Config).csrReset) ∧
      isNvm {} (BitVec.ofNat 32 0x800000) = true := by
  refine ⟨⟨fun _ _ => ?_, fun _ => ?_, fun _ => ?_⟩, fun r d h => ?_, by decide⟩
  case refine_4 => cases h; decide
  all_goals exact Instr.noConfusion

/-- The first and the last address of the flash region, and the last of the fuses. -/
theorem test_witness_TriggerValueDoesNotMatter : TriggerAddress {} 0x800000 ∧ TriggerAddress {} 0x821FFF ∧
    TriggerAddress {} 0x8F0027 ∧ (atFlash 0x2B).cmd = ({} : Config).nvmCodes.eraseFlashPage := by
  unfold TriggerAddress NoRegister; decide

/-- An erase and an erase-write, at the first and at the last address of the flash region. -/
theorem test_witness_ReferencePageCommands : keyed.Waiting ∧ keyed.kind = .reference ∧ Decodable {} ∧
    TriggerAddress {} 0x800000 ∧ TriggerAddress {} 0x821FFF ∧ pageStart {} (0x821FFF : Word).toNat + 512 ≤ 2 ^ 32 ∧
    (atFlash 0x22).cmd = nvmCode {} (erasePageCommand .app) ∧
    (atFlash 0x2F).cmd = nvmCode {} (writePageCommand true .unspecified) :=
  ⟨waiting, rfl, decodable, by unfold TriggerAddress NoRegister; decide⟩

theorem test_witness_ReferenceWholeCommands : keyed.Waiting ∧ keyed.kind = .reference ∧ Decodable {} ∧
    nvmAddress {} .ctrlA ≠ nvmAddress {} .cmd ∧ TriggerAddress {} 0x800000 ∧ (0x01 : Byte).getLsbD 0 = true ∧
    (atFlash 0x40).cmd = nvmCode {} .chipErase ∧ (atFlash 0x26).cmd = nvmCode {} .eraseFlashPageBuffer ∧
    (atFlash 0x4C).cmd = nvmCode {} .writeFuse ∧ (atFlash 0x20).cmd = nvmCode {} .eraseAppSection ∧
    (atFlash 0x68).cmd = nvmCode {} .eraseBootSection ∧
    ({} : Config).appBase.toNat + ({} : Config).appSize ≤ 2 ^ 32 ∧
    ({} : Config).bootBase.toNat + ({} : Config).bootSize ≤ 2 ^ 32 :=
  ⟨waiting, rfl, decodable, by unfold TriggerAddress NoRegister; decide⟩

/-- A page of four bytes: none, three and all four bytes are admitted; the page erased in each of the three ways. -/
theorem test_witness_PageRoundTripOnTheReferenceTarget : keyed.Waiting ∧ keyed.kind = .reference ∧
    Decodable { pageSize := 4 } ∧ nvmAddress { pageSize := 4 } .ctrlA ≠ nvmAddress { pageSize := 4 } .cmd ∧
    (0x800000 : Word).toNat % 4 = 0 ∧ (0x800000 : Word).toNat + 4 < 2 ^ 32 ∧ isNvm { pageSize := 4 } 0x800000 = true ∧
    (∀ k < 4, NoRegister { pageSize := 4 } ((0x800000 : Word) + BitVec.ofNat 32 k)) ∧
    (true = true ∧ ([] : List Byte) = []) ∧
    (∃ k v, ([0x4C, 0xCA, 1, 0, 1, 0x22, 0x4C, 0, 0, 0x80, 0, 9] : List Byte) =
      stsBytes {} (nvmAddress {} .cmd) (nvmCode {} (erasePageCommand k)) ++ stsBytes {} 0x800000 v) ∧
    ([0x4C, 0xCA, 1, 0, 1, 0x40, 0x4C, 0xCB, 1, 0, 1, 1] : List Byte) =
      stsBytes {} (nvmAddress {} .cmd) (nvmCode {} .chipErase) ++ stsBytes {} (nvmAddress {} .ctrlA) 0x01 :=
  ⟨waiting, rfl, decodable_small, by decide, by decide, by decide, by decide, by unfold NoRegister; decide, ⟨rfl, rfl⟩,
    ⟨.app, 9, by decide⟩, by decide⟩

/-- On RT; on a target of section 1, held, leaving and released. -/
theorem test_witness_TargetControlRegisters : keyed.Waiting ∧ keyed.kind = .reference ∧ keyed.resetLine = .held ∧
    (∀ l, { contracted 0 with resetLine := l }.Waiting) ∧ (contracted 0).kind = .contract ∧
    { contracted 0 with keyed := false }.Waiting ∧ (contracted 0).replyStated = true ∧
    { contracted 0 with keyed := false }.replyStated = true ∧ [] ≠ ({} : Config).pdiKey ∧
    ({} : Config).csrReset ≠ ({} : Config).csrStatus ∧ ({} : Config).csrControl ≠ ({} : Config).csrStatus ∧
    ({} : Config).csrControl ≠ ({} : Config).csrReset ∧ ({} : Config).resetSignature ≠ 0x00 :=
  ⟨waiting, rfl, rfl, fun _ => ⟨rfl, rfl, rfl, rfl, rfl⟩, rfl, ⟨rfl, rfl, rfl, rfl, rfl⟩, rfl, rfl, by decide⟩

/-- 93 U7, U22: a direct exitResetState in a session, or the STCS it is, leaves no reply stated, whatever is sent later; outside
one it does not; before the wake sequence, and once the clock has stopped, none is stated. -/
theorem test_replies_after_a_direct_exit :
    linked.strays .exitResetState = true ∧ linked.strays (.storeControlStatus 0xF1 0) = true ∧
      linked.strays .enterResetState = false ∧ ({ linked with sess := .ended } : State).strays .exitResetState = false ∧
      (((contracted 0).noteExit true).execute {} (.stcs 1 0x59)).replyStated = false ∧
      [Command.enableClock, .disableClock].map (fun k =>
          (performCommand k { linked with target := { contracted 0 with linked := false } }).target.replyStated) =
        [true, false] := by decide

/-- 45 R315: a release from reset leaves no reply stated until the next wake sequence, whoever asserts reset again. -/
theorem test_replies_after_a_release :
    let released := ((contracted 0).execute {} (.stcs 1 0)).execute {} (.stcs 1 0x59)
    (released.resetLine, released.replyStated, ({ released with linked := true } : Target).replyStated) =
      (.held, false, true) := by decide

/-- A target of section 1 about to erase and write a page whose bytes its buffer holds. -/
def loaded : Target := { contracted 0x2F with bufPage := some 0x800000, bufRun := some (0x800000, false) }

/-- On RT, and on a target of section 1 that runs a command. -/
theorem test_witness_NvmRegistersAreReadAndExecuted : keyed.Waiting ∧ { loaded with busy := true }.Waiting ∧
    keyed.kind = .reference ∧ loaded.kind = .contract ∧ loaded.replyStated = true ∧ loaded.keyed = true ∧ loaded.awake = true ∧
    loaded.nvmIdle = true ∧ nvmAddress {} .cmd ≠ nvmAddress {} .status ∧ nvmAddress {} .cmd ≠ nvmAddress {} .ctrlA ∧
    (0x01 : Byte).getLsbD 0 = true ∧ { keyed with ptr := nvmAddress {} .status }.Waiting ∧
    (keyed.execute {} (.lds (nvmAddress {} .status))).replies = [0x00] ∧
    ∀ t ∈ [atFlash 0x43, contracted 0x43], (t.execute {} (.lds (nvmAddress {} .cmd))).replies = [0x43] :=
  ⟨waiting, ⟨rfl, rfl, rfl, rfl, rfl⟩, rfl, rfl, rfl, rfl, rfl, by decide, by decide, by decide, by decide,
    ⟨rfl, rfl, rfl, rfl, rfl⟩, by decide, by decide⟩

/-- A load of the buffer, the first and one more; a WriteFuse; an erase-write; a write of a page erased before; a chip erase, the last
page of the section. -/
theorem test_witness_AlignedPageCommandsStayInThePage : loaded.Waiting ∧ loaded.kind = .contract ∧
    loaded.nvmReady = true ∧ loaded.working = false ∧ Decodable {} ∧ isFuse {} 0x800000 = false ∧
    isFuse {} 0x8F0022 = true ∧ (contracted 0x23).cmd = nvmCode {} .loadFlashPageBuffer ∧
    (contracted 0x4C).cmd = nvmCode {} .writeFuse ∧ TriggerAddress {} 0x8F0022 ∧ (contracted 0x23).bufRun = none ∧
    (contracted 0x23).ptr ≠ 0xFFFFFFFF ∧
    loaded.bufRun = some (pageStart {} loaded.ptr.toNat, false) ∧
    TriggerAddress {} 0x800000 ∧ (0x800000 : Word).toNat % 512 = 0 ∧ (0x800000 : Word).toNat ∉ loaded.bufCrossed ∧
    loaded.bufPage = some (0x800000 : Word).toNat ∧ loaded.cmd = nvmCode {} (writePageCommand true .unspecified) ∧
    { loaded with erased := [(0x800000, 0x820000)] }.pageErased {} (0x800000 : Word).toNat = true ∧
    nvmAddress {} .ctrlA ≠ nvmAddress {} .cmd ∧
    0x81FE00 + ({} : Config).pageSize ≤ ({} : Config).appBase.toNat + ({} : Config).appSize :=
  ⟨⟨rfl, rfl, rfl, rfl, rfl⟩, rfl, by decide, rfl, decodable, by decide, by decide, by decide, by decide,
    by unfold TriggerAddress NoRegister; decide, rfl, by decide, rfl,
    by unfold TriggerAddress NoRegister; decide⟩

/-- 43_nvm R245, outside RT: after a load of the page buffer more loads are taken and a command is not, and so after a read
under ReadNvm; on RT a command is. -/
theorem test_loads_and_reads_may_still_run :
    let load := (contracted 0x23).execute {} (.stInc 1)
    let read := (contracted 0x43).execute {} .ldInc
    (load.nvmReady, load.nvmIdle, read.nvmReady, read.nvmIdle, ((atFlash 0x23).execute {} (.stInc 1)).nvmIdle,
      ((contracted 0x40).execute {} (.lds 0x800000)).nvmIdle) = (true, false, true, false, true, true) := by decide

/-- 45 R310: outside RT WriteFuse at a flash address uses up free values for memory, buffer and fuses, at a fuse address
none, and CTRLA takes 0x01 alone. -/
theorem test_unstated_triggers :
    [(0x8F0022 : Word), 0x800000].map (fun a => ((contracted 0x4C).storeDirect {} a 7).fresh) = [3, 6] ∧
      [(0x01 : Byte), 0x03, 0x00].map (fun d => ((contracted 0x40).storeDirect {} (nvmAddress {} .ctrlA) d).lost) =
        [false, true, true] := by decide

/-- 20_memory R85, outside RT: ChipErase, a load for one page left uncommitted, a load for the next page and a commit
without erase leave the loaded byte there. -/
theorem test_commit_after_chip_erase :
    let first := (((contracted 0x40).chipErase {}).loadBuffer {} 0x800000 1).execute {} (.stPtr 0x800200)
    let second := first.loadBuffer {} 0x800201 7
    second.bufPage = some 0x800200 ∧ second.pageErased {} 0x800200 = true ∧ second.bufCrossed = [] := by decide

/-- 70 R406, 93 U3: a one-byte ST after a REPEAT of two executions: with a data byte too few when the next call comes, and
with one too many, by `send` or by `send2`, the target is lost; with the two it asks for it is not. `bulkStore` of one
byte is such an ST. -/
theorem test_hand_fed_store :
    let begun := (keyed.receiveAll {} (encode (.repeatB 1))).atCall {} (.bulkStore .autoInc 1)
    let feed := fun (bytes : List Byte) =>
      bytes.foldl (fun t b => (t.atCall {} (.send b)).receive {} b) (begun.receiveAll {} (encode (.stInc 1)))
    (begun.handFed, ((feed []).atCall {} .eraseChip).lost, ((feed [2]).atCall {} .eraseChip).lost, (feed [2, 3]).lost,
      ((feed []).atCall {} (.send2 0)).lost) = (true, true, false, true, true) := by decide

/-- 93 U3: a receive error among the replies of a repeated LD leaves the target refused, with no reply to read; after all
of them, or after a single LD, it does not. So does, before all of them have been read, a caller's next instruction or
byte (70 R406). -/
theorem test_repeated_load_cut_off :
    let ld := keyed.receiveAll {} (encode (.repeatB 1) ++ encode .ldInc)
    (ld.owed, ld.cutOff.lost, ld.readReply.cutOff.lost, ld.readReply.readReply.cutOff.lost, ld.cutOff.replies.length,
      (keyed.receiveAll {} (encode .ldInc)).cutOff.lost) = (2, true, true, false, 0, false) ∧
      ((ld.atCall {} .eraseChip).lost, (ld.readReply.atCall {} (.send 0)).lost, (ld.atCall {} .recv).lost,
        (ld.readReply.readReply.atCall {} .eraseChip).lost) = (true, true, false, false) := by decide

/-- 70 R406, 93 U3: outside RT a REPEAT of count 0 makes the LD owe its one reply. -/
theorem test_repeat_of_count_zero_owes_a_reply :
    let ld := (contracted 0x43).receiveAll {} (encode (.repeatB 0) ++ encode .ldInc)
    (ld.owed, ld.lost, (ld.atCall {} .eraseChip).lost, ld.cutOff.lost, (ld.readReply.atCall {} .eraseChip).lost,
      (keyed.receiveAll {} (encode (.repeatB 0) ++ encode .ldInc)).owed) = (1, false, true, true, false, 0) := by decide

/-- 93 U10, 45 R310: outside RT a command of a keyed target that has not reported NVMEN loses it. A command that has not
been seen to end when reset is asserted leaves nothing known to be erased; one that has ended leaves what it erased. -/
theorem test_controller_asleep_and_command_cut :
    (({ contracted 0 with awake := false } : Target).storeDirect {} (nvmAddress {} .cmd) 0x40).lost = true ∧
      ((contracted 0).storeDirect {} (nvmAddress {} .cmd) 0x40).lost = false ∧
      let erased := (contracted 0x40).storeDirect {} (nvmAddress {} .ctrlA) 0x01
      (erased.underway, (erased.afterReset {}).erased, ({ erased with underway := false }.afterReset {}).erased) =
        (true, [], [(0x800000, 0x820000)]) := by decide

/-- Requests and calls that send nothing leave a hand-fed ST alone: WriteAppFlash of no byte in a session, and a wait that
POLL_LIMIT cuts at once. -/
theorem test_calls_that_send_nothing :
    (linked.sendsLazily (.write 0 0 true .app), idle.sendsLazily (.write 0 0 true .app),
      linked.sendsLazily (.write 0 1 true .app), sendsInstruction { pollLimit := some 0 } .eraseChip) =
      (false, true, true, false) := by decide

/-- `HostEndEndsTheSession`, `HostEraseChipBringsTheSessionUp`, `HostWriteAppFlashStreamsTheData` and
`HostWriteFuseWritesTheFuse`: the requests run to their response, in a session and from Idle, and with no reply. -/
theorem test_witness_host_requests : Ready linked ∧ Ready idle ∧ idle.dir = some .idle ∧ linked.active = true ∧
    (∀ s ∈ [linked, idle], (ran (exec .hostEraseChip s)).map (fun u => u.host.tx) = some [0x00]) ∧
    (ran (exec .hostEraseChip deaf)).map (fun u => u.host.tx) = some [0xFE] ∧
    (ran (exec .hostEnd linked)).map (fun u => (u.host.tx, u.sess)) = some ([0x00], .ended) ∧
    (ran (exec (.hostWriteAppFlash 0 1) { linked with cfg := { pageSize := 2 }, host := ⟨[7], [], []⟩ })).map
      (fun u => (u.host, u.target.mem.read 0x800000)) = some (⟨[], [0x00, 0xFF], []⟩, 7) ∧
    (ran (exec .hostWriteFuse { linked with cfg := { hostFuseBytes := 1 }, host := ⟨[7], [], []⟩ })).map
      (fun u => u.host) = some ⟨[], [0x00, 0xFF], []⟩ :=
  ⟨ready_linked, ready_idle, rfl, rfl, by decide +kernel⟩

/-- Free Platform answers: a step that draws one. -/
theorem test_witness_TheCoreSeesTheTargetOnlyThroughAnswers :
    State.reset.platform.answering = .drawn ∧
      (∃ t, step { State.reset with control := [.rxRead] } = .next t) ∧
      ∃ r, step { State.reset with calls := [.call .recv []] } = .refused r := ⟨rfl, ⟨_, rfl⟩, ⟨_, rfl⟩⟩

end Sys2Proof.Tests
end

section
/-!
00_scope R5, 45_target_contract R310: the core sees the target only through the Platform's answers. Where those are
draws, a step is a simulation between states that differ in the target alone. The relation is `Twins`; each shared
operation keeps it, and a step of twins has `Alike` outcomes.
-/

namespace Sys2Proof.Machine

/-! ## States and outcomes that differ in the target alone -/

/-- `u` is `s` with some target in place of its own, on a Platform that answers with draws. -/
def Twins (s u : State) : Prop := s.platform.answering = .drawn ∧ ∃ T : Target, u = { s with target := T }

/-- Outcomes of a step that differ in the target of the next state alone. -/
inductive Alike : Host.Outcome State Fault Refusal → Host.Outcome State Fault Refusal → Prop where
  | next {t u : State} (h : Twins t u) : Alike (.next t) (.next u)
  | refused (r : Refusal) : Alike (.refused r) (.refused r)

theorem Alike.of_next {t : State} {o : Host.Outcome State Fault Refusal} (h : Alike (.next t) o) :
    ∃ u, o = .next u ∧ Twins t u := by
  cases h with
  | next h => exact ⟨_, rfl, h⟩

theorem Alike.of_refused {r : Refusal} {o : Host.Outcome State Fault Refusal} (h : Alike (.refused r) o) :
    o = .refused r := by
  cases h
  rfl

/-- What the idle machine takes next, differing in the target alone. -/
inductive FetchedAlike : Fetched → Fetched → Prop where
  | idle : FetchedAlike .idle .idle
  | startup {s u : State} (h : Twins s u) : FetchedAlike (.startup s) (.startup u)
  | call (o : Op) (src : List Byte) {s u : State} (h : Twins s u) : FetchedAlike (.call o src s) (.call o src u)
  | instr (i : Instr) {s u : State} (h : Twins s u) : FetchedAlike (.instr i s) (.instr i u)
  | read {s u : State} (h : Twins s u) : FetchedAlike (.read s) (.read u)
  | refused (r : Refusal) : FetchedAlike (.refused r) (.refused r)

theorem Alike.ite {p : Prop} [Decidable p] {a b a' b' : Host.Outcome State Fault Refusal} (h : Alike a a')
    (h' : Alike b b') : Alike (if p then a else b) (if p then a' else b') := by
  split
  · exact h
  · exact h'

theorem Twins.ite {p : Prop} [Decidable p] {a b a' b' : State} (h : Twins a a') (h' : Twins b b') :
    Twins (if p then a else b) (if p then a' else b') := by
  split
  · exact h
  · exact h'

/-! ## The Platform's answers -/

@[simp] theorem Platform.query_answering (p : Platform) (e : Bool → Event) (a : Bool) :
    (p.query e a).2.answering = p.answering := by
  obtain ⟨_, _, hp⟩ := p.takeBit_keeps a
  simp [Platform.query, hp]

@[simp] theorem Platform.afterWait_answering (p : Platform) (w : Wait) : (p.afterWait w).answering = p.answering := by
  cases w <;> rfl

@[simp] theorem Platform.takeFrame_answering (p : Platform) (onLink : Option Byte) :
    (p.takeFrame onLink).2.answering = p.answering := by
  unfold Platform.takeFrame
  split
  · rfl
  · split <;> rfl

/-- A Platform that answers with draws does not look at the byte on the link. -/
theorem Platform.takeFrame_of_drawn {p : Platform} (h : p.answering = .drawn) (x y : Option Byte) :
    p.takeFrame x = p.takeFrame y := by
  simp [Platform.takeFrame, h]

/-! ## The shared operations keep twins -/

section SharedOperations
variable {s u : State}

theorem Twins.withTarget (h : Twins s u) (T T' : Target) : Twins { s with target := T } { u with target := T' } := by
  obtain ⟨hd, _, rfl⟩ := h
  exact ⟨hd, T', rfl⟩

theorem Twins.withPlatform (h : Twins s u) {p : Platform} (hp : p.answering = s.platform.answering) :
    Twins { s with platform := p } { u with platform := p } := by
  obtain ⟨hd, T, rfl⟩ := h
  exact ⟨hp.trans hd, T, rfl⟩

theorem Twins.withControl (h : Twins s u) (ts : List Task) :
    Twins { s with control := ts } { u with control := ts } := by
  obtain ⟨hd, T, rfl⟩ := h
  exact ⟨hd, T, rfl⟩

theorem Twins.withCalls (h : Twins s u) (rs : List Request) : Twins { s with calls := rs } { u with calls := rs } := by
  obtain ⟨hd, T, rfl⟩ := h
  exact ⟨hd, T, rfl⟩

theorem Twins.push (h : Twins s u) (ts : List Task) : Twins (s.push ts) (u.push ts) := by
  obtain ⟨hd, T, rfl⟩ := h
  exact ⟨hd, T, rfl⟩

theorem Twins.raise (h : Twins s u) (e : ErrorCode) : Twins (s.raise e) (u.raise e) := by
  obtain ⟨hd, T, rfl⟩ := h
  exact ⟨hd, T, rfl⟩

theorem Twins.recvFails (h : Twins s u) (e : ErrorCode) : Twins (s.recvFails e) (u.recvFails e) :=
  (h.withTarget _ _).raise e

theorem Twins.finish (h : Twins s u) (r : Return) : Twins (s.finish r) (u.finish r) := by
  obtain ⟨hd, T, rfl⟩ := h
  exact ⟨hd, T, rfl⟩

theorem Twins.enter (h : Twins s u) (x : SessionState) : Twins (s.enter x) (u.enter x) := by
  obtain ⟨hd, T, rfl⟩ := h
  exact ⟨hd, T, rfl⟩

theorem Twins.hostSend (h : Twins s u) (b : Byte) : Twins (s.hostSend b) (u.hostSend b) := by
  obtain ⟨hd, T, rfl⟩ := h
  exact ⟨hd, T, rfl⟩

/-- Twins read the same byte from the host, or both wait for one. -/
theorem Twins.hostTake (h : Twins s u) :
    s.hostTake = none ∧ u.hostTake = none ∨
      ∃ b s' u', s.hostTake = some (b, s') ∧ u.hostTake = some (b, u') ∧ Twins s' u' := by
  obtain ⟨hd, T, rfl⟩ := h
  cases hrx : s.host.rx with
  | nil => exact .inl (by simp [State.hostTake, hrx])
  | cons b rx =>
    refine .inr ⟨b, { s with host := { s.host with rx := rx, tx := 0xFF :: s.host.tx } }, _, ?_, ?_, hd, T, rfl⟩
    · simp [State.hostTake, hrx]
    · simp [State.hostTake, hrx]

/-! ## Operations, calls and instructions -/

theorem Twins.opStart (h : Twins s u) (o : Op) : Alike (opStart o s) (opStart o u) := by
  obtain ⟨hd, T, rfl⟩ := h
  have h : Twins s { s with target := T } := ⟨hd, T, rfl⟩
  have hrefusal : opRefusal { s with target := T } o = opRefusal s o := rfl
  have hbody : opBody { s with target := T } o = opBody s o := rfl
  simp only [Machine.opStart, hrefusal, hbody]
  split
  · exact .refused _
  · split
    · exact .next (h.push _)
    · exact .next (h.raise _)

theorem Twins.call (h : Twins s u) (o : Op) (src : List Byte) : Alike (s.call o src) (u.call o src) := by
  obtain ⟨hd, T, rfl⟩ := h
  have hrefusal : opRefusal { s with target := T } o = opRefusal s o := rfl
  simp only [State.call, hrefusal]
  split
  · exact .next ⟨hd, T, rfl⟩
  · split
    · exact .refused _
    · refine .ite (.refused _) (.ite (.refused _) ?_)
      apply Twins.opStart
      exact ⟨hd, _, rfl⟩

theorem Twins.hostCall (h : Twins s u) (i : Instr) (sends : Bool) (ts : List Task) :
    Alike (s.hostCall i sends ts) (u.hostCall i sends ts) := by
  obtain ⟨hd, T, rfl⟩ := h
  exact .ite (.next ⟨hd, T, rfl⟩) (.ite (.refused _) (.next ⟨hd, _, rfl⟩))

/-- The arms of `exec` are calls, host requests whose tasks depend on `cfg` and `active`, and bytes to the host. -/
theorem Twins.exec (h : Twins s u) (i : Instr) : Alike (exec i s) (exec i u) := by
  obtain ⟨hd, T, rfl⟩ := h
  have h : Twins s { s with target := T } := ⟨hd, T, rfl⟩
  cases i with
  | hostWriteAppFlash _ _ | hostWriteFuse | hostEraseChip | hostEnd => exact h.hostCall _ _ _
  | hostNop | hostRespOk | hostRespInvalidRequest | hostRespInternalError | hostRespUnknownError | hostHandshake =>
    exact .next (h.hostSend _)
  | _ => exact h.call _ _

/-! ## Tasks -/

theorem Twins.performCommand (h : Twins s u) (k : Command) : Twins (performCommand k s) (performCommand k u) := by
  obtain ⟨hd, T, rfl⟩ := h
  obtain ⟨-, -, -, hanswering, -⟩ := Platform.apply_keeps s.platform k
  exact ⟨hanswering.trans hd, _, rfl⟩

theorem Twins.performAwait (h : Twins s u) (w : Wait) : Twins (performAwait w s) (performAwait w u) := by
  obtain ⟨hd, T, rfl⟩ := h
  exact .ite ⟨by simp [hd], T, rfl⟩ ⟨by simp [hd], T, rfl⟩

theorem Twins.performRxCheck (h : Twins s u) (n : Nat) : Twins (performRxCheck n s) (performRxCheck n u) := by
  cases n with
  | zero => exact h.recvFails _
  | succ n =>
    obtain ⟨hd, T, rfl⟩ := h
    exact ⟨by simp [Machine.performRxCheck, hd], T, rfl⟩

theorem Twins.performRxErrorCheck (h : Twins s u) : Twins (performRxErrorCheck s) (performRxErrorCheck u) := by
  obtain ⟨hd, T, rfl⟩ := h
  have h : Twins s { s with target := T } := ⟨hd, T, rfl⟩
  have hq := h.withPlatform (s.platform.query_answering .rxError false)
  exact .ite (hq.recvFails _) (hq.push _)

/-- The one task that reads the target's replies: the frame is drawn, whatever is on the link. -/
theorem Twins.performRxRead (h : Twins s u) : Twins (performRxRead s) (performRxRead u) := by
  obtain ⟨hd, T, rfl⟩ := h
  have hframe := Platform.takeFrame_of_drawn hd T.replies.head? s.target.replies.head?
  exact ⟨by simp [Machine.performRxRead, hd], T.readReply, by simp only [Machine.performRxRead, hframe]⟩

theorem Twins.performStore (h : Twins s u) (n : Nat) : Alike (performStore n s) (performStore n u) := by
  have hsource : u.source = s.source := by obtain ⟨-, T, rfl⟩ := h; rfl
  cases n with
  | zero => exact .next h
  | succ n =>
    simp only [Machine.performStore, hsource]
    split
    · exact .refused _
    · obtain ⟨hd, T, rfl⟩ := h
      exact .next ⟨hd, T, rfl⟩
    · rcases h.hostTake with ⟨hs, hu⟩ | ⟨b, s', u', hs, hu, h'⟩
      · simp only [hs, hu]
        exact .next (h.push _)
      · simp only [hs, hu]
        obtain ⟨hd, T, rfl⟩ := h'
        exact .next ⟨hd, T, rfl⟩

theorem Twins.performCollect (h : Twins s u) (n : Nat) (got : List Byte) :
    Twins (performCollect n got s) (performCollect n got u) := by
  cases n with
  | zero => exact h.finish _
  | succ n => exact h.push _

theorem Twins.performHostPayload (h : Twins s u) (n : Nat) (got : List Byte) :
    Twins (performHostPayload n got s) (performHostPayload n got u) := by
  cases n with
  | zero => exact h.push _
  | succ n =>
    rcases h.hostTake with ⟨hs, hu⟩ | ⟨b, s', u', hs, hu, h'⟩
    · simp only [Machine.performHostPayload, hs, hu]
      exact h.push _
    · simp only [Machine.performHostPayload, hs, hu]
      exact h'.push _

theorem Twins.wake (h : Twins s u) (n : Nat) : Alike (perform (.wake n) s) (perform (.wake n) u) := by
  cases n with
  | zero => exact .next h
  | succ n => exact .next (h.push _)

/-- Every task of twins ends alike: what it tests and what it pushes does not depend on the target. -/
theorem Twins.perform (h : Twins s u) (k : Task) : Alike (perform k s) (perform k u) := by
  obtain ⟨hd, T, rfl⟩ := h
  have h : Twins s { s with target := T } := ⟨hd, T, rfl⟩
  cases k with
  | command k => exact .next (h.performCommand k)
  | await w => exact .next (h.performAwait w)
  | rxCheck n => exact .next (h.performRxCheck n)
  | rxErrorCheck => exact .next h.performRxErrorCheck
  | rxRead => exact .next h.performRxRead
  | setDir d => exact .next ⟨hd, T, rfl⟩
  | enter x => exact .next (h.enter x)
  | finish r => exact .next (h.finish r)
  | run o => exact h.opStart o
  | wake n => exact h.wake n
  | wrapReply | testReset => exact .next (h.finish _)
  | collect n got => exact .next (h.performCollect n got)
  | collected n got => exact .next (h.push _)
  | store n => exact h.performStore n
  | pollNvmen n | pollBusy n => exact .next (.ite (h.raise _) (h.push _))
  | nvmenVerdict n => exact .next (.ite (h.push _) (h.push _))
  | busyVerdict n => exact .next (.ite (h.push _) (h.finish _))
  | resetLoop n => exact .next (.ite h (h.push _))
  | resetVerdict n => exact .next (.ite (h.push _) h)
  | ignoreErrors => exact .next h
  | chunks a n pre sec => exact .next (.ite (h.finish _) (h.push _))
  | hostPayload n got => exact .next (h.performHostPayload n got)
  | lazyBegin => exact .next (.ite h (h.push _))
  | respond => exact .next (h.hostSend _)

/-! ## The next call and the step -/

theorem Twins.takeRequest (h : Twins s u) (r : Request) : FetchedAlike (takeRequest r s) (takeRequest r u) := by
  obtain ⟨hd, T, rfl⟩ := h
  have h : Twins s { s with target := T } := ⟨hd, T, rfl⟩
  cases r with
  | call o src => exact .call o src h
  | startup => exact .startup (h.performCommand _)
  | coded ch bytes =>
    simp only [Machine.takeRequest]
    split
    · exact .instr _ h
    · exact .refused _

theorem Twins.takeHostRequest (h : Twins s u) : FetchedAlike (takeHostRequest s) (takeHostRequest u) := by
  obtain ⟨hd, T, rfl⟩ := h
  simp only [Machine.takeHostRequest]
  split
  · exact .idle
  · split
    · exact .instr _ ⟨hd, T, rfl⟩
    · exact .read ⟨hd, T, rfl⟩
    · exact .refused _

theorem Twins.fetch (h : Twins s u) : FetchedAlike (fetch s) (fetch u) := by
  have hcalls : u.calls = s.calls := by obtain ⟨-, T, rfl⟩ := h; rfl
  simp only [Machine.fetch, hcalls]
  split
  · exact (h.withCalls _).takeRequest _
  · exact h.takeHostRequest

theorem Twins.step (h : Twins s u) : Alike (step s) (step u) := by
  have hcontrol : u.control = s.control := by obtain ⟨-, T, rfl⟩ := h; rfl
  cases hc : s.control with
  | cons k ts =>
    rw [step_task hc, step_task (hcontrol.trans hc)]
    exact (h.withControl ts).perform k
  | nil =>
    have hfetch := h.fetch
    simp only [Machine.step, hcontrol, hc]
    generalize Machine.fetch s = f, Machine.fetch u = g at hfetch ⊢
    cases hfetch with
    | idle => exact .next h
    | startup h' => exact .next h'
    | call o src h' => exact h'.call o src
    | instr i h' => exact h'.exec i
    | read h' => exact .next h'
    | refused r => exact .refused r

end SharedOperations

/-! ## The obligation -/

/-- Settles O60: the state with the other target is a twin, and a step of twins has alike outcomes. -/
theorem theCoreSeesTheTargetOnlyThroughAnswers : Obligations.TheCoreSeesTheTargetOnlyThroughAnswers := by
  intro s T hdrawn
  have hstep : Alike (step s) (step { s with target := T }) := Twins.step ⟨hdrawn, T, rfl⟩
  constructor
  · intro t ht
    obtain ⟨u, hu, hdrawn', T', rfl⟩ := (ht ▸ hstep).of_next
    exact ⟨hdrawn', T', hu⟩
  · intro r hr
    exact (hr ▸ hstep).of_refused

end Sys2Proof.Machine
end

section
/-!
10_state R47, 30_encoding R117, 47_host_boundary R341: what a step of the idle machine takes, request by request.
Settles O4, O5 and O9.
-/

namespace Sys2Proof.Machine

section Requests
variable {s : State}

theorem step_coded {ch : Channel} {bs rest : List Byte} {rs : List Request} {i : Instr} (hc : s.control = [])
    (hq : s.calls = .coded ch bs :: rs) (hd : decodeOn s.cfg ch bs = .ok i rest) :
    step s = exec i { s with calls := rs } := by
  simp [step, hc, fetch, hq, takeRequest, hd]

theorem step_coded_reject {ch : Channel} {bs : List Byte} {rs : List Request} {r : Reject} (hc : s.control = [])
    (hq : s.calls = .coded ch bs :: rs) (hd : decodeOn s.cfg ch bs = .reject r) :
    step s = .refused (.undecoded ch r) := by
  simp [step, hc, fetch, hq, takeRequest, hd]

/-- What the dispatcher sends on reading the next request byte (47 R341; entry 14). -/
def State.acks (s : State) : List Byte := if s.host.pending = [] ∧ s.cfg.hostAckOpcode = false then [] else [0xFF]

variable {b : Byte} {rx : List Byte} (hc : s.control = []) (hq : s.calls = []) (hrx : s.host.rx = b :: rx)
include hc hq hrx

theorem step_request_complete {i : Instr} {rest : List Byte}
    (hd : decodeHostRequest (s.host.pending ++ [b]) = .ok i rest) :
    step s = exec i { s with host := { rx := rx, tx := s.acks ++ s.host.tx, pending := [] } } := by
  simp [step, hc, fetch, hq, takeHostRequest, hrx, hd, State.acks]

theorem step_request_partial (hd : decodeHostRequest (s.host.pending ++ [b]) = .reject .needMore) :
    step s = .next { s with host := { rx := rx, tx := s.acks ++ s.host.tx, pending := s.host.pending ++ [b] } } := by
  simp [step, hc, fetch, hq, takeHostRequest, hrx, hd, State.acks]

theorem step_request_reject {u : Byte} (hd : decodeHostRequest (s.host.pending ++ [b]) = .reject (.unknownOpcode u)) :
    step s = .refused (.undecoded .hostRequest (.unknownOpcode u)) := by
  simp [step, hc, fetch, hq, takeHostRequest, hrx, hd]

end Requests

/-- Settles O4, request by request. -/
theorem stepRunsTheDecodedInstruction : Obligations.StepRunsTheDecodedInstruction := by
  intro s i rest hc
  exact ⟨fun _ _ _ hq hd => step_coded hc hq hd, fun _ _ hq hrx =>
    ⟨step_request_complete hc hq hrx, step_request_partial hc hq hrx⟩⟩

/-- The channel a word is read on accepts its bytes. -/
theorem firstAccepted_decodes {c : Config} {bs : List Byte} {chs : List Channel} {ch : Channel} {i : Instr}
    (h : firstAccepted c bs chs = some (ch, i)) : ∃ rest, decodeOn c ch bs = .ok i rest := by
  induction chs with
  | nil => cases h
  | cons ch' chs ih =>
    unfold firstAccepted at h
    split at h
    · next rest hd =>
      cases h
      exact ⟨rest, hd⟩
    · exact ih h

/-- Settles O5: the word is placed on the channel that accepts its bytes, first in the queue. -/
theorem placedWordIsRunNext : Obligations.PlacedWordIsRunNext := by
  intro s nbits w i h
  obtain ⟨⟨ch, j⟩, hf, rfl⟩ := Option.map_eq_some_iff.mp h
  obtain ⟨rest, hd⟩ := firstAccepted_decodes hf
  have hch : tableChannel s.cfg (tableBytes nbits w) = ch := by simp [tableChannel, hf]
  exact step_coded (s := s.withFetchWord nbits w) (rest := rest) rfl rfl (hch ▸ hd)

/-- Settles O9. -/
theorem driverStartState : Obligations.DriverStartState := by
  refine ⟨rfl, rfl, rfl, rfl, ?_⟩
  simp [State.memoriesWf, State.reset, Target.reset, Memory.empty_wf]

end Sys2Proof.Machine
end

section
/-!
SUPPORT. The row of the link table of 10_state R31, and which tasks write it: the five Link operations alone have such
tasks in their pseudocode (R32).
-/

namespace Sys2Proof.Machine

/-! ## The row of the link table -/

/-- What 10_state R31 tabulates: the direction, the UART's enables and the pins. -/
structure LinkRow where
  dir : Option Direction
  txOn : Bool
  rxOn : Bool
  clockOn : Bool
  clockPin : PinState
  dataOutPin : PinState
  dataInPin : PinState

def Platform.row (p : Platform) (d : Option Direction) : LinkRow :=
  ⟨d, p.txOn, p.rxOn, p.clockOn, p.clockPin, p.dataOutPin, p.dataInPin⟩

def State.linkRow (s : State) : LinkRow := s.platform.row s.dir

/-- The row after a command: what the command does to a Platform of that row. -/
def LinkRow.apply (r : LinkRow) (k : Command) : LinkRow :=
  ({ Platform.reset with
      txOn := r.txOn, rxOn := r.rxOn, clockOn := r.clockOn
      clockPin := r.clockPin, dataOutPin := r.dataOutPin, dataInPin := r.dataInPin }.apply k).row r.dir

@[simp] theorem State.linkRow_dir (s : State) : s.linkRow.dir = s.dir := rfl

theorem Platform.row_apply (p : Platform) (d : Option Direction) (k : Command) :
    (p.apply k).row d = (p.row d).apply k := by
  cases k with
  | configurePinOutput pin l | configurePinInput pin => cases pin <;> rfl
  | writePin pin l =>
    cases pin <;> simp only [Platform.apply, Platform.pin, LinkRow.apply, Platform.row] <;> split <;> rfl
  | _ => rfl

theorem performCommand_linkRow (k : Command) (s : State) : (performCommand k s).linkRow = s.linkRow.apply k :=
  s.platform.row_apply s.dir k

/-- A query uses up an answer and records its event. -/
theorem Platform.query_row (p : Platform) (e : Bool → Event) (a : Bool) (d : Option Direction) :
    (p.query e a).2.row d = p.row d := by
  obtain ⟨_, _, hp⟩ := p.takeBit_keeps a
  simp [Platform.query, hp, Platform.row]

theorem Platform.afterWait_row (p : Platform) (w : Wait) (d : Option Direction) : (p.afterWait w).row d = p.row d := by
  cases w <;> rfl

@[simp] theorem Platform.afterWait_trace (p : Platform) (w : Wait) : (p.afterWait w).trace = p.trace := by
  cases w <;> rfl

/-- A command that is no link task leaves TX and RX as they are. -/
theorem Platform.apply_keeps_enables (p : Platform) {k : Command} (h : touchesLink (.command k) = false) :
    (p.apply k).txOn = p.txOn ∧ (p.apply k).rxOn = p.rxOn := by
  cases k with
  | enableTx | disableTx | enableRx | disableRx => cases h
  | configurePinOutput pin l | configurePinInput pin => cases pin <;> exact ⟨rfl, rfl⟩
  | writePin pin l =>
    simp only [Platform.apply]
    split
    · exact ⟨rfl, rfl⟩
    · exact ⟨p.setPin_txOn _ _, p.setPin_rxOn _ _⟩
  | _ => exact ⟨rfl, rfl⟩

/-! ## Tasks and operations above the link -/

/-- The operations that bring the link up or take it down. -/
def opensOrCloses : Op → Bool
  | .linkInit | .linkBegin | .linkEnd | .sessionBegin | .sessionEnd => true
  | _ => false

/-- The task does not write the row itself, and the operations it starts are among `ok`. -/
def Task.aboveLink (ok : Op → Bool) : Task → Bool
  | .command _ | .setDir _ => false
  | .run o => ok o
  | .lazyBegin | .hostPayload _ _ => ok .sessionBegin
  | _ => true

/-- `ok` holds every operation that leaves the link up. -/
def Admits (ok : Op → Bool) : Prop := ∀ o, ¬opensOrCloses o → ok o

theorem admits_all : Admits fun _ => true := fun _ _ => rfl

theorem touchesLink_of_aboveLink {ok : Op → Bool} {k : Task} (h : k.aboveLink ok = true) : touchesLink k = false := by
  cases k with
  | command _ | setDir _ => cases h
  | _ => rfl

section Bodies
variable {ok : Op → Bool} (hok : Admits ok)
include hok

theorem Admits.holds {o : Op} (h : ¬opensOrCloses o) : ok o = true := hok o h

theorem sends_aboveLink (bs : List Byte) : ∀ k ∈ sends bs, k.aboveLink ok = true := by
  simp only [sends, List.mem_map]
  rintro _ ⟨b, -, rfl⟩
  exact hok.holds (by simp [opensOrCloses])

theorem triggeredBody_aboveLink (c : NvmCommand) (a : Word) (d : Byte) :
    ∀ k ∈ triggeredBody c a d, k.aboveLink ok = true := by
  simp [triggeredBody, Task.aboveLink, hok.holds, opensOrCloses]

theorem bulkLoadBody_aboveLink (c : Config) (m : PtrMode) (len : Word16) :
    ∀ k ∈ bulkLoadBody c m len, k.aboveLink ok = true := by
  unfold bulkLoadBody
  split
  · simp [Task.aboveLink]
  · split <;> simp [Task.aboveLink, hok.holds, opensOrCloses]

theorem bulkStoreBody_aboveLink (c : Config) (m : PtrMode) (len : Nat) :
    ∀ k ∈ bulkStoreBody c m len, k.aboveLink ok = true := by
  unfold bulkStoreBody
  split
  · simp [Task.aboveLink]
  · split <;> simp [Task.aboveLink, hok.holds, opensOrCloses]

/-- Only the five Link operations have link tasks in their pseudocode (10_state R32). -/
theorem opBody_aboveLink {s : State} {o : Op} {ts : List Task} (hl : isLinkTransition o = false)
    (hbegin : o = .sessionBegin → ok .linkBegin = true) (hend : o = .sessionEnd → ok .linkEnd = true)
    (h : opBody s o = .tasks ts) : ∀ k ∈ ts, k.aboveLink ok = true := by
  cases o with
  | linkInit | linkBegin | linkEnd | send _ | recv => cases hl
  | send2 v | send4 v | sendKey | keyWith k => cases h; exact sends_aboveLink hok _
  | bulkLoad m len => cases h; exact bulkLoadBody_aboveLink hok _ m len
  | bulkStore m len => cases h; exact bulkStoreBody_aboveLink hok _ m len
  | erasePage off sec => cases h; exact triggeredBody_aboveLink hok _ _ _
  | writePageFromBuffer off pre sec => cases h; exact triggeredBody_aboveLink hok _ _ _
  | fuseWrite a d => cases h; exact triggeredBody_aboveLink hok _ _ _
  | eraseSection off sec =>
    cases sec with
    | unspecified => cases h
    | app | boot => cases h; exact triggeredBody_aboveLink hok _ _ _
  | writeBuffer off len sec =>
    simp only [opBody] at h
    split at h
    · cases h
    · cases h; simp [Task.aboveLink, hok.holds, opensOrCloses]
  | readMemory a len =>
    cases h
    split <;> simp [Task.aboveLink, hok.holds, opensOrCloses]
  | sessionBegin => cases h; simp [Task.aboveLink, hok.holds, opensOrCloses, hbegin rfl]
  | sessionEnd => cases h; simp [Task.aboveLink, hok.holds, opensOrCloses, hend rfl]
  | _ => cases h; simp [Task.aboveLink, storeNvm, hok.holds, opensOrCloses]

end Bodies

end Sys2Proof.Machine
end

section
/-!
10_state R34, R36, R38, R41 and R47: what every step keeps of the configuration, the trace, the session state and the
waiting calls. A task makes a command, writes `dir`, starts an operation or does none of these; `perform_continues` says
once what the last kind can do, and `step_progress` what every step can. Settles O6, O7 and O10.
-/

namespace Sys2Proof.Machine

/-! ## One step's progress -/

/-- The event reads a data pin (10_state R41). -/
def Event.readsDataPin : Event → Bool
  | .readPin .dataOut _ | .readPin .dataIn _ => true
  | _ => false

theorem Event.ne_readPin {e : Event} (h : e.readsDataPin = false) (a : Bool) :
    e ≠ .readPin .dataOut a ∧ e ≠ .readPin .dataIn a := by
  constructor <;> (rintro rfl; cases h)

theorem Wait.event_readsDataPin (w : Wait) (b : Bool) : (w.event b).readsDataPin = false := by
  cases w <;> rfl

/-- What a step does to the configuration, the trace and the session state, whatever it does. -/
structure Progress (s t : State) : Prop where
  cfg : t.cfg = s.cfg
  trace : t.platform.trace = s.platform.trace ∨ ∃ e, t.platform.trace = e :: s.platform.trace ∧ e.readsDataPin = false
  session : t.sess = s.sess ∧ t.active = s.active ∨ t.active = decide (t.sess = .programming)

/-- What a task does that neither writes the row of the link table nor starts an operation. -/
structure Continues (ok : Op → Bool) (s t : State) : Prop extends Progress s t where
  calls : t.calls = s.calls
  linkRow : t.linkRow = s.linkRow
  control :
    t.control = unwind s.control ∨ ∃ new, t.control = new ++ s.control ∧ ∀ k ∈ new, k.aboveLink ok = true

theorem Progress.refl (s : State) : Progress s s := ⟨rfl, .inl rfl, .inl ⟨rfl, rfl⟩⟩

/-- It says nothing of the tasks left, the waiting calls and the host link. -/
theorem Progress.of_taken {s t : State} {ts : List Task} {calls : List Request} {host : HostLink}
    (h : Progress { s with control := ts, calls := calls, host := host } t) : Progress s t :=
  ⟨h.cfg, h.trace, h.session⟩

section Tasks
variable {ok : Op → Bool} {s t : State}

theorem Continues.refl : Continues ok s s := ⟨Progress.refl s, rfl, rfl, .inr ⟨[], rfl, by simp⟩⟩

theorem Continues.finish (r : Return) : Continues ok s (s.finish r) :=
  ⟨⟨rfl, .inl rfl, .inl ⟨rfl, rfl⟩⟩, rfl, rfl, .inr ⟨[], rfl, by simp⟩⟩

theorem Continues.push (h : Continues ok s t) (hc : t.control = s.control) {new : List Task}
    (hn : ∀ k ∈ new, k.aboveLink ok = true) : Continues ok s (t.push new) :=
  ⟨⟨h.cfg, h.trace, h.session⟩, h.calls, h.linkRow, .inr ⟨new, by rw [State.push_control, hc], hn⟩⟩

theorem Continues.raise (h : Continues ok s t) (hc : t.control = s.control) (e : ErrorCode) :
    Continues ok s (t.raise e) :=
  ⟨⟨h.cfg, h.trace, h.session⟩, h.calls, h.linkRow, .inl (by rw [State.raise_control, hc])⟩

theorem Continues.recvFails (h : Continues ok s t) (hc : t.control = s.control) (e : ErrorCode) :
    Continues ok s (t.recvFails e) :=
  ⟨⟨h.cfg, h.trace, h.session⟩, h.calls, h.linkRow, .inl (by rw [State.recvFails_control, hc])⟩

/-- A query of the Platform. -/
theorem Continues.query {e : Bool → Event} (he : ∀ b, (e b).readsDataPin = false) (a : Bool) :
    Continues ok s { s with platform := (s.platform.query e a).2 } :=
  ⟨⟨rfl, .inr ⟨_, s.platform.query_trace e a, he _⟩, .inl ⟨rfl, rfl⟩⟩, rfl, s.platform.query_row e a s.dir,
    .inr ⟨[], rfl, by simp⟩⟩

theorem waitClockCycle_aboveLink : ∀ k ∈ waitClockCycle, k.aboveLink ok = true := by
  simp [waitClockCycle, Task.aboveLink]

theorem Continues.performAwait (w : Wait) : Continues ok s (performAwait w s) := by
  have hq : Continues ok s { s with platform := (s.platform.query w.event w.wanted).2 } :=
    .query w.event_readsDataPin w.wanted
  simp only [Machine.performAwait]
  split
  · refine ⟨⟨rfl, ?_, .inl ⟨rfl, rfl⟩⟩, rfl, ?_, hq.control⟩
    · simpa using hq.trace
    · exact (Platform.afterWait_row _ w s.dir).trans hq.linkRow
  · exact hq.push rfl (new := [.await w]) (by simp [Task.aboveLink])

theorem Continues.performRxCheck (n : Nat) : Continues ok s (performRxCheck n s) := by
  cases n with
  | zero => exact Continues.refl.recvFails rfl _
  | succ n =>
    refine (Continues.query (fun _ => rfl) true).push rfl ?_
    split
    · simp [Task.aboveLink]
    · exact List.forall_mem_append.2 ⟨waitClockCycle_aboveLink, by simp [Task.aboveLink]⟩

theorem Continues.performRxErrorCheck : Continues ok s (performRxErrorCheck s) := by
  have hq : Continues ok s { s with platform := (s.platform.query .rxError false).2 } :=
    .query (fun _ => rfl) false
  simp only [Machine.performRxErrorCheck]
  split
  · exact hq.recvFails rfl _
  · exact hq.push rfl (by simp [Task.aboveLink])

theorem Continues.performRxRead : Continues ok s (performRxRead s) := by
  obtain ⟨frames, drawn, hf⟩ := s.platform.takeFrame_keeps s.target.replies.head?
  refine ⟨⟨rfl, .inr ⟨.readByte (s.platform.takeFrame s.target.replies.head?).1, ?_, rfl⟩, .inl ⟨rfl, rfl⟩⟩, rfl, ?_,
    .inr ⟨[], rfl, by simp⟩⟩
  · simp [Machine.performRxRead, hf]
  · simp [Machine.performRxRead, hf, State.linkRow, Platform.row]

variable (hok : Admits ok)
include hok

theorem Continues.performStore {n : Nat} (h : performStore n s = .next t) : Continues ok s t := by
  have hnew : ∀ d k, ∀ j ∈ [Task.run (.send d), .store k], j.aboveLink ok = true := by
    simp [Task.aboveLink, hok.holds, opensOrCloses]
  have hpull : ∀ d src host,
      Continues ok s { s with source := src, host := host, platform := s.platform.record (.pull d) } := fun d _ _ =>
    ⟨⟨rfl, .inr ⟨.pull d, rfl, rfl⟩, .inl ⟨rfl, rfl⟩⟩, rfl, rfl, .inr ⟨[], rfl, by simp⟩⟩
  rcases performStore_next h with ⟨-, rfl⟩ | ⟨k, d, ds, -, -, rfl⟩ | ⟨k, -, -, -, rfl⟩ | ⟨k, d, rx, -, -, -, rfl⟩
  · exact .refl
  · exact (hpull d (.bytes ds) s.host).push rfl (hnew d k)
  · exact Continues.refl.push rfl (by simp [Task.aboveLink])
  · exact (hpull d s.source _).push rfl (hnew d k)

theorem Continues.performHostPayload {n : Nat} {got : List Byte} (hb : ok .sessionBegin = true) :
    Continues ok s (performHostPayload n got s) := by
  unfold Machine.performHostPayload
  split
  · exact Continues.refl.push rfl (by simp [Task.aboveLink, hb, hok.holds, opensOrCloses])
  · split
    · exact Continues.refl.push rfl (by simpa [Task.aboveLink] using hb)
    · next hn =>
      obtain ⟨rx, -, rfl⟩ := hostTake_some hn
      exact ⟨⟨rfl, .inl rfl, .inl ⟨rfl, rfl⟩⟩, rfl, rfl, .inr ⟨_, rfl, by simpa [Task.aboveLink] using hb⟩⟩

/-- Every task but those that write the link row or start an operation continues the running operation: it may leave
tasks that write no row themselves, or end the operation in an error. -/
theorem perform_continues {k : Task} (hk : k.aboveLink ok = true) (hr : ∀ o, k ≠ .run o)
    (h : perform k s = .next t) : Continues ok s t := by
  have hpush : ∀ {new : List Task}, (∀ j ∈ new, j.aboveLink ok = true) → Continues ok s (s.push new) :=
    fun hn => Continues.refl.push rfl hn
  cases k with
  | command _ | setDir _ => cases hk
  | run o => exact absurd rfl (hr o)
  | store n => exact .performStore hok h
  | await w => cases h; exact .performAwait w
  | rxCheck n => cases h; exact .performRxCheck n
  | rxErrorCheck => cases h; exact .performRxErrorCheck
  | rxRead => cases h; exact .performRxRead
  | enter x =>
    cases h
    exact ⟨⟨rfl, .inl rfl, .inr rfl⟩, rfl, rfl, .inr ⟨[], rfl, by simp⟩⟩
  | finish _ | wrapReply | testReset => cases h; exact .finish _
  | wake n =>
    cases h
    cases n with
    | zero => exact .refl
    | succ n => exact hpush (List.forall_mem_append.2 ⟨waitClockCycle_aboveLink, by simp [Task.aboveLink]⟩)
  | collect n got =>
    cases h
    cases n with
    | zero => exact .finish _
    | succ n => exact hpush (by simp [Task.aboveLink, hok.holds, opensOrCloses])
  | collected n got => cases h; exact hpush (by simp [Task.aboveLink])
  | pollNvmen n | pollBusy n =>
    cases h
    simp only [performPollNvmen, performPollBusy]
    split
    · exact Continues.refl.raise rfl _
    · exact hpush (by simp [Task.aboveLink, hok.holds, opensOrCloses])
  | nvmenVerdict n =>
    cases h
    unfold performNvmenVerdict
    split <;> exact hpush (by simp [Task.aboveLink, hok.holds, opensOrCloses])
  | busyVerdict n =>
    cases h
    unfold performBusyVerdict
    split
    · exact hpush (by simp [Task.aboveLink])
    · exact .finish _
  | resetLoop n =>
    cases h
    unfold performResetLoop
    split
    · exact .refl
    · exact hpush (by simp [Task.aboveLink, hok.holds, opensOrCloses])
  | resetVerdict n =>
    cases h
    unfold performResetVerdict
    split
    · exact hpush (by simp [Task.aboveLink])
    · exact .refl
  | ignoreErrors => cases h; exact .refl
  | chunks a n pre sec =>
    cases h
    unfold performChunks
    split
    · exact .finish _
    · exact hpush (by simp [Task.aboveLink, hok.holds, opensOrCloses])
  | hostPayload n got => cases h; exact .performHostPayload hok hk
  | lazyBegin =>
    cases h
    split
    · exact .refl
    · exact hpush (by simpa [Task.aboveLink] using hk)
  | respond =>
    cases h
    exact ⟨⟨rfl, .inl rfl, .inl ⟨rfl, rfl⟩⟩, rfl, rfl, .inr ⟨[], rfl, by simp⟩⟩

end Tasks

/-! ## Every step -/

theorem performCommand_progress (k : Command) (s : State) : Progress s (performCommand k s) := by
  obtain ⟨htrace, -⟩ := s.platform.apply_keeps k
  exact ⟨rfl, .inr ⟨.command k, congrArg _ htrace, rfl⟩, .inl ⟨rfl, rfl⟩⟩

section Steps
variable {s t : State}

theorem opStart_progress {o : Op} (h : opStart o s = .next t) : Progress s t := by
  obtain ⟨hplatform, -, -, hcfg, -, hsess, hactive, -⟩ := opStart_trace h
  exact ⟨hcfg, .inl (congrArg _ hplatform), .inl ⟨hsess, hactive⟩⟩

/-- The four kinds of task: a command, a write of `dir`, the start of an operation, and the rest. -/
theorem perform_cases {k : Task} (h : perform k s = .next t) :
    (∃ c, k = .command c ∧ t = performCommand c s) ∨ (∃ d, k = .setDir d ∧ t = { s with dir := some d }) ∨
      (∃ o, k = .run o ∧ opStart o s = .next t) ∨ Continues (fun _ => true) s t := by
  by_cases hr : ∃ o, k = .run o
  · obtain ⟨o, rfl⟩ := hr
    exact .inr (.inr (.inl ⟨o, rfl, h⟩))
  · cases k with
    | command c => cases h; exact .inl ⟨c, rfl, rfl⟩
    | setDir d => cases h; exact .inr (.inl ⟨d, rfl, rfl⟩)
    | run o => exact absurd ⟨o, rfl⟩ hr
    | _ => exact .inr (.inr (.inr (perform_continues admits_all rfl (fun o ho => hr ⟨o, ho⟩) h)))

/-- A task keeps the waiting calls (10_state R47), and makes progress. -/
theorem perform_progress {k : Task} (h : perform k s = .next t) : Progress s t ∧ t.calls = s.calls := by
  rcases perform_cases h with ⟨c, -, rfl⟩ | ⟨d, -, rfl⟩ | ⟨o, -, ho⟩ | hcont
  · exact ⟨performCommand_progress c s, rfl⟩
  · exact ⟨⟨rfl, .inl rfl, .inl ⟨rfl, rfl⟩⟩, rfl⟩
  · exact ⟨opStart_progress ho, (opStart_trace ho).2.2.1⟩
  · exact ⟨hcont.toProgress, hcont.calls⟩

theorem call_progress {o : Op} {src : List Byte} (h : s.call o src = .next t) : Progress s t := by
  rcases call_next h with ⟨-, rfl⟩ | ⟨-, -, -, h⟩
  · exact ⟨rfl, .inl rfl, .inl ⟨rfl, rfl⟩⟩
  · obtain ⟨hcfg, htrace, hsession⟩ := opStart_progress h
    exact ⟨hcfg, htrace, hsession⟩

theorem exec_progress {i : Instr} (h : exec i s = .next t) : Progress s t := by
  rcases exec_forms i with ⟨o, hi⟩ | ⟨b, ts, hi⟩ | ⟨b, hi⟩
  · exact call_progress (hi s ▸ h)
  · rcases hostCall_next (hi s ▸ h) with ⟨-, rfl⟩ | ⟨-, -, rfl⟩ <;> exact ⟨rfl, .inl rfl, .inl ⟨rfl, rfl⟩⟩
  · cases (hi s).symm.trans h
    exact ⟨rfl, .inl rfl, .inl ⟨rfl, rfl⟩⟩

/-! ## The idle machine -/

/-- What a step of the idle machine can do: with one request taken off the caller's queue or a byte read from the host
(`s'`), it stands, makes the startup glue's `initUart`, or takes a call or an instruction. -/
inductive Takes (s s' t : State) : Prop where
  | read (h : t = s')
  | startup (h : t = performCommand (.initUart s.cfg.baudConstant) s')
  | call (o : Op) (src : List Byte) (rs : List Request) (hq : s.calls = .call o src :: rs) (h : s'.call o src = .next t)
  | instr (i : Instr) (h : exec i s' = .next t)

theorem step_idle_next (hc : s.control = []) (h : step s = .next t) :
    ∃ calls host, Takes s { s with calls := calls, host := host } t := by
  cases hq : s.calls with
  | cons r rs =>
    refine ⟨rs, s.host, ?_⟩
    cases r with
    | call o src => exact .call o src rs hq (step_call hc hq ▸ h)
    | startup => exact .startup (Host.Outcome.next.inj (step_startup hc hq ▸ h)).symm
    | coded ch bs =>
      cases hd : decodeOn s.cfg ch bs with
      | ok i rest => exact .instr i (step_coded hc hq hd ▸ h)
      | reject r => cases (step_coded_reject hc hq hd).symm.trans h
  | nil =>
    cases hrx : s.host.rx with
    | nil => exact ⟨s.calls, s.host, .read (Host.Outcome.next.inj (step_idle hc hq hrx ▸ h)).symm⟩
    | cons b rx =>
      cases hd : decodeHostRequest (s.host.pending ++ [b]) with
      | ok i rest => exact ⟨s.calls, _, .instr i (step_request_complete hc hq hrx hd ▸ h)⟩
      | reject r =>
        cases r with
        | needMore => exact ⟨s.calls, _, .read (Host.Outcome.next.inj (step_request_partial hc hq hrx hd ▸ h)).symm⟩
        | unknownOpcode u => cases (step_request_reject hc hq hrx hd).symm.trans h

theorem step_progress (h : step s = .next t) : Progress s t := by
  cases hc : s.control with
  | cons k ts => exact (perform_progress (s := { s with control := ts }) (step_task hc ▸ h)).1.of_taken
  | nil =>
    obtain ⟨calls, host, htake⟩ := step_idle_next hc h
    cases htake with
    | read h => exact h ▸ ⟨rfl, .inl rfl, .inl ⟨rfl, rfl⟩⟩
    | startup h => exact h ▸ (performCommand_progress _ _).of_taken
    | call o src rs _ h => exact (call_progress h).of_taken
    | instr i h => exact (exec_progress h).of_taken

end Steps

/-! ## The obligations -/

/-- Settles O6. -/
theorem stepMakesAtMostOnePlatformCall : Obligations.StepMakesAtMostOnePlatformCall := by
  intro s t h
  obtain ⟨hcfg, htrace, -⟩ := step_progress h
  exact ⟨hcfg, htrace.imp_right fun ⟨e, he, hpin⟩ => ⟨e, he, e.ne_readPin hpin⟩⟩

/-- Settles O10: a step keeps `sess` and `active` or writes both. -/
theorem activeExactlyInProgramming : Obligations.ActiveExactlyInProgramming := by
  refine ⟨rfl, fun s t hs h => ?_⟩
  rcases (step_progress h).session with ⟨hsess, hactive⟩ | hwritten
  · rw [hactive, hsess, hs]
  · exact hwritten

theorem hostCall_waits {s : State} (hbusy : s.control ≠ []) (i : Instr) (sends : Bool) (ts : List Task) :
    s.hostCall i sends ts = .next { s with calls := .coded .hostRequest (encode i) :: s.calls } :=
  if_pos hbusy

/-- Settles O7. -/
theorem callsWaitWhileAnOperationRuns : Obligations.CallsWaitWhileAnOperationRuns := by
  intro s hbusy
  refine ⟨fun t h => ?_, fun o src => if_pos hbusy, fun a len i hi => ?_⟩
  · obtain ⟨k, ts, hc⟩ := List.exists_cons_of_ne_nil hbusy
    exact (perform_progress (s := { s with control := ts }) (step_task hc ▸ h)).2
  · simp only [List.mem_cons, List.not_mem_nil, or_false] at hi
    rcases hi with rfl | rfl | rfl | rfl <;> exact hostCall_waits hbusy _ _ _

end Sys2Proof.Machine
end

section
/-!
10_state R32: `dir` and the TX and RX enables are written by link tasks alone, and link tasks come from the five Link
operations alone. Settles O12.
-/

namespace Sys2Proof.Machine

theorem unwind_suffix (ts : List Task) : unwind ts <:+ ts := by
  induction ts with
  | nil => exact List.suffix_rfl
  | cons k ts ih =>
    unfold unwind
    split
    · exact List.suffix_rfl
    · exact ih.trans (List.suffix_cons k ts)

section LinkTasks
variable {s t : State}

theorem opStart_linkTasks {o : Op} (h : opStart o s = .next t) {j : Task} (hj : j ∈ t.control)
    (hlink : touchesLink j = true) : j ∈ s.control ∨ isLinkTransition o = true := by
  obtain ⟨-, ⟨ts, hbody, rfl⟩ | ⟨e, -, rfl⟩⟩ := opStart_next h
  · rcases List.mem_append.mp hj with hnew | hold
    · by_contra hno
      have hl : isLinkTransition o = false := by simpa using mt Or.inr hno
      have habove := opBody_aboveLink admits_all hl (fun _ => rfl) (fun _ => rfl) hbody j hnew
      exact absurd hlink (by simp [touchesLink_of_aboveLink habove])
    · exact .inl hold
  · exact .inl ((unwind_suffix _).subset hj)

/-- A task that is no link task leaves `dir` and the enables, and only the start of a Link operation brings link tasks
in. -/
theorem perform_linkTasks {k : Task} (h : perform k s = .next t) :
    (touchesLink k = false →
      t.dir = s.dir ∧ t.platform.txOn = s.platform.txOn ∧ t.platform.rxOn = s.platform.rxOn) ∧
    ∀ j ∈ t.control, touchesLink j = true → j ∈ s.control ∨ ∃ o, isLinkTransition o = true ∧ k = .run o := by
  rcases perform_cases h with ⟨c, rfl, rfl⟩ | ⟨d, rfl, rfl⟩ | ⟨o, rfl, ho⟩ | hcont
  · exact ⟨fun hc => ⟨rfl, s.platform.apply_keeps_enables hc⟩, fun j hj _ => .inl hj⟩
  · exact ⟨nofun, fun j hj _ => .inl hj⟩
  · obtain ⟨hplatform, -, -, -, hdir, -⟩ := opStart_trace ho
    exact ⟨fun _ => ⟨hdir, by rw [hplatform], by rw [hplatform]⟩, fun j hj hlink =>
      (opStart_linkTasks ho hj hlink).imp_right fun hl => ⟨o, hl, rfl⟩⟩
  · have hrow := hcont.linkRow
    simp only [State.linkRow, Platform.row, LinkRow.mk.injEq] at hrow
    obtain ⟨hdir, htx, hrx, -⟩ := hrow
    refine ⟨fun _ => ⟨hdir, htx, hrx⟩, fun j hj hlink => .inl ?_⟩
    rcases hcont.control with hunwound | ⟨new, hnew, habove⟩
    · exact (unwind_suffix _).subset (hunwound ▸ hj)
    · rcases List.mem_append.mp (hnew ▸ hj) with hj | hj
      · exact absurd hlink (by simp [touchesLink_of_aboveLink (habove j hj)])
      · exact hj

/-- The forms of a meaning: no instruction is a Link operation, and the dispatcher has no link tasks. -/
theorem exec_forms_aboveLink (i : Instr) :
    (∃ o, isLinkTransition o = false ∧ ∀ s, exec i s = s.call o []) ∨
      (∃ (b : State → Bool) (ts : State → List Task), (∀ s, ∀ k ∈ ts s, touchesLink k = false) ∧
        ∀ s, exec i s = s.hostCall i (b s) (ts s)) ∨
      ∃ b, ∀ s, exec i s = .next (s.hostSend b) := by
  cases i with
  | hostWriteAppFlash _ _ | hostWriteFuse | hostEraseChip | hostEnd =>
    exact .inr (.inl ⟨_, _, fun _ => by simp [touchesLink], fun _ => rfl⟩)
  | hostNop | hostRespOk | hostRespInvalidRequest | hostRespInternalError | hostRespUnknownError | hostHandshake =>
    exact .inr (.inr ⟨_, fun _ => rfl⟩)
  | _ => exact .inl ⟨_, rfl, fun _ => rfl⟩

theorem call_linkTasks {o : Op} {src : List Byte} (h : s.call o src = .next t) (hc : s.control = []) :
    t.dir = s.dir ∧ t.platform = s.platform ∧ ∀ j ∈ t.control, touchesLink j = true → isLinkTransition o = true := by
  rcases call_next h with ⟨hbusy, -⟩ | ⟨-, -, -, hstart⟩
  · exact absurd hc hbusy
  · obtain ⟨hplatform, -, -, -, hdir, -⟩ := opStart_trace hstart
    refine ⟨hdir, hplatform, fun j hj hlink => (opStart_linkTasks hstart hj hlink).resolve_left ?_⟩
    simp [hc]

theorem exec_linkTasks {i : Instr} (h : exec i s = .next t) (hc : s.control = []) :
    t.dir = s.dir ∧ t.platform = s.platform ∧ ∀ j ∈ t.control, touchesLink j = false := by
  rcases exec_forms_aboveLink i with ⟨o, hl, hi⟩ | ⟨b, ts, hts, hi⟩ | ⟨b, hi⟩
  · obtain ⟨hdir, hplatform, hlink⟩ := call_linkTasks (hi s ▸ h) hc
    exact ⟨hdir, hplatform, fun j hj => by simpa [hl] using hlink j hj⟩
  · rcases hostCall_next (hi s ▸ h) with ⟨hbusy, -⟩ | ⟨-, -, rfl⟩
    · exact absurd hc hbusy
    · exact ⟨rfl, rfl, hts s⟩
  · cases (hi s).symm.trans h
    exact ⟨rfl, rfl, by simp [hc]⟩

end LinkTasks

/-- Settles O12: of a task when an operation runs, of what the idle machine takes otherwise. -/
theorem onlyLinkOperationsTouchTheLink : Obligations.OnlyLinkOperationsTouchTheLink := by
  intro s t h
  cases hc : s.control with
  | cons k ts =>
    obtain ⟨hkeeps, hbrings⟩ := perform_linkTasks (s := { s with control := ts }) (step_task hc ▸ h)
    refine ⟨fun hno => hkeeps (hno k ts rfl), fun j hj hlink => ?_⟩
    rcases hbrings j hj hlink with hold | ⟨o, ho, rfl⟩
    · exact .inl (List.mem_cons_of_mem _ hold)
    · exact .inr (.inl ⟨o, ts, ho, rfl⟩)
  | nil =>
    obtain ⟨calls, host, htake⟩ := step_idle_next hc h
    cases htake with
    | read h => cases h; exact ⟨fun _ => ⟨rfl, rfl, rfl⟩, by simp [hc]⟩
    | startup h => cases h; exact ⟨fun _ => ⟨rfl, rfl, rfl⟩, by simp [hc]⟩
    | call o src rs hq h =>
      obtain ⟨hdir, hplatform, hlink⟩ := call_linkTasks h hc
      exact ⟨fun _ => ⟨hdir, congrArg _ hplatform, congrArg _ hplatform⟩, fun j hj hj' =>
        .inr (.inr ⟨o, src, rs, hlink j hj hj', rfl, hq⟩)⟩
    | instr i h =>
      obtain ⟨hdir, hplatform, hlink⟩ := exec_linkTasks h hc
      exact ⟨fun _ => ⟨hdir, congrArg _ hplatform, congrArg _ hplatform⟩, fun j hj hj' =>
        absurd hj' (by simp [hlink j hj])⟩

end Sys2Proof.Machine
end

section
/-!
10_state R31, 40_link R152, 70_reset_and_hazards R404: outside a transition the UART and the pins stand as `dir` says.
A property of the row of the link table that the five Link operations keep is kept by every run (`LinkInvariant`,
`LinkInvariant.passes`): while a transition is under way the property is claimed of the row after it (`Settles`).
Settles O23.
-/

namespace Sys2Proof.Machine

/-! ## Transitions under way -/

/-- What a task does to the row by itself. -/
def LinkRow.after (r : LinkRow) : Task → LinkRow
  | .command c => r.apply c
  | .setDir d => { r with dir := some d }
  | _ => r

/-- The tasks that transitions of the link are made of. -/
def Task.isLinkPoint : Task → Bool
  | .command _ | .setDir _ | .await _ => true
  | _ => false

/-- When the link points at the front of the tasks are done, `P` holds of the row; the tasks behind them write no row
themselves and start operations of `ok` alone. -/
def Settles (P : LinkRow → Prop) (ok : Op → Bool) : List Task → LinkRow → Prop
  | [], r => P r
  | k :: ts, r => if k.isLinkPoint then Settles P ok ts (r.after k) else P r ∧ ∀ j ∈ k :: ts, j.aboveLink ok = true

section Settling
variable {P : LinkRow → Prop} {ok : Op → Bool} {r : LinkRow} {ts : List Task}

theorem Settles.of_aboveLink (hP : P r) (h : ∀ j ∈ ts, j.aboveLink ok = true) : Settles P ok ts r := by
  induction ts with
  | nil => exact hP
  | cons k ts ih =>
    unfold Settles
    split
    · cases k with
      | await w => exact ih fun j hj => h j (List.mem_cons_of_mem _ hj)
      | command _ | setDir _ => cases h _ List.mem_cons_self
      | _ => contradiction
    · exact ⟨hP, h⟩

theorem Settles.append {as : List Task} (hs : Settles P ok as r) (h : ∀ j ∈ ts, j.aboveLink ok = true) :
    Settles P ok (as ++ ts) r := by
  induction as generalizing r with
  | nil => exact .of_aboveLink hs h
  | cons k as ih =>
    unfold Settles at hs
    rw [List.cons_append, Settles]
    split
    · rw [if_pos ‹_›] at hs
      exact ih hs
    · rw [if_neg ‹_›] at hs
      refine ⟨hs.1, ?_⟩
      rw [← List.cons_append]
      exact List.forall_mem_append.mpr ⟨hs.2, h⟩

/-- An error drops tasks up to one of the front part, or the whole front part. -/
theorem unwind_append (as bs : List Task) :
    unwind (as ++ bs) = unwind bs ∨ ∃ as', as' <:+ as ∧ unwind (as ++ bs) = as' ++ bs := by
  induction as with
  | nil => exact .inl rfl
  | cons k as ih =>
    rw [List.cons_append, unwind]
    split
    · exact .inr ⟨k :: as, List.suffix_rfl, rfl⟩
    · exact ih.imp_right fun ⟨as', hsuffix, he⟩ => ⟨as', hsuffix.trans (List.suffix_cons k as), he⟩

end Settling

theorem performAwait_control (w : Wait) (s : State) :
    (performAwait w s).control = s.control ∨ (performAwait w s).control = .await w :: s.control := by
  simp only [performAwait]
  split
  · exact .inl rfl
  · exact .inr rfl

/-! ## What the Link operations do to the row -/

/-- The row after `toTransmitting` (40_link R142, R144). -/
def LinkRow.transmitting (r : LinkRow) : LinkRow :=
  if r.dir = some .transmitting then r
  else { r with dir := some .transmitting, txOn := true, rxOn := false, dataOutPin := .output .high }

/-- The row after `toReceiving` (40_link R143, R144). -/
def LinkRow.receiving (r : LinkRow) : LinkRow :=
  if r.dir = some .receiving then r
  else { r with dir := some .receiving, txOn := false, rxOn := true, dataOutPin := .input }

/-- The row after the end of a session and at first (40_link R140, R149). -/
def LinkRow.closed : LinkRow := ⟨some .idle, false, false, false, .input, .input, .input⟩

/-- The row after the begin of a session (40_link R145). -/
def LinkRow.opened (r : LinkRow) : LinkRow :=
  { r with
    dir := some .transmitting, txOn := true, clockOn := true
    clockPin := .output .high, dataOutPin := .output .high }

section Bodies
variable {P : LinkRow → Prop} {ok : Op → Bool} {r : LinkRow}

theorem settles_sendBody (b : Byte) (h : P r.transmitting) : Settles P ok (sendBody r.dir b) r := by
  unfold LinkRow.transmitting at h
  split at h
  · next hd => rw [sendBody_transmitting hd]; exact h
  · next hd => rw [sendBody_other hd]; exact h

theorem settles_recvBody (c : Config) (h : P r.receiving) : Settles P ok (recvBody c r.dir) r := by
  have habove : ∀ j ∈ [Task.rxCheck c.recvPollCycles], j.aboveLink ok = true := by simp [Task.aboveLink]
  refine Settles.append ?_ habove
  unfold LinkRow.receiving at h
  split at h
  · next hd => simpa [toReceiving, hd, Settles] using h
  · next hd =>
    rw [toReceiving, if_neg hd]
    split <;> exact h

theorem settles_linkInitBody (h : P .closed) : Settles P ok linkInitBody r := h

theorem settles_linkBeginBody (c : Config) (h : P r.opened) : Settles P ok (linkBeginBody c) r := by
  simpa [linkBeginBody, Settles, Task.isLinkPoint, Task.aboveLink, LinkRow.after, LinkRow.apply, Platform.apply,
    Platform.setPin, Platform.pin, Platform.row, LinkRow.opened] using h

theorem settles_linkEndBody (h : P .closed) : Settles P ok (linkEndBody r.dir) r := by
  unfold linkEndBody toReceiving
  split
  · exact h
  · split <;> exact h

end Bodies

/-! ## Which calls are taken -/

theorem dir_of_begin {s : State} {o : Op} (hr : opRefusal s o = none) (ho : o = .linkBegin ∨ o = .sessionBegin) :
    s.dir = some .idle := by
  by_contra hd
  by_cases hn : s.dir = none
  · rcases ho with rfl | rfl <;> simp [opRefusal, hn] at hr
  · rcases ho with rfl | rfl <;> simp [opRefusal, hn, hd] at hr

theorem dir_of_taken {s : State} {o : Op} (hr : opRefusal s o = none) (ho : o ≠ .linkInit) : s.dir ≠ none := by
  intro hd
  cases o <;> simp [opRefusal, hd] at hr ho

/-! ## Properties of the row that every run keeps -/

/-- A property of the row that the operations of `ok` keep: all that leave the link up, and each of the others with the
Link operation it calls. -/
structure LinkInvariant (P : LinkRow → Prop) (ok : Op → Bool) : Prop where
  admits : Admits ok
  begins : ok .sessionBegin = true → ok .linkBegin = true
  ends : ok .sessionEnd = true → ok .linkEnd = true
  transmitting : ∀ r, P r → P r.transmitting
  receiving : ∀ r, P r → P r.receiving
  opened : ok .linkBegin = true → ∀ r, r.dir = some .idle → P r → P r.opened
  closed : ok .linkInit = true ∨ ok .linkEnd = true → P .closed

section Runs
variable {P : LinkRow → Prop} {ok : Op → Bool}

theorem LinkInvariant.body (I : LinkInvariant P ok) {s : State} {o : Op} {ts : List Task} (ho : ok o = true)
    (hr : opRefusal s o = none) (hP : P s.linkRow) (h : opBody s o = .tasks ts) : Settles P ok ts s.linkRow := by
  cases hl : isLinkTransition o with
  | false =>
    exact .of_aboveLink hP (opBody_aboveLink I.admits hl (fun e => I.begins (e ▸ ho)) (fun e => I.ends (e ▸ ho)) h)
  | true =>
    cases o with
    | linkInit => cases h; exact settles_linkInitBody (I.closed (.inl ho))
    | linkBegin => cases h; exact settles_linkBeginBody _ (I.opened ho _ (dir_of_begin hr (.inl rfl)) hP)
    | linkEnd => cases h; exact settles_linkEndBody (r := s.linkRow) (I.closed (.inr ho))
    | send b => cases h; exact settles_sendBody b (I.transmitting _ hP)
    | recv => cases h; exact settles_recvBody _ (I.receiving _ hP)
    | _ => cases hl

/-- One task: the tasks of the front part settle on, or an error has dropped them. -/
theorem LinkInvariant.perform (I : LinkInvariant P ok) {s t : State} {k : Task} {as bs : List Task}
    (h : perform k s = .next t) (hc : s.control = as ++ bs) (hs : Settles P ok (k :: as) s.linkRow) :
    (∃ as', t.control = as' ++ bs ∧ Settles P ok as' t.linkRow) ∨ t.control = unwind bs ∧ P t.linkRow := by
  have hunwound : P t.linkRow → (∀ j ∈ as, j.aboveLink ok = true) → t.control = unwind (as ++ bs) →
      (∃ as', t.control = as' ++ bs ∧ Settles P ok as' t.linkRow) ∨ t.control = unwind bs ∧ P t.linkRow := by
    intro hP habove ht
    rcases unwind_append as bs with he | ⟨as', hsuffix, he⟩
    · exact .inr ⟨ht.trans he, hP⟩
    · exact .inl ⟨as', ht.trans he, .of_aboveLink hP fun j hj => habove j (hsuffix.subset hj)⟩
  unfold Settles at hs
  split at hs
  · cases k with
    | command c =>
      cases h
      exact .inl ⟨as, hc, by rw [performCommand_linkRow]; exact hs⟩
    | setDir d => cases h; exact .inl ⟨as, hc, hs⟩
    | await w =>
      cases h
      have hrow := (Continues.performAwait (ok := ok) (s := s) w).linkRow
      have hs' : Settles P ok as (performAwait w s).linkRow := by rw [hrow]; exact hs
      rcases performAwait_control w s with hw | hw
      · exact .inl ⟨as, hw.trans hc, hs'⟩
      · exact .inl ⟨.await w :: as, by rw [hw, hc, List.cons_append], hs'⟩
    | _ => contradiction
  · obtain ⟨hP, habove⟩ := hs
    have has : ∀ j ∈ as, j.aboveLink ok = true := fun j hj => habove j (List.mem_cons_of_mem _ hj)
    have hk : k.aboveLink ok = true := habove k List.mem_cons_self
    by_cases hrun : ∃ o, k = .run o
    · obtain ⟨o, rfl⟩ := hrun
      obtain ⟨hr, ⟨ts, hbody, rfl⟩ | ⟨e, -, rfl⟩⟩ := opStart_next h
      · exact .inl ⟨ts ++ as, by simp [hc], (I.body hk hr hP hbody).append has⟩
      · exact hunwound hP has (by rw [State.raise_control, hc])
    · have hcont := perform_continues I.admits hk (fun o ho => hrun ⟨o, ho⟩) h
      have hP' : P t.linkRow := hcont.linkRow ▸ hP
      rcases hcont.control with hcontrol | ⟨new, hcontrol, hnew⟩
      · exact hunwound hP' has (hcontrol.trans (by rw [hc]))
      · exact .inl ⟨new ++ as, by simp [hcontrol, hc], .of_aboveLink hP' (List.forall_mem_append.mpr ⟨hnew, has⟩)⟩

/-- A run that returns is done with the front part of its tasks in a state where `P` holds; an error may have dropped
tasks behind that part. -/
theorem LinkInvariant.passes (I : LinkInvariant P ok) {s u : State} {as bs : List Task} (h : Returns s u)
    (hc : s.control = as ++ bs) (hs : Settles P ok as s.linkRow) :
    ∃ m, P m.linkRow ∧ (m.control = bs ∨ m.control = unwind bs) ∧ Returns m u := by
  obtain ⟨hruns, hdone⟩ := h
  induction hruns generalizing as with
  | refl s =>
    obtain ⟨rfl, rfl⟩ := List.append_eq_nil_iff.mp (hc.symm.trans hdone)
    exact ⟨s, hs, .inl hc, .refl s, hdone⟩
  | @step s s' u busy hstep hrest ih =>
    cases as with
    | nil => exact ⟨s, hs, .inl hc, .step busy hstep hrest, hdone⟩
    | cons k as =>
      rw [step_task hc] at hstep
      rcases I.perform hstep rfl hs with ⟨as', hc', hs'⟩ | ⟨hc', hP⟩
      · exact ih hc' hs' hdone
      · exact ⟨s', hP, .inr hc', hrest, hdone⟩

/-- A run of settling tasks and nothing behind them returns with `P`. -/
theorem LinkInvariant.returns (I : LinkInvariant P ok) {s u : State} (h : Returns s u)
    (hs : Settles P ok s.control s.linkRow) : P u.linkRow := by
  obtain ⟨m, hP, hm, hret⟩ := I.passes h (List.append_nil _).symm hs
  obtain rfl := hret.done (hm.elim id id)
  exact hP

/-- Neither whether a call is refused nor its pseudocode depends on the last result, the source or the target. -/
theorem opBody_of_caller (s : State) (o : Op) (r : Return) (src : ByteSource) (T : Target) :
    opRefusal { s with ret := r, source := src, target := T } o = opRefusal s o ∧
      opBody { s with ret := r, source := src, target := T } o = opBody s o := by
  cases o <;> exact ⟨rfl, rfl⟩

/-- What a call of an idle machine leaves to run. -/
theorem call_started {s t : State} {o : Op} {src : List Byte} (h : s.call o src = .next t) (hc : s.control = []) :
    opRefusal s o = none ∧ t.linkRow = s.linkRow ∧
      (opBody s o = .tasks t.control ∨ (∃ e, opBody s o = .fails e) ∧ t.control = []) := by
  rcases call_next h with ⟨hbusy, -⟩ | ⟨-, -, -, hstart⟩
  · exact absurd hc hbusy
  · obtain ⟨hr, hstarted⟩ := opStart_next hstart
    obtain ⟨hrefusal, hbody⟩ :=
      opBody_of_caller s o .nothing (.bytes src) ((s.target.atCall s.cfg o).noteExit (s.strays o))
    rw [hbody] at hstarted
    refine ⟨hrefusal.symm.trans hr, ?_⟩
    rcases hstarted with ⟨ts, hb, rfl⟩ | ⟨e, hb, rfl⟩
    · exact ⟨rfl, .inl (by simpa [hc] using hb)⟩
    · exact ⟨rfl, .inr ⟨⟨e, hb⟩, by simp [hc, unwind]⟩⟩

/-- A call of an operation of `ok` keeps the property. -/
theorem LinkInvariant.call (I : LinkInvariant P ok) {s t u : State} {o : Op} {src : List Byte}
    (h : s.call o src = .next t) (hc : s.control = []) (ho : ok o = true) (hP : P s.linkRow) (hret : Returns t u) :
    P u.linkRow := by
  obtain ⟨hr, hrow, hbody | ⟨-, hdone⟩⟩ := call_started h hc
  · exact I.returns hret (hrow ▸ I.body ho hr hP hbody)
  · rw [hret.done hdone, hrow]
    exact hP

end Runs

/-! ## The obligation -/

/-- The TX, RX, DataOut and Idle columns of 10_state R31. -/
def LinkRow.Matches (r : LinkRow) : Prop :=
  match r.dir with
  | none => True
  | some .idle => r = .closed
  | some .transmitting => r.txOn = true ∧ r.rxOn = false ∧ r.dataOutPin = .output .high
  | some .receiving => r.txOn = false ∧ r.rxOn = true ∧ r.dataOutPin = .input

theorem linkMatches_iff (s : State) : LinkMatches s ↔ s.linkRow.Matches := by
  simp only [LinkMatches, LinkRow.Matches, State.linkRow_dir]
  split
  · next hd => simp [hd]
  · next hd =>
    simp only [Platform.Quiet, State.linkRow, Platform.row, LinkRow.closed, hd, LinkRow.mk.injEq, true_and]
    tauto
  · next hd => simp [hd, State.linkRow, Platform.row]
  · next hd => simp [hd, State.linkRow, Platform.row]

/-- The columns of 10_state R31 that hold throughout a session. -/
def LinkRow.Clocked (r : LinkRow) : Prop := r.clockOn = true ∧ r.clockPin = .output .high ∧ r.dataInPin = .input

theorem linkInvariant_matches : LinkInvariant LinkRow.Matches fun _ => true where
  admits := admits_all
  begins _ := rfl
  ends _ := rfl
  transmitting r h := by
    unfold LinkRow.transmitting
    split
    · exact h
    · exact ⟨rfl, rfl, rfl⟩
  receiving r h := by
    unfold LinkRow.receiving
    split
    · exact h
    · exact ⟨rfl, rfl, rfl⟩
  opened _ r hd h := by
    have hclosed : r = .closed := by simpa [LinkRow.Matches, hd] using h
    exact hclosed ▸ ⟨rfl, rfl, rfl⟩
  closed _ := rfl

/-- The operations that leave the link up. -/
def keepsLinkUp (o : Op) : Bool := !opensOrCloses o

theorem linkInvariant_clocked : LinkInvariant LinkRow.Clocked keepsLinkUp where
  admits o h := by simpa [keepsLinkUp] using h
  begins := nofun
  ends := nofun
  transmitting r h := by
    unfold LinkRow.transmitting
    split <;> exact h
  receiving r h := by
    unfold LinkRow.receiving
    split <;> exact h
  opened := nofun
  closed := nofun

/-- The operations that start no clock. -/
def startsNoClock : Op → Bool
  | .linkBegin | .sessionBegin => false
  | _ => true

theorem linkInvariant_unclocked : LinkInvariant (fun r => r.clockOn = false) startsNoClock where
  admits o h := by
    cases o with
    | linkBegin | sessionBegin => exact absurd rfl h
    | _ => rfl
  begins := nofun
  ends _ := rfl
  transmitting r h := by
    unfold LinkRow.transmitting
    split <;> exact h
  receiving r h := by
    unfold LinkRow.receiving
    split <;> exact h
  opened := nofun
  closed _ := rfl

section Ends
variable {s u : State} {ts : List Task}

theorem linkInit_passes (h : Returns s u) (hc : s.control = linkInitBody) : u.dir = some .idle := by
  have hdone := ((((((h.next hc rfl).next rfl rfl).next rfl rfl).next rfl rfl).next rfl rfl).next rfl rfl).next rfl rfl
  rw [hdone.done rfl]

theorem linkEnd_passes (h : Returns s u) (hc : s.control = linkEndBody s.dir ++ ts) :
    ∃ m, m.dir = some .idle ∧ m.control = ts ∧ Returns m u := by
  obtain ⟨s1, -, c1, h1⟩ := toReceiving_quietly h (hc.trans (List.append_assoc _ _ _))
  exact ⟨_, rfl, rfl,
    ((((((h1.next c1 rfl).next rfl rfl).next rfl rfl).next rfl rfl).next rfl rfl).next rfl rfl).next rfl rfl⟩

/-- `Session.end` ends in Idle, or, where an error left its wait and its loop, with the clock as it was (42_session
R216). -/
theorem sessionEnd_passes {n : Option Nat} (h : Returns s u)
    (hc : s.control = [.run .waitWhileBusy, .ignoreErrors, .resetLoop n] ++
      [.run .linkEnd, .enter .ended, .finish (.ok .unit)])
    (hclock : s.linkRow.Clocked) : u.dir = some .idle ∨ u.linkRow.Clocked := by
  obtain ⟨m, hm, hc | hc, hret⟩ := linkInvariant_clocked.passes h hc
    (.of_aboveLink hclock (by simp [Task.aboveLink, keepsLinkUp, opensOrCloses]))
  · obtain ⟨m1, hp, hret1⟩ := hret.head hc
    obtain ⟨-, ⟨ts, hbody, rfl⟩ | ⟨e, hbody, -⟩⟩ := opStart_next hp
    · cases hbody
      obtain ⟨m2, hidle, hc2, hret2⟩ := linkEnd_passes hret1 rfl
      have hdone := (hret2.next hc2 rfl).next rfl rfl
      exact .inl (hdone.done rfl ▸ hidle)
    · cases hbody
  · exact .inr (hret.done hc ▸ hm)

/-- `Session.begin` starts the clock before anything else, and nothing then stops it (42_session R215). -/
theorem sessionBegin_passes (h : Returns s u) (hc : s.control = .run .linkBegin :: ts)
    (hts : ∀ j ∈ ts, j.aboveLink keepsLinkUp = true) (hclosed : s.linkRow = .closed) : u.linkRow.Clocked := by
  obtain ⟨m, hp, hret⟩ := h.head hc
  obtain ⟨-, ⟨body, hbody, rfl⟩ | ⟨e, hbody, -⟩⟩ := opStart_next hp
  · cases hbody
    refine linkInvariant_clocked.returns hret ((settles_linkBeginBody _ ?_).append hts)
    exact ⟨rfl, rfl, congrArg LinkRow.dataInPin hclosed⟩
  · cases hbody

end Ends

/-- A call from a session, or of an operation that begins one, returns in Idle or with the clock on. -/
theorem returns_idle_or_clocked {s t u : State} {o : Op} {src : List Byte} (hcall : s.call o src = .next t)
    (hc : s.control = []) (hret : Returns t u) (hclosed : s.dir = some .idle → s.linkRow = .closed)
    (hclocked : s.dir = none ∨ s.dir = some .idle ∨ s.linkRow.Clocked)
    (hcase : s.dir ≠ some .idle ∨ o = .linkBegin ∨ o = .sessionBegin) : u.dir = some .idle ∨ u.linkRow.Clocked := by
  obtain ⟨hrefusal, hrow, hbody⟩ := call_started hcall hc
  have hup : o ≠ .linkInit → o ≠ .linkBegin → o ≠ .sessionBegin → s.linkRow.Clocked := by
    intro hinit hbegin hbegin'
    have hidle : s.dir ≠ some .idle := hcase.resolve_right (by simp [hbegin, hbegin'])
    exact (hclocked.resolve_left (dir_of_taken hrefusal hinit)).resolve_left hidle
  have hdir : t.dir = s.dir := congrArg LinkRow.dir hrow
  have hb : opensOrCloses o = true → opBody s o = .tasks t.control := by
    intro ho
    refine hbody.resolve_right fun ⟨⟨e, he⟩, _⟩ => ?_
    cases o with
    | linkInit | linkBegin | linkEnd | sessionBegin | sessionEnd => cases he
    | _ => cases ho
  cases o with
  | linkInit =>
    exact .inl (linkInit_passes hret (Body.tasks.inj (hb rfl)).symm)
  | linkBegin =>
    refine .inr (linkInvariant_clocked.returns hret ?_)
    rw [← Body.tasks.inj (hb rfl), hrow, hclosed (dir_of_begin hrefusal (.inl rfl))]
    exact settles_linkBeginBody _ ⟨rfl, rfl, rfl⟩
  | linkEnd =>
    have hcontrol : t.control = linkEndBody t.dir ++ [] := by rw [hdir, List.append_nil, ← Body.tasks.inj (hb rfl)]
    obtain ⟨m, hidle, hm, hret'⟩ := linkEnd_passes hret hcontrol
    exact .inl (hret'.done hm ▸ hidle)
  | sessionBegin =>
    refine .inr (sessionBegin_passes hret (Body.tasks.inj (hb rfl)).symm ?_ ?_)
    · simp [Task.aboveLink, keepsLinkUp, opensOrCloses]
    · rw [hrow, hclosed (dir_of_begin hrefusal (.inr rfl))]
  | sessionEnd =>
    exact sessionEnd_passes hret (Body.tasks.inj (hb rfl)).symm (hrow ▸ hup nofun nofun nofun)
  | _ => exact .inr (linkInvariant_clocked.call hcall hc rfl (hup nofun nofun nofun) hret)

/-- Settles O23: the columns that hold in every direction, those of the clock in a session, and the clock's outside. -/
theorem everyOperationLeavesTheLinkMatching : Obligations.EveryOperationLeavesTheLinkMatching := by
  intro s t u o src hc hmatches hcall hret
  rw [linkMatches_iff] at hmatches
  have hmatches' : LinkMatches u :=
    (linkMatches_iff u).mpr (linkInvariant_matches.call hcall hc rfl hmatches hret)
  have hclosed : s.dir = some .idle → s.linkRow = .closed := by
    intro hd
    simpa [LinkRow.Matches, hd] using hmatches
  refine ⟨hmatches', fun ⟨_, hrow⟩ hcase => ⟨hmatches', fun hup => ?_⟩, fun hidle hbegin hbegin' => ?_⟩
  · have hclocked : s.dir = none ∨ s.dir = some .idle ∨ s.linkRow.Clocked := by
      rcases hd : s.dir with _ | _ | _ | _
      · exact .inl rfl
      · exact .inr (.inl rfl)
      · exact .inr (.inr (hrow (.inl hd)))
      · exact .inr (.inr (hrow (.inr hd)))
    refine (returns_idle_or_clocked hcall hc hret hclosed hclocked hcase).resolve_left fun hd => ?_
    simp [hd] at hup
  · have hstart : startsNoClock o = true := by
      cases o with
      | linkBegin | sessionBegin => contradiction
      | _ => rfl
    refine linkInvariant_unclocked.call hcall hc hstart ?_ hret
    rw [hclosed hidle]
    rfl

end Sys2Proof.Machine
end

section
/-!
10_state R54, 45_target_contract R313, R319, R320, R326: the NVM registers read by LDS and LD, and the execute bit of
CTRLA. Settles O53.
-/

namespace Sys2Proof.Machine

@[simp] theorem withBusyBit_bit7 (b : Byte) (busy : Bool) : (withBusyBit b busy)[7] = busy := by
  cases busy <;> simp [withBusyBit]

section Loads
variable {t : Target} {c : Config}

/-- LDS of an address, and LD in mode Indirect with the pointer there, are one load and its reply. -/
theorem Target.Waiting.execute_load (hw : t.Waiting) {i : Instr} {a : Word}
    (hi : i = .lds a ∨ i = .ldInd ∧ t.ptr = a) :
    ∃ direct, t.execute c i = (t.load c direct a).2.send (t.load c direct a).1 := by
  rcases hi with rfl | ⟨rfl, rfl⟩
  · exact ⟨true, (t.execute_lds c a).trans (hw.unrepeated _)⟩
  · refine ⟨false, ?_⟩
    obtain ⟨-, -, hrep, hrepeated, -⟩ := hw
    obtain ⟨b, k, w, n, hload⟩ := t.load_keeps c false t.ptr
    have honce : t.loadPointer c .indirect = (t.load c false t.ptr).2.send (t.load c false t.ptr).1 := rfl
    rw [Target.execute_ldInd, t.repeatedLoad_once c hrep hrepeated, honce, hload, Target.send, ← hrep, ← hrepeated]

theorem Target.replyStated_reference (hk : t.kind = .reference) : t.replyStated = true := by
  simp [Target.replyStated, hk]

theorem Target.load_status (hs : t.replyStated = true) (direct : Bool) :
    t.load c direct (nvmAddress c .status) = t.readStatus := by
  simp [Target.load, hs]

theorem Target.readStatus_reference (hk : t.kind = .reference) : t.readStatus = (0x00, t) := by
  simp [Target.readStatus, hk]

/-- Outside RT bit 7 is 0 unless something may still run, and what the target then takes to run follows it (45 R319). -/
theorem Target.readStatus_contract (hk : t.kind = .contract) (hkeyed : t.keyed = true) (hawake : t.awake = true) :
    ∃ r n, t.readStatus = (r, { t with
        busy := r.getLsbD 7, working := false, underway := t.underway && r.getLsbD 7, fresh := n }) ∧
      (t.busy = false → t.working = false → r.getLsbD 7 = false) := by
  refine ⟨withBusyBit t.freeByte ((t.busy || t.working) && busyBit t.freeByte), t.fresh + 1, ?_, ?_⟩
  · simp [Target.readStatus, hk, hkeyed, hawake]
  · intro hb hw
    simp [hb, hw]

/-- CMD reads as it was last written, on RT always, otherwise while the controller is known to be awake (10_state
R54). -/
theorem Target.load_cmd (hstatus : nvmAddress c .cmd ≠ nvmAddress c .status)
    (hctrl : nvmAddress c .cmd ≠ nvmAddress c .ctrlA)
    (hs : t.kind = .reference ∨ t.replyStated = true ∧ t.keyed = true ∧ t.awake = true) (direct : Bool) :
    t.load c direct (nvmAddress c .cmd) = (t.cmd, t) := by
  rcases hs with hk | ⟨hreply, hkeyed, hawake⟩
  · simp [Target.load, hstatus, hctrl, Target.replyStated_reference hk, hk]
  · simp only [Target.load, hreply, hstatus, hctrl, hkeyed, hawake, if_true, if_false, Bool.not_true,
      Bool.false_eq_true, Bool.and_self]
    split <;> rfl

end Loads

/-! ## The execute bit -/

/-- What no NVM command changes by itself: the registers the core can address, the replies, and whether the target is
lost or busy. -/
structure Target.SameRegisters (t u : Target) : Prop where
  kind : u.kind = t.kind
  lost : u.lost = t.lost
  ptr : u.ptr = t.ptr
  cmd : u.cmd = t.cmd
  ctrlA : u.ctrlA = t.ctrlA
  busy : u.busy = t.busy
  replies : u.replies = t.replies

section Commands
variable (t : Target) (c : Config)

theorem Target.SameRegisters.refl : t.SameRegisters t := ⟨rfl, rfl, rfl, rfl, rfl, rfl, rfl⟩

theorem Target.unstated_sameRegisters : t.SameRegisters t.unstated := ⟨rfl, rfl, rfl, rfl, rfl, rfl, rfl⟩

theorem Target.chipErase_sameRegisters : t.SameRegisters (t.chipErase c) := by
  unfold Target.chipErase
  split <;> exact ⟨rfl, rfl, rfl, rfl, rfl, rfl, rfl⟩

theorem Target.eraseBuffer_sameRegisters : t.SameRegisters t.eraseBuffer := by
  unfold Target.eraseBuffer
  split <;> exact ⟨rfl, rfl, rfl, rfl, rfl, rfl, rfl⟩

theorem Target.eraseSection_sameRegisters (base : Word) (size : Nat) :
    t.SameRegisters (t.eraseSection base size) := by
  unfold Target.eraseSection
  split <;> exact ⟨rfl, rfl, rfl, rfl, rfl, rfl, rfl⟩

/-- A command that has begun is known to run outside RT alone (45 R319, R326). -/
theorem Target.started_busy : t.started.busy = (t.busy || decide (t.kind = .contract)) := by
  unfold Target.started
  split <;> simp [*]

/-- What the command does is one of the effects above, and then it has begun. -/
theorem Target.runCommand_started : ∃ u, t.SameRegisters u ∧ t.runCommand c = u.started := by
  unfold Target.runCommand
  refine ⟨_, ?_, rfl⟩
  split
  · exact t.chipErase_sameRegisters c
  · split
    · exact t.eraseBuffer_sameRegisters
    · split
      · exact t.eraseSection_sameRegisters _ _
      · split
        · exact t.eraseSection_sameRegisters _ _
        · split
          · exact .refl t
          · exact t.unstated_sameRegisters

theorem Target.started_keeps :
    t.started.lost = t.lost ∧ t.started.ctrlA = t.ctrlA ∧ t.started.cmd = t.cmd ∧ t.started.ptr = t.ptr ∧
      t.started.replies = t.replies := by
  unfold Target.started
  split <;> exact ⟨rfl, rfl, rfl, rfl, rfl⟩

/-- A store to CTRLA while a command may be written (45 R319, R325). -/
theorem Target.storeDirect_ctrlA {t : Target} (ha : nvmAddress c .ctrlA ≠ nvmAddress c .cmd) (hidle : t.nvmIdle = true)
    (d : Byte) :
    t.storeDirect c (nvmAddress c .ctrlA) d =
      if t.executes d then { t with ctrlA := d }.runCommand c else if t.kind = .reference then t else t.lose := by
  simp only [Target.storeDirect, Target.storeRegister, ha, hidle, if_true, if_false, Bool.not_true, Bool.false_eq_true]
  split
  · rfl
  · cases hk : t.kind <;> simp

end Commands

/-- Settles O53: the loads of the two registers, then the store to CTRLA. -/
theorem nvmRegistersAreReadAndExecuted : Obligations.NvmRegistersAreReadAndExecuted := by
  intro t c i hw
  refine ⟨fun hi => ⟨fun hk => ?_, fun hk hreply hkeyed hawake => ?_⟩, fun hi hstatus hctrl hs => ?_,
    fun d hi ha hidle u hu => ?_⟩
  · obtain ⟨direct, he⟩ := hw.execute_load (c := c) hi
    rw [he, Target.load_status (Target.replyStated_reference hk), Target.readStatus_reference hk]
    rfl
  · obtain ⟨direct, he⟩ := hw.execute_load (c := c) hi
    obtain ⟨r, n, hr, hquiet⟩ := Target.readStatus_contract hk hkeyed hawake
    refine ⟨r, n, ?_, hquiet⟩
    rw [he, Target.load_status hreply, hr]
    rfl
  · obtain ⟨direct, he⟩ := hw.execute_load (c := c) hi
    rw [he, Target.load_cmd hstatus hctrl hs]
    rfl
  · rw [hi, Target.execute_sts, hw.unrepeated, Target.storeDirect_ctrlA c ha hidle] at hu
    refine ⟨fun hd => ?_, fun hk hd => ?_, fun hk hd => ?_⟩
    · have hexec : t.executes d = true := by
        rcases hd with rfl | ⟨hk, hd⟩
        · cases hk : t.kind <;> simp [Target.executes, hk, executeBit]
        · rw [t.executes_reference hk]; exact hd
      obtain ⟨v, hv, hrun⟩ := Target.runCommand_started { t with ctrlA := d } c
      obtain ⟨hlost, hctrl, hcmd, hptr, hreplies⟩ := v.started_keeps
      rw [if_pos hexec, hrun] at hu
      subst hu
      refine ⟨?_, hctrl.trans hv.ctrlA, hcmd.trans hv.cmd, hptr.trans hv.ptr, hreplies.trans hv.replies, ?_⟩
      · exact (hlost.trans hv.lost).trans hw.1
      · rw [v.started_busy, hv.busy, hv.kind]
    · have hexec : ¬t.executes d := by simpa [t.executes_contract hk] using hd
      rw [hu, if_neg hexec, if_neg (by simp [hk])]
    · have hexec : ¬t.executes d := by simpa [t.executes_reference hk, executeBit] using hd
      rw [hu, if_neg hexec, if_pos hk]

end Sys2Proof.Machine
end

section
/-!
20_memory R71, R88: every write goes to an address below 2^32 and every new memory lists nothing, so the three memories
stay canonical. First what the target's operations keep, from the cells up to one received byte; then that a step
lets the target receive a byte or leaves its memories alone. Settles O8.
-/

namespace Sys2Proof.Machine

/-! ## Canonical memories and what the target's operations do to them -/

/-- The three memories of a target are canonical. -/
structure Target.Canonical (t : Target) : Prop where
  mem : t.mem.wf = true
  buf : t.buf.wf = true
  fuse : t.fuse.wf = true

theorem State.memoriesWf_iff (s : State) : s.memoriesWf = true ↔ s.target.Canonical := by
  simp only [State.memoriesWf, Bool.and_eq_true]
  exact ⟨fun ⟨⟨hm, hb⟩, hf⟩ => ⟨hm, hb, hf⟩, fun ⟨hm, hb, hf⟩ => ⟨⟨hm, hb⟩, hf⟩⟩

/-- The two targets hold the same memories. -/
structure Target.SameMemories (t u : Target) : Prop where
  mem : u.mem = t.mem
  buf : u.buf = t.buf
  fuse : u.fuse = t.fuse

theorem Target.SameMemories.refl (t : Target) : t.SameMemories t := ⟨rfl, rfl, rfl⟩

theorem Target.SameMemories.trans {t u v : Target} (h : t.SameMemories u) (h' : u.SameMemories v) : t.SameMemories v :=
  ⟨h'.mem.trans h.mem, h'.buf.trans h.buf, h'.fuse.trans h.fuse⟩

theorem Target.SameMemories.canonical {t u : Target} (h : t.SameMemories u) (ht : t.Canonical) : u.Canonical :=
  ⟨h.mem ▸ ht.mem, h.buf ▸ ht.buf, h.fuse ▸ ht.fuse⟩

section Operations
variable {t : Target}

theorem Target.Canonical.lose (h : t.Canonical) : t.lose.Canonical := ⟨h.mem, h.buf, h.fuse⟩

theorem Target.canonical_unstated (t : Target) : t.unstated.Canonical :=
  ⟨Memory.empty_wf _, Memory.empty_wf _, Memory.empty_wf _⟩

theorem Target.Canonical.memWrite (h : t.Canonical) (a : Word) (d : Byte) : (t.memWrite a d).Canonical :=
  ⟨Memory.write_wf h.mem a.isLt, h.buf, h.fuse⟩

theorem Target.Canonical.freeBuffer (h : t.Canonical) : t.freeBuffer.Canonical := ⟨h.mem, Memory.empty_wf _, h.fuse⟩

theorem Target.Canonical.started (h : t.Canonical) : t.started.Canonical := by
  unfold Target.started
  split
  · exact h
  · exact ⟨h.mem, h.buf, h.fuse⟩

theorem Target.Canonical.loadStarted (h : t.Canonical) : t.loadStarted.Canonical := by
  unfold Target.loadStarted
  split
  · exact h
  · exact ⟨h.mem, h.buf, h.fuse⟩

theorem Target.Canonical.afterAccess (h : t.Canonical) (m : PtrMode) : (t.afterAccess m).Canonical := by
  obtain ⟨p, n, hp⟩ := t.afterAccess_keeps m
  exact hp ▸ ⟨h.mem, h.buf, h.fuse⟩

/-! ## Pages, sections and the page buffer -/

theorem Memory.foldl_fill_wf (f : Nat → Byte) (n : Nat) (ps : List Nat) {m : Memory} (h : m.wf = true) :
    (ps.foldl (fun m p => m.fill p f n) m).wf = true := by
  induction ps generalizing m with
  | nil => exact h
  | cons p ps ih => exact ih (Memory.fill_wf p f n h)

variable (c : Config)

theorem Target.Canonical.freePages (h : t.Canonical) (ps : List Nat) : (t.freePages c ps).Canonical :=
  ⟨Memory.foldl_fill_wf _ _ ps h.mem, h.buf, h.fuse⟩

theorem Target.Canonical.eraseBuffer (h : t.Canonical) : t.eraseBuffer.Canonical := by
  unfold Target.eraseBuffer
  split
  · exact ⟨h.mem, Memory.empty_wf _, h.fuse⟩
  · exact ⟨h.mem, Memory.empty_wf _, h.fuse⟩

/-- The remainder of an address by PAGE_SIZE is an address of the page buffer. -/
theorem Target.Canonical.loadCell (h : t.Canonical) (p : Nat) {a : Nat} (ha : a < 2 ^ 32) (d : Byte) :
    (t.loadCell c p a d).Canonical := by
  have hown : (if t.bufPage = some p then t.buf else t.freeMemory).wf = true := by
    split
    · exact h.buf
    · exact Memory.empty_wf _
  exact ⟨h.mem, Memory.write_wf hown ((Nat.mod_le _ _).trans_lt ha), h.fuse⟩

theorem Target.Canonical.loadBuffer (h : t.Canonical) {a : Nat} (ha : a < 2 ^ 32) (d : Byte) :
    (t.loadBuffer c a d).Canonical := by
  unfold Target.loadBuffer
  split
  · exact ⟨h.mem, Memory.write_wf h.buf ((Nat.mod_le _ _).trans_lt ha), h.fuse⟩
  · split
    · exact h.loadCell c _ ha d
    · split
      · exact h.loadCell c _ ha d
      · exact ⟨h.mem, Memory.empty_wf _, h.fuse⟩

theorem Target.Canonical.chipErase (h : t.Canonical) : (t.chipErase c).Canonical := by
  unfold Target.chipErase
  split
  · exact ⟨Memory.empty_wf _, h.buf, h.fuse⟩
  · exact ⟨Memory.empty_wf _, Memory.empty_wf _, Memory.empty_wf _⟩

theorem Target.Canonical.eraseSection (h : t.Canonical) (base : Word) (size : Nat) :
    (t.eraseSection base size).Canonical := by
  unfold Target.eraseSection
  split
  · exact ⟨Memory.fill_wf _ _ _ h.mem, h.buf, h.fuse⟩
  · exact ⟨Memory.empty_wf _, Memory.empty_wf _, h.fuse⟩

theorem Target.Canonical.triggerSection (h : t.Canonical) (a base : Word) (size : Nat) :
    (t.triggerSection a base size).Canonical := by
  unfold Target.triggerSection
  split
  · exact h.eraseSection base size
  · split
    · exact h.eraseSection base size
    · exact t.canonical_unstated

theorem Target.Canonical.erasePage (h : t.Canonical) (a : Nat) : (t.erasePage c a).Canonical := by
  have hfreed := h.freePages c (pagesAt c a)
  unfold Target.erasePage
  split
  · exact ⟨Memory.fill_wf _ _ _ h.mem, h.buf, h.fuse⟩
  · dsimp only
    split
    · exact ⟨hfreed.mem, hfreed.buf, hfreed.fuse⟩
    · exact hfreed

theorem Target.Canonical.writePage (h : t.Canonical) (preErase : Bool) (a : Nat) :
    (t.writePage c preErase a).Canonical := by
  have hfreed := (h.freePages c (t.pagesCommitted c a)).freeBuffer
  unfold Target.writePage
  split
  · exact ⟨Memory.fill_wf _ _ _ h.mem, h.buf, h.fuse⟩
  · dsimp only
    split
    · exact ⟨Memory.fill_wf _ _ _ hfreed.mem, hfreed.buf, hfreed.fuse⟩
    · exact hfreed

theorem Target.Canonical.writeFuse (h : t.Canonical) (a : Word) (d : Byte) : (t.writeFuse a d).Canonical := by
  have hfuse : (t.fuse.write a.toNat d).wf = true := Memory.write_wf h.fuse a.isLt
  unfold Target.writeFuse
  split
  · exact ⟨h.mem, h.buf, hfuse⟩
  · exact ⟨(h.memWrite a d).mem, h.buf, hfuse⟩

/-! ## The NVM controller -/

theorem Target.Canonical.runCommand (h : t.Canonical) : (t.runCommand c).Canonical := by
  unfold Target.runCommand
  apply Target.Canonical.started
  split
  · exact h.chipErase c
  · split
    · exact h.eraseBuffer
    · split
      · exact h.eraseSection _ _
      · split
        · exact h.eraseSection _ _
        · split
          · exact h
          · exact t.canonical_unstated

theorem Target.Canonical.ite {p : Prop} [Decidable p] {u v : Target} (hu : u.Canonical) (hv : v.Canonical) :
    (if p then u else v).Canonical := by
  split
  · exact hu
  · exact hv

theorem Target.Canonical.trigger (h : t.Canonical) (a : Word) (d : Byte) : (t.trigger c a d).Canonical := by
  have hscope {u : Target} (hu : u.Canonical) (fuse : Bool) :
      (if t.inScope c fuse a then u else t.unstated).Canonical := hu.ite t.canonical_unstated
  unfold Target.trigger
  exact .started <|
    .ite (hscope (h.erasePage c _) _) <|
    .ite (hscope (h.writePage c _ _) _) <|
    .ite (hscope (h.writePage c _ _) _) <|
    .ite (h.triggerSection _ _ _) <|
    .ite (h.triggerSection _ _ _) <|
    .ite (hscope (h.writeFuse _ _) _) t.canonical_unstated

theorem Target.Canonical.storeRegister (h : t.Canonical) {a : Word} {d : Byte} {u : Target}
    (hu : t.storeRegister c a d = some u) : u.Canonical := by
  unfold Target.storeRegister at hu
  split at hu
  · cases hu
    exact .ite ⟨h.mem, h.buf, h.fuse⟩ h.lose
  · split at hu
    · cases hu
      refine h.lose.ite (.ite (.runCommand c ⟨h.mem, h.buf, h.fuse⟩) ?_)
      split
      · exact h
      · exact h.lose
    · split at hu
      · cases hu
        exact h.lose
      · cases hu

theorem Target.Canonical.storeDirect (h : t.Canonical) (a : Word) (d : Byte) : (t.storeDirect c a d).Canonical := by
  unfold Target.storeDirect
  split
  · next u hu => exact h.storeRegister c hu
  · exact .ite (.ite (h.trigger c a d) h.lose) (h.memWrite a d)

theorem Target.Canonical.storePointer (h : t.Canonical) (m : PtrMode) (d : Byte) :
    (t.storePointer c m d).Canonical := by
  unfold Target.storePointer
  refine .ite (.ite (((h.loadBuffer c t.ptr.isLt d).loadStarted).afterAccess m) h.lose) ?_
  split
  · next u hu => exact (h.storeRegister c hu).afterAccess m
  · exact .ite (.ite (t.canonical_unstated.started.afterAccess m) h.lose) ((h.memWrite _ d).afterAccess m)

/-! ## Loads and control/status registers -/

theorem Target.load_sameMemories (t : Target) (direct : Bool) (a : Word) : t.SameMemories (t.load c direct a).2 := by
  obtain ⟨_, _, _, _, hload⟩ := t.load_keeps c direct a
  exact hload ▸ ⟨rfl, rfl, rfl⟩

theorem Target.loadPointer_sameMemories (t : Target) (m : PtrMode) : t.SameMemories (t.loadPointer c m) := by
  obtain ⟨_, _, _, _, _, _, hload⟩ := t.loadPointer_keeps c m
  exact hload ▸ ⟨rfl, rfl, rfl⟩

theorem Target.loadPointerTimes_sameMemories (t : Target) (m : PtrMode) (n : Nat) :
    t.SameMemories (t.loadPointerTimes c m n) := by
  induction n generalizing t with
  | zero => exact .refl t
  | succ n ih => exact (t.loadPointer_sameMemories c m).trans (ih _)

theorem Target.readCsr_sameMemories (t : Target) (r : BitVec 4) : t.SameMemories (t.readCsr c r).2 := by
  obtain ⟨_, _, _, hread⟩ := t.readCsr_keeps c r
  exact hread ▸ ⟨rfl, rfl, rfl⟩

theorem Target.sendFree_sameMemories (t : Target) (n : Nat) : t.SameMemories (t.sendFree n) := by
  obtain ⟨_, _, -, hsend⟩ := t.sendFree_keeps n
  exact hsend ▸ ⟨rfl, rfl, rfl⟩

/-- Target reset keeps the fuses and the cells of the NVM regions, or all three memories are new. -/
theorem Target.Canonical.afterReset (h : t.Canonical) : (t.afterReset c).Canonical := by
  have hstart : (if t.underway then t.unstated else t).Canonical := t.canonical_unstated.ite h
  exact ⟨Memory.keepOnly_wf _ _ hstart.mem, Memory.empty_wf _, hstart.fuse⟩

theorem Target.Canonical.writeCsr (h : t.Canonical) (r : BitVec 4) (d : Byte) : (t.writeCsr c r d).Canonical := by
  have hreset := h.afterReset c
  unfold Target.writeCsr
  refine .ite (.ite ?_ (.ite ?_ h.lose)) (.ite (.ite ⟨h.mem, h.buf, h.fuse⟩ h.lose) h.lose)
  · split
    · exact ⟨h.mem, h.buf, h.fuse⟩
    · exact ⟨hreset.mem, hreset.buf, hreset.fuse⟩
  · split
    · exact ⟨h.mem, h.buf, h.fuse⟩
    · exact h.ite ⟨hreset.mem, hreset.buf, hreset.fuse⟩

theorem Target.acceptKey_sameMemories (t : Target) (k : List Byte) : t.SameMemories (t.acceptKey c k) := by
  unfold Target.acceptKey
  split
  · exact ⟨rfl, rfl, rfl⟩
  · split <;> exact ⟨rfl, rfl, rfl⟩

/-! ## One instruction, one byte -/

theorem Target.Canonical.unrepeated (h : t.Canonical) (run : Target → Target) (hrun : (run t).Canonical) :
    (t.unrepeated run).Canonical :=
  hrun.ite h.lose

theorem Target.Canonical.repeatedStore (h : t.Canonical) (m : PtrMode) (opcode d : Byte) :
    (t.repeatedStore c m opcode d).Canonical := by
  obtain ⟨hm, hb, hf⟩ := h.storePointer c m d
  exact .ite ⟨hm, hb, hf⟩ ⟨hm, hb, hf⟩

theorem Target.Canonical.repeatedLoad (h : t.Canonical) (m : PtrMode) : (t.repeatedLoad c m).Canonical := by
  obtain ⟨hm, hb, hf⟩ := (t.loadPointerTimes_sameMemories c m (t.rep.toNat + 1)).canonical h
  exact ⟨hm, hb, hf⟩

theorem Target.Canonical.send (h : t.Canonical) (b : Byte) : (t.send b).Canonical := ⟨h.mem, h.buf, h.fuse⟩

theorem Target.Canonical.execute (h : t.Canonical) (i : Instr) : (t.execute c i).Canonical := by
  cases i with
  | lds a => exact h.unrepeated (fun t => t.loadDirect c a) (((t.load_sameMemories c true a).canonical h).send _)
  | sts a d => exact h.unrepeated (fun t => t.storeDirect c a d) (h.storeDirect c a d)
  | ldInd | ldInc => exact h.repeatedLoad c _
  | ldPtr =>
    obtain ⟨hm, hb, hf⟩ := (t.sendFree_sameMemories (t.rep.toNat + 1)).canonical h
    exact ⟨hm, hb, hf⟩
  | stInd d | stInc d => exact h.repeatedStore c _ _ d
  | stPtr a => exact h.unrepeated (fun t => { t with ptr := a, bufRun := none }) ⟨h.mem, h.buf, h.fuse⟩
  | repeatB n => exact h.unrepeated (fun t => t.repeatNext (n.setWidth 16)) ⟨h.mem, h.buf, h.fuse⟩
  | repeatW n => exact h.unrepeated (fun t => t.repeatNext n) ⟨h.mem, h.buf, h.fuse⟩
  | ldcs r =>
    have hread := ((t.readCsr_sameMemories c (r.setWidth 4)).canonical h).send (t.readCsr c (r.setWidth 4)).1
    exact h.unrepeated (fun t => (t.readCsr c (r.setWidth 4)).2.send (t.readCsr c (r.setWidth 4)).1) hread
  | stcs r d => exact h.unrepeated (fun t => t.writeCsr c (r.setWidth 4) d) (h.writeCsr c _ d)
  | key k => exact h.unrepeated (fun t => t.acceptKey c k) ((t.acceptKey_sameMemories c k).canonical h)
  | _ => exact h.lose

theorem Target.Canonical.receive (h : t.Canonical) (b : Byte) : (t.receive c b).Canonical := by
  unfold Target.receive
  refine h.ite ?_
  split
  · next i _ _ => exact Target.Canonical.execute (t := { t with pending := [] }) c ⟨h.mem, h.buf, h.fuse⟩ i
  · exact ⟨h.mem, h.buf, h.fuse⟩
  · exact h.lose

end Operations

/-! ## What the core's steps do to the target -/

theorem Target.cutOff_sameMemories (t : Target) : t.SameMemories t.cutOff := by
  unfold Target.cutOff
  split <;> exact ⟨rfl, rfl, rfl⟩

theorem Target.beginInstruction_sameMemories (t : Target) (byHand : Bool) :
    t.SameMemories (t.beginInstruction byHand) := by
  obtain ⟨hm, hb, hf⟩ := t.cutOff_sameMemories
  unfold Target.beginInstruction
  split
  · exact ⟨rfl, rfl, rfl⟩
  · exact ⟨hm, hb, hf⟩

theorem Target.beginBytes_sameMemories (t : Target) (n : Nat) : t.SameMemories (t.beginBytes n) := by
  unfold Target.beginBytes
  split
  · exact ⟨rfl, rfl, rfl⟩
  · exact t.cutOff_sameMemories

theorem Target.atCall_sameMemories (t : Target) (c : Config) (o : Op) : t.SameMemories (t.atCall c o) := by
  unfold Target.atCall
  split
  · exact t.beginBytes_sameMemories 1
  · exact t.beginBytes_sameMemories 2
  · exact t.beginBytes_sameMemories 4
  · exact t.beginInstruction_sameMemories true
  · exact t.beginInstruction_sameMemories true
  · split
    · exact t.beginInstruction_sameMemories false
    · exact .refl t

/-- What a step can do to the target: let it receive a byte, or leave its memories as they are. -/
inductive Target.Touched (c : Config) (t : Target) : Target → Prop where
  | received (b : Byte) : Touched c t (t.receive c b)
  | kept {u : Target} (h : t.SameMemories u) : Touched c t u

theorem Target.Touched.refl (c : Config) (t : Target) : t.Touched c t := .kept (.refl t)

theorem Target.Touched.canonical {c : Config} {t u : Target} (h : t.Touched c u) (ht : t.Canonical) : u.Canonical := by
  cases h with
  | received b => exact ht.receive c b
  | kept h => exact h.canonical ht

section Steps
variable {s t : State}

theorem performCommand_touches (k : Command) (s : State) : s.target.Touched s.cfg (performCommand k s).target := by
  cases k with
  | writeByte b =>
    rw [performCommand_target]
    dsimp only
    split
    · exact .received b
    · exact .refl _ _
  | _ => exact .kept ⟨rfl, rfl, rfl⟩

/-- Two states with one target, of which a test picks one. -/
theorem State.ite_target {p : Prop} [Decidable p] {T : Target} {u v : State} (hu : u.target = T) (hv : v.target = T) :
    (if p then u else v).target = T := by
  split
  · exact hu
  · exact hv

theorem performStore_target {n : Nat} (h : performStore n s = .next t) : t.target = s.target := by
  rcases performStore_next h with ⟨-, rfl⟩ | ⟨_, _, _, -, -, rfl⟩ | ⟨_, -, -, -, rfl⟩ | ⟨_, _, _, -, -, -, rfl⟩ <;>
    rfl

theorem performHostPayload_target (n : Nat) (got : List Byte) (s : State) :
    (performHostPayload n got s).target = s.target := by
  unfold performHostPayload
  split
  · rfl
  · split
    · rfl
    · next htake =>
      obtain ⟨_, _, rfl⟩ := hostTake_some htake
      rfl

/-- Of the tasks only commands and the three of `recv` touch the target. -/
theorem perform_touches {k : Task} (h : perform k s = .next t) : s.target.Touched s.cfg t.target := by
  have hsame {u : State} (hu : u.target = s.target) : s.target.Touched s.cfg u.target := hu ▸ .refl _ _
  cases k with
  | command k => cases h; exact performCommand_touches k s
  | rxCheck n =>
    cases h
    cases n with
    | zero => exact .kept s.target.cutOff_sameMemories
    | succ n => exact hsame rfl
  | rxErrorCheck =>
    cases h
    unfold performRxErrorCheck
    dsimp only
    split
    · exact .kept s.target.cutOff_sameMemories
    · exact hsame rfl
  | rxRead => cases h; exact .kept ⟨rfl, rfl, rfl⟩
  | run o =>
    obtain ⟨-, -, -, -, -, -, -, htarget, -⟩ := opStart_trace h
    exact hsame htarget
  | store n => exact hsame (performStore_target h)
  | hostPayload n got => cases h; exact hsame (performHostPayload_target n got s)
  | wake n | collect n got => cases h; cases n <;> exact hsame rfl
  | await _ | pollNvmen _ | nvmenVerdict _ | pollBusy _ | busyVerdict _ | resetLoop _ | resetVerdict _ | lazyBegin
  | chunks _ _ _ _ =>
    cases h
    exact hsame (State.ite_target rfl rfl)
  | _ => cases h; exact hsame rfl

/-- A caller's call that starts is noted by the target before its first byte. -/
theorem call_touches {o : Op} {src : List Byte} (h : s.call o src = .next t) : s.target.Touched s.cfg t.target := by
  rcases call_next h with ⟨-, rfl⟩ | ⟨-, -, -, hstart⟩
  · exact .refl _ _
  · obtain ⟨-, -, -, -, -, -, -, htarget, -⟩ := opStart_trace hstart
    obtain ⟨hm, hb, hf⟩ := s.target.atCall_sameMemories s.cfg o
    exact htarget ▸ .kept ⟨hm, hb, hf⟩

theorem exec_touches {i : Instr} (h : exec i s = .next t) : s.target.Touched s.cfg t.target := by
  rcases exec_forms i with ⟨o, hi⟩ | ⟨sends, ts, hi⟩ | ⟨b, hi⟩
  · exact call_touches (hi s ▸ h)
  · rcases hostCall_next (hi s ▸ h) with ⟨-, rfl⟩ | ⟨-, -, rfl⟩
    · exact .refl _ _
    · dsimp only
      split
      · exact .kept (s.target.beginInstruction_sameMemories false)
      · exact .refl _ _
  · cases (hi s).symm.trans h
    exact .refl _ _

theorem step_touches (h : step s = .next t) : s.target.Touched s.cfg t.target := by
  cases hc : s.control with
  | cons k ts => exact perform_touches (s := { s with control := ts }) (step_task hc ▸ h)
  | nil =>
    obtain ⟨calls, host, htake⟩ := step_idle_next hc h
    cases htake with
    | read h => exact h ▸ .refl _ _
    | startup h => exact h ▸ performCommand_touches _ { s with calls := calls, host := host }
    | call o src rs _ h => exact call_touches (s := { s with calls := calls, host := host }) h
    | instr i h => exact exec_touches (s := { s with calls := calls, host := host }) h

end Steps

/-- Settles O8: a step touches the target at most by one received byte. -/
theorem memoriesStayCanonical : Obligations.MemoriesStayCanonical := by
  intro s t hs h
  rw [State.memoriesWf_iff] at hs ⊢
  exact (step_touches h).canonical hs

end Sys2Proof.Machine
end

section
/-!
43_nvm R242, 45_target_contract R319, R321: the effect each command code has when it is triggered or executed, where the
codes of the configuration can be told apart.
-/

namespace Sys2Proof.Machine

/-- The commands in the order of the table of 43_nvm R242. -/
def nvmCommands : List NvmCommand :=
  [.chipErase, .readNvm, .loadFlashPageBuffer, .eraseFlashPageBuffer, .eraseFlashPage, .eraseAppPage, .eraseBootPage,
    .writeFlashPage, .writeAppPage, .writeBootPage, .eraseWriteFlashPage, .eraseWriteAppPage, .eraseWriteBootPage,
    .eraseAppSection, .eraseBootSection, .writeFuse, .writeLockBits, .loadEepromPageBuffer, .eraseEepromPageBuffer,
    .eraseEepromPage, .writeEepromPage, .eraseWriteEepromPage, .eraseEeprom, .readEeprom, .flashCrc, .appCrc, .bootCrc]

theorem mem_nvmCommands (k : NvmCommand) : k ∈ nvmCommands := by
  cases k <;> decide

theorem Decodable.nvmCode_injective {c : Config} (h : Decodable c) : Function.Injective (nvmCode c) := by
  obtain ⟨-, -, -, -, -, hcodes⟩ := h
  have hmap : (nvmRows c).map Prod.fst = nvmCommands.map (nvmCode c) := rfl
  exact fun k k' => List.inj_on_of_nodup_map (hmap ▸ hcodes) (mem_nvmCommands k) (mem_nvmCommands k')

/-- The effect of an STS of `d` at the NVM address `a`, by the command in CMD (45 R321). -/
def Target.triggerEffect (t : Target) (c : Config) (a : Word) (d : Byte) : NvmCommand → Target
  | .eraseFlashPage | .eraseAppPage | .eraseBootPage =>
    if t.inScope c false a then t.erasePage c a.toNat else t.unstated
  | .writeFlashPage | .writeAppPage | .writeBootPage =>
    if t.inScope c false a then t.writePage c false a.toNat else t.unstated
  | .eraseWriteFlashPage | .eraseWriteAppPage | .eraseWriteBootPage =>
    if t.inScope c false a then t.writePage c true a.toNat else t.unstated
  | .eraseAppSection => t.triggerSection a c.appBase c.appSize
  | .eraseBootSection => t.triggerSection a c.bootBase c.bootSize
  | .writeFuse => if t.inScope c true a then t.writeFuse a d else t.unstated
  | _ => t.unstated

/-- The effect of bit 0 of CTRLA, by the command in CMD (45 R319). -/
def Target.runEffect (t : Target) (c : Config) : NvmCommand → Target
  | .chipErase => t.chipErase c
  | .eraseFlashPageBuffer => t.eraseBuffer
  | .eraseAppSection => t.eraseSection c.appBase c.appSize
  | .eraseBootSection => t.eraseSection c.bootBase c.bootSize
  | .readNvm | .loadFlashPageBuffer => t
  | _ => t.unstated

section Scope
variable {t : Target} {c : Config} {a : Word} (hscope : t.inScope c false a = true) (d : Byte)
include hscope

/-- Where the source says what page commands do, every section's page erase is the page erase. -/
theorem Target.triggerEffect_erasePage (sec : FlashSection) :
    t.triggerEffect c a d (erasePageCommand sec) = t.erasePage c a.toNat := by
  cases sec <;> exact if_pos hscope

theorem Target.triggerEffect_writePage (pre : Bool) (sec : FlashSection) :
    t.triggerEffect c a d (writePageCommand pre sec) = t.writePage c pre a.toNat := by
  cases pre <;> cases sec <;> exact if_pos hscope

end Scope

section Effects
variable {t : Target} {c : Config} (h : Decodable c) {k : NvmCommand} (hk : t.cmd = nvmCode c k)
include h hk

/-- Which command the code in CMD is. -/
theorem Decodable.cmd_iff (k' : NvmCommand) : t.cmd = nvmCode c k' ↔ k = k' :=
  ⟨fun h' => h.nvmCode_injective (hk.symm.trans h'), fun h' => h' ▸ hk⟩

/-- The same for each code that the target's controller compares CMD with. -/
theorem Decodable.cmd_codes :
    (t.cmd = c.nvmCodes.chipErase ↔ k = .chipErase) ∧ (t.cmd = c.nvmCodes.readNvm ↔ k = .readNvm) ∧
      (t.cmd = c.nvmCodes.loadFlashPageBuffer ↔ k = .loadFlashPageBuffer) ∧
      (t.cmd = c.nvmCodes.eraseFlashPageBuffer ↔ k = .eraseFlashPageBuffer) ∧
      (t.cmd = c.nvmCodes.eraseFlashPage ↔ k = .eraseFlashPage) ∧
      (t.cmd = c.nvmCodes.eraseAppPage ↔ k = .eraseAppPage) ∧
      (t.cmd = c.nvmCodes.eraseBootPage ↔ k = .eraseBootPage) ∧
      (t.cmd = c.nvmCodes.writeFlashPage ↔ k = .writeFlashPage) ∧
      (t.cmd = c.nvmCodes.writeAppPage ↔ k = .writeAppPage) ∧
      (t.cmd = c.nvmCodes.writeBootPage ↔ k = .writeBootPage) ∧
      (t.cmd = c.nvmCodes.eraseWriteFlashPage ↔ k = .eraseWriteFlashPage) ∧
      (t.cmd = c.nvmCodes.eraseWriteAppPage ↔ k = .eraseWriteAppPage) ∧
      (t.cmd = c.nvmCodes.eraseWriteBootPage ↔ k = .eraseWriteBootPage) ∧
      (t.cmd = c.nvmCodes.eraseAppSection ↔ k = .eraseAppSection) ∧
      (t.cmd = c.nvmCodes.eraseBootSection ↔ k = .eraseBootSection) ∧
      (t.cmd = c.nvmCodes.writeFuse ↔ k = .writeFuse) := by
  have hcmd := h.cmd_iff hk
  exact ⟨hcmd .chipErase, hcmd .readNvm, hcmd .loadFlashPageBuffer, hcmd .eraseFlashPageBuffer, hcmd .eraseFlashPage,
    hcmd .eraseAppPage, hcmd .eraseBootPage, hcmd .writeFlashPage, hcmd .writeAppPage, hcmd .writeBootPage,
    hcmd .eraseWriteFlashPage, hcmd .eraseWriteAppPage, hcmd .eraseWriteBootPage, hcmd .eraseAppSection,
    hcmd .eraseBootSection, hcmd .writeFuse⟩

theorem Target.trigger_eq (a : Word) (d : Byte) : t.trigger c a d = (t.triggerEffect c a d k).started := by
  unfold Target.trigger
  simp only [h.cmd_codes hk]
  cases k <;> rfl

theorem Target.runCommand_eq : t.runCommand c = (t.runEffect c k).started := by
  unfold Target.runCommand
  simp only [h.cmd_codes hk]
  cases k <;> rfl

end Effects

section Execution
variable {t : Target} {c : Config} (hw : t.Waiting) (hdec : Decodable c) (hidle : t.nvmIdle = true) {k : NvmCommand}
  (hk : t.cmd = nvmCode c k)
include hw hdec hidle hk

/-- An STS at an NVM address starts the command in CMD (45 R319, R321). -/
theorem Target.Waiting.execute_trigger {a : Word} (ha : TriggerAddress c a) (d : Byte) :
    t.execute c (.sts a d) = (t.triggerEffect c a d k).started := by
  rw [Target.execute_sts, hw.unrepeated, t.storeDirect_trigger c ha hidle, Target.trigger_eq hdec hk]

/-- So does the core's store to CTRLA (45 R319, 43_nvm R246). -/
theorem Target.Waiting.execute_ctrlA (hctrl : nvmAddress c .ctrlA ≠ nvmAddress c .cmd) :
    t.execute c (.sts (nvmAddress c .ctrlA) 0x01) = (({ t with ctrlA := 0x01 } : Target).runEffect c k).started := by
  have hexec : t.executes 0x01 = true := by cases hkind : t.kind <;> simp [Target.executes, hkind, executeBit]
  rw [Target.execute_sts, hw.unrepeated, Target.storeDirect_ctrlA c hctrl hidle, if_pos hexec,
    Target.runCommand_eq (t := { t with ctrlA := 0x01 }) hdec hk]

end Execution

end Sys2Proof.Machine
end

section
/-!
20_memory R85, 45_target_contract R321 to R324, 93 U4 to U6: what is known of loads, page commands, WriteFuse and
ChipErase outside the reference target. A triggered command has its effect on the memories and leaves the registers;
the effect of an aligned page command stays in its page. Settles O54.
-/

namespace Sys2Proof.Machine

/-! ## Pages -/

theorem pageStart_of_aligned {c : Config} {a : Nat} (ha : a % c.pageSize = 0) : pageStart c a = a := by
  simp [pageStart, ha]

theorem inPage_of_aligned {c : Config} {a : Nat} (ha : a % c.pageSize = 0) (x : Nat) :
    InPage c a x ↔ a ≤ x ∧ x < a + c.pageSize := by
  rw [InPage, pageStart_of_aligned ha]

/-- Reading after a fill of a range that does not wrap. -/
theorem Memory.read_fill_range (m : Memory) {base n : Nat} (h : base + n ≤ 2 ^ 32) (f : Nat → Byte) (x : Nat) :
    (m.fill base f n).read x = if base ≤ x ∧ x < base + n then f x else m.read x := by
  rw [Memory.read_fill]
  refine if_congr ⟨fun ⟨k, hk, hx⟩ => ?_, fun ⟨hlow, hhigh⟩ => ⟨x - base, ?_, ?_⟩⟩ rfl rfl
  · rw [Nat.mod_eq_of_lt (by omega)] at hx
    omega
  · omega
  · rw [Nat.mod_eq_of_lt (by omega)]
    omega

/-! ## The registers that a triggered command leaves -/

section Triggered
variable {t : Target} {c : Config}

theorem Target.erasePage_sameRegisters (t : Target) (c : Config) (a : Nat) : t.SameRegisters (t.erasePage c a) := by
  unfold Target.erasePage
  split
  · exact ⟨rfl, rfl, rfl, rfl, rfl, rfl, rfl⟩
  · dsimp only
    split <;> exact ⟨rfl, rfl, rfl, rfl, rfl, rfl, rfl⟩

theorem Target.writePage_sameRegisters (t : Target) (c : Config) (preErase : Bool) (a : Nat) :
    t.SameRegisters (t.writePage c preErase a) := by
  unfold Target.writePage
  split
  · exact ⟨rfl, rfl, rfl, rfl, rfl, rfl, rfl⟩
  · dsimp only
    split <;> exact ⟨rfl, rfl, rfl, rfl, rfl, rfl, rfl⟩

theorem Target.writeFuse_sameRegisters (t : Target) (a : Word) (d : Byte) : t.SameRegisters (t.writeFuse a d) := by
  unfold Target.writeFuse
  split <;> exact ⟨rfl, rfl, rfl, rfl, rfl, rfl, rfl⟩

theorem Target.triggerSection_sameRegisters (t : Target) (a base : Word) (size : Nat) :
    t.SameRegisters (t.triggerSection a base size) := by
  unfold Target.triggerSection
  split
  · exact t.eraseSection_sameRegisters base size
  · split
    · exact t.eraseSection_sameRegisters base size
    · exact t.unstated_sameRegisters

theorem Target.triggerEffect_sameRegisters (t : Target) (c : Config) (a : Word) (d : Byte) (k : NvmCommand) :
    t.SameRegisters (t.triggerEffect c a d k) := by
  have hscope {u : Target} (hu : t.SameRegisters u) (fuse : Bool) :
      t.SameRegisters (if t.inScope c fuse a then u else t.unstated) := by
    split
    · exact hu
    · exact t.unstated_sameRegisters
  cases k with
  | eraseFlashPage | eraseAppPage | eraseBootPage => exact hscope (t.erasePage_sameRegisters c _) false
  | writeFlashPage | writeAppPage | writeBootPage | eraseWriteFlashPage | eraseWriteAppPage | eraseWriteBootPage =>
    exact hscope (t.writePage_sameRegisters c _ _) false
  | eraseAppSection | eraseBootSection => exact t.triggerSection_sameRegisters a _ _
  | writeFuse => exact hscope (t.writeFuse_sameRegisters a d) true
  | _ => exact t.unstated_sameRegisters

/-- Outside RT a command that has begun runs, and changes nothing more by beginning. -/
theorem Target.started_contract (hkind : t.kind = .contract) :
    t.started = { t with busy := true, underway := true } := by
  simp [Target.started, hkind]

theorem Target.nvmIdle_contract (hkind : t.kind = .contract) (hready : t.nvmReady = true) (hwork : t.working = false) :
    t.nvmIdle = true := by
  simp [Target.nvmIdle, hkind, hready, hwork]

/-! ## Page commands -/

/-- `u` is `t` but for what the page of `a` and the page buffer hold and what is known to be erased. -/
structure Target.DiffersInPage (c : Config) (a : Nat) (t u : Target) : Prop where
  fuse : u.fuse = t.fuse
  mem : ∀ x, ¬InPage c a x → u.mem.read x = t.mem.read x

variable {a : Nat} (hkind : t.kind = .contract) (ha : a % c.pageSize = 0)
include ha

theorem pagesAt_of_aligned : pagesAt c a = [a] := if_pos (pageStart_of_aligned ha).symm

theorem Target.freePages_differsInPage (hfit : a + c.pageSize ≤ 2 ^ 32) :
    t.DiffersInPage c a (t.freePages c [a]) := by
  refine ⟨rfl, fun x hx => ?_⟩
  rw [inPage_of_aligned ha] at hx
  exact (t.mem.read_fill_range hfit _ x).trans (if_neg hx)

include hkind

theorem Target.erasePage_aligned :
    t.erasePage c a =
      { t.freePages c [a] with erased := (a, a + c.pageSize) :: (t.freePages c [a]).erased } := by
  simp [Target.erasePage, hkind, pagesAt_of_aligned ha, pageStart_of_aligned ha]

theorem Target.pageErased_erasePage (hfit : a + c.pageSize ≤ 2 ^ 32) : (t.erasePage c a).pageErased c a = true := by
  rw [Target.erasePage_aligned hkind ha]
  simpa [Target.pageErased, coversRange] using hfit

theorem Target.erasePage_differsInPage (hfit : a + c.pageSize ≤ 2 ^ 32) : t.DiffersInPage c a (t.erasePage c a) := by
  obtain ⟨hfuse, hmem⟩ := Target.freePages_differsInPage (t := t) ha hfit
  rw [Target.erasePage_aligned hkind ha]
  exact ⟨hfuse, hmem⟩

theorem Target.erasePage_buffer : (t.erasePage c a).buf = t.buf ∧ (t.erasePage c a).bufPage = t.bufPage := by
  rw [Target.erasePage_aligned hkind ha]
  exact ⟨rfl, rfl⟩

omit hkind in
/-- No run of loads crossed into the page, so a commit involves it alone. -/
theorem Target.pagesCommitted_of_aligned (hcross : a ∉ t.bufCrossed) : t.pagesCommitted c a = [a] := by
  simp [Target.pagesCommitted, pagesAt_of_aligned ha, hcross]

theorem Target.writePage_aligned (hcross : a ∉ t.bufCrossed) (preErase : Bool) :
    t.writePage c preErase a =
      if t.bufPage = some a ∧ (preErase = true ∨ t.pageErased c a = true) then
        { (t.freePages c [a]).freeBuffer with
          mem := (t.freePages c [a]).mem.fill a (fun x => t.buf.read (x % c.pageSize)) c.pageSize }
      else (t.freePages c [a]).freeBuffer := by
  simp only [Target.writePage, hkind, pageStart_of_aligned ha, Target.pagesCommitted_of_aligned ha hcross, true_and]
  rfl

theorem Target.writePage_differsInPage (hfit : a + c.pageSize ≤ 2 ^ 32) (hcross : a ∉ t.bufCrossed)
    (preErase : Bool) : t.DiffersInPage c a (t.writePage c preErase a) := by
  obtain ⟨hfuse, hmem⟩ := Target.freePages_differsInPage (t := t) ha hfit
  rw [Target.writePage_aligned hkind ha hcross]
  split
  · refine ⟨hfuse, fun x hx => ?_⟩
    have hout : ¬(a ≤ x ∧ x < a + c.pageSize) := fun hin => hx ((inPage_of_aligned ha x).2 hin)
    exact (Memory.read_fill_range _ hfit _ x).trans ((if_neg hout).trans (hmem x hx))
  · exact ⟨hfuse, hmem⟩

/-- The commit of the page whose loaded bytes the buffer holds (20_memory R85, 45 R324). -/
theorem Target.writePage_commits (hfit : a + c.pageSize ≤ 2 ^ 32) (hcross : a ∉ t.bufCrossed) {preErase : Bool}
    (hpage : t.bufPage = some a) (herased : preErase = true ∨ t.pageErased c a = true) {x : Nat} (hx : InPage c a x) :
    (t.writePage c preErase a).mem.read x = t.buf.read (x % c.pageSize) := by
  rw [Target.writePage_aligned hkind ha hcross, if_pos ⟨hpage, herased⟩]
  rw [inPage_of_aligned ha] at hx
  exact (Memory.read_fill_range _ hfit _ x).trans (if_pos hx)

end Triggered

/-! ## Loads of the page buffer -/

section Loads
variable {t : Target} {c : Config}

theorem Target.afterAccess_autoInc (h : t.ptr ≠ 0xFFFFFFFF) : t.afterAccess .autoInc = { t with ptr := t.ptr + 1 } :=
  if_neg h

/-- Where an access leaves the pointer (45 R314). -/
theorem Target.afterAccess_ptr (t : Target) (m : PtrMode) :
    ∃ q n, t.afterAccess m = { t with ptr := q, fresh := n } ∧
      (m = .indirect → q = t.ptr) ∧ (m = .autoInc → t.ptr ≠ 0xFFFFFFFF → q = t.ptr + 1) := by
  cases m with
  | indirect | direct => exact ⟨t.ptr, t.fresh, rfl, fun _ => rfl, nofun⟩
  | autoInc =>
    by_cases htop : t.ptr = 0xFFFFFFFF
    · exact ⟨_, _, if_pos htop, nofun, fun _ h => absurd htop h⟩
    · exact ⟨_, _, Target.afterAccess_autoInc htop, nofun, fun _ _ => rfl⟩

/-- A run of loads that stays in the pointer's page loads a cell (45 R322). -/
theorem Target.loadBuffer_contract (hkind : t.kind = .contract) {a : Nat}
    (hrun : t.bufRun = none ∨ t.bufRun = some (pageStart c a, false)) (d : Byte) :
    t.loadBuffer c a d = t.loadCell c (pageStart c a) a d := by
  rcases hrun with hrun | hrun <;> simp [Target.loadBuffer, hkind, hrun]

theorem Target.read_loadCell_same (p a : Nat) (d : Byte) : (t.loadCell c p a d).buf.read (a % c.pageSize) = d :=
  (Memory.read_write _ _ _ _).trans (if_pos rfl)

theorem Target.read_loadCell_other {p : Nat} (hp : t.bufPage = some p) (a : Nat) (d : Byte) {x : Nat}
    (hx : x ≠ a % c.pageSize) : (t.loadCell c p a d).buf.read x = t.buf.read x := by
  simp only [Target.loadCell, hp, if_true]
  exact (Memory.read_write _ _ _ _).trans (if_neg hx)

theorem Target.loadStarted_contract {u : Target} (hkind : u.kind = .contract) :
    u.loadStarted = { u with working := true } := by
  simp [Target.loadStarted, hkind]

/-- A one-byte ST without a repeat is one execution. -/
theorem Target.Waiting.repeatedStore_once (hw : t.Waiting) (m : PtrMode) (opcode d : Byte) :
    t.repeatedStore c m opcode d = { t.storePointer c m d with repeated := false } := by
  obtain ⟨-, -, hrep, -⟩ := hw
  exact if_pos hrep

/-- ST under LoadFlashPageBuffer outside RT, within one page: the cell is loaded, and the load may run on (43_nvm
R245). -/
theorem Target.Waiting.repeatedStore_loads (hw : t.Waiting) (hkind : t.kind = .contract) (hready : t.nvmReady = true)
    (hcmd : t.cmd = nvmCode c .loadFlashPageBuffer)
    (hrun : t.bufRun = none ∨ t.bufRun = some (pageStart c t.ptr.toNat, false)) (m : PtrMode) (opcode d : Byte) :
    ∃ q n, t.repeatedStore c m opcode d =
        { t.loadCell c (pageStart c t.ptr.toNat) t.ptr.toNat d with
          working := true, repeated := false, ptr := q, fresh := n } ∧
      (m = .indirect → q = t.ptr) ∧ (m = .autoInc → t.ptr ≠ 0xFFFFFFFF → q = t.ptr + 1) := by
  rw [hw.repeatedStore_once, t.storePointer_loads c hcmd hready, Target.loadBuffer_contract hkind hrun,
    Target.loadStarted_contract (u := t.loadCell c _ _ d) hkind]
  obtain ⟨q, n, hq, hind, hinc⟩ :=
    Target.afterAccess_ptr { t.loadCell c (pageStart c t.ptr.toNat) t.ptr.toNat d with working := true } m
  exact ⟨q, n, by rw [hq], hind, hinc⟩

theorem Target.busy_of_nvmReady (hkind : t.kind = .contract) (hready : t.nvmReady = true) : t.busy = false := by
  simp only [Target.nvmReady, hkind, Bool.and_eq_true, Bool.not_eq_true'] at hready
  exact hready.2

end Loads

/-! ## The obligation -/

section Clauses
variable {t : Target} {c : Config} (hw : t.Waiting) (hkind : t.kind = .contract) (hready : t.nvmReady = true)
  (hdec : Decodable c)
include hw hkind hready

/-- A load of the page buffer (45 R322, 20_memory R85). -/
theorem Target.Waiting.buffer_load {i : Instr} {d : Byte} (hcmd : t.cmd = nvmCode c .loadFlashPageBuffer)
    (hi : i = .stInd d ∨ i = .stInc d)
    (hrun : t.bufRun = none ∨ t.bufRun = some (pageStart c t.ptr.toNat, false)) :
    ∃ q n, t.execute c i =
        { t.loadCell c (pageStart c t.ptr.toNat) t.ptr.toNat d with
          working := true, repeated := false, ptr := q, fresh := n } ∧
      (i = .stInd d → q = t.ptr) ∧ (i = .stInc d → t.ptr ≠ 0xFFFFFFFF → q = t.ptr + 1) := by
  rcases hi with rfl | rfl
  · obtain ⟨q, n, he, hind, -⟩ :=
      hw.repeatedStore_loads hkind hready hcmd hrun .indirect (stOpcode c .indirect) d
    exact ⟨q, n, he, fun _ => hind rfl, nofun⟩
  · obtain ⟨q, n, he, -, hinc⟩ := hw.repeatedStore_loads hkind hready hcmd hrun .autoInc (stOpcode c .autoInc) d
    exact ⟨q, n, he, nofun, fun _ => hinc rfl⟩

include hdec

variable (hwork : t.working = false) {a : Word} (d : Byte)
include hwork

theorem Target.Waiting.trigger_contract (ha : TriggerAddress c a) {k : NvmCommand} (hcmd : t.cmd = nvmCode c k) :
    t.execute c (.sts a d) = { t.triggerEffect c a d k with busy := true, underway := true } := by
  have heffect := t.triggerEffect_sameRegisters c a d k
  rw [hw.execute_trigger hdec (Target.nvmIdle_contract hkind hready hwork) hcmd ha,
    Target.started_contract (heffect.kind.trans hkind)]

/-- Whatever the command, the target is then busy, not lost, and has replied nothing (45 R319). -/
theorem Target.Waiting.trigger_registers (ha : TriggerAddress c a) {k : NvmCommand} (hcmd : t.cmd = nvmCode c k) :
    (t.execute c (.sts a d)).lost = false ∧ (t.execute c (.sts a d)).busy = true ∧
      (t.execute c (.sts a d)).replies = t.replies := by
  have heffect := t.triggerEffect_sameRegisters c a d k
  rw [hw.trigger_contract hkind hready hdec hwork d ha hcmd]
  obtain ⟨hlost, -⟩ := hw
  exact ⟨heffect.lost.trans hlost, rfl, heffect.replies⟩

/-- A page erase away from the fuses (45 R321). -/
theorem Target.Waiting.trigger_erasePage (ha : TriggerAddress c a) (hfuse : isFuse c a = false) {k : FlashSection}
    (hcmd : t.cmd = nvmCode c (erasePageCommand k)) :
    t.execute c (.sts a d) = { t.erasePage c a.toNat with busy := true, underway := true } := by
  have hscope : t.inScope c false a = true := by simp [t.inScope_contract c hkind, hfuse]
  rw [hw.trigger_contract hkind hready hdec hwork d ha hcmd, Target.triggerEffect_erasePage hscope]

/-- A page write away from the fuses (45 R322). -/
theorem Target.Waiting.trigger_writePage (ha : TriggerAddress c a) (hfuse : isFuse c a = false) {pre : Bool}
    {k : FlashSection} (hcmd : t.cmd = nvmCode c (writePageCommand pre k)) :
    t.execute c (.sts a d) = { t.writePage c pre a.toNat with busy := true, underway := true } := by
  have hscope : t.inScope c false a = true := by simp [t.inScope_contract c hkind, hfuse]
  rw [hw.trigger_contract hkind hready hdec hwork d ha hcmd, Target.triggerEffect_writePage hscope]

/-- WriteFuse at a fuse address (45 R321; entry 21). -/
theorem Target.Waiting.trigger_writeFuse (ha : TriggerAddress c a) (hfuse : isFuse c a = true)
    (hcmd : t.cmd = nvmCode c .writeFuse) :
    t.execute c (.sts a d) =
      { t.memWrite a d with fuse := t.fuse.write a.toNat d, busy := true, underway := true } := by
  have hscope : t.inScope c true a = true := by simp [t.inScope_contract c hkind, hfuse]
  have heffect : t.triggerEffect c a d .writeFuse = t.writeFuse a d := if_pos hscope
  have hwrite : t.writeFuse a d = { t.memWrite a d with fuse := t.fuse.write a.toNat d } := by
    simp [Target.writeFuse, hkind]
  rw [hw.trigger_contract hkind hready hdec hwork d ha hcmd, heffect, hwrite]

/-- ChipErase through CTRLA erases the App section (45 R323). -/
theorem Target.Waiting.execute_chipErase (hcmd : t.cmd = nvmCode c .chipErase)
    (hctrl : nvmAddress c .ctrlA ≠ nvmAddress c .cmd) :
    t.execute c (.sts (nvmAddress c .ctrlA) 0x01) =
      { ({ t with ctrlA := 0x01 } : Target).chipErase c with busy := true, underway := true } := by
  have hchip := ({ t with ctrlA := 0x01 } : Target).chipErase_sameRegisters c
  rw [hw.execute_ctrlA hdec (Target.nvmIdle_contract hkind hready hwork) hcmd hctrl]
  exact Target.started_contract (hchip.kind.trans hkind)

end Clauses

theorem Target.pageErased_chipErase {t : Target} {c : Config} (hkind : t.kind = .contract) {x : Nat}
    (hlow : c.appBase.toNat ≤ x) (hhigh : x + c.pageSize ≤ c.appBase.toNat + c.appSize)
    (hfit : x + c.pageSize ≤ 2 ^ 32) : (t.chipErase c).pageErased c x = true := by
  have hcover : (c.appBase.toNat, c.appBase.toNat + c.appSize) ∈ (t.chipErase c).erased := by
    simp [Target.chipErase, hkind]
  simp only [Target.pageErased, Bool.and_eq_true, decide_eq_true_eq, coversRange_iff]
  exact ⟨hfit, _, hcover, hlow, hhigh⟩

/-- Settles O54, clause by clause. -/
theorem alignedPageCommandsStayInThePage : Obligations.AlignedPageCommandsStayInThePage := by
  intro t c hw hkind hready hdec _
  refine ⟨?loads, ?pageCommands, ?writeFuse, ?atFuses, ?chipErase⟩
  case loads =>
    rintro i d p hcmd hi rfl hrun u rfl
    obtain ⟨q, n, he, hind, hinc⟩ := hw.buffer_load hkind hready hcmd hi hrun
    obtain ⟨hlost, hpending, hrep, -, hfed⟩ := hw
    rw [he]
    exact ⟨⟨hlost, hpending, hrep, rfl, hfed⟩, rfl, rfl, rfl, rfl, rfl, Target.read_loadCell_same _ _ d,
      fun hp x hx => Target.read_loadCell_other hp _ d hx, rfl, Target.busy_of_nvmReady hkind hready, hind, hinc⟩
  case pageCommands =>
    rintro a d k pre hwork ha hfuse halign hfit hcross hcmd u rfl
    have herase := hw.trigger_erasePage hkind hready hdec hwork d ha hfuse (k := k)
    have hwrite := hw.trigger_writePage hkind hready hdec hwork d ha hfuse (pre := pre) (k := k)
    obtain ⟨hlost, hbusy, -⟩ := hcmd.elim (hw.trigger_registers hkind hready hdec hwork d ha)
      (hw.trigger_registers hkind hready hdec hwork d ha)
    have hdiffers : t.DiffersInPage c a.toNat (t.execute c (.sts a d)) := by
      rcases hcmd with hcmd | hcmd
      · obtain ⟨hfuses, hmem⟩ := Target.erasePage_differsInPage hkind halign hfit
        exact herase hcmd ▸ ⟨hfuses, hmem⟩
      · obtain ⟨hfuses, hmem⟩ := Target.writePage_differsInPage hkind halign hfit hcross pre
        exact hwrite hcmd ▸ ⟨hfuses, hmem⟩
    refine ⟨hlost, hbusy, hdiffers.fuse, hdiffers.mem, fun hcmd => ?_, fun hcmd hpage herased x hx => ?_⟩
    · rw [herase hcmd]
      exact ⟨Target.pageErased_erasePage hkind halign hfit, Target.erasePage_buffer hkind halign⟩
    · rw [hwrite hcmd]
      exact Target.writePage_commits hkind halign hfit hcross hpage herased hx
  case writeFuse =>
    rintro a d hcmd hwork ha u rfl
    obtain ⟨hlost, hbusy, hreplies⟩ := hw.trigger_registers hkind hready hdec hwork d ha hcmd
    refine ⟨hlost, hbusy, hreplies, fun hfuse => ?_⟩
    rw [hw.trigger_writeFuse hkind hready hdec hwork d ha hfuse hcmd]
    exact ⟨rfl, rfl, fun x => ⟨Memory.read_write _ _ _ x, Memory.read_write _ _ _ x⟩⟩
  case atFuses =>
    rintro a d k pre hwork ha - hcmd u rfl
    rcases hcmd with hcmd | hcmd <;> exact hw.trigger_registers hkind hready hdec hwork d ha hcmd
  case chipErase =>
    rintro hwork hcmd hctrl u rfl
    have hchip := ({ t with ctrlA := 0x01 } : Target).chipErase_sameRegisters c
    rw [hw.execute_chipErase hkind hready hdec hwork hcmd hctrl]
    obtain ⟨hlost, -⟩ := hw
    exact ⟨hchip.lost.trans hlost, rfl, fun x hlow hhigh hfit =>
      Target.pageErased_chipErase (t := { t with ctrlA := 0x01 }) hkind hlow hhigh hfit⟩

end Sys2Proof.Machine
end

section
/-!
30_encoding R109, R112, R117, 45_target_contract R310, R311: how the target takes in the wire bytes of an instruction. A
decoder that has read an instruction to its last byte asked for more at every byte before, so the target executes the
instruction on its last byte; then the bytes of the instructions of the page sequences.
-/

namespace Sys2Proof

/-! ## Byte order -/

@[simp] theorem ofLe2_byteAt (v : Word16) : ofLe2 (byteAt 0 v) (byteAt 1 v) = v := by
  apply BitVec.eq_of_getLsbD_eq
  intro i hi
  simp only [ofLe2, byteAt, BitVec.getLsbD_append, BitVec.getLsbD_extractLsb']
  grind

@[simp] theorem ofLe4_byteAt (v : Word) : ofLe4 (byteAt 0 v) (byteAt 1 v) (byteAt 2 v) (byteAt 3 v) = v := by
  apply BitVec.eq_of_getLsbD_eq
  intro i hi
  simp only [ofLe4, byteAt, BitVec.getLsbD_append, BitVec.getLsbD_extractLsb']
  grind

/-! ## Decoding up to the last byte -/

/-- A decoder that has read an instruction to its last byte asks for more where it has fewer bytes. -/
def AsksForMore (f : List Byte → Decoded) : Prop :=
  ∀ (as : List Byte) (b : Byte) (bs : List Byte) (i : Instr),
    f (as ++ b :: bs) = .ok i [] → f as = .reject .needMore

theorem asksForMore_noOperand (j : Instr) : AsksForMore (noOperand j) := by
  intro as b bs i h
  simp [noOperand] at h

theorem asksForMore_operand1 (f : Byte → Instr) : AsksForMore (operand1 f)
  | [], _, _, _, _ => rfl
  | _ :: _, _, _, _, h => by simp [operand1] at h

theorem asksForMore_operand2 (f : Word16 → Instr) : AsksForMore (operand2 f)
  | [], _, _, _, _ | [_], _, _, _, _ => rfl
  | _ :: _ :: _, _, _, _, h => by simp [operand2] at h

theorem asksForMore_operand4 (f : Word → Instr) : AsksForMore (operand4 f)
  | [], _, _, _, _ | [_], _, _, _, _ | [_, _], _, _, _, _ | [_, _, _], _, _, _, _ => rfl
  | _ :: _ :: _ :: _ :: _, _, _, _, h => by simp [operand4] at h

theorem asksForMore_operand4then1 (f : Word → Byte → Instr) : AsksForMore (operand4then1 f)
  | [], _, _, _, _ | [_], _, _, _, _ | [_, _], _, _, _, _ | [_, _, _], _, _, _, _ | [_, _, _, _], _, _, _, _ => rfl
  | _ :: _ :: _ :: _ :: _ :: _, _, _, _, h => by simp [operand4then1] at h

theorem asksForMore_operandKey (f : List Byte → Instr) : AsksForMore (operandKey f)
  | [], _, _, _, _ | [_], _, _, _, _ | [_, _], _, _, _, _ | [_, _, _], _, _, _, _ | [_, _, _, _], _, _, _, _
  | [_, _, _, _, _], _, _, _, _ | [_, _, _, _, _, _], _, _, _, _ | [_, _, _, _, _, _, _], _, _, _, _ => rfl
  | _ :: _ :: _ :: _ :: _ :: _ :: _ :: _ :: _, _, _, _, h => by simp [operandKey] at h

theorem AsksForMore.ite {p : Prop} [Decidable p] {f g : List Byte → Decoded} (hf : AsksForMore f)
    (hg : AsksForMore g) : AsksForMore fun bs => if p then f bs else g bs := by
  intro as b bs i h
  by_cases hp : p
  · simp only [if_pos hp] at h ⊢
    exact hf as b bs i h
  · simp only [if_neg hp] at h ⊢
    exact hg as b bs i h

theorem asksForMore_decodePdiOpcode (c : Config) (op : Byte) : AsksForMore (decodePdiOpcode c op) := by
  have hnone : AsksForMore fun _ => .reject (.unknownOpcode op) := fun _ _ _ _ h => nomatch h
  unfold decodePdiOpcode
  exact .ite (asksForMore_operand4 _) <| .ite (asksForMore_operand4then1 _) <|
    .ite (asksForMore_noOperand _) <| .ite (asksForMore_noOperand _) <| .ite (asksForMore_noOperand _) <|
    .ite (asksForMore_operand1 _) <| .ite (asksForMore_operand1 _) <| .ite (asksForMore_operand1 _) <|
    .ite (asksForMore_operand4 _) <| .ite (asksForMore_operand4 _) <| .ite (asksForMore_operand4 _) <|
    .ite (asksForMore_operand1 _) <| .ite (asksForMore_operand2 _) <| .ite (asksForMore_operandKey _) <|
    .ite (asksForMore_noOperand _) <| .ite (asksForMore_operand1 _) hnone

theorem asksForMore_decodePdi (c : Config) : AsksForMore (decodePdi c)
  | [], _, _, _, _ => rfl
  | op :: as, b, bs, i, h => asksForMore_decodePdiOpcode c op as b bs i h

end Sys2Proof

namespace Sys2Proof.Machine

/-! ## Receiving an instruction -/

section Receiving
variable {t : Target} {c : Config}

@[simp] theorem Target.receiveAll_nil (t : Target) (c : Config) : t.receiveAll c [] = t := rfl

theorem Target.receiveAll_cons (t : Target) (c : Config) (b : Byte) (bs : List Byte) :
    t.receiveAll c (b :: bs) = (t.receive c b).receiveAll c bs := rfl

theorem Target.receive_needMore (hl : t.lost = false) {b : Byte}
    (h : decodePdi c (t.pending ++ [b]) = .reject .needMore) :
    t.receive c b = { t with pending := t.pending ++ [b] } := by
  simp [Target.receive, hl, h]

theorem Target.receive_ok (hl : t.lost = false) {b : Byte} {i : Instr} {rest : List Byte}
    (h : decodePdi c (t.pending ++ [b]) = .ok i rest) : t.receive c b = { t with pending := [] }.execute c i := by
  simp [Target.receive, hl, h]

/-- An instruction whose first bytes are pending is executed when the others have come. -/
theorem Target.receiveAll_completes (hl : t.lost = false) {bs : List Byte} (hne : bs ≠ []) {i : Instr}
    (h : decodePdi c (t.pending ++ bs) = .ok i []) :
    t.receiveAll c bs = { t with pending := [] }.execute c i := by
  induction bs generalizing t with
  | nil => exact absurd rfl hne
  | cons b bs ih =>
    have hsplit : t.pending ++ b :: bs = t.pending ++ [b] ++ bs := by simp
    rw [hsplit] at h
    rw [Target.receiveAll_cons]
    cases bs with
    | nil => exact Target.receive_ok hl (by simpa using h)
    | cons b' bs =>
      rw [Target.receive_needMore hl (asksForMore_decodePdi c _ b' bs i h)]
      exact ih (t := { t with pending := t.pending ++ [b] }) hl (by simp) h

theorem Target.Waiting.receiveAll_instr (hw : t.Waiting) {bs : List Byte} {i : Instr}
    (h : decodePdi c bs = .ok i []) : t.receiveAll c bs = t.execute c i := by
  have hne : bs ≠ [] := by rintro rfl; cases h
  obtain ⟨hlost, hpending, -⟩ := hw
  rw [Target.receiveAll_completes hlost hne (by rwa [hpending]), ← hpending]

end Receiving

/-! ## The opcodes of the page sequences -/

section Opcodes
variable {c : Config} (h : Decodable c)
include h

/-- An opcode differs from each one that the decoder tests before it. -/
theorem Decodable.opcodes_differ : (fixedOpcodes c).reverse.Pairwise (· ≠ ·) := List.nodup_reverse.2 h.1

theorem Decodable.decodePdiOpcode_eq (rest : List Byte) :
    decodePdiOpcode c c.opSts rest = operand4then1 .sts rest ∧
      decodePdiOpcode c (stPtr4Opcode c .direct) rest = operand4 .stPtr rest ∧
      decodePdiOpcode c (ldOpcode c .autoInc) rest = noOperand .ldInc rest ∧
      decodePdiOpcode c (stOpcode c .autoInc) rest = operand1 .stInc rest ∧
      decodePdiOpcode c c.opRepeat2 rest = operand2 .repeatW rest := by
  have hne := h.opcodes_differ
  simp only [fixedOpcodes, List.reverse_cons, List.reverse_nil, List.nil_append, List.cons_append,
    List.pairwise_cons, List.mem_cons, forall_eq_or_imp] at hne
  simp [decodePdiOpcode, hne]

theorem Decodable.decodePdi_sts (a : Word) (d : Byte) : decodePdi c (stsBytes c a d) = .ok (.sts a d) [] := by
  simp [stsBytes, decodePdi, h.decodePdiOpcode_eq, le4, operand4then1]

theorem Decodable.decodePdi_stPtr (a : Word) : decodePdi c (pointerBytes c a) = .ok (.stPtr a) [] := by
  simp [pointerBytes, decodePdi, h.decodePdiOpcode_eq, le4, operand4]

theorem Decodable.decodePdi_ldInc : decodePdi c [ldOpcode c .autoInc] = .ok .ldInc [] := by
  simp [decodePdi, h.decodePdiOpcode_eq, noOperand]

theorem Decodable.decodePdi_stInc (d : Byte) : decodePdi c [stOpcode c .autoInc, d] = .ok (.stInc d) [] := by
  simp [decodePdi, h.decodePdiOpcode_eq, operand1]

theorem Decodable.decodePdi_repeatW (n : Word16) : decodePdi c (c.opRepeat2 :: le2 n) = .ok (.repeatW n) [] := by
  simp [decodePdi, h.decodePdiOpcode_eq, le2, operand2]

end Opcodes

end Sys2Proof.Machine
end

section
/-!
20_memory R85, 45_target_contract R324 to R326: what the bytes of the page sequences do on the reference target, one
instruction or command at a time, and the page round trip they make together. Settles O51.
-/

namespace Sys2Proof.Machine

/-! ## Bytes loaded into the page buffer -/

/-- The bytes loaded one after another from the address `a` on, each into the cell of its address in its page. -/
def Memory.loadCells (m : Memory) (c : Config) (a : Nat) : List Byte → Memory
  | [] => m
  | d :: ds => (m.write (a % c.pageSize) d).loadCells c (a + 1) ds

/-- Loads that do not leave the page fill its cells from the first one's on. -/
theorem Memory.read_loadCells (m : Memory) {c : Config} {a r : Nat} {ds : List Byte}
    (h : ∀ k < ds.length, (a + k) % c.pageSize = r + k) (x : Nat) :
    (m.loadCells c a ds).read x = if x < r then m.read x else ds.getD (x - r) (m.read x) := by
  induction ds generalizing m a r with
  | nil => simp [Memory.loadCells]
  | cons d ds ih =>
    have hfirst : a % c.pageSize = r := h 0 (by simp)
    have hrest : ∀ k < ds.length, (a + 1 + k) % c.pageSize = r + 1 + k := fun k hk => by
      rw [Nat.add_right_comm, Nat.add_assoc, Nat.add_right_comm r, Nat.add_assoc]
      exact h (k + 1) (by simpa using hk)
    rw [Memory.loadCells, ih _ hrest, Memory.read_write, hfirst]
    rcases Nat.lt_trichotomy x r with hx | rfl | hx
    · simp [hx, Nat.lt_succ_of_lt hx, hx.ne]
    · simp
    · obtain ⟨k, rfl⟩ := Nat.exists_eq_add_of_lt hx
      rw [if_neg (by omega), if_neg (by omega), if_neg (by omega), show r + k + 1 - (r + 1) = k by omega,
        show r + k + 1 - r = k + 1 by omega]
      rfl

/-! ## One instruction -/

section Instructions
variable {t : Target} {c : Config} (hw : t.Waiting) (hdec : Decodable c)
include hw hdec

theorem Target.Waiting.receiveAll_sts (a : Word) (d : Byte) :
    t.receiveAll c (stsBytes c a d) = t.execute c (.sts a d) :=
  hw.receiveAll_instr (hdec.decodePdi_sts a d)

theorem Target.Waiting.receiveAll_pointer (a : Word) :
    t.receiveAll c (pointerBytes c a) = { t with ptr := a, bufRun := none } := by
  rw [hw.receiveAll_instr (hdec.decodePdi_stPtr a), Target.execute_stPtr, hw.unrepeated]

/-- The REPEAT before `n + 1` executions leaves the count, or none is sent. -/
theorem Target.Waiting.receiveAll_repeat {n : Nat} :
    ∃ r, t.receiveAll c (repeatBytes c (n + 1)) = { t with rep := BitVec.ofNat 16 n, repeated := r } := by
  cases n with
  | zero =>
    obtain ⟨-, -, hrep, -⟩ := hw
    have hcount : BitVec.ofNat 16 0 = t.rep := hrep.symm
    exact ⟨t.repeated, by rw [hcount]; rfl⟩
  | succ n =>
    refine ⟨(t.repeatNext (BitVec.ofNat 16 (n + 1))).repeated, ?_⟩
    rw [repeatBytes, if_pos (by omega), hw.receiveAll_instr (hdec.decodePdi_repeatW _), Target.execute_repeatW,
      hw.unrepeated]
    rfl

end Instructions

section Reference
variable {t : Target} {c : Config} (hw : t.Waiting) (hkind : t.kind = .reference) (hdec : Decodable c)

include hkind

theorem Target.nvmIdle_reference : t.nvmIdle = true := by simp [Target.nvmIdle, hkind]

theorem Target.nvmReady_reference : t.nvmReady = true := by simp [Target.nvmReady, hkind]

theorem Target.started_reference : t.started = t := by simp [Target.started, hkind]

/-! ## Commands -/

include hw hdec

/-- `writeCommand` (43_nvm R245). -/
theorem Target.Waiting.receiveAll_select (k : NvmCommand) :
    t.receiveAll c (stsBytes c (nvmAddress c .cmd) (nvmCode c k)) = { t with cmd := nvmCode c k } := by
  rw [hw.receiveAll_sts hdec, Target.execute_sts, hw.unrepeated]
  simp [Target.storeDirect, Target.storeRegister, Target.nvmIdle_reference hkind]

/-- A command selected and then started by an STS at an NVM address. -/
theorem Target.Waiting.receiveAll_triggered {a : Word} (ha : TriggerAddress c a) (d : Byte) (k : NvmCommand) :
    t.receiveAll c (stsBytes c (nvmAddress c .cmd) (nvmCode c k) ++ stsBytes c a d) =
      ({ t with cmd := nvmCode c k } : Target).triggerEffect c a d k := by
  have hselected : ({ t with cmd := nvmCode c k } : Target).Waiting := hw
  have heffect := ({ t with cmd := nvmCode c k } : Target).triggerEffect_sameRegisters c a d k
  rw [Target.receiveAll_append, hw.receiveAll_select hkind hdec, hselected.receiveAll_sts hdec,
    hselected.execute_trigger hdec (Target.nvmIdle_reference hkind) rfl ha]
  exact Target.started_reference (heffect.kind.trans hkind)

theorem Target.Waiting.receiveAll_erasePage {a : Word} (ha : TriggerAddress c a) (d : Byte) (sec : FlashSection) :
    t.receiveAll c (stsBytes c (nvmAddress c .cmd) (nvmCode c (erasePageCommand sec)) ++ stsBytes c a d) =
      { t with
        cmd := nvmCode c (erasePageCommand sec)
        mem := t.mem.fill (pageStart c a.toNat) (fun _ => 0xFF) c.pageSize } := by
  have hscope := Target.inScope_reference { t with cmd := nvmCode c (erasePageCommand sec) } c hkind false a
  rw [hw.receiveAll_triggered hkind hdec ha, Target.triggerEffect_erasePage hscope]
  simp [Target.erasePage, hkind]

theorem Target.Waiting.receiveAll_writePage {a : Word} (ha : TriggerAddress c a) (d : Byte) (pre : Bool)
    (sec : FlashSection) :
    t.receiveAll c (stsBytes c (nvmAddress c .cmd) (nvmCode c (writePageCommand pre sec)) ++ stsBytes c a d) =
      { t with
        cmd := nvmCode c (writePageCommand pre sec)
        mem := t.mem.fill (pageStart c a.toNat) (t.programmed c pre) c.pageSize } := by
  have hscope := Target.inScope_reference { t with cmd := nvmCode c (writePageCommand pre sec) } c hkind false a
  rw [hw.receiveAll_triggered hkind hdec ha, Target.triggerEffect_writePage hscope]
  simp only [Target.writePage, hkind]
  rfl

variable (hctrl : nvmAddress c .ctrlA ≠ nvmAddress c .cmd)
include hctrl

/-- `execCommand` (43_nvm R246, R247). -/
theorem Target.Waiting.receiveAll_executed (k : NvmCommand) :
    t.receiveAll c (stsBytes c (nvmAddress c .cmd) (nvmCode c k) ++ stsBytes c (nvmAddress c .ctrlA) 0x01) =
      (({ t with cmd := nvmCode c k, ctrlA := 0x01 } : Target).runEffect c k).started := by
  have hselected : ({ t with cmd := nvmCode c k } : Target).Waiting := hw
  rw [Target.receiveAll_append, hw.receiveAll_select hkind hdec, hselected.receiveAll_sts hdec,
    hselected.execute_ctrlA hdec (Target.nvmIdle_reference hkind) rfl hctrl]

theorem Target.Waiting.receiveAll_eraseBuffer :
    t.receiveAll c (stsBytes c (nvmAddress c .cmd) (nvmCode c .eraseFlashPageBuffer) ++
        stsBytes c (nvmAddress c .ctrlA) 0x01) =
      { t with cmd := nvmCode c .eraseFlashPageBuffer, ctrlA := 0x01, buf := ⟨.erased, []⟩ } := by
  rw [hw.receiveAll_executed hkind hdec hctrl]
  simp [Target.runEffect, Target.eraseBuffer, Target.started, hkind]

theorem Target.Waiting.receiveAll_chipErase :
    t.receiveAll c (stsBytes c (nvmAddress c .cmd) (nvmCode c .chipErase) ++ stsBytes c (nvmAddress c .ctrlA) 0x01) =
      { t with cmd := nvmCode c .chipErase, ctrlA := 0x01, mem := ⟨.erased, []⟩ } := by
  rw [hw.receiveAll_executed hkind hdec hctrl]
  simp [Target.runEffect, Target.chipErase, Target.started, hkind]

end Reference

/-! ## Repeated stores into the page buffer -/

theorem ne_top_of_toNat_lt {a : Word} (h : a.toNat + 1 < 2 ^ 32) : a ≠ 0xFFFFFFFF := by
  rintro rfl
  exact absurd h (by decide)

theorem toNat_add_one {a : Word} (h : a.toNat + 1 < 2 ^ 32) : (a + 1).toNat = a.toNat + 1 := by
  rw [BitVec.toNat_add]
  exact Nat.mod_eq_of_lt h

/-- The opcode of ST_INC alone is no instruction yet (30_encoding R117). -/
theorem Target.receive_stOpcode {t : Target} {c : Config} (hdec : Decodable c) (hlost : t.lost = false)
    (hpending : t.pending = []) :
    t.receive c (stOpcode c .autoInc) = { t with pending := [stOpcode c .autoInc] } := by
  have hmore := asksForMore_decodePdi c [stOpcode c .autoInc] 0 [] _ (hdec.decodePdi_stInc 0)
  rw [Target.receive_needMore hlost (by rwa [hpending]), hpending]
  rfl

section Loading
variable {t : Target} {c : Config} (hkind : t.kind = .reference) (hcmd : t.cmd = nvmCode c .loadFlashPageBuffer)
include hkind hcmd

/-- One execution of ST_INC under LoadFlashPageBuffer (45 R322, R326). -/
theorem Target.storePointer_reference (hptr : t.ptr.toNat + 1 < 2 ^ 32) (d : Byte) :
    t.storePointer c .autoInc d =
      { t with buf := t.buf.write (t.ptr.toNat % c.pageSize) d, ptr := t.ptr + 1 } := by
  rw [t.storePointer_loads c hcmd (Target.nvmReady_reference hkind)]
  simp only [Target.loadBuffer, Target.loadStarted, hkind]
  exact Target.afterAccess_autoInc (ne_top_of_toNat_lt hptr)

variable (hdec : Decodable c) (hlost : t.lost = false) (hpending : t.pending = [stOpcode c .autoInc])
include hdec hlost hpending

/-- A data byte after the opcode of ST_INC while its repeat lasts: the opcode stays pending (45 R312). -/
theorem Target.receive_stored (hptr : t.ptr.toNat + 1 < 2 ^ 32) (hmore : t.rep ≠ 0) (d : Byte) :
    t.receive c d =
      { t with
        buf := t.buf.write (t.ptr.toNat % c.pageSize) d, ptr := t.ptr + 1, rep := t.rep - 1
        pending := [stOpcode c .autoInc] } := by
  have hstore := Target.storePointer_reference (t := { t with pending := [] }) hkind hcmd hptr d
  rw [Target.receive_ok hlost (by rw [hpending]; exact hdec.decodePdi_stInc d), Target.execute_stInc,
    Target.repeatedStore, hstore]
  simp only [hmore, hlost, Bool.false_eq_true, if_false]

/-- The last data byte ends the repeat. -/
theorem Target.receive_storedLast (hptr : t.ptr.toNat + 1 < 2 ^ 32) (hlast : t.rep = 0) (d : Byte) :
    t.receive c d =
      { t with
        buf := t.buf.write (t.ptr.toNat % c.pageSize) d, ptr := t.ptr + 1, repeated := false, pending := [] } := by
  have hstore := Target.storePointer_reference (t := { t with pending := [] }) hkind hcmd hptr d
  rw [Target.receive_ok hlost (by rw [hpending]; exact hdec.decodePdi_stInc d), Target.execute_stInc,
    Target.repeatedStore, hstore]
  simp [hlast]

/-- All data bytes of a repeated ST_INC whose opcode has come. -/
theorem Target.receiveAll_stored (d : Byte) {ds : List Byte} (hrep : t.rep = BitVec.ofNat 16 ds.length)
    (hlen : ds.length < 65536) (hptr : t.ptr.toNat + ds.length + 1 < 2 ^ 32) :
    t.receiveAll c (d :: ds) =
      { t with
        ptr := t.ptr + BitVec.ofNat 32 (ds.length + 1), buf := t.buf.loadCells c t.ptr.toNat (d :: ds)
        rep := 0, repeated := false, pending := [] } := by
  induction ds generalizing t d with
  | nil =>
    have hlast : t.rep = 0 := hrep
    rw [Target.receiveAll_cons, Target.receive_storedLast hkind hcmd hdec hlost hpending hptr hlast d, ← hlast]
    rfl
  | cons d' ds ih =>
    have hlen' : ds.length + 1 < 65536 := hlen
    have hptr' : t.ptr.toNat + (ds.length + 1) + 1 < 2 ^ 32 := hptr
    have hnext : (t.ptr + 1).toNat = t.ptr.toNat + 1 := toNat_add_one (by omega)
    have hend : t.ptr + 1 + BitVec.ofNat 32 (ds.length + 1) = t.ptr + BitVec.ofNat 32 (ds.length + 1 + 1) := by
      rw [BitVec.add_assoc, BitVec.add_comm 1]
      exact congrArg _ (BitVec.ofNat_add (ds.length + 1) 1).symm
    have hcount : t.rep - 1 = BitVec.ofNat 16 ds.length := by
      rw [hrep, List.length_cons, BitVec.ofNat_add]
      exact BitVec.add_sub_cancel _ _
    have hmore : t.rep ≠ 0 := by
      rw [hrep, ← BitVec.toNat_inj.ne, List.length_cons, BitVec.toNat_ofNat, Nat.mod_eq_of_lt hlen']
      exact Nat.succ_ne_zero _
    have hrest := ih
      (t := { t with
        buf := t.buf.write (t.ptr.toNat % c.pageSize) d, ptr := t.ptr + 1, rep := t.rep - 1
        pending := [stOpcode c .autoInc] })
      hkind hcmd hlost rfl d' hcount (by omega) (by dsimp only; omega)
    rw [Target.receiveAll_cons, Target.receive_stored hkind hcmd hdec hlost hpending (by omega) hmore d, hrest]
    simp only [hend, hnext, Memory.loadCells, List.length_cons]

end Loading

/-- `bulkStore` of the data of a page under LoadFlashPageBuffer (41_encoder R178). -/
theorem Target.Waiting.receiveAll_bulkStore {t : Target} {c : Config} (hw : t.Waiting) (hkind : t.kind = .reference)
    (hdec : Decodable c) (hcmd : t.cmd = nvmCode c .loadFlashPageBuffer) {ds : List Byte} (hlen : ds.length ≤ 65536)
    (hptr : t.ptr.toNat + ds.length < 2 ^ 32) :
    t.receiveAll c (bulkStoreBytes c .autoInc ds) =
      { t with ptr := t.ptr + BitVec.ofNat 32 ds.length, buf := t.buf.loadCells c t.ptr.toNat ds } := by
  cases ds with
  | nil => simp [bulkStoreBytes, Memory.loadCells]
  | cons d ds =>
    have hlen' : ds.length + 1 ≤ 65536 := hlen
    obtain ⟨r, hrepeat⟩ := hw.receiveAll_repeat hdec (n := ds.length)
    obtain ⟨hlost, hpending, hrep, hrepeated, -⟩ := hw
    have hopcode := Target.receive_stOpcode (t := { t with rep := BitVec.ofNat 16 ds.length, repeated := r })
      hdec hlost hpending
    have hstored := Target.receiveAll_stored
      (t := { t with rep := BitVec.ofNat 16 ds.length, repeated := r, pending := [stOpcode c .autoInc] })
      hkind hcmd hdec hlost rfl d (ds := ds) rfl (by omega) hptr
    rw [bulkStoreBytes, if_neg (List.cons_ne_nil d ds), Target.receiveAll_append, List.length_cons, hrepeat,
      Target.receiveAll_cons, hopcode, hstored]
    simp only [← hrep, ← hrepeated, ← hpending]

/-- The wire bytes of `writeBuffer` after its wait (44_flash_fuse R276). -/
theorem Target.Waiting.receiveAll_loadBuffer {t : Target} {c : Config} (hw : t.Waiting) (hkind : t.kind = .reference)
    (hdec : Decodable c) {a : Word} {ds : List Byte} (hlen : ds.length ≤ 65536)
    (hfit : a.toNat + ds.length < 2 ^ 32) :
    t.receiveAll c (loadBufferBytes c a ds) =
      { t with
        cmd := nvmCode c .loadFlashPageBuffer, ptr := a + BitVec.ofNat 32 ds.length, bufRun := none
        buf := t.buf.loadCells c a.toNat ds } := by
  have hselected : ({ t with cmd := nvmCode c .loadFlashPageBuffer } : Target).Waiting := hw
  have hpointed : ({ t with cmd := nvmCode c .loadFlashPageBuffer, ptr := a, bufRun := none } : Target).Waiting := hw
  rw [loadBufferBytes, Target.receiveAll_append, Target.receiveAll_append, hw.receiveAll_select hkind hdec,
    hselected.receiveAll_pointer hdec, hpointed.receiveAll_bulkStore hkind hdec rfl hlen hfit]

/-! ## Reading back -/

section Reading
variable {t : Target} {c : Config} (hkind : t.kind = .reference) (hcmd : t.cmd = nvmCode c .readNvm)
include hkind hcmd

/-- One execution of LD_INC under ReadNvm (45 R314, R320, R326). -/
theorem Target.loadPointer_reference (hreg : NoRegister c t.ptr) (hptr : t.ptr.toNat + 1 < 2 ^ 32) :
    t.loadPointer c .autoInc = { t with replies := t.replies ++ [t.mem.read t.ptr.toNat], ptr := t.ptr + 1 } := by
  have hreads : t.Reads c false t.ptr :=
    ⟨hreg, Target.replyStated_reference hkind, fun _ => ⟨Target.nvmReady_reference hkind, .inr hcmd⟩⟩
  have hquiet : (t.working || t.startsRead c t.ptr) = t.working := by simp [Target.startsRead, hkind]
  rw [Target.loadPointer, Target.load_reads t c hreads, hquiet]
  exact Target.afterAccess_autoInc (ne_top_of_toNat_lt hptr)

theorem Target.loadPointerTimes_replies {n : Nat} (hptr : t.ptr.toNat + n < 2 ^ 32)
    (hreg : ∀ k < n, NoRegister c (t.ptr + BitVec.ofNat 32 k)) :
    (t.loadPointerTimes c .autoInc n).replies =
      t.replies ++ (List.range n).map fun k => t.mem.read (t.ptr.toNat + k) := by
  induction n generalizing t with
  | zero => simp [Target.loadPointerTimes]
  | succ n ih =>
    have hfirst : NoRegister c t.ptr := by simpa using hreg 0 (by omega)
    have hnext : (t.ptr + 1).toNat = t.ptr.toNat + 1 := toNat_add_one (by omega)
    have hrest : ∀ k < n, NoRegister c (t.ptr + 1 + BitVec.ofNat 32 k) := fun k hk => by
      have hk' : t.ptr + 1 + BitVec.ofNat 32 k = t.ptr + BitVec.ofNat 32 (k + 1) := by
        rw [BitVec.add_assoc, BitVec.add_comm 1]
        exact congrArg _ (BitVec.ofNat_add k 1).symm
      exact hk' ▸ hreg (k + 1) (by omega)
    have hloaded := ih
      (t := { t with replies := t.replies ++ [t.mem.read t.ptr.toNat], ptr := t.ptr + 1 })
      hkind hcmd (by dsimp only; omega) hrest
    rw [Target.loadPointerTimes, Target.loadPointer_reference hkind hcmd hfirst (by omega), hloaded]
    simp only [hnext, List.range_succ_eq_map, List.map_cons, List.map_map, List.append_assoc, List.singleton_append,
      Nat.add_zero, Function.comp_def, Nat.succ_eq_add_one, Nat.add_assoc, Nat.add_comm 1]

end Reading

/-- `bulkLoad` under ReadNvm (41_encoder R177). -/
theorem Target.Waiting.receiveAll_bulkLoad {t : Target} {c : Config} (hw : t.Waiting) (hkind : t.kind = .reference)
    (hdec : Decodable c) (hcmd : t.cmd = nvmCode c .readNvm) {n : Nat} (hlen : n ≤ 65536)
    (hptr : t.ptr.toNat + n < 2 ^ 32) (hreg : ∀ k < n, NoRegister c (t.ptr + BitVec.ofNat 32 k)) :
    (t.receiveAll c (bulkLoadBytes c .autoInc n)).replies =
      t.replies ++ (List.range n).map fun k => t.mem.read (t.ptr.toNat + k) := by
  cases n with
  | zero => simp [bulkLoadBytes]
  | succ n =>
    obtain ⟨r, hrepeat⟩ := hw.receiveAll_repeat hdec (n := n)
    obtain ⟨hlost, hpending, -⟩ := hw
    have hcount : (BitVec.ofNat 16 n).toNat + 1 = n + 1 := by
      rw [BitVec.toNat_ofNat, Nat.mod_eq_of_lt (by omega)]
    have hload := Target.loadPointerTimes_replies
      (t := { t with rep := BitVec.ofNat 16 n, repeated := r, pending := [] }) hkind hcmd hptr hreg
    have hopcode := Target.receiveAll_completes (t := { t with rep := BitVec.ofNat 16 n, repeated := r }) (c := c) hlost
      (List.cons_ne_nil _ _) (by rw [hpending]; exact hdec.decodePdi_ldInc)
    rw [bulkLoadBytes, if_neg (Nat.succ_ne_zero n), Target.receiveAll_append, hrepeat, hopcode, Target.execute_ldInc,
      Target.repeatedLoad]
    dsimp only
    rw [hcount, hload]

/-- The wire bytes of `readMemory` after its wait (43_nvm R250). -/
theorem Target.Waiting.receiveAll_readBack {t : Target} {c : Config} (hw : t.Waiting) (hkind : t.kind = .reference)
    (hdec : Decodable c) {a : Word} {n : Nat} (hlen : n ≤ 65536) (hfit : a.toNat + n < 2 ^ 32)
    (hreg : ∀ k < n, NoRegister c (a + BitVec.ofNat 32 k)) :
    (t.receiveAll c (stsBytes c (nvmAddress c .cmd) (nvmCode c .readNvm) ++ pointerBytes c a ++
        bulkLoadBytes c .autoInc n)).replies =
      t.replies ++ (List.range n).map fun k => t.mem.read (a.toNat + k) := by
  have hselected : ({ t with cmd := nvmCode c .readNvm } : Target).Waiting := hw
  have hpointed : ({ t with cmd := nvmCode c .readNvm, ptr := a, bufRun := none } : Target).Waiting := hw
  rw [Target.receiveAll_append, Target.receiveAll_append, hw.receiveAll_select hkind hdec,
    hselected.receiveAll_pointer hdec]
  exact hpointed.receiveAll_bulkLoad hkind hdec rfl hlen hfit hreg

/-! ## The round trip -/

section RoundTrip
variable {t : Target} {c : Config} (hw : t.Waiting) (hkind : t.kind = .reference) (hdec : Decodable c)
  (hctrl : nvmAddress c .ctrlA ≠ nvmAddress c .cmd) {a : Word} (ha : TriggerAddress c a)
include hw hkind hdec hctrl ha

/-- Each of the three ways of erasing a page leaves the rest of the target but CMD and CTRLA. -/
theorem Target.Waiting.receiveAll_erased (halign : a.toNat % c.pageSize = 0) (hfit : a.toNat + c.pageSize ≤ 2 ^ 32)
    {pre : Bool} {first : List Byte}
    (hfirst : pre = true ∧ first = [] ∨
      (∃ k v, first =
        stsBytes c (nvmAddress c .cmd) (nvmCode c (erasePageCommand k)) ++ stsBytes c a v) ∨
      first = stsBytes c (nvmAddress c .cmd) (nvmCode c .chipErase) ++ stsBytes c (nvmAddress c .ctrlA) 0x01) :
    ∃ k x m, t.receiveAll c first = { t with cmd := k, ctrlA := x, mem := m } ∧
      (pre = true ∨ ∀ y, InPage c a.toNat y → m.read y = 0xFF) := by
  rcases hfirst with ⟨hpre, rfl⟩ | ⟨k, v, rfl⟩ | rfl
  · exact ⟨t.cmd, t.ctrlA, t.mem, rfl, .inl hpre⟩
  · refine ⟨_, t.ctrlA, _, hw.receiveAll_erasePage hkind hdec ha v k, .inr fun y hy => ?_⟩
    rw [inPage_of_aligned halign] at hy
    rw [pageStart_of_aligned halign, Memory.read_fill_range _ hfit, if_pos hy]
  · exact ⟨_, _, _, hw.receiveAll_chipErase hkind hdec hctrl, .inr fun _ _ => rfl⟩

/-- The wire bytes of `writePage` without its waits (44_flash_fuse R275, R276, R278, R279). -/
theorem Target.Waiting.receiveAll_page {ds : List Byte} (hlen : ds.length ≤ 65536)
    (hfit : a.toNat + ds.length < 2 ^ 32) (d : Byte) (pre : Bool) (sec : FlashSection) {buf : Memory}
    (hbuf : buf = (Memory.mk .erased []).loadCells c a.toNat ds) :
    t.receiveAll c
        (stsBytes c (nvmAddress c .cmd) (nvmCode c .eraseFlashPageBuffer) ++ stsBytes c (nvmAddress c .ctrlA) 0x01 ++
          loadBufferBytes c a ds ++ stsBytes c (nvmAddress c .cmd) (nvmCode c (writePageCommand pre sec)) ++
          stsBytes c a d) =
      { t with
        cmd := nvmCode c (writePageCommand pre sec), ctrlA := 0x01, ptr := a + BitVec.ofNat 32 ds.length
        bufRun := none, buf := buf
        mem := t.mem.fill (pageStart c a.toNat) (({ t with buf := buf } : Target).programmed c pre) c.pageSize } := by
  have hcleared : ({ t with
      cmd := nvmCode c .eraseFlashPageBuffer, ctrlA := 0x01, buf := ⟨.erased, []⟩ } : Target).Waiting := hw
  have hloaded : ({ t with
      cmd := nvmCode c .loadFlashPageBuffer, ctrlA := 0x01, ptr := a + BitVec.ofNat 32 ds.length, bufRun := none
      buf := buf } : Target).Waiting := hw
  rw [List.append_assoc _ _ (stsBytes c a d), Target.receiveAll_append _ _ _ (_ ++ stsBytes c a d),
    Target.receiveAll_append _ _ _ (loadBufferBytes c a ds), hw.receiveAll_eraseBuffer hkind hdec hctrl,
    hcleared.receiveAll_loadBuffer hkind hdec hlen hfit, ← hbuf, hloaded.receiveAll_writePage hkind hdec ha d pre sec]
  rfl

end RoundTrip

/-- RT programs by clearing bits (45 R326), so into an erased cell it programs the byte of the buffer. -/
theorem Target.programmed_erased {t : Target} {c : Config} {pre : Bool} {x : Nat}
    (h : pre = true ∨ t.mem.read x = 0xFF) : t.programmed c pre x = t.buf.read (x % c.pageSize) := by
  have hbase : (if pre then 0xFF else t.mem.read x) = 0xFF := by
    rcases h with rfl | h
    · rfl
    · rw [h, ite_self]
  rw [Target.programmed, hbase]
  exact BitVec.allOnes_and

/-- Settles O51: the page holds the buffer, the buffer holds the bytes, and the loads read the page. -/
theorem pageRoundTripOnTheReferenceTarget : Obligations.PageRoundTripOnTheReferenceTarget := by
  intro t c a d ds pre sec first hw hkind hdec hctrl hsize hshort hlen halign hfit hnvm hreg select execute hfirst v hv
    u hu
  have ha : TriggerAddress c a := ⟨by simpa using hreg 0 hsize, hnvm⟩
  obtain ⟨k, x, m, hfirst, herased⟩ := hw.receiveAll_erased hkind hdec hctrl ha halign hfit.le hfirst
  have hwv : v.Waiting := hv ▸ hfirst ▸ hw
  have hkv : v.kind = .reference := hv ▸ hfirst ▸ hkind
  have hrv : v.replies = t.replies := by rw [hv, hfirst]
  have hmv : pre = true ∨ ∀ y, InPage c a.toNat y → v.mem.read y = 0xFF := by rwa [hv, hfirst]
  rw [hwv.receiveAll_page hkv hdec hctrl ha hlen (by omega) d pre sec rfl, pageStart_of_aligned halign] at hu
  have hcell : ∀ k < c.pageSize, (a.toNat + k) % c.pageSize = k := fun k hk => by
    rw [Nat.add_mod, halign, Nat.zero_add, Nat.mod_mod, Nat.mod_eq_of_lt hk]
  have hpage : ∀ k < c.pageSize, u.mem.read (a.toNat + k) = ds.getD k 0xFF := fun k hk => by
    have hin : a.toNat ≤ a.toNat + k ∧ a.toNat + k < a.toNat + c.pageSize := by omega
    rw [hu, Memory.read_fill_range _ hfit.le, if_pos hin, Target.programmed_erased, hcell k hk,
      Memory.read_loadCells _ (r := 0) (fun j hj => by rw [hcell j (by omega), Nat.zero_add])]
    · rfl
    · exact hmv.imp_right fun h => h _ ((inPage_of_aligned halign _).2 hin)
  refine ⟨fun y hy => ?_, hpage, ?_⟩
  · rw [inPage_of_aligned halign] at hy
    rw [hu, Memory.read_fill_range _ hfit.le, if_neg hy]
  · have hwu : u.Waiting := hu ▸ hwv
    have hku : u.kind = .reference := hu ▸ hkv
    have hru : u.replies = t.replies := by rw [hu, ← hrv]
    have hread : ((List.range ds.length).map fun k => u.mem.read (a.toNat + k)) = ds := by
      refine List.ext_getElem (by simp) fun k _ hk => ?_
      rw [List.getElem_map, List.getElem_range, hpage k (by omega)]
      exact List.getD_eq_getElem _ _ hk
    rw [hwu.receiveAll_readBack hku hdec hlen (by omega) fun k hk => hreg k (by omega), hru, hread]

end Sys2Proof.Machine
end

section
/-!
30_encoding R109, R110, R112, R117, R118; 43_nvm R242; 47_host_boundary R340 to R342: the decoder of each channel as one
table of rows, a first byte and what is read after it. Under every configuration the bytes a row reads are those of the
instruction it gives; where first bytes differ, the row of an instruction is the one that reads its bytes. Settles O1,
O2 and O3.
-/

namespace Sys2Proof

/-! ## Operands -/

theorem le2_ofLe2 (b0 b1 : Byte) : le2 (ofLe2 b0 b1) = [b0, b1] := by
  simp only [le2, List.cons.injEq, and_true]
  constructor <;>
  · apply BitVec.eq_of_getLsbD_eq
    intro i hi
    simp only [ofLe2, byteAt, BitVec.getLsbD_append, BitVec.getLsbD_extractLsb']
    grind

theorem le4_ofLe4 (b0 b1 b2 b3 : Byte) : le4 (ofLe4 b0 b1 b2 b3) = [b0, b1, b2, b3] := by
  simp only [le4, List.cons.injEq, and_true]
  refine ⟨?_, ?_, ?_, ?_⟩ <;>
  · apply BitVec.eq_of_getLsbD_eq
    intro i hi
    simp only [ofLe4, byteAt, BitVec.getLsbD_append, BitVec.getLsbD_extractLsb']
    grind

/-- What is read after a first byte is, for some operand `a`, the instruction `form a` from the bytes `operands a`. -/
def Reads {α : Type} (read : List Byte → Decoded) (form : α → Instr) (operands : α → List Byte) : Prop :=
  ∀ (bs : List Byte) (i : Instr) (rest : List Byte), read bs = .ok i rest ↔ ∃ a, i = form a ∧ bs = operands a ++ rest

theorem reads_noOperand (j : Instr) : Reads (noOperand j) (fun _ : Unit => j) fun _ => [] := fun bs i rest => by
  simp only [noOperand, Decoded.ok.injEq, List.nil_append, exists_const]
  exact and_congr_left' eq_comm

theorem reads_operand1 (f : Byte → Instr) : Reads (operand1 f) f fun b => [b] := fun bs i rest => by
  constructor
  · intro h
    cases bs with
    | nil => cases h
    | cons b bs => cases h; exact ⟨b, rfl, rfl⟩
  · rintro ⟨b, rfl, rfl⟩
    rfl

theorem reads_operand2 (f : Word16 → Instr) : Reads (operand2 f) f le2 := fun bs i rest => by
  constructor
  · intro h
    unfold operand2 at h
    split at h
    · cases h; exact ⟨_, rfl, by rw [le2_ofLe2]; rfl⟩
    · cases h
  · rintro ⟨v, rfl, rfl⟩
    simp [le2, operand2]

theorem reads_operand4 (f : Word → Instr) : Reads (operand4 f) f le4 := fun bs i rest => by
  constructor
  · intro h
    unfold operand4 at h
    split at h
    · cases h; exact ⟨_, rfl, by rw [le4_ofLe4]; rfl⟩
    · cases h
  · rintro ⟨v, rfl, rfl⟩
    simp [le4, operand4]

theorem reads_operand4then1 (f : Word → Byte → Instr) :
    Reads (operand4then1 f) (fun p : Word × Byte => f p.1 p.2) fun p => le4 p.1 ++ [p.2] := fun bs i rest => by
  constructor
  · intro h
    unfold operand4then1 at h
    split at h
    · next b0 b1 b2 b3 d rest =>
      cases h
      exact ⟨(ofLe4 b0 b1 b2 b3, d), rfl, by simp [le4_ofLe4]⟩
    · cases h
  · rintro ⟨⟨v, d⟩, rfl, rfl⟩
    simp [le4, operand4then1]

theorem reads_operand4then2 (f : Word → Word16 → Instr) :
    Reads (operand4then2 f) (fun p : Word × Word16 => f p.1 p.2) fun p => le4 p.1 ++ le2 p.2 := fun bs i rest => by
  constructor
  · intro h
    unfold operand4then2 at h
    split at h
    · next b0 b1 b2 b3 l0 l1 rest =>
      cases h
      exact ⟨(ofLe4 b0 b1 b2 b3, ofLe2 l0 l1), rfl, by simp [le4_ofLe4, le2_ofLe2]⟩
    · cases h
  · rintro ⟨⟨v, l⟩, rfl, rfl⟩
    simp [le4, le2, operand4then2]

theorem reads_operandKey (f : List Byte → Instr) :
    Reads (operandKey f) (fun k : { k : List Byte // k.length = 8 } => f k) fun k => k := fun bs i rest => by
  constructor
  · intro h
    unfold operandKey at h
    split at h
    · cases h; exact ⟨⟨[_, _, _, _, _, _, _, _], rfl⟩, rfl, rfl⟩
    · cases h
  · rintro ⟨⟨k, hk⟩, rfl, rfl⟩
    match k, hk with
    | [_, _, _, _, _, _, _, _], _ => rfl

/-! ## Rows -/

/-- A row of a decoder: a first byte, and what is read after it. -/
abbrev DecoderRow := Byte × (List Byte → Decoded)

/-- The first row with the first byte `op` reads the bytes after it; `other` stands where there is none. -/
def readRow (other : Decoded) (op : Byte) (bs : List Byte) : List DecoderRow → Decoded
  | [] => other
  | row :: rows => if op = row.1 then row.2 bs else readRow other op bs rows

theorem readRow_of_notMem {other : Decoded} {op : Byte} {bs : List Byte} {rows : List DecoderRow}
    (h : op ∉ rows.map Prod.fst) : readRow other op bs rows = other := by
  induction rows with
  | nil => rfl
  | cons row rows ih =>
    obtain ⟨hop, hrows⟩ := not_or.1 (fun hor => h (List.mem_cons.2 hor))
    rw [readRow, if_neg hop, ih hrows]

theorem exists_row_of_mem (other : Decoded) {op : Byte} (bs : List Byte) {rows : List DecoderRow}
    (h : op ∈ rows.map Prod.fst) : ∃ read, (op, read) ∈ rows ∧ readRow other op bs rows = read bs := by
  induction rows with
  | nil => cases h
  | cons row rows ih =>
    by_cases hop : op = row.1
    · exact ⟨row.2, by simp [hop], if_pos hop⟩
    · obtain ⟨read, hmem, hread⟩ := ih ((List.mem_cons.1 h).resolve_left hop)
      exact ⟨read, .tail _ hmem, by rw [readRow, if_neg hop, hread]⟩

/-- Where the first bytes differ, every row is read. -/
theorem readRow_of_mem (other : Decoded) {op : Byte} (bs : List Byte) {rows : List DecoderRow}
    {read : List Byte → Decoded} (hdiffer : (rows.map Prod.fst).Nodup) (h : (op, read) ∈ rows) :
    readRow other op bs rows = read bs := by
  obtain ⟨read', hmem, hread⟩ := exists_row_of_mem other bs (List.mem_map_of_mem (f := Prod.fst) h)
  have hsame : (op, read') = (op, read) := List.inj_on_of_nodup_map hdiffer hmem h rfl
  cases hsame
  exact hread

/-- What a row reads is a well-formed instruction of the channel, from that instruction's bytes. -/
def DecoderRow.Sound (c : Config) (ch : Channel) (row : DecoderRow) : Prop :=
  ∀ (bs : List Byte) (i : Instr) (rest : List Byte), row.2 bs = .ok i rest →
    i.wellFormed = true ∧ i.channel = ch ∧ row.1 :: bs = encodeWith c i ++ rest

theorem Reads.sound {α : Type} {c : Config} {ch : Channel} {op : Byte} {read : List Byte → Decoded} {form : α → Instr}
    {operands : α → List Byte} (hread : Reads read form operands)
    (h : ∀ a, (form a).wellFormed = true ∧ (form a).channel = ch ∧ encodeWith c (form a) = op :: operands a) :
    DecoderRow.Sound c ch (op, read) := by
  intro bs i rest hok
  obtain ⟨a, rfl, rfl⟩ := (hread bs i rest).1 hok
  obtain ⟨hwf, hch, hbytes⟩ := h a
  exact ⟨hwf, hch, by rw [hbytes]; rfl⟩

/-! ## The rows of each channel -/

/-- The PDI instructions whose opcode carries no register number (30_encoding R109, R112). -/
def pdiRows (c : Config) : List DecoderRow :=
  [(c.opLds, operand4 .lds), (c.opSts, operand4then1 .sts), (ldOpcode c .indirect, noOperand .ldInd),
    (ldOpcode c .autoInc, noOperand .ldInc), (ldOpcode c .direct, noOperand .ldPtr),
    (stOpcode c .indirect, operand1 .stInd), (stOpcode c .autoInc, operand1 .stInc),
    (stOpcode c .direct, operand1 .stPtrB), (stPtr4Opcode c .indirect, operand4 .stIndL),
    (stPtr4Opcode c .autoInc, operand4 .stIncL), (stPtr4Opcode c .direct, operand4 .stPtr),
    (c.opRepeat1, operand1 .repeatB), (c.opRepeat2, operand2 .repeatW), (c.opKey, operandKey .key)]

/-- The host requests (47_host_boundary R340, R342). -/
def hostRequestRows : List DecoderRow :=
  [(0x00, noOperand .hostNop), (0x02, operand4then2 .hostWriteAppFlash), (0x03, noOperand .hostWriteFuse),
    (0x04, noOperand .hostEraseChip), (0xFF, noOperand .hostEnd)]

/-- A row of a table of one-byte instructions. -/
def oneByteRow (r : Byte × Instr) : DecoderRow := (r.1, noOperand r.2)

/-- The rows of each channel's decoder. -/
def channelRows (c : Config) : Channel → List DecoderRow
  | .pdi => pdiRows c
  | .nvmCommand => (nvmRows c).map oneByteRow
  | .hostRequest => hostRequestRows
  | .hostResponse => hostResponseRows.map oneByteRow
  | .hostHandshake => hostHandshakeRows.map oneByteRow

/-- What a decoder makes of a first byte without a row: on the PDI wire it may carry a register number (R106). -/
def readOther (c : Config) (op : Byte) (bs : List Byte) : Channel → Decoded
  | .pdi =>
    if op &&& 0xF0 = c.opLdcsBase then noOperand (.ldcs (op &&& 0x0F)) bs
    else if op &&& 0xF0 = c.opStcsBase then operand1 (.stcs (op &&& 0x0F)) bs
    else .reject (.unknownOpcode op)
  | _ => .reject (.unknownOpcode op)

theorem decodeRow_cons (op : Byte) (bs : List Byte) (rows : List (Byte × Instr)) :
    decodeRow rows (op :: bs) = readRow (.reject (.unknownOpcode op)) op bs (rows.map oneByteRow) := by
  induction rows with
  | nil => rfl
  | cons r rows ih =>
    rw [List.map_cons, readRow, ← ih]
    by_cases h : r.1 = op
    · simp [decodeRow, rowOf, oneByteRow, noOperand, h]
    · simp [decodeRow, rowOf, oneByteRow, h, Ne.symm h]

theorem decodeOn_nil (c : Config) (ch : Channel) : decodeOn c ch [] = .reject .needMore := by
  cases ch <;> rfl

theorem decodeOn_cons (c : Config) (ch : Channel) (op : Byte) (bs : List Byte) :
    decodeOn c ch (op :: bs) = readRow (readOther c op bs ch) op bs (channelRows c ch) := by
  cases ch with
  | pdi | hostRequest => rfl
  | nvmCommand | hostResponse | hostHandshake => exact decodeRow_cons op bs _

/-! ## What is read is encoded by the bytes read -/

theorem pdiRows_sound (c : Config) : ∀ row ∈ pdiRows c, row.Sound c .pdi := by
  simp only [pdiRows, List.forall_mem_cons]
  exact ⟨(reads_operand4 _).sound fun _ => ⟨rfl, rfl, rfl⟩, (reads_operand4then1 _).sound fun _ => ⟨rfl, rfl, rfl⟩,
    (reads_noOperand _).sound fun _ => ⟨rfl, rfl, rfl⟩, (reads_noOperand _).sound fun _ => ⟨rfl, rfl, rfl⟩,
    (reads_noOperand _).sound fun _ => ⟨rfl, rfl, rfl⟩, (reads_operand1 _).sound fun _ => ⟨rfl, rfl, rfl⟩,
    (reads_operand1 _).sound fun _ => ⟨rfl, rfl, rfl⟩, (reads_operand1 _).sound fun _ => ⟨rfl, rfl, rfl⟩,
    (reads_operand4 _).sound fun _ => ⟨rfl, rfl, rfl⟩, (reads_operand4 _).sound fun _ => ⟨rfl, rfl, rfl⟩,
    (reads_operand4 _).sound fun _ => ⟨rfl, rfl, rfl⟩, (reads_operand1 _).sound fun _ => ⟨rfl, rfl, rfl⟩,
    (reads_operand2 _).sound fun _ => ⟨rfl, rfl, rfl⟩,
    (reads_operandKey _).sound fun k => ⟨decide_eq_true k.2, rfl, rfl⟩, nofun⟩

theorem hostRequestRows_sound (c : Config) : ∀ row ∈ hostRequestRows, row.Sound c .hostRequest := by
  simp only [hostRequestRows, List.forall_mem_cons]
  exact ⟨(reads_noOperand _).sound fun _ => ⟨rfl, rfl, rfl⟩, (reads_operand4then2 _).sound fun _ => ⟨rfl, rfl, rfl⟩,
    (reads_noOperand _).sound fun _ => ⟨rfl, rfl, rfl⟩, (reads_noOperand _).sound fun _ => ⟨rfl, rfl, rfl⟩,
    (reads_noOperand _).sound fun _ => ⟨rfl, rfl, rfl⟩, nofun⟩

theorem oneByteRows_sound {c : Config} {ch : Channel} {rows : List (Byte × Instr)}
    (h : ∀ r ∈ rows, r.2.wellFormed = true ∧ r.2.channel = ch ∧ encodeWith c r.2 = [r.1]) :
    ∀ row ∈ rows.map oneByteRow, row.Sound c ch :=
  List.forall_mem_map.2 fun r hr => (reads_noOperand r.2).sound fun _ => h r hr

theorem channelRows_sound (c : Config) (ch : Channel) : ∀ row ∈ channelRows c ch, row.Sound c ch := by
  cases ch with
  | pdi => exact pdiRows_sound c
  | hostRequest => exact hostRequestRows_sound c
  | nvmCommand => exact oneByteRows_sound (by simp [nvmRows, Instr.wellFormed, Instr.channel, encodeWith])
  | hostResponse => exact oneByteRows_sound (by simp [hostResponseRows, Instr.wellFormed, Instr.channel, encodeWith])
  | hostHandshake => exact oneByteRows_sound (by simp [hostHandshakeRows, Instr.wellFormed, Instr.channel, encodeWith])

theorem nibbles_or (b : Byte) : (b &&& 0xF0) ||| (b &&& 0x0F) = b := by
  revert b; decide

theorem lowNibble_lt (b : Byte) : (b &&& 0x0F).toNat < 16 := by
  revert b; decide

theorem lowNibble_of_lt {b : Byte} (h : b.toNat < 16) : b &&& 0x0F = b := by
  revert b; decide

/-- An opcode whose upper nibble is a base is the base with the register number in the lower one (R106). -/
theorem csrOpcode_of_nibbles {op base : Byte} (h : op &&& 0xF0 = base) :
    base ||| ((op &&& 0x0F) &&& 0x0F) = op := by
  rw [lowNibble_of_lt (lowNibble_lt op), ← h, nibbles_or]

theorem readOther_sound (c : Config) (ch : Channel) (op : Byte) :
    DecoderRow.Sound c ch (op, fun bs => readOther c op bs ch) := by
  have hreg : decide ((op &&& 0x0F).toNat < 16) = true := decide_eq_true (lowNibble_lt op)
  intro bs i rest h
  cases ch with
  | pdi =>
    simp only [readOther] at h
    split_ifs at h with hldcs hstcs
    · have hop : ldcsOpcode c (op &&& 0x0F) = op := csrOpcode_of_nibbles hldcs
      have hsound : DecoderRow.Sound c .pdi (op, noOperand (.ldcs (op &&& 0x0F))) :=
        (reads_noOperand _).sound fun _ => ⟨hreg, rfl, by rw [encodeWith, hop]⟩
      exact hsound bs i rest h
    · have hop : stcsOpcode c (op &&& 0x0F) = op := csrOpcode_of_nibbles hstcs
      have hsound : DecoderRow.Sound c .pdi (op, operand1 (.stcs (op &&& 0x0F))) :=
        (reads_operand1 _).sound fun _ => ⟨hreg, rfl, by rw [encodeWith, hop]⟩
      exact hsound bs i rest h
  | nvmCommand | hostRequest | hostResponse | hostHandshake => cases h

/-! ## An instruction's bytes are read by its row -/

/-- The channel has a row that reads the instruction from its bytes, whatever follows. -/
def Instr.HasRow (c : Config) (i : Instr) : Prop :=
  ∃ (op : Byte) (read : List Byte → Decoded) (bs : List Byte),
    (op, read) ∈ channelRows c i.channel ∧ encodeWith c i = op :: bs ∧ ∀ rest, read (bs ++ rest) = .ok i rest

theorem Reads.hasRow {α : Type} {c : Config} {i : Instr} {op : Byte} {read : List Byte → Decoded} {form : α → Instr}
    {operands : α → List Byte} (hread : Reads read form operands) (hmem : (op, read) ∈ channelRows c i.channel) (a : α)
    (hi : i = form a) (hbytes : encodeWith c i = op :: operands a) : i.HasRow c :=
  ⟨op, read, operands a, hmem, hbytes, fun rest => (hread _ i rest).2 ⟨a, hi, rfl⟩⟩

/-- A one-byte instruction has a row if its channel's table lists it. -/
theorem Instr.hasRow_of_mem {c : Config} {i : Instr} {rows : List (Byte × Instr)}
    (hrows : channelRows c i.channel = rows.map oneByteRow) (h : i ∈ rows.map Prod.snd) : i.HasRow c := by
  obtain ⟨⟨b, j⟩, hmem, rfl⟩ := List.mem_map.1 h
  have hrow : (b, noOperand j) ∈ channelRows c j.channel := hrows ▸ List.mem_map_of_mem (f := oneByteRow) hmem
  obtain ⟨-, -, hbytes⟩ := channelRows_sound c _ _ hrow [] j [] rfl
  exact (reads_noOperand j).hasRow hrow () rfl (by simpa using hbytes.symm)

/-- The instructions whose opcode carries a register number (R106). -/
def Instr.namesRegister : Instr → Bool
  | .ldcs _ | .stcs _ _ => true
  | _ => false

theorem Instr.hasRow (c : Config) {i : Instr} (hwf : i.wellFormed = true) (hreg : i.namesRegister = false) :
    i.HasRow c := by
  cases i with
  | lds a => exact (reads_operand4 _).hasRow (by simp [channelRows, Instr.channel, pdiRows]) a rfl rfl
  | sts a d => exact (reads_operand4then1 _).hasRow (by simp [channelRows, Instr.channel, pdiRows]) (a, d) rfl rfl
  | ldInd | ldInc | ldPtr =>
    exact (reads_noOperand _).hasRow (by simp [channelRows, Instr.channel, pdiRows]) () rfl rfl
  | stInd d | stInc d | stPtrB d =>
    exact (reads_operand1 _).hasRow (by simp [channelRows, Instr.channel, pdiRows]) d rfl rfl
  | stIndL a | stIncL a | stPtr a =>
    exact (reads_operand4 _).hasRow (by simp [channelRows, Instr.channel, pdiRows]) a rfl rfl
  | repeatB n => exact (reads_operand1 _).hasRow (by simp [channelRows, Instr.channel, pdiRows]) n rfl rfl
  | repeatW n => exact (reads_operand2 _).hasRow (by simp [channelRows, Instr.channel, pdiRows]) n rfl rfl
  | key k =>
    exact (reads_operandKey _).hasRow (by simp [channelRows, Instr.channel, pdiRows]) ⟨k, of_decide_eq_true hwf⟩ rfl rfl
  | ldcs _ | stcs _ _ => cases hreg
  | hostWriteAppFlash a l =>
    exact (reads_operand4then2 _).hasRow (by simp [channelRows, Instr.channel, hostRequestRows]) (a, l) rfl rfl
  | hostNop | hostWriteFuse | hostEraseChip | hostEnd =>
    exact (reads_noOperand _).hasRow (by simp [channelRows, Instr.channel, hostRequestRows]) () rfl rfl
  | hostRespOk | hostRespInvalidRequest | hostRespInternalError | hostRespUnknownError =>
    exact Instr.hasRow_of_mem (rows := hostResponseRows) rfl (by decide)
  | hostHandshake => exact Instr.hasRow_of_mem (rows := hostHandshakeRows) rfl (by decide)
  | _ => exact Instr.hasRow_of_mem (rows := nvmRows c) rfl (by simp [nvmRows])

/-- The two nibbles of an opcode that carries a register number. -/
theorem nibbles_of_csrOpcode {base r : Byte} (hbase : base &&& 0x0F = 0) (hr : r.toNat < 16) :
    (base ||| (r &&& 0x0F)) &&& 0xF0 = base ∧ (base ||| (r &&& 0x0F)) &&& 0x0F = r := by
  have hupper : base &&& 0xF0 = base := by
    have hwhole := nibbles_or base
    rw [hbase] at hwhole
    exact BitVec.or_zero.symm.trans hwhole
  have hnone : r &&& 0xF0 = 0 := by revert r; decide
  rw [lowNibble_of_lt hr, BitVec.and_or_distrib_right, BitVec.and_or_distrib_right, hupper, hnone, hbase,
    lowNibble_of_lt hr]
  simp

end Sys2Proof

namespace Sys2Proof.Machine

section Decoders
variable {c : Config} (h : Decodable c)
include h

theorem Decodable.firstBytes_differ (ch : Channel) : ((channelRows c ch).map Prod.fst).Nodup := by
  obtain ⟨hopcodes, -, -, -, -, hcodes⟩ := h
  cases ch with
  | pdi => exact hopcodes
  | nvmCommand => exact (List.map_map (f := oneByteRow) (g := Prod.fst) (l := nvmRows c)).symm ▸ hcodes
  | hostRequest => exact (by decide : (hostRequestRows.map Prod.fst).Nodup)
  | hostResponse => exact (by decide : ((hostResponseRows.map oneByteRow).map Prod.fst).Nodup)
  | hostHandshake => exact (by decide : ((hostHandshakeRows.map oneByteRow).map Prod.fst).Nodup)

theorem Decodable.decodeOn_of_hasRow {i : Instr} (hi : i.HasRow c) (rest : List Byte) :
    decodeOn c i.channel (encodeWith c i ++ rest) = .ok i rest := by
  obtain ⟨op, read, bs, hmem, hbytes, hread⟩ := hi
  rw [hbytes, List.cons_append, decodeOn_cons, readRow_of_mem _ _ (h.firstBytes_differ _) hmem, hread]

/-- An opcode with the upper nibble of LDCS or STCS is none of the fixed ones. -/
theorem Decodable.decodeOn_csr {op : Byte} (hop : op &&& 0xF0 = c.opLdcsBase ∨ op &&& 0xF0 = c.opStcsBase)
    (bs : List Byte) : decodeOn c .pdi (op :: bs) = readOther c op bs .pdi := by
  obtain ⟨-, hfixed, -⟩ := h
  have hnone : op ∉ fixedOpcodes c := fun hmem => by
    obtain ⟨hldcs, hstcs⟩ := hfixed op hmem
    exact hop.elim hldcs hstcs
  rw [decodeOn_cons, readRow_of_notMem hnone]

theorem Decodable.decodeOn_ldcs {r : Byte} (hr : r.toNat < 16) (rest : List Byte) :
    decodeOn c .pdi (ldcsOpcode c r :: rest) = .ok (.ldcs r) rest := by
  have ⟨_, _, _, hbase, _⟩ := h
  obtain ⟨hupper, hlower⟩ := nibbles_of_csrOpcode hbase hr
  rw [ldcsOpcode, h.decodeOn_csr (.inl hupper), readOther, if_pos hupper, hlower, noOperand]

theorem Decodable.decodeOn_stcs {r : Byte} (hr : r.toNat < 16) (d : Byte) (rest : List Byte) :
    decodeOn c .pdi (stcsOpcode c r :: d :: rest) = .ok (.stcs r d) rest := by
  have ⟨_, _, hbases, _, hbase, _⟩ := h
  obtain ⟨hupper, hlower⟩ := nibbles_of_csrOpcode hbase hr
  rw [stcsOpcode, h.decodeOn_csr (.inr hupper), readOther, hupper, if_neg hbases.symm, if_pos rfl, hlower, operand1]

end Decoders

/-- Settles O1: an instruction that names no register is read by its row, LDCS and STCS by their upper nibble. -/
theorem decodeOfEncodeIsIdentity : Obligations.DecodeOfEncodeIsIdentity := by
  intro c i rest h hwf
  cases hreg : i.namesRegister with
  | false => exact h.decodeOn_of_hasRow (i.hasRow c hwf hreg) rest
  | true =>
    cases i with
    | ldcs r => exact h.decodeOn_ldcs (of_decide_eq_true hwf) rest
    | stcs r d => exact h.decodeOn_stcs (of_decide_eq_true hwf) d rest
    | _ => cases hreg

/-- Settles O2: the row that reads is sound, and so is what is read where there is none. -/
theorem decodedInstructionReencodes : Obligations.DecodedInstructionReencodes := by
  intro c
  constructor
  · intro ch bs rest i h
    cases bs with
    | nil => rw [decodeOn_nil] at h; cases h
    | cons op bs =>
      rw [decodeOn_cons] at h
      by_cases hop : op ∈ (channelRows c ch).map Prod.fst
      · obtain ⟨read, hmem, hread⟩ := exists_row_of_mem (readOther c op bs ch) bs hop
        exact channelRows_sound c ch _ hmem bs i rest (hread.symm.trans h)
      · exact readOther_sound c ch op bs i rest ((readRow_of_notMem hop).symm.trans h)
  · intro op rest hop hldcs hstcs
    rw [decodeOn_cons, readRow_of_notMem hop, readOther, if_neg hldcs, if_neg hstcs]

/-- Settles O3: each word is one row of its channel, read by evaluation. -/
theorem tableWordsDecodeAsWritten : Obligations.TableWordsDecodeAsWritten := by
  unfold Obligations.TableWordsDecodeAsWritten
  decide

end Sys2Proof.Machine
end

section
/-!
30_encoding R109, R117, 45_target_contract R311: a target that waits for an opcode holds the bytes of an instruction
until the last one has come, and then executes it. Settles O42.
-/

namespace Sys2Proof.Machine

section Receiving
variable {t : Target} {c : Config}

/-- The first bytes of an instruction are only held (30_encoding R117). -/
theorem Target.receiveAll_holds (hl : t.lost = false) {bs : List Byte} {b : Byte} {more : List Byte} {i : Instr}
    (h : decodePdi c (t.pending ++ bs ++ b :: more) = .ok i []) :
    t.receiveAll c bs = { t with pending := t.pending ++ bs } := by
  induction bs generalizing t with
  | nil => simp
  | cons b' bs ih =>
    have hsplit : t.pending ++ b' :: bs = t.pending ++ [b'] ++ bs := by simp
    have hmore : decodePdi c (t.pending ++ [b']) = .reject .needMore := by
      rw [hsplit, List.append_assoc] at h
      cases bs with
      | nil => exact asksForMore_decodePdi c _ b more i h
      | cons b'' bs => exact asksForMore_decodePdi c _ b'' (bs ++ b :: more) i h
    rw [hsplit] at h ⊢
    rw [Target.receiveAll_cons, Target.receive_needMore hl hmore]
    exact ih (t := { t with pending := t.pending ++ [b'] }) hl h

/-- What an instruction's bytes decode to where nothing follows. -/
theorem Decodable.decodePdi_encode (hdec : Decodable c) {i : Instr} (hpdi : i.channel = .pdi)
    (hwf : i.wellFormed = true) : decodePdi c (encodeWith c i) = .ok i [] := by
  have hdecode := decodeOfEncodeIsIdentity c i [] hdec hwf
  rwa [hpdi, List.append_nil] at hdecode

end Receiving

/-- Settles O42: the last byte completes the instruction, and before it the decoder asks for more. -/
theorem targetExecutesOnTheLastByte : Obligations.TargetExecutesOnTheLastByte := by
  intro t c i hw hdec hpdi hwf
  have hdecode := hdec.decodePdi_encode hpdi hwf
  refine ⟨hw.receiveAll_instr hdecode, fun n hn => ?_⟩
  obtain ⟨hlost, hpending, -⟩ := hw
  have hsplit : encodeWith c i = (encodeWith c i).take n ++ (encodeWith c i)[n] :: (encodeWith c i).drop (n + 1) := by
    rw [← List.drop_eq_getElem_cons hn, List.take_append_drop]
  rw [hsplit] at hdecode
  have hheld := Target.receiveAll_holds (t := t) (c := c) hlost (by rwa [hpending])
  rwa [hpending] at hheld

end Sys2Proof.Machine
end

section
/-!
30_encoding R109, 41_encoder R175, R176, 45_target_contract R312, R314: REPEAT and the LD it precedes, in each of the
three modes. Settles O43.
-/

namespace Sys2Proof.Machine

/-! ## Several executions of LD -/

section Loads
variable (t : Target) (c : Config)

/-- Each execution adds one reply, and they change no more than one may (`Target.loadPointer_keeps`). -/
theorem Target.loadPointerTimes_keeps (m : PtrMode) (n : Nat) :
    ∃ p b j w k rs, rs.length = n ∧ t.loadPointerTimes c m n =
      { t with ptr := p, busy := b, working := j, underway := w, fresh := k, replies := t.replies ++ rs } := by
  induction n generalizing t with
  | zero => exact ⟨t.ptr, t.busy, t.working, t.underway, t.fresh, [], rfl, by simp [Target.loadPointerTimes]⟩
  | succ n ih =>
    obtain ⟨_, _, _, _, _, r, hfirst⟩ := t.loadPointer_keeps c m
    obtain ⟨p, b, j, w, k, rs, hlength, hrest⟩ := ih (t.loadPointer c m)
    refine ⟨p, b, j, w, k, r :: rs, by simp [hlength], ?_⟩
    rw [Target.loadPointerTimes, hrest, hfirst]
    simp

/-- Where one execution leaves the pointer (45 R314). -/
theorem Target.loadPointer_ptr (m : PtrMode) :
    (m = .indirect → (t.loadPointer c m).ptr = t.ptr) ∧
      (m = .autoInc → t.ptr ≠ 0xFFFFFFFF → (t.loadPointer c m).ptr = t.ptr + 1) := by
  obtain ⟨_, _, _, _, hload⟩ := t.load_keeps c false t.ptr
  have hptr : ((t.load c false t.ptr).2.send (t.load c false t.ptr).1).ptr = t.ptr := by rw [hload]; rfl
  obtain ⟨q, _, hafter, hindirect, hinc⟩ :=
    ((t.load c false t.ptr).2.send (t.load c false t.ptr).1).afterAccess_ptr m
  rw [hptr] at hindirect hinc
  rw [Target.loadPointer, hafter]
  exact ⟨hindirect, hinc⟩

theorem Target.loadPointerTimes_ptr_indirect (n : Nat) : (t.loadPointerTimes c .indirect n).ptr = t.ptr := by
  induction n generalizing t with
  | zero => rfl
  | succ n ih => exact (ih _).trans ((t.loadPointer_ptr c .indirect).1 rfl)

theorem Target.loadPointerTimes_ptr_autoInc {n : Nat} (hptr : t.ptr.toNat + n < 2 ^ 32) :
    (t.loadPointerTimes c .autoInc n).ptr = t.ptr + BitVec.ofNat 32 n := by
  induction n generalizing t with
  | zero => simp [Target.loadPointerTimes]
  | succ n ih =>
    have hnext : (t.loadPointer c .autoInc).ptr = t.ptr + 1 :=
      (t.loadPointer_ptr c .autoInc).2 rfl (ne_top_of_toNat_lt (by omega))
    have hfit : (t.loadPointer c .autoInc).ptr.toNat + n < 2 ^ 32 := by
      rw [hnext, toNat_add_one (by omega)]
      omega
    rw [Target.loadPointerTimes, ih _ hfit, hnext, BitVec.add_assoc, BitVec.add_comm 1]
    exact congrArg _ (BitVec.ofNat_add n 1).symm

/-- An LD after a REPEAT of `n + 1` executions, in a mode the source gives an effect. -/
theorem Target.repeatedLoad_keeps (m : PtrMode) :
    (t.repeatedLoad c m).replies.length = t.replies.length + (t.rep.toNat + 1) ∧
      (t.repeatedLoad c m).lost = t.lost ∧ (t.repeatedLoad c m).pending = t.pending ∧
      (t.repeatedLoad c m).handFed = t.handFed ∧ t.SameMemories (t.repeatedLoad c m) := by
  obtain ⟨_, _, _, _, _, rs, hlength, hloads⟩ := t.loadPointerTimes_keeps c m (t.rep.toNat + 1)
  rw [Target.repeatedLoad, hloads]
  exact ⟨by simp [hlength], rfl, rfl, rfl, rfl, rfl, rfl⟩

end Loads

/-! ## REPEAT and LD on the wire -/

section Wire
variable {t : Target} {c : Config} (hw : t.Waiting) (hdec : Decodable c) {r : Instr} {n : Word16} (hr : RepeatOf r n)
include hw hdec hr

/-- Both forms leave their count (41_encoder R175, R176). -/
theorem Target.Waiting.receiveAll_repeatOf : t.receiveAll c (encodeWith c r) = t.repeatNext n := by
  rcases hr with rfl | ⟨b, rfl, rfl⟩
  · rw [hw.receiveAll_instr (hdec.decodePdi_encode rfl rfl), Target.execute_repeatW, hw.unrepeated]
  · rw [hw.receiveAll_instr (hdec.decodePdi_encode rfl rfl), Target.execute_repeatB, hw.unrepeated]

/-- The instruction that follows is executed with that count. -/
theorem Target.Waiting.receiveAll_repeated {i : Instr} (hpdi : i.channel = .pdi) (hwf : i.wellFormed = true) :
    t.receiveAll c (encodeWith c r ++ encodeWith c i) = (t.repeatNext n).execute c i := by
  have hdecode := hdec.decodePdi_encode hpdi hwf
  have hne : encodeWith c i ≠ [] := fun hnil => by rw [hnil] at hdecode; cases hdecode
  rw [Target.receiveAll_append, hw.receiveAll_repeatOf hdec hr]
  obtain ⟨hlost, hpending, -⟩ := hw
  have hnext : (t.repeatNext n).pending = [] := hpending
  rw [Target.receiveAll_completes (t := t.repeatNext n) hlost hne (by rwa [hnext]), ← hnext]

end Wire

/-- Settles O43: LD_IND and LD_INC load `n + 1` times, LD_PTR sends as many free replies. -/
theorem repeatedLoadRepliesOncePerExecution : Obligations.RepeatedLoadRepliesOncePerExecution := by
  intro t c r n hw hdec hr
  have hreceived : ∀ {i : Instr}, i.channel = .pdi → i.wellFormed = true →
      t.receiveAll c (encodeWith c r ++ encodeWith c i) = (t.repeatNext n).execute c i :=
    fun hpdi hwf => hw.receiveAll_repeated hdec hr hpdi hwf
  obtain ⟨hlost, hpending, -, -, hhand⟩ := hw
  refine ⟨?_, ?_, ?_⟩
  · rintro u rfl
    rw [hreceived rfl rfl, Target.execute_ldInd]
    obtain ⟨hlength, hlost', hpending', hhand', hmem⟩ := (t.repeatNext n).repeatedLoad_keeps c .indirect
    exact ⟨⟨hlost'.trans hlost, hpending'.trans hpending, rfl, rfl, hhand'.trans hhand⟩, hlength,
      (t.repeatNext n).loadPointerTimes_ptr_indirect c _, hmem.mem, hmem.buf, hmem.fuse⟩
  · rintro u rfl
    rw [hreceived rfl rfl, Target.execute_ldInc]
    obtain ⟨hlength, hlost', hpending', hhand', hmem⟩ := (t.repeatNext n).repeatedLoad_keeps c .autoInc
    exact ⟨⟨hlost'.trans hlost, hpending'.trans hpending, rfl, rfl, hhand'.trans hhand⟩, hlength,
      hmem.mem, hmem.buf, hmem.fuse, fun hfit => (t.repeatNext n).loadPointerTimes_ptr_autoInc c hfit⟩
  · rintro u rfl
    obtain ⟨rs, _, hlength, hsent⟩ := (t.repeatNext n).sendFree_keeps (n.toNat + 1)
    have hfree : (t.repeatNext n).execute c .ldPtr =
        { (t.repeatNext n).sendFree (n.toNat + 1) with rep := 0, repeated := false }.lose := rfl
    rw [hreceived rfl rfl, hfree, hsent]
    exact ⟨rfl, rfl, by simp [Target.lose, Target.repeatNext, hlength], rfl, rfl, rfl, rfl⟩

end Sys2Proof.Machine
end

section
/-!
40_link R140 to R149, R151; 10_state R31: the traces of the Link operations. Link activity that sends and reads nothing
is followed by its events and by the row of the link table it ends in (`Traced`); the waits, the clock cycle and both
direction transitions are of that kind, and each Link operation is a transition followed by a few tasks of its own.
Settles O15, O17, O18, O19, O20 and O21.
-/

namespace Sys2Proof.Machine

/-! ## Runs -/

section Running
variable {s v u : State} {k : Task} {ts : List Task}

/-- A task that gives a next state may be taken off a run that returns, or put before one. -/
theorem returns_task_iff (hc : s.control = k :: ts) (hp : perform k { s with control := ts } = .next v) :
    Returns s u ↔ Returns v u :=
  ⟨fun h => h.next hc hp, Returns.cons hc hp⟩

theorem Returns.refl (hc : s.control = []) : Returns s s := ⟨.refl s, hc⟩

theorem Leads.refl (s : State) : Leads s s := fun _ h => h

/-- A state with nothing left to do, to which a run leads, is where it returns. -/
theorem Leads.returns (h : Leads s v) (hc : v.control = []) : ∃ u, Returns s u := ⟨v, h v (.refl hc)⟩

/-- The state after some commands, one after another. -/
def afterCommands (ks : List Command) (s : State) : State := ks.foldl (fun t k => performCommand k t) s

/-- A command does not look at the tasks that follow it. -/
theorem afterCommands_setControl (ks : List Command) (s : State) (ts : List Task) :
    afterCommands ks { s with control := ts } = { afterCommands ks s with control := ts } := by
  induction ks generalizing s with
  | nil => rfl
  | cons k ks ih => exact ih (performCommand k s)

/-- Commands and then `dir <- d`: the shape of the driver's start, the wake sequence and the
teardown. -/
theorem returns_commands_iff {ks : List Command} {d : Direction}
    (hc : s.control = ks.map .command ++ .setDir d :: ts) :
    Returns s u ↔ Returns { afterCommands ks s with dir := some d, control := ts } u := by
  induction ks generalizing s with
  | nil => exact returns_task_iff hc rfl
  | cons k ks ih =>
    have hrest := ih (s := { performCommand k s with control := ks.map .command ++ .setDir d :: ts }) rfl
    rw [afterCommands_setControl] at hrest
    exact (returns_task_iff hc rfl).trans hrest

end Running

/-! ## Quiet activity and its events -/

/-- Quiet link activity that records the events `es`, newest first, and ends with the row `r` of the link table. -/
structure Traced (s : State) (r : LinkRow) (es : List Event) (s' : State) : Prop where
  quiet : Quietly s r.dir s'
  trace : s'.platform.trace = es ++ s.platform.trace
  row : s'.linkRow = r

theorem Traced.refl (s : State) (ts : List Task) : Traced s s.linkRow [] { s with control := ts } where
  quiet := ⟨rfl, rfl, rfl, rfl, CoreFrame.refl s, rfl, rfl, rfl, rfl, rfl⟩
  trace := rfl
  row := rfl

theorem Traced.trans {s t u : State} {r q : LinkRow} {es fs : List Event} (h : Traced s r es t)
    (h' : Traced t q fs u) : Traced s q (fs ++ es) u where
  quiet := h.quiet.trans h'.quiet
  trace := by rw [h'.trace, h.trace, List.append_assoc]
  row := h'.row

theorem WaitedFor.traced {s s' : State} {w : Wait} {n : Nat} (h : WaitedFor s w n s') :
    Traced s s.linkRow (w.event w.wanted :: List.replicate n (w.event !w.wanted)) s' where
  quiet := h.quiet
  trace := h.trace
  row := by
    obtain ⟨-, -, -, -, -, -, hclockOn, hclockPin, hdataInPin, -⟩ := h.quiet.frame
    simp only [State.linkRow, Platform.row, h.quiet.dir, h.txOn, h.rxOn, h.dataOutPin, hclockOn, hclockPin, hdataInPin]

section Waiting
variable {s u : State} {ts : List Task}

/-- A wait whose awaited answer is true, with its events. -/
theorem await_traced {w : Wait} (h : Returns s u) (hc : s.control = .await w :: ts) (hw : w.wanted = true) :
    ∃ n s', Traced s s.linkRow (passed w.event n) s' ∧ s'.control = ts ∧ Returns s' u := by
  obtain ⟨n, s', hwaited, hc', h'⟩ := await_waits h hc
  have htraced := hwaited.traced
  rw [hw] at htraced
  exact ⟨n, s', htraced, hc', h'⟩

/-- One full clock cycle (40_link R141). -/
theorem waitClockCycle_traced (h : Returns s u) (hc : s.control = waitClockCycle ++ ts) :
    ∃ cycle s', ClockCycle cycle ∧ Traced s s.linkRow cycle s' ∧ s'.control = ts ∧ Returns s' u := by
  obtain ⟨a, s1, w1, c1, h1⟩ := await_waits h hc
  obtain ⟨b, s2, w2, c2, h2⟩ := await_waits h1 c1
  obtain ⟨c, s3, w3, c3, h3⟩ := await_waits h2 c2
  have htraced := (w1.traced.trans w2.traced).trans w3.traced
  rw [w2.traced.row, w1.traced.row] at htraced
  exact ⟨_, s3, ⟨a, b, c, (List.append_assoc _ _ _).symm⟩, htraced, c3, h3⟩

end Waiting

/-! ## The transitions -/

/-- The events of `toTransmitting()` from a direction (40_link R142, R144). -/
def SwitchesToTransmit (dir : Option Direction) (switch : List Event) : Prop :=
  (dir = some .transmitting → switch = []) ∧
    (dir ≠ some .transmitting → ∃ cycle, ClockCycle cycle ∧
      switch = [.command .disableRx, .command .enableTx, .command (.configurePinOutput .dataOut .high)] ++ cycle)

/-- The events of `toReceiving()` from a direction (40_link R143, R144). -/
def SwitchesToReceive (dir : Option Direction) (switch : List Event) : Prop :=
  (dir = some .receiving → switch = []) ∧
    (dir ≠ some .receiving → ∃ drain,
      switch = [.command (.configurePinInput .dataOut), .command .disableTx, .command .enableRx] ++ drain ∧
      (dir ≠ some .transmitting → drain = []) ∧
      (dir = some .transmitting → ∃ n, drain = .command .resetTxComplete :: passed .txComplete n))

theorem LinkRow.transmitting_of_dir {r : LinkRow} (h : r.dir = some .transmitting) : r.transmitting = r := if_pos h

theorem LinkRow.transmitting_of_ne {r : LinkRow} (h : r.dir ≠ some .transmitting) :
    r.transmitting =
      { r with dir := some .transmitting, txOn := true, rxOn := false, dataOutPin := .output .high } := if_neg h

theorem LinkRow.receiving_of_dir {r : LinkRow} (h : r.dir = some .receiving) : r.receiving = r := if_pos h

theorem LinkRow.receiving_of_ne {r : LinkRow} (h : r.dir ≠ some .receiving) :
    r.receiving = { r with dir := some .receiving, txOn := false, rxOn := true, dataOutPin := .input } := if_neg h

theorem switchedToTransmit_traced (s : State) (ts : List Task) :
    Traced s { s.linkRow with dir := some .transmitting, txOn := true, rxOn := false, dataOutPin := .output .high }
      [.command .disableRx, .command .enableTx, .command (.configurePinOutput .dataOut .high)]
      (switchedToTransmit s ts) where
  quiet := switchedToTransmit_quietly s ts
  trace := rfl
  row := rfl

theorem switchedToReceive_traced (s : State) (ts : List Task) :
    Traced s { s.linkRow with dir := some .receiving, txOn := false, rxOn := true, dataOutPin := .input }
      [.command (.configurePinInput .dataOut), .command .disableTx, .command .enableRx]
      (switchedToReceive s ts) where
  quiet := switchedToReceive_quietly s ts
  trace := rfl
  row := rfl

theorem resetTxComplete_traced (s : State) (ts : List Task) :
    Traced s s.linkRow [.command .resetTxComplete] (performCommand .resetTxComplete { s with control := ts }) where
  quiet := resetTxComplete_keeps s ts
  trace := rfl
  row := rfl

/-- The tasks that switch to receive. -/
def switchToReceiveTasks : List Task :=
  [.command .enableRx, .command .disableTx, .command (.configurePinInput .dataOut), .setDir .receiving]

section Transitions
variable {s u : State} {ts : List Task}

theorem switchToReceive_passes (h : Returns s u) (hc : s.control = switchToReceiveTasks ++ ts) :
    Returns (switchedToReceive s ts) u :=
  (((h.next hc rfl).next rfl rfl).next rfl rfl).next rfl rfl

theorem toTransmitting_traced (h : Returns s u) (hc : s.control = toTransmitting s.dir ++ ts) :
    ∃ switch s', SwitchesToTransmit s.dir switch ∧ Traced s s.linkRow.transmitting switch s' ∧ s'.control = ts ∧
      Returns s' u := by
  by_cases hd : s.dir = some .transmitting
  · rw [LinkRow.transmitting_of_dir hd]
    refine ⟨[], _, ⟨fun _ => rfl, absurd hd⟩, Traced.refl s ts, rfl, ?_⟩
    have hts : s.control = ts := by simpa [toTransmitting, hd] using hc
    rwa [← hts]
  · rw [LinkRow.transmitting_of_ne hd]
    obtain ⟨cycle, s1, hcycle, t1, c1, h1⟩ := waitClockCycle_traced (ts := switchTasks ++ ts) h
      (by simpa [toTransmitting, hd, switchTasks] using hc)
    have t2 := t1.trans (switchedToTransmit_traced s1 ts)
    rw [t1.row] at t2
    exact ⟨_, _, ⟨fun hd' => absurd hd' hd, fun _ => ⟨cycle, hcycle, rfl⟩⟩, t2, rfl, switch_passes h1 c1⟩

theorem toReceiving_traced (h : Returns s u) (hc : s.control = toReceiving s.dir ++ ts) :
    ∃ switch s', SwitchesToReceive s.dir switch ∧ Traced s s.linkRow.receiving switch s' ∧ s'.control = ts ∧
      Returns s' u := by
  by_cases hr : s.dir = some .receiving
  · rw [LinkRow.receiving_of_dir hr]
    refine ⟨[], _, ⟨fun _ => rfl, absurd hr⟩, Traced.refl s ts, rfl, ?_⟩
    have hts : s.control = ts := by simpa [toReceiving, hr] using hc
    rwa [← hts]
  · rw [LinkRow.receiving_of_ne hr]
    by_cases ht : s.dir = some .transmitting
    · obtain ⟨n, s1, t1, c1, h1⟩ := await_traced (w := .txComplete) h (by simpa [toReceiving, ht] using hc) rfl
      have t2 := t1.trans (resetTxComplete_traced s1 (switchToReceiveTasks ++ ts))
      have h3 := switchToReceive_passes (h1.next c1 rfl) rfl
      have t3 := t2.trans (switchedToReceive_traced _ ts)
      rw [t2.row, t1.row] at t3
      exact ⟨_, _, ⟨fun hr' => absurd hr' hr, fun _ => ⟨_, rfl, absurd ht, fun _ => ⟨n, rfl⟩⟩⟩, t3, rfl, h3⟩
    · have h1 := switchToReceive_passes h (by simpa [toReceiving, hr, ht, switchToReceiveTasks] using hc)
      exact ⟨_, _, ⟨fun hr' => absurd hr' hr, fun _ => ⟨[], rfl, fun _ => rfl, fun ht' => absurd ht' ht⟩⟩,
        switchedToReceive_traced s ts, rfl, h1⟩

end Transitions

/-! ## The driver's start (40_link R140) -/

/-- The state with the link down and the clock stopped, after the events `es`. -/
def linkClosed (s : State) (es : List Event) : State :=
  { s with
    dir := some .idle, control := [], target := { s.target with linked := false }
    platform :=
      { s.platform with
        clockPin := .input, dataOutPin := .input, dataInPin := .input
        txOn := false, rxOn := false, clockOn := false, trace := es ++ s.platform.trace } }

/-- The events of `linkInitBody`. -/
def linkInitEvents : List Event :=
  [.command .disableClock, .command .disableRx, .command .disableTx, .command (.configurePinInput .dataIn),
    .command (.configurePinInput .dataOut), .command (.configurePinInput .clock)]

theorem returns_linkInit_iff {s u : State} (hc : s.control = linkInitBody) :
    Returns s u ↔ Returns (linkClosed s linkInitEvents) u := by
  rw [returns_commands_iff (d := .idle) (ts := [])
    (ks := [.configurePinInput .clock, .configurePinInput .dataOut, .configurePinInput .dataIn, .disableTx, .disableRx,
      .disableClock]) hc]
  simp [afterCommands, performCommand, Platform.apply, Platform.setPin, Platform.record, linkClosed, linkInitEvents]

/-- A caller's start of the driver, `beginSession` or `endSession` starts at once, and the target takes no note of the
call. -/
theorem call_linkTaken {s : State} {o : Op} {body : List Task} (hc : s.control = [])
    (ho : o = .linkInit ∨ o = .linkBegin ∨ o = .linkEnd) (hr : opRefusal s o = none)
    (hb : opBody s o = .tasks body) :
    s.call o [] = .next { s with ret := .nothing, source := .bytes [], control := body } := by
  have htarget : (s.target.atCall s.cfg o).noteExit (s.strays o) = s.target := by
    rcases ho with rfl | rfl | rfl <;> simp [Target.atCall, sendsInstruction, State.strays, exitsReset]
  have htyped : o.wellFormed = true ∧ opPulls o ≤ 0 ∧ opBody (s.calling o []) o = .tasks body := by
    rcases ho with rfl | rfl | rfl <;> exact ⟨rfl, le_rfl, hb⟩
  obtain ⟨hwf, hpulls, hbody⟩ := htyped
  obtain ⟨hcall, -⟩ := call_taken (src := []) hc hwf hpulls hr hbody
  rw [hcall]
  simp [State.calling, htarget]

/-- Settles O15: the seven tasks of `linkInitBody` one after another. -/
theorem initializeReachesTheSafeState : Obligations.InitializeReachesTheSafeState := by
  intro s hc
  refine ⟨fun hd => by simp [State.call, hc, opRefusal, hd], fun hd => ?_⟩
  refine ⟨_, call_linkTaken hc (.inl rfl) (by simp [opRefusal, hd]) rfl, (returns_linkInit_iff rfl).2 ?_⟩
  have hret := Returns.refl (s := linkClosed { s with ret := .nothing, source := .bytes [] } linkInitEvents) rfl
  simpa only [linkClosed, linkInitEvents, hc] using hret

/-! ## send (40_link R146, R147) -/

/-- The events of `send(b)` once the direction is Transmitting, after `n` failed checks of the buffer. -/
def sentEvents (b : Byte) (n : Nat) : List Event :=
  .command (.writeByte b) :: .command .resetTxComplete :: passed .txBufferEmpty n

/-- The trace of a whole `send(b)`, and the row it ends in. -/
theorem sendBody_traced {s u : State} {b : Byte} (h : Returns s u) (hc : s.control = sendBody s.dir b) :
    ∃ n switch, SwitchesToTransmit s.dir switch ∧ u.linkRow = s.linkRow.transmitting ∧
      u.platform.trace = sentEvents b n ++ switch ++ s.platform.trace ∧ u.platform.inFlight = true := by
  obtain ⟨switch, s1, hswitch, t1, c1, h1⟩ := toTransmitting_traced h hc
  obtain ⟨n, s2, t2, c2, h2⟩ := await_traced h1 c1 rfl
  have hdone : Returns (byteWritten s2 b []) u := (h2.next c2 rfl).next rfl rfl
  obtain rfl := hdone.done rfl
  have t := t1.trans t2
  refine ⟨n, switch, hswitch, t.row.trans t1.row, ?_, rfl⟩
  rw [sentEvents, List.append_assoc]
  exact congrArg (_ :: _ :: ·) (t.trace.trans (List.append_assoc _ _ _))

/-- Settles O17: what `send` leaves by `send_passes`, its trace by `sendBody_traced`. -/
theorem sendPutsOneByteOnTheWire : Obligations.SendPutsOneByteOnTheWire := by
  intro s b ⟨hc, hd⟩
  obtain ⟨hcall, hiff⟩ := call_taken (o := .send b) (src := []) hc rfl le_rfl
    (opRefusal_none hd nofun nofun nofun) rfl
  refine ⟨_, hcall, fun hp => ?_, fun u hret => ?_⟩
  · obtain ⟨u, -, -, hc', hleads⟩ := (Leads.refl (s.calling (.send b) [])).send rfl hd hp
    exact (hleads.returns hc').imp fun u h => (hiff u).2 h
  · obtain ⟨u', hsent, hc', hret'⟩ := send_passes ((hiff u).1 hret) rfl hd
    obtain rfl := hret'.done hc'
    obtain ⟨n, switch, ⟨hstays, hswitches⟩, hrow, htrace, hflight⟩ := sendBody_traced hret rfl
    refine ⟨hsent.dir, hsent.wire, hsent.ret, hflight, hsent.frame, n, fun ht => ?_, fun ht => ?_⟩
    · rw [hstays ht, List.append_nil] at htrace
      have hrow := hrow.trans (LinkRow.transmitting_of_dir (r := State.linkRow _) ht)
      exact ⟨htrace, congrArg LinkRow.txOn hrow, congrArg LinkRow.rxOn hrow, congrArg LinkRow.dataOutPin hrow⟩
    · obtain ⟨cycle, hcycle, hswitch⟩ := hswitches ht
      have hrow := hrow.trans (LinkRow.transmitting_of_ne (r := State.linkRow _) ht)
      refine ⟨congrArg LinkRow.txOn hrow, congrArg LinkRow.rxOn hrow, congrArg LinkRow.dataOutPin hrow, cycle, hcycle,
        ?_⟩
      rw [hswitch, ← List.append_assoc] at htrace
      exact htrace

/-- A caller's call of an operation that is one `send` for each of the bytes `bs`. -/
theorem Ready.call_sends {s : State} (hs : Ready s) {o : Op} {bs : List Byte} (hne : bs ≠ [])
    (hw : o.wellFormed = true) (hl : opPulls o = 0) (hr : opRefusal s o = none)
    (hb : opBody (s.calling o []) o = .tasks (sends bs)) :
    ∃ t, s.call o [] = .next t ∧ (Prompt s → ∃ u, Returns t u) ∧ ∀ u, Returns t u →
      u.dir = some .transmitting ∧ u.ret = .nothing ∧ CoreFrame s u ∧ u.wire = s.wire ++ bs := by
  obtain ⟨hcall, -⟩ := call_taken (src := []) hs.1 hw (Nat.le_of_eq hl) hr hb
  have hc : ({ s.calling o [] with control := sends bs } : State).control = sends bs ++ [] := (List.append_nil _).symm
  refine ⟨_, hcall, fun hp => ?_, fun u hret => ?_⟩
  · obtain ⟨u, -, -, hc', hleads⟩ := (Leads.refl _).sends hc hs.2 hp
    exact hleads.returns hc'
  · obtain ⟨u', hsent, hc', hret'⟩ := sends_pass hret hc hs.2
    obtain rfl := hret'.done hc'
    exact ⟨hsent.dir.trans (if_neg hne), hsent.ret, hsent.frame, hsent.wire⟩

/-- Settles O18: `le2 v` and `le4 v` are the bytes sent. -/
theorem multiByteSendsAreLittleEndian : Obligations.MultiByteSendsAreLittleEndian := by
  intro s hs
  exact ⟨fun v => hs.call_sends (bs := le2 v) nofun rfl rfl (opRefusal_none hs.2 nofun nofun nofun) rfl,
    fun v => hs.call_sends (bs := le4 v) nofun rfl rfl (opRefusal_none hs.2 nofun nofun nofun) rfl⟩

/-! ## recv (40_link R148) -/

/-- An empty round before others: `recv`'s loop is unrolled from its head, the events stand newest first. -/
theorem EmptyRounds.first {n : Nat} {es c : List Event} (h : EmptyRounds n es) (hc : ClockCycle c) :
    EmptyRounds (n + 1) (es ++ (c ++ [.rxComplete false])) := by
  induction h with
  | none => exact .more .none hc
  | more _ cycle ih => simpa using ih.more cycle

/-- How a poll with `n` checks ends: its result and its events (40_link R148). -/
def PollEnds (n : Nat) (r : Return) (poll : List Event) : Prop :=
  (∃ b k rounds, r = .ok (.byte b) ∧ k < n ∧ EmptyRounds k rounds ∧
      poll = [.readByte b, .rxError false, .rxComplete true] ++ rounds) ∨
    (∃ k rounds, r = .err .serialError ∧ k < n ∧ EmptyRounds k rounds ∧
      poll = [.rxError true, .rxComplete true] ++ rounds) ∨
    (r = .err .serialTimeout ∧ EmptyRounds n poll)

/-- An empty round before the rest of a poll. -/
theorem PollEnds.afterRound {n : Nat} {r : Return} {poll c : List Event} (h : PollEnds n r poll) (hc : ClockCycle c) :
    PollEnds (n + 1) r (poll ++ (c ++ [.rxComplete false])) := by
  rcases h with ⟨b, k, rounds, hr, hk, hrounds, rfl⟩ | ⟨k, rounds, hr, hk, hrounds, rfl⟩ | ⟨hr, hrounds⟩
  · exact .inl ⟨b, k + 1, _, hr, by omega, hrounds.first hc, List.append_assoc _ _ _⟩
  · exact .inr (.inl ⟨k + 1, _, hr, by omega, hrounds.first hc, List.append_assoc _ _ _⟩)
  · exact .inr (.inr ⟨hr, hrounds.first hc⟩)

/-- A query of `recv` records its answer. -/
theorem query_traced (s : State) (e : Bool → Event) (a : Bool) (ts : List Task) (h : e = .rxComplete ∨ e = .rxError) :
    Traced s s.linkRow [e (s.platform.query e a).1] { s with platform := (s.platform.query e a).2, control := ts } where
  quiet := query_quietly s e a ts h
  trace := s.platform.query_trace e a
  row := s.platform.query_row e a s.dir

theorem Platform.takeFrame_row (p : Platform) (l : Option Byte) (d : Option Direction) :
    (p.takeFrame l).2.row d = p.row d := by
  obtain ⟨_, _, hf⟩ := p.takeFrame_keeps l
  rw [hf]
  rfl

theorem Platform.takeFrame_trace (p : Platform) (l : Option Byte) : (p.takeFrame l).2.trace = p.trace := by
  obtain ⟨_, _, hf⟩ := p.takeFrame_keeps l
  rw [hf]

/-- What `recv` does once rxComplete is true: the error check, and `readByte` after a good frame. -/
theorem rxErrorCheck_ends {s u : State} (h : Returns s u) (hc : s.control = [.rxErrorCheck]) :
    u.linkRow = s.linkRow ∧
      ((∃ b, u.ret = .ok (.byte b) ∧ u.platform.trace = [.readByte b, .rxError false] ++ s.platform.trace) ∨
        u.ret = .err .serialError ∧ u.platform.trace = .rxError true :: s.platform.trace) := by
  have h1 := h.next hc rfl
  have hquery := query_traced s .rxError false [] (.inr rfl)
  simp only [performRxErrorCheck] at h1
  split at h1
  · next hbad =>
    obtain rfl := h1.done rfl
    rw [hbad] at hquery
    exact ⟨hquery.row, .inr ⟨rfl, hquery.trace⟩⟩
  · next hgood =>
    obtain rfl := (h1.next (ts := []) rfl rfl).done rfl
    rw [Bool.eq_false_iff.2 hgood] at hquery
    refine ⟨(Platform.takeFrame_row _ _ _).trans hquery.row, .inl ⟨_, rfl, congrArg (_ :: ·) ?_⟩⟩
    exact (Platform.takeFrame_trace _ _).trans hquery.trace

/-- The poll of `recv` with `n` checks to go leaves the row and ends in one of its three outcomes. -/
theorem rxCheck_ends {s u : State} {n : Nat} (h : Returns s u) (hc : s.control = [.rxCheck n]) :
    u.linkRow = s.linkRow ∧ ∃ poll, u.platform.trace = poll ++ s.platform.trace ∧ PollEnds n u.ret poll := by
  induction n generalizing s with
  | zero =>
    obtain rfl := (h.next hc rfl).done rfl
    exact ⟨rfl, [], rfl, .inr (.inr ⟨rfl, .none⟩)⟩
  | succ n ih =>
    have h1 := h.next hc rfl
    simp only [performRxCheck] at h1
    split at h1
    · next hframe =>
      have hquery := query_traced s .rxComplete true [.rxErrorCheck] (.inl rfl)
      rw [hframe] at hquery
      obtain ⟨hrow, ⟨b, hr, htrace⟩ | ⟨hr, htrace⟩⟩ := rxErrorCheck_ends h1 rfl
      · exact ⟨hrow.trans hquery.row, _, htrace.trans (congrArg (_ ++ ·) hquery.trace),
          .inl ⟨b, 0, [], hr, n.succ_pos, .none, rfl⟩⟩
      · exact ⟨hrow.trans hquery.row, _, htrace.trans (congrArg (_ :: ·) hquery.trace),
          .inr (.inl ⟨0, [], hr, n.succ_pos, .none, rfl⟩)⟩
    · next hnone =>
      have hquery := query_traced s .rxComplete true (waitClockCycle ++ [.rxCheck n]) (.inl rfl)
      rw [Bool.eq_false_iff.2 hnone] at hquery
      obtain ⟨cycle, s2, hcycle, t2, c2, h2⟩ := waitClockCycle_traced (ts := [.rxCheck n]) h1 rfl
      have hround := hquery.trans t2
      obtain ⟨hrow, poll, htrace, hends⟩ := ih h2 c2
      refine ⟨hrow.trans (hround.row.trans hquery.row), _, ?_, hends.afterRound hcycle⟩
      simp only [htrace, hround.trace, List.append_assoc]

/-- Settles O19: what `recv` leaves by `recv_passes`; its trace by the transition's and the poll's. -/
theorem recvDrainsThenPollsBounded : Obligations.RecvDrainsThenPollsBounded := by
  intro s ⟨hc, hd⟩
  obtain ⟨hcall, hiff⟩ := call_taken (o := .recv) (src := []) hc rfl le_rfl
    (opRefusal_none hd nofun nofun nofun) rfl
  refine ⟨_, hcall, fun hp hn => ?_, fun u hret => ?_⟩
  · obtain ⟨u, b, -, -, hc', hleads, -⟩ := (Leads.refl (s.calling .recv [])).recv rfl hd hp hn
    exact (hleads.returns hc').imp fun u h => (hiff u).2 h
  · have hleft : u.dir = some .receiving ∧ u.wire = s.wire ∧ CoreFrame s u := by
      rcases recv_passes ((hiff u).1 hret) rfl hd with ⟨u', b, hok, hc', hret'⟩ | ⟨u', herr, hc', hret'⟩
      · exact hret'.done hc' ▸ ⟨hok.dir, hok.wire, hok.frame⟩
      · exact hret'.done hc' ▸ ⟨herr.dir, herr.wire, herr.frame⟩
    obtain ⟨hdir, hwire, hframe⟩ := hleft
    obtain ⟨switch, s1, ⟨hstays, hswitches⟩, t1, c1, h1⟩ := toReceiving_traced hret rfl
    obtain ⟨hrow, poll, htrace, hends⟩ := rxCheck_ends h1 c1
    rw [t1.trace, ← List.append_assoc] at htrace
    refine ⟨hdir, hwire, hframe, poll, switch, htrace, hstays, fun hr => ?_, hends⟩
    have hrow' := hrow.trans (t1.row.trans (LinkRow.receiving_of_ne (r := State.linkRow _) hr))
    exact ⟨congrArg LinkRow.txOn hrow', congrArg LinkRow.rxOn hrow', congrArg LinkRow.dataOutPin hrow', hswitches hr⟩

/-! ## beginSession (40_link R145) -/

/-- The state after the wake sequence of `beginSession()`, before its clock cycles. -/
def linkWoken (s : State) (ts : List Task) : State :=
  { s with
    dir := some .transmitting, control := ts, target := { s.target with linked := true }
    platform :=
      { s.platform with
        clockPin := .output .high, dataOutPin := .output .high, txOn := true, clockOn := true
        trace :=
          [.command .enableTx, .command .enableClock, .command (.delay s.cfg.settleDelayHighUs),
            .command (.writePin .dataOut .high), .command (.delay s.cfg.settleDelayLowUs),
            .command (.configurePinOutput .dataOut .low), .command (.configurePinOutput .clock .high)] ++
            s.platform.trace } }

/-- A run of `beginSession` is a run of its clock cycles after the wake sequence. -/
theorem returns_linkBegin_iff {s u : State} (hc : s.control = linkBeginBody s.cfg) :
    Returns s u ↔ Returns (linkWoken s [.wake s.cfg.beginClockCycles]) u := by
  rw [returns_commands_iff (d := .transmitting) (ts := [.wake s.cfg.beginClockCycles])
    (ks := [.configurePinOutput .clock .high, .configurePinOutput .dataOut .low, .delay s.cfg.settleDelayLowUs,
      .writePin .dataOut .high, .delay s.cfg.settleDelayHighUs, .enableClock, .enableTx]) hc]
  simp [afterCommands, performCommand, Platform.apply, Platform.setPin, Platform.pin, Platform.record, linkWoken]

/-- A clock cycle before others. -/
theorem Cycles.first {n : Nat} {es c : List Event} (h : Cycles n es) (hc : ClockCycle c) : Cycles (n + 1) (es ++ c) := by
  induction h with
  | none => simpa using Cycles.more .none hc
  | more _ cycle ih => simpa using ih.more cycle

theorem wake_traced {s u : State} {n : Nat} {ts : List Task} (h : Returns s u) (hc : s.control = .wake n :: ts) :
    ∃ wake s', Cycles n wake ∧ Traced s s.linkRow wake s' ∧ s'.control = ts ∧ Returns s' u := by
  induction n generalizing s with
  | zero => exact ⟨[], _, .none, Traced.refl s ts, rfl, h.next hc rfl⟩
  | succ n ih =>
    have t0 := Traced.refl s (waitClockCycle ++ .wake n :: ts)
    obtain ⟨cycle, s1, hcycle, t1, c1, h1⟩ := waitClockCycle_traced (ts := .wake n :: ts) (h.next hc rfl)
      (List.append_assoc _ _ _)
    obtain ⟨wake, s2, hwake, t2, c2, h2⟩ := ih h1 c1
    have t := (t0.trans t1).trans t2
    rw [t1.row, List.append_nil] at t
    exact ⟨wake ++ cycle, s2, hwake.first hcycle, t, c2, h2⟩

section PromptWake
variable {s t : State} {ts : List Task}

theorem Leads.waitClockCycle (h : Leads s t) (hc : t.control = waitClockCycle ++ ts) (hp : Prompt t) :
    ∃ s', Prompt s' ∧ s'.control = ts ∧ Leads s s' := by
  obtain ⟨s1, -, p1, c1, h1⟩ := h.await_quietly hc hp
  obtain ⟨s2, -, p2, c2, h2⟩ := h1.await_quietly c1 p1
  obtain ⟨s3, -, p3, c3, h3⟩ := h2.await_quietly c2 p2
  exact ⟨s3, p3, c3, h3⟩

/-- When the Platform answers at once, the clock cycles of `beginSession` are over. -/
theorem Leads.wake {n : Nat} (h : Leads s t) (hc : t.control = .wake n :: ts) (hp : Prompt t) :
    ∃ s', s'.control = ts ∧ Leads s s' := by
  induction n generalizing t with
  | zero => exact ⟨_, rfl, h.next hc rfl⟩
  | succ n ih =>
    obtain ⟨s1, p1, c1, h1⟩ := (h.next hc rfl).waitClockCycle (ts := .wake n :: ts) (List.append_assoc _ _ _) hp
    exact ih h1 c1 p1

end PromptWake

/-- Settles O20: the wake sequence, then the clock cycles. -/
theorem beginSessionWakesTheTarget : Obligations.BeginSessionWakesTheTarget := by
  intro s hc
  refine ⟨fun hd => by simp [State.call, hc, opRefusal, hd], fun hd => ?_, fun hd => ?_⟩
  · rcases hd with hd | hd <;> simp [State.call, hc, opRefusal, hd]
  · refine ⟨_, call_linkTaken hc (.inr (.inl rfl)) (by simp [opRefusal, hd]) rfl, fun hp => ?_, fun u hret => ?_⟩
    · have hwoken : Leads { s with ret := .nothing, source := .bytes [], control := linkBeginBody s.cfg }
          (linkWoken _ _) := fun u => (returns_linkBegin_iff rfl).2
      obtain ⟨s', hc', hleads⟩ := hwoken.wake rfl hp
      exact hleads.returns hc'
    · obtain ⟨wake, u', hwake, t, hc', hret'⟩ := wake_traced ((returns_linkBegin_iff rfl).1 hret) rfl
      obtain rfl := hret'.done hc'
      obtain ⟨-, hsess, hactive, hcalls, hhost, -⟩ := t.quiet.frame
      have hrow := t.row
      exact ⟨t.quiet.dir, hsess, hactive, t.quiet.ret, t.quiet.target, hhost, hcalls, congrArg LinkRow.txOn hrow,
        congrArg LinkRow.rxOn hrow, congrArg LinkRow.clockOn hrow, congrArg LinkRow.clockPin hrow,
        congrArg LinkRow.dataOutPin hrow, congrArg LinkRow.dataInPin hrow, wake, hwake,
        t.trace.trans (List.append_assoc _ _ _).symm⟩

/-! ## endSession (40_link R149) -/

/-- The tasks of `endSession()` after its transition. -/
def teardownTasks : List Task :=
  [.command .disableRx, .command .disableTx, .command .disableClock, .command (.configurePinInput .clock),
    .command (.configurePinInput .dataOut), .command (.configurePinInput .dataIn), .setDir .idle]

/-- The events of the teardown. -/
def teardownEvents : List Event :=
  [.command (.configurePinInput .dataIn), .command (.configurePinInput .dataOut), .command (.configurePinInput .clock),
    .command .disableClock, .command .disableTx, .command .disableRx]

theorem returns_teardown_iff {s u : State} (hc : s.control = teardownTasks) :
    Returns s u ↔ Returns (linkClosed s teardownEvents) u := by
  rw [returns_commands_iff (d := .idle) (ts := [])
    (ks := [.disableRx, .disableTx, .disableClock, .configurePinInput .clock, .configurePinInput .dataOut,
      .configurePinInput .dataIn]) hc]
  simp [afterCommands, performCommand, Platform.apply, Platform.setPin, Platform.record, linkClosed, teardownEvents]

/-- From Idle the transition into Receiving has nothing to drain. -/
theorem SwitchesToReceive.from_idle {switch : List Event} (h : SwitchesToReceive (some .idle) switch) :
    switch = [.command (.configurePinInput .dataOut), .command .disableTx, .command .enableRx] := by
  obtain ⟨-, hswitches⟩ := h
  obtain ⟨drain, rfl, hnone, -⟩ := hswitches nofun
  rw [hnone nofun, List.append_nil]

/-- From Transmitting it waits for the last byte first. -/
theorem SwitchesToReceive.from_transmitting {switch : List Event}
    (h : SwitchesToReceive (some .transmitting) switch) :
    ∃ n, switch =
      [.command (.configurePinInput .dataOut), .command .disableTx, .command .enableRx, .command .resetTxComplete] ++
        passed .txComplete n := by
  obtain ⟨-, hswitches⟩ := h
  obtain ⟨drain, rfl, -, hdrain⟩ := hswitches nofun
  obtain ⟨n, rfl⟩ := hdrain rfl
  exact ⟨n, rfl⟩

/-- Settles O21: the transition into Receiving, then the teardown. -/
theorem endSessionTearsTheLinkDown : Obligations.EndSessionTearsTheLinkDown := by
  intro s ⟨hc, hd⟩
  refine ⟨_, call_linkTaken hc (.inr (.inr rfl)) (opRefusal_none hd nofun nofun nofun) rfl, fun hp => ?_,
    fun u hret => ?_⟩
  · obtain ⟨s1, -, -, c1, hleads⟩ := Leads.toReceiving (ts := teardownTasks)
      (t := { s with ret := .nothing, source := .bytes [], control := linkEndBody s.dir }) (Leads.refl _) rfl hp
    exact ⟨linkClosed s1 teardownEvents, hleads _ ((returns_teardown_iff c1).2 (.refl rfl))⟩
  · obtain ⟨switch, s1, hswitch, t1, c1, h1⟩ := toReceiving_traced (ts := teardownTasks) hret rfl
    obtain rfl := ((returns_teardown_iff c1).1 h1).done rfl
    obtain ⟨-, hsess, hactive, hcalls, hhost, -⟩ := t1.quiet.frame
    refine ⟨rfl, ⟨rfl, rfl, rfl, rfl, rfl, rfl⟩, hsess, hactive, t1.quiet.ret,
      congrArg (fun t : Target => { t with linked := false }) t1.quiet.target, hhost, hcalls, switch,
      (congrArg (teardownEvents ++ ·) t1.trace).trans (List.append_assoc _ _ _).symm, hswitch.1,
      fun hidle => SwitchesToReceive.from_idle (hidle ▸ hswitch),
      fun htrans => SwitchesToReceive.from_transmitting (htrans ▸ hswitch)⟩

end Sys2Proof.Machine
end

section
/-!
41_encoder R170 to R181: the sixteen PDI instructions issued by a caller. Each is a call of the encoder operation of its
row, whose body sends the instruction's bytes (`SendTasks`) and, where the target replies, then calls `recv`. Settles
O24 and O25.
-/

namespace Sys2Proof.Machine

/-! ## Tasks that send -/

/-- The tasks `ts` send the bytes `bs` under the configuration `c` and do nothing else: they are `send`s, and operations
whose bodies are such tasks. -/
inductive SendTasks (c : Config) : List Task → List Byte → Prop where
  | nil : SendTasks c [] []
  | send (b : Byte) {ts : List Task} {bs : List Byte} (rest : SendTasks c ts bs) :
      SendTasks c (.run (.send b) :: ts) (b :: bs)
  | call {o : Op} {body ts : List Task} {as bs : List Byte} (taken : ∀ s : State, s.dir ≠ none → opRefusal s o = none)
      (starts : ∀ s : State, s.cfg = c → opBody s o = .tasks body) (inner : SendTasks c body as)
      (rest : SendTasks c ts bs) : SendTasks c (.run o :: ts) (as ++ bs)

theorem sendTasks_sends (c : Config) (bs : List Byte) : SendTasks c (sends bs) bs := by
  induction bs with
  | nil => exact .nil
  | cons b bs ih => exact .send b ih

/-- An operation that is one `send` for each of some bytes, before other tasks that send. -/
theorem SendTasks.sendsCall {c : Config} {o : Op} {as bs : List Byte} {ts : List Task} (h1 : o ≠ .linkInit)
    (h2 : o ≠ .linkBegin) (h3 : o ≠ .sessionBegin) (hb : ∀ s : State, opBody s o = .tasks (sends as))
    (rest : SendTasks c ts bs) : SendTasks c (.run o :: ts) (as ++ bs) :=
  .call (fun _ hd => opRefusal_none hd h1 h2 h3) (fun s _ => hb s) (sendTasks_sends c as) rest

theorem SendTasks.send2 {c : Config} (v : Word16) {bs : List Byte} {ts : List Task} (rest : SendTasks c ts bs) :
    SendTasks c (.run (.send2 v) :: ts) (le2 v ++ bs) :=
  .sendsCall nofun nofun nofun (fun _ => rfl) rest

theorem SendTasks.send4 {c : Config} (v : Word) {bs : List Byte} {ts : List Task} (rest : SendTasks c ts bs) :
    SendTasks c (.run (.send4 v) :: ts) (le4 v ++ bs) :=
  .sendsCall nofun nofun nofun (fun _ => rfl) rest

section Running
variable {s t u : State} {ts rest : List Task} {bs : List Byte}

theorem SendTasks.passes {c : Config} (hsend : SendTasks c ts bs) (hcfg : s.cfg = c) (h : Returns s u)
    (hc : s.control = ts ++ rest) (hd : s.dir ≠ none) :
    ∃ s', Sent s bs s' ∧ s'.control = rest ∧ Returns s' u := by
  induction hsend generalizing s rest with
  | nil => exact ⟨s, .nil s s.control, hc, h⟩
  | send b _ ih =>
    obtain ⟨s1, h1, c1, r1⟩ := send_passes h hc hd
    obtain ⟨s2, h2, c2, r2⟩ := ih (h1.frame.1.trans hcfg) r1 c1 (h1.dir_ne hd)
    exact ⟨s2, h1.append h2, c2, r2⟩
  | @call o body vs as cs taken starts _ _ ihinner ihrest =>
    have hstarted := h.run hc (taken s hd) (starts s hcfg)
    obtain ⟨s1, h1, c1, r1⟩ := ihinner (s := { s with control := body ++ (vs ++ rest) }) hcfg hstarted rfl hd
    have hcfg1 := h1.frame.1.trans hcfg
    obtain ⟨s2, h2, c2, r2⟩ := ihrest hcfg1 r1 c1 (h1.dir_ne hd)
    exact ⟨s2, ((Sent.nil s _).append h1).append h2, c2, r2⟩

/-- When the Platform answers at once, they are performed to their end. -/
theorem SendTasks.leads {c : Config} (hsend : SendTasks c ts bs) (hcfg : t.cfg = c) (h : Leads s t)
    (hc : t.control = ts ++ rest) (hd : t.dir ≠ none) (hp : Prompt t) :
    ∃ s', Sent t bs s' ∧ Prompt s' ∧ s'.control = rest ∧ Leads s s' := by
  induction hsend generalizing t rest with
  | nil => exact ⟨t, .nil t t.control, hp, hc, h⟩
  | send b _ ih =>
    obtain ⟨s1, h1, p1, c1, l1⟩ := h.send hc hd hp
    obtain ⟨s2, h2, p2, c2, l2⟩ := ih (h1.frame.1.trans hcfg) l1 c1 (h1.dir_ne hd) p1
    exact ⟨s2, h1.append h2, p2, c2, l2⟩
  | @call o body vs as cs taken starts _ _ ihinner ihrest =>
    have hstarted := h.next hc (opStart_tasks (s := { t with control := vs ++ rest })
      (taken _ hd) (starts { t with control := vs ++ rest } hcfg))
    obtain ⟨s1, h1, p1, c1, l1⟩ := ihinner (t := { t with control := body ++ (vs ++ rest) }) hcfg hstarted rfl hd hp
    have hcfg1 := h1.frame.1.trans hcfg
    obtain ⟨s2, h2, p2, c2, l2⟩ := ihrest hcfg1 l1 c1 (h1.dir_ne hd) p1
    exact ⟨s2, ((Sent.nil t _).append h1).append h2, p2, c2, l2⟩

end Running

/-! ## Instructions as calls -/

/-- What follows the bytes of an instruction: `recv` where the target replies (41_encoder R170, R172, R179). -/
def replyTasks (i : Instr) : List Task := if hasReply i then [.run .recv] else []

/-- The instruction `i` is the call of the operation `o`, which sends its bytes. -/
structure Issues (i : Instr) (o : Op) : Prop where
  body : ∀ s, ∃ ts, SendTasks s.cfg ts (encodeWith s.cfg i) ∧ opBody s o = .tasks (ts ++ replyTasks i)
  exec : ∀ s, exec i s = s.call o [] := by exact fun _ => rfl
  wellFormed : o.wellFormed = true := by rfl
  pulls : opPulls o = 0 := by rfl
  taken : ∀ s : State, s.dir ≠ none → opRefusal s o = none := by exact fun _ hd => opRefusal_none hd nofun nofun nofun
  atCall : ∀ (t : Target) (c : Config), t.atCall c o = t.beginInstruction (storesOneByte i) := by exact fun _ _ => rfl
  exits : ∀ c, exitsReset c o = leavesReset c i := by exact fun _ => rfl

/-- The encoder operation of each row (41_encoder R170 to R176, R179 to R181). -/
theorem Instr.issues {i : Instr} (hpdi : i.channel = .pdi) (hkey : ∀ k, i = .key k → k.length = 8) :
    ∃ o, Issues i o := by
  cases i with
  | lds a => exact ⟨.loadDirect a, { body := fun _ => ⟨_, .send _ (.send4 a .nil), rfl⟩ }⟩
  | sts a d => exact ⟨.storeDirect a d, { body := fun _ => ⟨_, .send _ (.send4 a (.send d .nil)), rfl⟩ }⟩
  | ldInd => exact ⟨.loadPointer .indirect, { body := fun _ => ⟨_, .send _ .nil, rfl⟩ }⟩
  | ldInc => exact ⟨.loadPointer .autoInc, { body := fun _ => ⟨_, .send _ .nil, rfl⟩ }⟩
  | ldPtr => exact ⟨.loadPointer .direct, { body := fun _ => ⟨_, .send _ .nil, rfl⟩ }⟩
  | stInd d => exact ⟨.storePointer .indirect d, { body := fun _ => ⟨_, .send _ (.send d .nil), rfl⟩ }⟩
  | stInc d => exact ⟨.storePointer .autoInc d, { body := fun _ => ⟨_, .send _ (.send d .nil), rfl⟩ }⟩
  | stPtrB d => exact ⟨.storePointer .direct d, { body := fun _ => ⟨_, .send _ (.send d .nil), rfl⟩ }⟩
  | stIndL a => exact ⟨.storePointerAutoAddr .indirect a, { body := fun _ => ⟨_, .send _ (.send4 a .nil), rfl⟩ }⟩
  | stIncL a => exact ⟨.storePointerAutoAddr .autoInc a, { body := fun _ => ⟨_, .send _ (.send4 a .nil), rfl⟩ }⟩
  | stPtr a => exact ⟨.storePointerAutoAddr .direct a, { body := fun _ => ⟨_, .send _ (.send4 a .nil), rfl⟩ }⟩
  | repeatB n => exact ⟨.repeat1 n, { body := fun _ => ⟨_, .send _ (.send n .nil), rfl⟩ }⟩
  | repeatW n => exact ⟨.repeat2 n, { body := fun _ => ⟨_, .send _ (.send2 n .nil), rfl⟩ }⟩
  | ldcs r => exact ⟨.loadControlStatus r, { body := fun _ => ⟨_, .send _ .nil, rfl⟩ }⟩
  | stcs r d => exact ⟨.storeControlStatus r d, { body := fun _ => ⟨_, .send _ (.send d .nil), rfl⟩ }⟩
  | key k =>
    have hbody : ∀ s, opBody s (.keyWith k) = .tasks (sends (s.cfg.opKey :: k) ++ replyTasks (.key k)) := fun s =>
      congrArg Body.tasks (List.append_nil _).symm
    exact ⟨.keyWith k,
      { body := fun s => ⟨_, sendTasks_sends _ _, hbody s⟩, wellFormed := decide_eq_true (hkey k rfl) }⟩
  | _ => cases hpdi

/-- A caller's call of the instruction `i` has been taken, and the tasks `ts` are what it is to do. -/
def State.issuing (s : State) (i : Instr) (ts : List Task) : State :=
  { s with
    ret := .nothing, source := .bytes [], control := ts
    target :=
      (s.target.beginInstruction (storesOneByte i)).noteExit
        (decide (s.sess = .programming) && leavesReset s.cfg i) }

/-- A ready machine takes an instruction: what it is to do is send the bytes, then receive where the target replies. -/
theorem Ready.exec_issues {s : State} (hs : Ready s) {i : Instr} (hpdi : i.channel = .pdi)
    (hkey : ∀ k, i = .key k → k.length = 8) :
    ∃ ts, SendTasks s.cfg ts (encodeWith s.cfg i) ∧ exec i s = .next (s.issuing i (ts ++ replyTasks i)) := by
  obtain ⟨o, ho⟩ := Instr.issues hpdi hkey
  obtain ⟨ts, hsend, hbody⟩ := ho.body (s.calling o [])
  obtain ⟨hcall, -⟩ := call_taken (src := []) hs.1 ho.wellFormed ho.pulls.le (ho.taken s hs.2) hbody
  refine ⟨ts, hsend, (ho.exec s).trans (hcall.trans ?_)⟩
  simp only [State.calling, State.issuing, State.strays, ho.atCall, ho.exits]

theorem encodeWith_ne_nil (c : Config) (i : Instr) : encodeWith c i ≠ [] := by
  cases i <;> exact List.cons_ne_nil _ _

/-- Settles O24: the instruction's tasks are sends alone, and `Sent` says what they do. -/
theorem instructionsWithoutReplyComplete : Obligations.InstructionsWithoutReplyComplete := by
  intro i s hpdi hreply hkey hs
  obtain ⟨ts, hsend, hexec⟩ := hs.exec_issues hpdi hkey
  have hno : replyTasks i = [] := by simp [replyTasks, hreply]
  rw [hno] at hexec
  refine ⟨_, hexec, fun hp => ?_, fun u hret => ?_⟩
  · obtain ⟨v, -, -, hc, hleads⟩ := hsend.leads (t := s.issuing i (ts ++ [])) rfl (Leads.refl _) rfl hs.2 hp
    exact hleads.returns hc
  · obtain ⟨v, hsent, hc, hret'⟩ := hsend.passes (s := s.issuing i (ts ++ [])) rfl hret rfl hs.2
    obtain rfl := hret'.done hc
    exact ⟨hsent.wire, hsent.dir.trans (if_neg (encodeWith_ne_nil _ i)), hsent.ret, hsent.reply, hsent.frames,
      hsent.frame, hsent.target⟩

/-- The instructions with a reply are on the PDI channel, store no byte and release no reset. -/
theorem hasReply_facts {i : Instr} (h : hasReply i = true) :
    i.channel = .pdi ∧ (∀ k, i ≠ .key k) ∧ storesOneByte i = false ∧ ∀ c, leavesReset c i = false := by
  cases i with
  | lds | ldInd | ldInc | ldPtr | ldcs => exact ⟨rfl, nofun, rfl, fun _ => rfl⟩
  | _ => cases h

/-- Settles O25: after the sends, `recv` gives the target's oldest reply or a link error. -/
theorem instructionsWithReplyComplete : Obligations.InstructionsWithReplyComplete := by
  intro i s hreply hs T hT
  obtain ⟨hpdi, hkey, hst, hexit⟩ := hasReply_facts hreply
  obtain ⟨ts, hsend, hexec⟩ := hs.exec_issues hpdi fun k hk => absurd hk (hkey k)
  have hrecv : replyTasks i = [.run .recv] := by simp [replyTasks, hreply]
  have htarget : (s.issuing i (ts ++ [.run .recv])).target = s.target.beginInstruction false := by
    simp [State.issuing, hst, hexit]
  rw [hrecv] at hexec
  refine ⟨_, hexec, fun hp hw hn b hb => ?_, fun u hret => ?_⟩
  · obtain ⟨v, hsent, hpv, hc, hleads⟩ :=
      hsend.leads (t := s.issuing i (ts ++ [.run .recv])) rfl (Leads.refl _) rfl hs.2 hp
    obtain ⟨w, b', hreceived, -, hc', hleads', holdest⟩ :=
      hleads.recv hc (hsent.dir_ne hs.2) hpv (by rwa [hsent.frame.1])
    have hTv : v.target = T := by rw [hsent.target hw, htarget, hT]; rfl
    obtain rfl := holdest b (hTv ▸ hb)
    exact ⟨w, hleads' w (.refl hc'), hreceived.ret⟩
  · obtain ⟨v, hsent, hc, hret'⟩ := hsend.passes (s := s.issuing i (ts ++ [.run .recv])) rfl hret rfl hs.2
    have hTv (hw : WireConnected s) : v.target = T := by rw [hsent.target hw, htarget, hT]; rfl
    rcases recv_passes hret' hc (hsent.dir_ne hs.2) with ⟨w, b, hr, hc', hret''⟩ | ⟨w, hf, hc', hret''⟩
    · obtain rfl := hret''.done hc'
      exact ⟨hr.wire.trans hsent.wire, hr.dir, hsent.frame.trans hr.frame,
        .inl ⟨b, hr.ret, hr.reply, fun hw => by rw [hr.target, hTv hw]⟩⟩
    · obtain rfl := hret''.done hc'
      exact ⟨hf.wire.trans hsent.wire, hf.dir, hsent.frame.trans hf.frame,
        .inr ⟨hf.error, hf.reply.trans hsent.reply, fun hw => by rw [hf.target, hTv hw]⟩⟩

end Sys2Proof.Machine
end

section
/-!
41_encoder R177, R178, R182: the bulk operations. Their opcodes are tasks that send (`SendTasks`); the loop after them
pulls and sends each byte, or receives each reply. Settles O27 and O28.
-/

namespace Sys2Proof.Machine

/-! ## The opcodes of a bulk operation -/

theorem SendTasks.repeat2 {c : Config} (n : Word16) {bs : List Byte} {ts : List Task} (rest : SendTasks c ts bs) :
    SendTasks c (.run (.repeat2 n) :: ts) (c.opRepeat2 :: le2 n ++ bs) :=
  .call (fun _ hd => opRefusal_none hd nofun nofun nofun) (fun _ hs => hs ▸ rfl) (.send _ (.send2 n .nil)) rest

/-- A `bulkStore` of some bytes sends its REPEAT, if it has one, and its opcode, then pulls (41_encoder R178). -/
theorem bulkStoreBody_eq (c : Config) (m : PtrMode) {len : Nat} (h : len ≠ 0) :
    ∃ ts, SendTasks c ts (repeatBytes c len ++ [stOpcode c m]) ∧
      bulkStoreBody c m len = ts ++ [.store len, .finish (.ok .unit)] := by
  by_cases hrepeat : 2 ≤ len
  · rw [repeatBytes, if_pos hrepeat]
    exact ⟨_, .repeat2 (BitVec.ofNat 16 (len - 1)) (.send (stOpcode c m) .nil), by simp [bulkStoreBody, h, hrepeat]⟩
  · rw [repeatBytes, if_neg hrepeat]
    exact ⟨_, .send (stOpcode c m) .nil, by simp [bulkStoreBody, h, hrepeat]⟩

theorem bulkStoreBytes_eq (c : Config) (m : PtrMode) {ds : List Byte} (h : ds ≠ []) :
    bulkStoreBytes c m ds = repeatBytes c ds.length ++ [stOpcode c m] ++ ds := by
  simp [bulkStoreBytes, h]

/-- A `bulkLoad` of several bytes sends its REPEAT and its opcode, then receives (41_encoder R177). -/
theorem bulkLoadBody_eq (c : Config) (m : PtrMode) {len : Word16} (h0 : len ≠ 0) (h1 : len ≠ 1) :
    ∃ ts bs, SendTasks c ts bs ∧ bulkLoadBody c m len = ts ++ [.collect len.toNat []] :=
  ⟨_, _, .repeat2 (len - 1) (.send (ldOpcode c m) .nil), (if_neg h0).trans (if_neg h1)⟩

/-! ## bulkStore -/

section Store
variable {s u : State} {m : PtrMode} {len : Nat} {ds : List Byte}

/-- A whole `bulkStore` of some bytes: the opcodes are sent, the bytes pulled and sent, and it returns Ok. -/
theorem bulkStoreBody_passes (h : Returns s u) (hc : s.control = bulkStoreBody s.cfg m len) (hd : s.dir ≠ none)
    (h0 : len ≠ 0) (hs : s.source = .bytes ds) (hlen : len ≤ ds.length) :
    ∃ v w, Sent s (repeatBytes s.cfg len ++ [stOpcode s.cfg m]) v ∧ Pulled v (ds.take len) w ∧
      w.source = .bytes (ds.drop len) ∧ w.host = v.host ∧ u = { w with control := [], ret := .ok .unit } := by
  obtain ⟨ts, hsend, hbody⟩ := bulkStoreBody_eq s.cfg m h0
  obtain ⟨v, hsent, hc1, h1⟩ := hsend.passes rfl h (hc.trans hbody) hd
  obtain ⟨w, hpulled, hsource, hhost, hc2, h2⟩ := store_passes h1 hc1 (hsent.dir_ne hd) (hsent.source.trans hs) hlen
  exact ⟨v, w, hsent, hpulled, hsource, hhost, (h2.next hc2 rfl).done rfl⟩

/-- When the Platform answers at once, the pull loop comes to its end. -/
theorem Leads.store {t : State} {ts : List Task} (h : Leads s t) (hc : t.control = .store len :: ts)
    (hd : t.dir ≠ none) (hp : Prompt t) (hs : t.source = .bytes ds) (hlen : len ≤ ds.length) :
    ∃ v, v.control = ts ∧ Leads s v := by
  induction len generalizing t ds with
  | zero => exact ⟨_, rfl, h.next hc rfl⟩
  | succ n ih =>
    obtain ⟨d, ds, rfl⟩ := List.exists_cons_of_length_pos (Nat.zero_lt_of_lt hlen)
    have hpull := h.next (v := State.push
      { t with control := ts, source := .bytes ds, platform := t.platform.record (.pull d) }
      [.run (.send d), .store n]) hc (by simp [perform, performStore, hs])
    obtain ⟨v, hsent, hpv, hcv, hv⟩ := hpull.send rfl hd hp
    exact ih hv hcv (hsent.dir_ne hd) hpv hsent.source (Nat.le_of_succ_le_succ hlen)

theorem Leads.bulkStore (hc : s.control = bulkStoreBody s.cfg m len) (hd : s.dir ≠ none) (hp : Prompt s)
    (hs : s.source = .bytes ds) (hlen : len ≤ ds.length) : ∃ u, Returns s u := by
  by_cases h0 : len = 0
  · have hfinish : s.control = [.finish (.ok .unit)] := by rw [hc, h0]; rfl
    exact ((Leads.refl s).next hfinish rfl).returns rfl
  · obtain ⟨ts, hsend, hbody⟩ := bulkStoreBody_eq s.cfg m h0
    obtain ⟨v, hsent, hpv, hcv, hv⟩ := hsend.leads rfl (Leads.refl s) (hc.trans hbody) hd hp
    obtain ⟨w, hcw, hw⟩ := hv.store hcv (hsent.dir_ne hd) hpv (hsent.source.trans hs) hlen
    exact (hw.next hcw rfl).returns rfl

end Store

/-- Settles O27: the opcodes come before the pulls, and `Pulled` gives the pulls with their sends. -/
theorem bulkStoreSendsEachPulledByte : Obligations.BulkStoreSendsEachPulledByte := by
  intro s m src len ⟨hc, hd⟩ hwide hlen
  obtain ⟨hcall, -⟩ := call_taken (o := .bulkStore m len) hc (decide_eq_true hwide) hlen
    (opRefusal_none hd nofun nofun nofun) rfl
  refine ⟨_, hcall, fun hp => Leads.bulkStore rfl hd hp rfl hlen, fun u hret => ?_⟩
  obtain ⟨new, hnew⟩ := hret.1.trace
  by_cases h0 : len = 0
  · subst h0
    obtain rfl := (hret.next (s' := _) rfl rfl).done rfl
    exact ⟨rfl, (List.append_nil _).symm, rfl, CoreFrame.refl s, fun _ => rfl, [], rfl, rfl⟩
  · obtain ⟨v, w, hsent, hpulled, hsource, hhost, rfl⟩ := bulkStoreBody_passes hret rfl hd h0 rfl hlen
    have hlength : (src.take len).length = len := List.length_take_of_le hlen
    have hbytes := bulkStoreBytes_eq s.cfg m (ds := src.take len) (List.ne_nil_of_length_pos (by omega))
    rw [hlength] at hbytes
    refine ⟨rfl, ?_, hsource, ?_, fun h => absurd h h0, new, hnew, ?_⟩
    · rw [hbytes, ← List.append_assoc]
      exact hpulled.wire.trans (congrArg (· ++ _) hsent.wire)
    · have hframe := hpulled.frame
      rw [← hhost] at hframe
      exact hsent.frame.trans hframe
    · have htrace : w.platform.trace = new ++ s.platform.trace := hnew
      have htransfers := hpulled.transfers.trans (congrArg (· ++ _) hsent.transfers)
      have hopcodes : (bulkStoreBytes s.cfg m (src.take len)).take
          ((bulkStoreBytes s.cfg m (src.take len)).length - len) = repeatBytes s.cfg len ++ [stOpcode s.cfg m] := by
        rw [hbytes]
        exact List.take_left' (by simp only [List.length_append, hlength]; omega)
      rw [htrace, transfersOf_append, List.append_assoc] at htransfers
      rw [hopcodes]
      exact List.append_cancel_left htransfers

/-! ## bulkLoad -/

section Load
variable {s t : State} {ts : List Task}

/-- When the Platform answers at once, the receive loop comes to its end. -/
theorem Leads.collect {n : Nat} {got : List Byte} (h : Leads s t) (hc : t.control = .collect n got :: ts)
    (hd : t.dir ≠ none) (hp : Prompt t) (hn : t.cfg.recvPollCycles ≠ 0) : ∃ v, v.control = ts ∧ Leads s v := by
  induction n generalizing t got with
  | zero => exact ⟨_, rfl, h.next hc rfl⟩
  | succ n ih =>
    obtain ⟨v, b, hreceived, hpv, hcv, hv, -⟩ := (h.next hc rfl).recv rfl hd hp hn
    have hdv : v.dir ≠ none := hreceived.dir ▸ nofun
    have hnv : v.cfg.recvPollCycles ≠ 0 := by rwa [hreceived.frame.1]
    exact ih (hv.next hcv rfl) rfl hdv hpv hnv

theorem Leads.bulkLoad {m : PtrMode} {len : Word16} (hc : s.control = bulkLoadBody s.cfg m len) (hd : s.dir ≠ none)
    (hp : Prompt s) (hn : s.cfg.recvPollCycles ≠ 0) : ∃ u, Returns s u := by
  by_cases h0 : len = 0
  · have hfinish : s.control = [.finish (.ok (.bytes []))] := hc.trans (if_pos h0)
    exact ((Leads.refl s).next hfinish rfl).returns rfl
  by_cases h1 : len = 1
  · have hload : SendTasks s.cfg [.run (.send (ldOpcode s.cfg m))] [ldOpcode s.cfg m] := .send _ .nil
    have hone : s.control = [.run (.loadPointer m), .wrapReply] := by rw [hc, h1]; rfl
    have hstarted := (Leads.refl s).next hone
      (opStart_tasks (s := { s with control := [.wrapReply] }) (opRefusal_none hd nofun nofun nofun) rfl)
    obtain ⟨v, hsent, hpv, hcv, hv⟩ := hstarted.send rfl hd hp
    obtain ⟨w, b, -, -, hcw, hw, -⟩ := hv.recv hcv (hsent.dir_ne hd) hpv (by rwa [hsent.frame.1])
    exact (hw.next hcw rfl).returns rfl
  · obtain ⟨ts, bs, hsend, hbody⟩ := bulkLoadBody_eq s.cfg m h0 h1
    obtain ⟨v, hsent, hpv, hcv, hv⟩ := hsend.leads rfl (Leads.refl s) (hc.trans hbody) hd hp
    obtain ⟨w, hcw, hw⟩ := hv.collect hcv (hsent.dir_ne hd) hpv (by rwa [hsent.frame.1])
    exact hw.returns hcw

end Load

/-- Settles O28: `bulkLoad_passes` gives the bytes read; those of the new events are what a run adds. -/
theorem bulkLoadGivesEveryReplyOrAnError : Obligations.BulkLoadGivesEveryReplyOrAnError := by
  intro s m len ⟨hc, hd⟩
  obtain ⟨hcall, hiff⟩ := call_taken (o := .bulkLoad m len) (src := []) hc rfl le_rfl
    (opRefusal_none hd nofun nofun nofun) rfl
  refine ⟨_, hcall, fun hp hn => Leads.bulkLoad rfl hd hp hn, fun u hret => ?_⟩
  obtain ⟨new, hnew⟩ := hret.1.trace
  have hreads {ws rs : List Byte} (hmoved : Moved (s.calling (.bulkLoad m len) []) ws rs u) : readsOf new = rs := by
    have hread := hmoved.reads
    rw [hnew, readsOf_append] at hread
    exact List.append_cancel_left hread
  have hnone : len = 0 → u.platform.trace = s.platform.trace ∧ u.ret = .ok (.bytes []) := by
    rintro rfl
    obtain rfl := (hret.next rfl rfl).done rfl
    exact ⟨rfl, rfl⟩
  rcases bulkLoad_passes ((hiff u).1 hret) rfl hd with
    ⟨v, rs, hmoved, hlen, hok, hcv, hret'⟩ | ⟨v, rs, hmoved, hlen, herr, hcv, hret'⟩
  · obtain rfl := hret'.done hcv
    refine ⟨hmoved.wire, hmoved.frame, hnone, new, hnew, .inl ?_⟩
    rw [hreads hmoved]
    exact ⟨hok, hlen⟩
  · obtain rfl := hret'.done hcv
    refine ⟨hmoved.wire, hmoved.frame, hnone, new, hnew, .inr ⟨herr, ?_⟩⟩
    rw [hreads hmoved]
    exact hlen

end Sys2Proof.Machine
end

section
/-!
41_encoder R175 to R178, 45_target_contract R312 to R314, R320: what single and repeated loads reply, and what repeated
stores write, byte by byte from the pointer on. Settles O44 and O45.
-/

namespace Sys2Proof.Machine

/-! ## Addresses from a pointer on -/

theorem add_one_add_ofNat (p : Word) (k : Nat) : p + 1 + BitVec.ofNat 32 k = p + BitVec.ofNat 32 (k + 1) := by
  rw [BitVec.add_assoc, BitVec.add_comm 1]
  exact congrArg _ (BitVec.ofNat_add k 1).symm

/-! ## Loads that reply with memory -/

section Loads
variable {t : Target} {c : Config}

/-- One execution of LD that replies with the byte at the pointer (45 R314, R320). -/
theorem Target.loadPointer_reads (h : t.Reads c false t.ptr) (m : PtrMode) :
    t.loadPointer c m =
      { t with
        replies := t.replies ++ [t.mem.read t.ptr.toNat]
        working := t.working || t.startsRead c t.ptr }.afterAccess m := by
  rw [Target.loadPointer, t.load_reads c h]
  rfl

/-- A single LD is one execution, and a target that waits is then as before but for it. -/
theorem Target.Waiting.repeatedLoad_once (hw : t.Waiting) {m : PtrMode} {p : Word} {w : Bool} {rs : List Byte}
    (hload : t.loadPointer c m = { t with ptr := p, working := w, replies := rs }) :
    t.repeatedLoad c m = { t with ptr := p, working := w, replies := rs } := by
  obtain ⟨-, -, hrep, hrepeated, -⟩ := hw
  rw [t.repeatedLoad_once c hrep hrepeated, hload, ← hrep, ← hrepeated]

theorem Target.loadPointerTimes_indirect (h : t.Reads c false t.ptr) (n : Nat) :
    t.loadPointerTimes c .indirect (n + 1) =
      { t with
        working := t.working || t.startsRead c t.ptr
        replies := t.replies ++ List.replicate (n + 1) (t.mem.read t.ptr.toNat) } := by
  induction n generalizing t with
  | zero => exact Target.loadPointer_reads h .indirect
  | succ n ih =>
    have hrest := ih
      (t := { t with
        replies := t.replies ++ [t.mem.read t.ptr.toNat], working := t.working || t.startsRead c t.ptr }) h
    have hagain : Target.startsRead
        { t with
          replies := t.replies ++ [t.mem.read t.ptr.toNat], working := t.working || t.startsRead c t.ptr } c t.ptr =
        t.startsRead c t.ptr := rfl
    rw [Target.loadPointerTimes, Target.loadPointer_reads h]
    refine hrest.trans ?_
    simp only [hagain, Bool.or_assoc, Bool.or_self, List.append_assoc, List.singleton_append]
    rfl

theorem Target.loadPointerTimes_autoInc {n : Nat} (hfit : t.ptr.toNat + n < 2 ^ 32)
    (h : ∀ k < n, t.Reads c false (t.ptr + BitVec.ofNat 32 k)) :
    t.loadPointerTimes c .autoInc n =
      { t with
        ptr := t.ptr + BitVec.ofNat 32 n
        working := t.working || (List.range n).any fun k => t.startsRead c (t.ptr + BitVec.ofNat 32 k)
        replies := t.replies ++ (List.range n).map fun k => t.mem.read (t.ptr.toNat + k) } := by
  induction n generalizing t with
  | zero => simp [Target.loadPointerTimes]
  | succ n ih =>
    have hfirst : t.Reads c false t.ptr := by simpa using h 0 n.succ_pos
    have hnext : (t.ptr + 1).toNat = t.ptr.toNat + 1 := toNat_add_one (by omega)
    have hbelow : t.ptr ≠ 0xFFFFFFFF := ne_top_of_toNat_lt (by omega)
    have hload : t.loadPointer c .autoInc =
        { t with
          ptr := t.ptr + 1, working := t.working || t.startsRead c t.ptr
          replies := t.replies ++ [t.mem.read t.ptr.toNat] } := by
      rw [Target.loadPointer_reads hfirst]
      exact Target.afterAccess_autoInc hbelow
    have hrest := ih
      (t := { t with
        ptr := t.ptr + 1, working := t.working || t.startsRead c t.ptr
        replies := t.replies ++ [t.mem.read t.ptr.toNat] })
      (by dsimp only; rw [hnext]; omega) fun k hk => by
        dsimp only
        rw [add_one_add_ofNat]
        exact h (k + 1) (by omega)
    rw [Target.loadPointerTimes, hload, hrest]
    simp only [add_one_add_ofNat, hnext, List.range_succ_eq_map, List.map_cons, List.map_map, List.any_cons,
      List.any_map, Function.comp_def, List.append_assoc, List.singleton_append, Nat.add_zero, Nat.succ_eq_add_one,
      Nat.add_assoc, Nat.add_comm 1, Bool.or_assoc, BitVec.add_zero]
    rfl

/-- An LD after a REPEAT of `n + 1` executions: the replies are owed (entry 50), and no repeat is left. -/
theorem Target.Waiting.repeatedLoad_repeatNext (hw : t.Waiting) (n : Word16) {m : PtrMode} {p : Word} {w : Bool}
    {rs : List Byte} (hlen : rs.length = n.toNat + 1)
    (hloads : (t.repeatNext n).loadPointerTimes c m (n.toNat + 1) =
      { t.repeatNext n with ptr := p, working := w, replies := t.replies ++ rs }) :
    (t.repeatNext n).repeatedLoad c m =
      { t with
        ptr := p, working := w, replies := t.replies ++ rs
        owed := if n = 0 ∧ t.kind = .reference then t.owed else t.replies.length + (n.toNat + 1) } := by
  obtain ⟨-, -, hrep, hrepeated, -⟩ := hw
  have hcount : (t.repeatNext n).rep = n := rfl
  have hnone : ((t.repeatNext n).repeated = true ∨ n ≠ 0) ↔ ¬(n = 0 ∧ t.kind = .reference) := by
    cases hk : t.kind <;> simp [Target.repeatNext, hk]
  rw [Target.repeatedLoad, hcount, hloads]
  simp only [hnone, ite_not, List.length_append, hlen]
  rw [← hrep, ← hrepeated]
  rfl

end Loads

/-- Settles O44: one load by `load_reads`, several by induction on their number. -/
theorem loadsReadMemory : Obligations.LoadsReadMemory := by
  intro t c hw
  refine ⟨fun a hreads => ?_, fun hreads u hu => ⟨?_, fun htop => ?_⟩, fun r n hdec hr => ⟨fun hreads => ?_,
    fun hfit hreads => ?_⟩⟩
  · rw [Target.execute_lds, hw.unrepeated, Target.loadDirect, t.load_reads c hreads]
    rfl
  · rw [Target.execute_ldInd, hu]
    exact hw.repeatedLoad_once (Target.loadPointer_reads hreads .indirect)
  · rw [Target.execute_ldInc, hu]
    exact hw.repeatedLoad_once ((Target.loadPointer_reads hreads .autoInc).trans (Target.afterAccess_autoInc htop))
  · rw [hw.receiveAll_repeated hdec hr rfl rfl, Target.execute_ldInd]
    exact hw.repeatedLoad_repeatNext n List.length_replicate
      (Target.loadPointerTimes_indirect (t := t.repeatNext n) hreads n.toNat)
  · rw [hw.receiveAll_repeated hdec hr rfl rfl, Target.execute_ldInc]
    exact hw.repeatedLoad_repeatNext n (by simp)
      (Target.loadPointerTimes_autoInc (t := t.repeatNext n) hfit fun k hk => hreads k (Nat.le_of_lt_succ hk))

/-! ## Stores into plain memory -/

/-- The pointer after `k` accesses in a mode (45 R314), below the top of the address space. -/
def pointerAfter (m : PtrMode) (p : Word) (k : Nat) : Word :=
  match m with
  | .autoInc => p + BitVec.ofNat 32 k
  | _ => p

theorem pointerAfter_zero (m : PtrMode) (p : Word) : pointerAfter m p 0 = p := by
  cases m <;> simp [pointerAfter]

theorem pointerAfter_pointerAfter (m : PtrMode) (p : Word) (k : Nat) :
    pointerAfter m (pointerAfter m p 1) k = pointerAfter m p (k + 1) := by
  cases m with
  | autoInc => exact add_one_add_ofNat p k
  | _ => rfl

/-- Room for one access and `k` more is room for `k` after it. -/
theorem pointerAfter_fits {m : PtrMode} {p : Word} {k : Nat} (h : m = .autoInc → p.toNat + (k + 1) < 2 ^ 32) :
    m = .autoInc → (pointerAfter m p 1).toNat + k < 2 ^ 32 := by
  rintro rfl
  have hfit := h rfl
  have hnext : (pointerAfter .autoInc p 1).toNat = p.toNat + 1 := toNat_add_one (by omega)
  omega

theorem Target.afterAccess_eq_pointerAfter {t : Target} {m : PtrMode} (hfit : m = .autoInc → t.ptr.toNat + 1 < 2 ^ 32) :
    t.afterAccess m = { t with ptr := pointerAfter m t.ptr 1 } := by
  cases m with
  | autoInc => exact Target.afterAccess_autoInc (ne_top_of_toNat_lt (hfit rfl))
  | _ => rfl

/-- The bytes stored one after another in a mode, the first at `p`. -/
def Memory.storeCells (m : Memory) (mode : PtrMode) (p : Word) : List Byte → Memory
  | [] => m
  | d :: ds => (m.write p.toNat d).storeCells mode (pointerAfter mode p 1) ds

/-- In the auto-increment mode they stand at consecutive addresses. -/
theorem Memory.read_storeCells_autoInc (m : Memory) {p : Word} {ds : List Byte} (hfit : p.toNat + ds.length < 2 ^ 32)
    (x : Nat) :
    (m.storeCells .autoInc p ds).read x =
      if p.toNat ≤ x ∧ x < p.toNat + ds.length then ds.getD (x - p.toNat) 0 else m.read x := by
  induction ds generalizing m p with
  | nil => simp [Memory.storeCells]
  | cons d ds ih =>
    rw [List.length_cons] at hfit ⊢
    have hnext : (pointerAfter .autoInc p 1).toNat = p.toNat + 1 := toNat_add_one (by omega)
    rw [Memory.storeCells, ih _ (by rw [hnext]; omega), Memory.read_write, hnext]
    rcases Nat.lt_trichotomy x p.toNat with hx | rfl | hx
    · rw [if_neg (by omega), if_neg (by omega), if_neg (by omega)]
    · rw [if_neg (by omega), if_pos rfl, if_pos (by omega), Nat.sub_self]
      rfl
    · obtain ⟨k, rfl⟩ := Nat.exists_eq_add_of_lt hx
      rw [if_neg (show p.toNat + k + 1 ≠ p.toNat by omega), show p.toNat + k + 1 - (p.toNat + 1) = k by omega,
        show p.toNat + k + 1 - p.toNat = k + 1 by omega]
      exact if_congr (by omega) rfl rfl

/-- In the indirect mode the last one stands. -/
theorem Memory.read_storeCells_indirect (m : Memory) (p : Word) (d : Byte) (ds : List Byte) (x : Nat) :
    (m.storeCells .indirect p (d :: ds)).read x = if x = p.toNat then (d :: ds).getD ds.length 0 else m.read x := by
  induction ds generalizing m d with
  | nil => exact Memory.read_write m _ d x
  | cons d' ds ih =>
    have hlast : (d :: d' :: ds).getD (d' :: ds).length 0 = (d' :: ds).getD ds.length 0 := rfl
    have hstays : pointerAfter .indirect p 1 = p := rfl
    rw [Memory.storeCells, hstays, ih, Memory.read_write, hlast]
    split <;> rfl

section Stores
variable {t : Target} {c : Config} {m : PtrMode}

/-- ST through the pointer at an address of plain memory, not under LoadFlashPageBuffer (45 R314). -/
theorem Target.storePointer_plain (hcmd : t.cmd ≠ c.nvmCodes.loadFlashPageBuffer) (hplain : PlainAddress c t.ptr)
    (hfit : m = .autoInc → t.ptr.toNat + 1 < 2 ^ 32) (d : Byte) :
    t.storePointer c m d =
      { t with
        mem := t.mem.write t.ptr.toNat d, erased := cutRange t.ptr.toNat 1 t.erased
        ptr := pointerAfter m t.ptr 1 } := by
  obtain ⟨hreg, hnvm⟩ := hplain
  have hstore : t.storePointer c m d = (t.memWrite t.ptr d).afterAccess m := by
    simp [Target.storePointer, hcmd, t.storeRegister_none c hreg, hnvm]
  exact hstore.trans (Target.afterAccess_eq_pointerAfter hfit)

variable (hm : m ≠ .direct) (hdec : Decodable c) (hlost : t.lost = false)
include hm hdec hlost

/-- The opcode of a one-byte ST alone is no instruction yet (30_encoding R117). -/
theorem Target.receive_storeOpcode (hpending : t.pending = []) :
    t.receive c (stOpcode c m) = { t with pending := [stOpcode c m] } := by
  have hmore {i : Instr} (h : decodePdi c [stOpcode c m, 0] = .ok i []) :=
    Target.receive_needMore (t := t) (c := c) hlost (b := stOpcode c m)
      (by rw [hpending]; exact asksForMore_decodePdi c [stOpcode c m] 0 [] i h)
  have hopcode : t.receive c (stOpcode c m) = { t with pending := t.pending ++ [stOpcode c m] } := by
    cases m with
    | indirect => exact hmore (hdec.decodePdi_encode (i := .stInd 0) rfl rfl)
    | autoInc => exact hmore (hdec.decodePdi_encode (i := .stInc 0) rfl rfl)
    | direct => exact absurd rfl hm
  rwa [hpending] at hopcode

variable (hpending : t.pending = [stOpcode c m])
include hpending

/-- A data byte after the opcode of a one-byte ST is one execution of it (45 R312). -/
theorem Target.receive_storeData (d : Byte) :
    t.receive c d = { t with pending := [] }.repeatedStore c m (stOpcode c m) d := by
  cases m with
  | indirect => exact Target.receive_ok hlost (by rw [hpending]; exact hdec.decodePdi_encode (i := .stInd d) rfl rfl)
  | autoInc => exact Target.receive_ok hlost (by rw [hpending]; exact hdec.decodePdi_encode (i := .stInc d) rfl rfl)
  | direct => exact absurd rfl hm

variable (hcmd : t.cmd ≠ c.nvmCodes.loadFlashPageBuffer)
include hcmd

/-- One data byte into plain memory: it ends the repeat, or the opcode stays pending. -/
theorem Target.receive_storedPlain (hplain : PlainAddress c t.ptr) (hfit : m = .autoInc → t.ptr.toNat + 1 < 2 ^ 32)
    (d : Byte) :
    t.receive c d =
      if t.rep = 0 then
        { t with
          mem := t.mem.write t.ptr.toNat d, erased := cutRange t.ptr.toNat 1 t.erased, ptr := pointerAfter m t.ptr 1
          repeated := false, pending := [] }
      else
        { t with
          mem := t.mem.write t.ptr.toNat d, erased := cutRange t.ptr.toNat 1 t.erased, ptr := pointerAfter m t.ptr 1
          rep := t.rep - 1, pending := [stOpcode c m] } := by
  have hstore := Target.storePointer_plain (t := { t with pending := [] }) hcmd hplain hfit d
  rw [Target.receive_storeData hm hdec hlost hpending d, Target.repeatedStore, hstore]
  simp only [hlost, Bool.false_eq_true, if_false]

/-- All data bytes of a repeated ST whose opcode has come, each into plain memory. -/
theorem Target.receiveAll_storedPlain (d : Byte) {ds : List Byte} (hrep : t.rep = BitVec.ofNat 16 ds.length)
    (hlen : ds.length < 65536) (hfit : m = .autoInc → t.ptr.toNat + (ds.length + 1) < 2 ^ 32)
    (hplain : ∀ k < ds.length + 1, PlainAddress c (pointerAfter m t.ptr k)) :
    ∃ er, t.receiveAll c (d :: ds) =
      { t with
        ptr := pointerAfter m t.ptr (ds.length + 1), mem := t.mem.storeCells m t.ptr (d :: ds), erased := er, rep := 0
        repeated := false, pending := [] } := by
  induction ds generalizing t d with
  | nil =>
    have hhere : PlainAddress c t.ptr := by simpa only [pointerAfter_zero] using hplain 0 Nat.one_pos
    have hlast : t.rep = 0 := hrep
    rw [Target.receiveAll_cons, Target.receive_storedPlain hm hdec hlost hpending hcmd hhere hfit d, if_pos hlast,
      ← hlast]
    exact ⟨_, rfl⟩
  | cons d' ds ih =>
    have hhere : PlainAddress c t.ptr := by simpa only [pointerAfter_zero] using hplain 0 (Nat.succ_pos _)
    have hcount : t.rep - 1 = BitVec.ofNat 16 ds.length := by
      rw [hrep, List.length_cons, BitVec.ofNat_add]
      exact BitVec.add_sub_cancel _ _
    have hmore : t.rep ≠ 0 := by
      rw [hrep, ← BitVec.toNat_inj.ne, BitVec.toNat_ofNat, Nat.mod_eq_of_lt hlen]
      exact Nat.succ_ne_zero _
    obtain ⟨er, hrest⟩ := ih
      (t := { t with
        mem := t.mem.write t.ptr.toNat d, erased := cutRange t.ptr.toNat 1 t.erased, ptr := pointerAfter m t.ptr 1
        rep := t.rep - 1, pending := [stOpcode c m] })
      hlost rfl hcmd d' hcount (Nat.lt_of_succ_lt hlen)
      (pointerAfter_fits hfit)
      fun k hk => by
        rw [pointerAfter_pointerAfter]
        exact hplain (k + 1) (Nat.succ_lt_succ hk)
    rw [Target.receiveAll_cons, Target.receive_storedPlain hm hdec hlost hpending hcmd hhere
      (fun hinc => lt_of_le_of_lt (by simp) (hfit hinc)) d, if_neg hmore, hrest]
    simp only [pointerAfter_pointerAfter]
    exact ⟨er, rfl⟩

end Stores

/-- REPEAT and a one-byte ST with its data bytes, each into plain memory. -/
theorem Target.Waiting.receiveAll_repeatedStore {t : Target} {c : Config} (hw : t.Waiting) (hdec : Decodable c)
    {r : Instr} {n : Word16} (hr : RepeatOf r n) {m : PtrMode} (hm : m ≠ .direct)
    (hcmd : t.cmd ≠ c.nvmCodes.loadFlashPageBuffer) {ds : List Byte} (hlen : ds.length = n.toNat + 1)
    (hfit : m = .autoInc → t.ptr.toNat + ds.length < 2 ^ 32)
    (hplain : ∀ k < ds.length, PlainAddress c (pointerAfter m t.ptr k)) :
    ∃ er, t.receiveAll c (encodeWith c r ++ stOpcode c m :: ds) =
      { t with ptr := pointerAfter m t.ptr ds.length, mem := t.mem.storeCells m t.ptr ds, erased := er } := by
  obtain ⟨d, ds, rfl⟩ := List.exists_cons_of_length_pos (l := ds) (by omega)
  have hcount : ds.length = n.toNat := Nat.succ.inj hlen
  have hrep : n = BitVec.ofNat 16 ds.length := by rw [hcount, BitVec.ofNat_toNat, BitVec.setWidth_eq]
  rw [Target.receiveAll_append, hw.receiveAll_repeatOf hdec hr, Target.receiveAll_cons]
  obtain ⟨hlost, hpending, hrep0, hrepeated, -⟩ := hw
  obtain ⟨er, hstored⟩ := Target.receiveAll_storedPlain
    (t := { t.repeatNext n with pending := [stOpcode c m] }) hm hdec hlost rfl hcmd d hrep (hcount ▸ n.isLt) hfit hplain
  refine ⟨er, ?_⟩
  rw [Target.receive_storeOpcode (t := t.repeatNext n) hm hdec hlost hpending, hstored, ← hrep0, ← hrepeated,
    ← hpending]
  rfl

/-- Settles O45: the data bytes stand where `storeCells` writes them, and nothing else of the memories changes. -/
theorem repeatedStoreWritesConsecutiveBytes : Obligations.RepeatedStoreWritesConsecutiveBytes := by
  intro t c r n ds hw hdec hr hlen hcmd
  refine ⟨fun hfit hplain u hu => ?_, fun hplain u hu => ?_⟩
  · obtain ⟨er, hstored⟩ := hw.receiveAll_repeatedStore hdec hr (m := .autoInc) nofun hcmd hlen (fun _ => hfit) hplain
    obtain rfl := hu.trans hstored
    exact ⟨hw, rfl, rfl, rfl, rfl, t.mem.read_storeCells_autoInc hfit⟩
  · obtain ⟨er, hstored⟩ := hw.receiveAll_repeatedStore hdec hr (m := .indirect) nofun hcmd hlen nofun fun _ _ => hplain
    obtain rfl := hu.trans hstored
    obtain ⟨d, ds, rfl⟩ := List.exists_cons_of_length_pos (l := ds) (by omega)
    rw [← Nat.succ.inj hlen]
    exact ⟨hw, rfl, rfl, rfl, rfl, t.mem.read_storeCells_indirect t.ptr d ds⟩

end Sys2Proof.Machine
end

section
/-!
10_state R51 to R53, 41_encoder R181, 45_target_contract R315 to R318, R326: the control/status registers and the key,
one lemma per access, on the reference target and outside it. Settles O52.
-/

namespace Sys2Proof.Machine

/-! ## The bits of a CSR value -/

/-- A CSR number is its own low four bits (30_encoding R106). -/
@[simp] theorem setWidth_csrOperand (r : BitVec 4) : (csrOperand r).setWidth 4 = r := by simp [csrOperand]

/-- Bits 7:3 of a byte, masked or extracted. -/
theorem and_F8_eq_zero_iff (d : Byte) : d &&& 0xF8 = 0 ↔ d.extractLsb' 3 5 = 0 := by
  revert d
  decide

theorem withResetBit_bit0 (b : Byte) : (withResetBit b true).getLsbD 0 = true := by
  simp [withResetBit, resetByte]

theorem withoutNvmen_bit1 (b : Byte) : (withoutNvmen b).getLsbD 1 = false := by
  simp [withoutNvmen]

theorem withGuardTime_bits (b control : Byte) :
    (withGuardTime b control).extractLsb' 0 3 = control.extractLsb' 0 3 := by
  have hmask (x : BitVec 3) : x &&& 7#3 = x := BitVec.and_allOnes
  simp [withGuardTime, BitVec.extractLsb'_or, BitVec.extractLsb'_and, hmask]

/-! ## One access -/

section Access
variable {t : Target} {c : Config} (hw : t.Waiting)

include hw in
theorem Target.Waiting.execute_csrStore (r : BitVec 4) (d : Byte) :
    t.execute c (.stcs (csrOperand r) d) = t.writeCsr c r d := by
  rw [Target.execute_stcs, hw.unrepeated, setWidth_csrOperand]

include hw in
theorem Target.Waiting.execute_csrLoad (r : BitVec 4) :
    t.execute c (.ldcs (csrOperand r)) = (t.readCsr c r).2.send (t.readCsr c r).1 := by
  rw [Target.execute_ldcs, hw.unrepeated, setWidth_csrOperand]

include hw in
theorem Target.Waiting.execute_key (k : List Byte) : t.execute c (.key k) = t.acceptKey c k := by
  rw [Target.execute_key, hw.unrepeated]

theorem Target.inReset_iff : t.inReset = true ↔ t.resetLine = .held := by simp [Target.inReset]

/-- STCS Control (10_state R53; entry 48). -/
theorem Target.writeCsr_control (hreset : c.csrControl ≠ c.csrReset) (d : Byte) :
    t.writeCsr c c.csrControl d =
      if t.kind = .reference ∨ d.extractLsb' 3 5 = 0 then { t with control := d } else t.lose := by
  simp only [Target.writeCsr, hreset, if_false, if_true, and_F8_eq_zero_iff]

/-- The key, in reset (45 R318). -/
theorem Target.acceptKey_held (hheld : t.resetLine = .held) : t.acceptKey c c.pdiKey = { t with keyed := true } :=
  if_pos ⟨rfl, Target.inReset_iff.2 hheld⟩

end Access

/-! ## The reference target (45 R326) -/

section Reference
variable {t : Target} {c : Config} (hkind : t.kind = .reference)
include hkind

theorem Target.writeCsr_reset_reference :
    t.writeCsr c c.csrReset c.resetSignature = { t with resetLine := .held } := by
  simp [Target.writeCsr, hkind]

theorem Target.writeCsr_release_reference (hsig : c.resetSignature ≠ 0x00) :
    t.writeCsr c c.csrReset 0x00 = { t with resetLine := .released, keyed := false } := by
  rw [Target.writeCsr, if_pos rfl, if_neg (Ne.symm hsig), if_pos rfl, hkind]

theorem Target.readCsr_reset_reference (hstatus : c.csrReset ≠ c.csrStatus) :
    t.readCsr c c.csrReset = (if t.resetLine = .held then 0x01 else 0x00, t) := by
  simp [Target.readCsr, hkind, hstatus, resetByte, Target.inReset]

theorem Target.readCsr_status_reference :
    t.readCsr c c.csrStatus = (if t.resetLine = .held ∧ t.keyed = true then 0x02 else 0x00, t) := by
  simp [Target.readCsr, hkind, statusByte, Target.inReset]

theorem Target.readCsr_control_reference (hstatus : c.csrControl ≠ c.csrStatus) (hreset : c.csrControl ≠ c.csrReset) :
    t.readCsr c c.csrControl = (t.control, t) := by
  simp [Target.readCsr, hkind, hstatus, hreset]

theorem Target.acceptKey_reference (k : List Byte) :
    t.acceptKey c k = { t with keyed := t.keyed || decide (k = c.pdiKey ∧ t.resetLine = .held) } := by
  by_cases h : k = c.pdiKey ∧ t.resetLine = .held
  · rw [h.1, Target.acceptKey_held h.2]
    simp [h.2]
  · have hnot : ¬(k = c.pdiKey ∧ t.inReset = true) := by rwa [Target.inReset_iff]
    have hstands : t.acceptKey c k = t := by rw [Target.acceptKey, if_neg hnot, hkind]
    rw [hstands, decide_eq_false h, Bool.or_false]

end Reference

/-! ## Outside the reference target -/

section Contract
variable {t : Target} {c : Config} (hkind : t.kind = .contract)

/-- Target reset does not touch the records of a link that is up (entries 24 and 47). -/
theorem Target.afterReset_link (t : Target) (c : Config) :
    (t.afterReset c).linked = t.linked ∧ (t.afterReset c).adrift = t.adrift := by
  unfold Target.afterReset
  split <;> exact ⟨rfl, rfl⟩

theorem Target.Waiting.afterReset (hw : t.Waiting) (c : Config) : (t.afterReset c).Waiting := by
  obtain ⟨hlost, hpending, hrep, hrepeated, hhand⟩ := hw
  obtain ⟨-, hlost', -, -, hpending', hrep', hrepeated', hhand', -⟩ := t.afterReset_keeps c
  exact ⟨hlost'.trans hlost, hpending'.trans hpending, hrep'.trans hrep, hrepeated'.trans hrepeated, hhand'.trans hhand⟩

include hkind

theorem Target.writeCsr_reset_contract :
    t.writeCsr c c.csrReset c.resetSignature = { t.afterReset c with resetLine := .held } := by
  simp [Target.writeCsr, hkind]

/-- A release in progress, or over, is not released again (entry 37). -/
theorem Target.writeCsr_release_contract (hsig : c.resetSignature ≠ 0x00) :
    t.writeCsr c c.csrReset 0x00 =
      if t.resetLine = .leaving ∨ t.resetLine = .released then t
      else { t.afterReset c with resetLine := .leaving, keyed := false, linked := false } := by
  rw [Target.writeCsr, if_pos rfl, if_neg (Ne.symm hsig), if_pos rfl, hkind]

/-- LDCS Reset (45 R315): bit 0 set while held, where replies are stated; after the release the first 0 shows that the
target has left reset (entry 24). -/
theorem Target.readCsr_reset_contract (hstatus : c.csrReset ≠ c.csrStatus) :
    ∃ r l n, t.readCsr c c.csrReset = (r, { t with resetLine := l, fresh := n }) ∧
      (t.resetLine = .held → l = .held) ∧ (t.replyStated = true → r.getLsbD 0 = true) ∧
      (t.resetLine = .leaving → l = if r.getLsbD 0 then .leaving else .released) ∧
      (t.resetLine = .released → l = .released) := by
  have hstated : t.replyStated = true → t.resetLine = .held := fun h => ((t.replyStated_contract hkind).1 h).1
  have hfree : t.replyStated = false → t.resetLine ≠ .leaving →
      t.readCsr c c.csrReset = (t.freeByte, { t with resetLine := t.resetLine, fresh := t.fresh + 1 }) := by
    intro hreply hline
    cases h : t.resetLine <;> simp_all [Target.readCsr, Target.drawByte, Target.advance]
  by_cases hreply : t.replyStated = true
  · have hheld := hstated hreply
    refine ⟨withResetBit t.freeByte true, t.resetLine, t.fresh + 1, ?_, id, fun _ => withResetBit_bit0 _,
      fun h => ?_, id⟩
    · simp [Target.readCsr, hstatus, hkind, hheld, hreply, Target.advance]
    · rw [hheld] at h
      cases h
  · by_cases hline : t.resetLine = .leaving
    · refine ⟨t.freeByte, if resetBit t.freeByte then .leaving else .released, t.fresh + 1, ?_, fun h => ?_,
        fun h => absurd h hreply, fun _ => rfl, fun h => ?_⟩
      · simp [Target.readCsr, hstatus, hkind, hline]
      · rw [hline] at h
        cases h
      · rw [hline] at h
        cases h
    · exact ⟨t.freeByte, t.resetLine, t.fresh + 1, hfree (Bool.eq_false_iff.2 hreply) hline, id,
        fun h => absurd h hreply, fun h => absurd h hline, id⟩

/-- Wrong bytes key no target (41_encoder R181; entry 45). -/
theorem Target.acceptKey_contract (hkeyed : t.keyed = false) {k : List Byte} (hk : k ≠ c.pdiKey) :
    t.acceptKey c k = { t with awake := false, fresh := t.fresh + 1 } := by
  simp [Target.acceptKey, hk, hkind, hkeyed]

variable (hreply : t.replyStated = true)
include hreply

theorem Target.readCsr_status_unkeyed (hkeyed : t.keyed = false) :
    t.readCsr c c.csrStatus = (withoutNvmen t.freeByte, t.advance) := by
  simp [Target.readCsr, hkind, hreply, hkeyed]

theorem Target.readCsr_status_keyed (hkeyed : t.keyed = true) :
    t.readCsr c c.csrStatus = (t.freeByte, { t with awake := nvmEnabled t.freeByte, fresh := t.fresh + 1 }) := by
  simp [Target.readCsr, hkind, hreply, hkeyed]

theorem Target.readCsr_control_contract (hstatus : c.csrControl ≠ c.csrStatus) (hreset : c.csrControl ≠ c.csrReset) :
    t.readCsr c c.csrControl = (withGuardTime t.freeByte t.control, t.advance) := by
  simp [Target.readCsr, hkind, hreply, hstatus, hreset]

end Contract

/-- STCS Reset outside the reference target, with either of its two values (10_state R52; entry 37). -/
theorem Target.Waiting.resetStore_contract {t : Target} {c : Config} (hw : t.Waiting) (hkind : t.kind = .contract)
    (hsig : c.resetSignature ≠ 0x00) {d : Byte} (hd : d = c.resetSignature ∨ d = 0x00) {u : Target}
    (hu : u = t.writeCsr c c.csrReset d) :
    u.Waiting ∧ u.replies = t.replies ∧
      (t.underway = false →
        u.fuse = t.fuse ∧ ∀ x, isNvm c (BitVec.ofNat 32 x) = true → u.mem.read x = t.mem.read x) ∧
      (t.keyed = false → u.keyed = false) ∧
      (d = c.resetSignature → u.resetLine = .held ∧ u.awake = false ∧ u.linked = t.linked ∧ u.adrift = t.adrift) ∧
      (d = 0x00 → (u.resetLine = if t.resetLine = .released then .released else .leaving) ∧
        (t.resetLine = .held → u.keyed = false ∧ u.linked = false)) := by
  have hwaiting := hw.afterReset c
  obtain ⟨hreplies, -⟩ := t.afterReset_keeps c
  have hmemory (h : t.underway = false) : (t.afterReset c).fuse = t.fuse ∧
      ∀ x, isNvm c (BitVec.ofNat 32 x) = true → (t.afterReset c).mem.read x = t.mem.read x := by
    obtain ⟨hfuse, -, hread⟩ := t.afterReset_memory c h
    exact ⟨hfuse, hread⟩
  rcases hd with rfl | rfl
  · rw [Target.writeCsr_reset_contract hkind] at hu
    subst hu
    obtain ⟨hlinked, hadrift⟩ := t.afterReset_link c
    exact ⟨hwaiting, hreplies, hmemory, t.afterReset_keyed c, fun _ => ⟨rfl, rfl, hlinked, hadrift⟩,
      fun h => absurd h hsig⟩
  · rw [Target.writeCsr_release_contract hkind hsig] at hu
    by_cases hleft : t.resetLine = .leaving ∨ t.resetLine = .released
    · rw [if_pos hleft] at hu
      subst hu
      refine ⟨hw, rfl, fun _ => ⟨rfl, fun _ _ => rfl⟩, id, fun h => absurd h.symm hsig, fun _ => ⟨?_, fun h => ?_⟩⟩
      · rcases hleft with h | h <;> simp [h]
      · rcases hleft with h' | h' <;> simp [h'] at h
    · rw [if_neg hleft] at hu
      subst hu
      have hnot : t.resetLine ≠ .released := fun h => hleft (.inr h)
      exact ⟨hwaiting, hreplies, hmemory, fun _ => rfl, fun h => absurd h.symm hsig,
        fun _ => ⟨(if_neg hnot).symm, fun _ => ⟨rfl, rfl⟩⟩⟩

/-- Settles O52: each clause is one access of a CSR or one key. -/
theorem targetControlRegisters : Obligations.TargetControlRegisters := by
  intro t c hw hresetStatus hcontrolStatus hcontrolReset hsig
  refine ⟨fun d => ?_, fun hheld => ?_, fun hkind => ⟨?_, ?_, ?_, ?_, ?_, fun k => ?_⟩,
    fun hkind => ⟨fun d u hu hd => ?_, ?_, fun hkeyed k hk => ?_, fun hreply hkeyed => ?_, fun hreply hkeyed => ?_,
      fun hreply => ?_⟩⟩
  · rw [hw.execute_csrStore, Target.writeCsr_control hcontrolReset]
  · rw [hw.execute_key, Target.acceptKey_held hheld]
  · rw [hw.execute_csrStore, Target.writeCsr_reset_reference hkind]
  · rw [hw.execute_csrStore, Target.writeCsr_release_reference hkind hsig]
  · rw [hw.execute_csrLoad, Target.readCsr_reset_reference hkind hresetStatus]
    rfl
  · rw [hw.execute_csrLoad, Target.readCsr_status_reference hkind]
    rfl
  · rw [hw.execute_csrLoad, Target.readCsr_control_reference hkind hcontrolStatus hcontrolReset]
    rfl
  · rw [hw.execute_key, Target.acceptKey_reference hkind]
  · rw [hw.execute_csrStore] at hu
    exact hw.resetStore_contract hkind hsig hd hu
  · obtain ⟨r, l, n, hread, hbits⟩ := Target.readCsr_reset_contract hkind hresetStatus
    refine ⟨r, l, n, ?_, hbits⟩
    rw [hw.execute_csrLoad, hread]
    rfl
  · exact ⟨t.fresh + 1, (hw.execute_key k).trans (Target.acceptKey_contract hkind hkeyed hk)⟩
  · refine ⟨withoutNvmen t.freeByte, t.fresh + 1, ?_, withoutNvmen_bit1 _⟩
    rw [hw.execute_csrLoad, Target.readCsr_status_unkeyed hkind hreply hkeyed]
    rfl
  · refine ⟨t.freeByte, t.fresh + 1, ?_⟩
    rw [hw.execute_csrLoad, Target.readCsr_status_keyed hkind hreply hkeyed]
    rfl
  · refine ⟨withGuardTime t.freeByte t.control, t.fresh + 1, ?_, withGuardTime_bits _ _⟩
    rw [hw.execute_csrLoad, Target.readCsr_control_contract hkind hreply hcontrolStatus hcontrolReset]
    rfl

end Sys2Proof.Machine
end

section
/-!
42_session R218, R219; 44_flash_fuse R271: the two calls that answer without a Platform call. Settles O33.
-/

namespace Sys2Proof.Machine

/-- A call whose body is one `return` and which sends nothing answers at once. -/
theorem Ready.call_answers {s : State} (hs : Ready s) {o : Op} {v : Value} (hw : o.wellFormed = true)
    (hp : opPulls o = 0) (hsends : ∀ t c, Target.atCall t c o = t) (hexits : ∀ c, exitsReset c o = false)
    (hr : opRefusal s o = none) (hb : opBody (s.calling o []) o = .tasks [.finish (.value v)]) :
    ∃ t, s.call o [] = .next t ∧ Returns t { s with ret := .value v, source := .bytes [] } := by
  obtain ⟨hcall, -⟩ := call_taken (src := []) hs.1 hw hp.le hr hb
  have htarget : (s.target.atCall s.cfg o).noteExit (s.strays o) = s.target := by simp [hsends, State.strays, hexits]
  refine ⟨_, hcall, (returns_task_iff (ts := []) rfl rfl).2 ?_⟩
  have hret := Returns.refl (s := { s with ret := .value v, source := .bytes [], control := [] }) rfl
  simpa only [State.finish, State.calling, htarget, hs.1] using hret

/-- Settles O33: the flag, and the sum with the base of each section. -/
theorem pureCallsAnswerAtOnce : Obligations.PureCallsAnswerAtOnce := by
  intro s hs
  have hanswers (off : Word) (sec : FlashSection) : ∃ t, s.call (.realAddress off sec) [] = .next t ∧
      Returns t { s with ret := .value (.word (sectionBase s.cfg sec + off)), source := .bytes [] } :=
    hs.call_answers rfl rfl (fun _ _ => rfl) (fun _ => rfl) (opRefusal_none hs.2 nofun nofun nofun) rfl
  refine ⟨hs.call_answers rfl rfl (fun _ _ => rfl) (fun _ => rfl) (opRefusal_none hs.2 nofun nofun nofun) rfl, ?_⟩
  simp only [List.forall_mem_cons]
  exact fun off => ⟨hanswers off .unspecified, hanswers off .app, hanswers off .boot, nofun⟩

end Sys2Proof.Machine
end

section
/-!
SUPPORT. A task does not look at the tasks after it, so a run can be cut after its first tasks: what they do is what
they do alone (`Returns.split`). With each task's effect stands whether it leaves `sess` and `active` alone.
-/

namespace Sys2Proof.Machine

/-- The operations that leave `sess` and `active` alone (42_session R218). -/
def keepsSession : Op → Bool
  | .sessionBegin | .sessionEnd => false
  | _ => true

/-- The task neither writes `sess` nor calls an operation that does. -/
def Task.keepsSession : Task → Bool
  | .enter _ | .lazyBegin | .hostPayload _ _ => false
  | .run o => Machine.keepsSession o
  | _ => true

theorem sends_keepsSession (bs : List Byte) : ∀ k ∈ sends bs, k.keepsSession = true := by
  simp only [sends, List.mem_map]
  rintro _ ⟨b, -, rfl⟩
  rfl

theorem transitions_keepSession (d : Option Direction) :
    (∀ k ∈ toTransmitting d, k.keepsSession = true) ∧ ∀ k ∈ toReceiving d, k.keepsSession = true := by
  unfold toTransmitting toReceiving
  constructor
  · split <;> simp [waitClockCycle, Task.keepsSession]
  · split
    · simp
    · split <;> simp [Task.keepsSession]

theorem opBody_keepsSession {s : State} {o : Op} {ts : List Task} (ho : keepsSession o = true)
    (h : opBody s o = .tasks ts) : ∀ k ∈ ts, k.keepsSession = true := by
  obtain ⟨htransmitting, hreceiving⟩ := transitions_keepSession s.dir
  cases o with
  | sessionBegin | sessionEnd => cases ho
  | send2 v | send4 v | sendKey | keyWith k => cases h; exact sends_keepsSession _
  | send b => cases h; exact List.forall_mem_append.2 ⟨htransmitting, by simp [Task.keepsSession]⟩
  | recv | linkEnd => cases h; exact List.forall_mem_append.2 ⟨hreceiving, by simp [Task.keepsSession]⟩
  | eraseSection off sec => cases sec <;> cases h <;> simp [triggeredBody, Task.keepsSession, keepsSession]
  | writeBuffer off len sec =>
    simp only [opBody] at h
    split at h <;> cases h
    simp [Task.keepsSession, keepsSession]
  | readMemory a len => cases h; split <;> simp [Task.keepsSession, keepsSession]
  | bulkLoad m len =>
    cases h
    unfold bulkLoadBody
    split
    · simp [Task.keepsSession]
    · split <;> simp [Task.keepsSession, keepsSession]
  | bulkStore m len =>
    cases h
    unfold bulkStoreBody
    split
    · simp [Task.keepsSession]
    · split <;> simp [Task.keepsSession, keepsSession]
  | _ => cases h; simp [triggeredBody, Task.keepsSession, keepsSession, linkInitBody, linkBeginBody, storeNvm]

/-- What a task does, whatever tasks come after it: it puts `new` before them and leaves the rest of the state as `v`
has it, it ends the operation in an error, or it is refused. -/
inductive Effect (k : Task) (s : State) : Prop
  | continues (v : State) (new : List Task)
      (performed : ∀ ts, perform k { s with control := ts } = .next { v with control := new ++ ts })
      (session : k.keepsSession = true →
        v.sess = s.sess ∧ v.active = s.active ∧ ∀ j ∈ new, j.keepsSession = true)
  | fails (v : State) (e : ErrorCode)
      (performed : ∀ ts, perform k { s with control := ts } = .next (State.raise { v with control := ts } e))
      (session : v.sess = s.sess ∧ v.active = s.active)
  | refused (r : Refusal) (performed : ∀ ts, perform k { s with control := ts } = .refused r)

section Effects
variable {s : State}

/-- A task that leaves `sess` and `active` alone and puts tasks of that kind before the others. -/
theorem Effect.puts {k : Task} {v : State} (new : List Task)
    (performed : ∀ ts, perform k { s with control := ts } = .next { v with control := new ++ ts })
    (hsess : v.sess = s.sess := by rfl) (hactive : v.active = s.active := by rfl)
    (hnew : ∀ j ∈ new, j.keepsSession = true := by simp [Task.keepsSession, keepsSession]) : Effect k s :=
  .continues v new performed fun _ => ⟨hsess, hactive, hnew⟩

theorem effect_run (o : Op) : Effect (.run o) s := by
  have hsame (ts : List Task) : opRefusal { s with control := ts } o = opRefusal s o ∧
      opBody { s with control := ts } o = opBody s o := by cases o <;> exact ⟨rfl, rfl⟩
  cases hr : opRefusal s o with
  | some r => exact .refused r fun ts => by simp [perform, opStart, hsame, hr]
  | none =>
    cases hb : opBody s o with
    | tasks body =>
      exact .continues s body (fun ts => by simp [perform, opStart, hsame, hr, hb, State.push])
        fun hk => ⟨rfl, rfl, opBody_keepsSession hk hb⟩
    | fails e => exact .fails s e (fun ts => by simp [perform, opStart, hsame, hr, hb]) ⟨rfl, rfl⟩

theorem effect_await (w : Wait) : Effect (.await w) s := by
  by_cases h : (s.platform.query w.event w.wanted).1 = w.wanted
  · exact .puts (v := { s with platform := (s.platform.query w.event w.wanted).2.afterWait w }) []
      fun ts => by simp [perform, performAwait, h]
  · exact .puts (v := { s with platform := (s.platform.query w.event w.wanted).2 }) [.await w]
      fun ts => by simp [perform, performAwait, h]

theorem effect_rxCheck (n : Nat) : Effect (.rxCheck n) s := by
  cases n with
  | zero => exact .fails { s with target := s.target.cutOff } .serialTimeout (fun _ => rfl) ⟨rfl, rfl⟩
  | succ n =>
    cases h : (s.platform.query .rxComplete true).1 with
    | true =>
      exact .puts (v := { s with platform := (s.platform.query .rxComplete true).2 }) [.rxErrorCheck]
        fun ts => by simp [perform, performRxCheck, h, State.push]
    | false =>
      exact .puts (v := { s with platform := (s.platform.query .rxComplete true).2 }) (waitClockCycle ++ [.rxCheck n])
        (fun ts => by simp [perform, performRxCheck, h, State.push])
        (hnew := by simp [waitClockCycle, Task.keepsSession])

theorem effect_rxErrorCheck : Effect .rxErrorCheck s := by
  cases h : (s.platform.query .rxError false).1 with
  | true =>
    exact .fails { s with platform := (s.platform.query .rxError false).2, target := s.target.cutOff } .serialError
      (fun ts => by simp [perform, performRxErrorCheck, h, State.recvFails]) ⟨rfl, rfl⟩
  | false =>
    exact .puts (v := { s with platform := (s.platform.query .rxError false).2 }) [.rxRead]
      fun ts => by simp [perform, performRxErrorCheck, h, State.push]

theorem effect_store (n : Nat) : Effect (.store n) s := by
  cases n with
  | zero => exact .puts (v := s) [] fun _ => rfl
  | succ n =>
    cases hs : s.source with
    | bytes bs =>
      cases bs with
      | nil => exact .refused .sourceExhausted fun ts => by simp [perform, performStore, hs]
      | cons d ds =>
        exact .puts (v := { s with source := .bytes ds, platform := s.platform.record (.pull d) })
          [.run (.send d), .store n] fun ts => by simp [perform, performStore, hs, State.push]
    | hostLink =>
      cases hrx : s.host.rx with
      | nil =>
        exact .puts (v := s) [.store (n + 1)] fun ts => by
          simp [perform, performStore, hs, State.hostTake, hrx, State.push]
      | cons d rx =>
        exact .puts (v := { s with
            host := { s.host with rx := rx, tx := 0xFF :: s.host.tx }, platform := s.platform.record (.pull d) })
          [.run (.send d), .store n] fun ts => by simp [perform, performStore, hs, State.hostTake, hrx, State.push]

theorem effect_hostPayload (n : Nat) (got : List Byte) : Effect (.hostPayload n got) s := by
  cases n with
  | zero => exact .continues s _ (fun _ => rfl) nofun
  | succ n =>
    cases hrx : s.host.rx with
    | nil =>
      exact .continues s [.hostPayload (n + 1) got]
        (fun ts => by simp [perform, performHostPayload, State.hostTake, hrx, State.push]) nofun
    | cons b rx =>
      exact .continues { s with host := { s.host with rx := rx, tx := 0xFF :: s.host.tx } } [.hostPayload n (b :: got)]
        (fun ts => by simp [perform, performHostPayload, State.hostTake, hrx, State.push]) nofun

/-- Every task has an effect that does not depend on the tasks after it. -/
theorem task_effect (k : Task) (s : State) : Effect k s := by
  cases k with
  | run o => exact effect_run o
  | await w => exact effect_await w
  | rxCheck n => exact effect_rxCheck n
  | rxErrorCheck => exact effect_rxErrorCheck
  | store n => exact effect_store n
  | hostPayload n got => exact effect_hostPayload n got
  | command c => exact .puts (v := performCommand c s) [] fun _ => rfl
  | rxRead => exact .puts (v := performRxRead s) [] fun _ => rfl
  | setDir d => exact .puts (v := { s with dir := some d }) [] fun _ => rfl
  | enter x => exact .continues (s.enter x) [] (fun _ => rfl) nofun
  | finish r => exact .puts (v := s.finish r) [] fun _ => rfl
  | wrapReply => exact .puts (v := s.finish (.ok (.bytes [s.reply]))) [] fun _ => rfl
  | testReset => exact .puts (v := s.finish (.ok (.bool (resetBit s.reply)))) [] fun _ => rfl
  | collected n got => exact .puts (v := s) [.collect n (s.reply :: got)] fun _ => rfl
  | ignoreErrors => exact .puts (v := s) [] fun _ => rfl
  | respond => exact .puts (v := s.hostSend (responseByte s.ret)) [] fun _ => rfl
  | wake n =>
    cases n with
    | zero => exact .puts (v := s) [] fun _ => rfl
    | succ n =>
      exact .puts (v := s) (waitClockCycle ++ [.wake n]) (fun _ => rfl)
        (hnew := by simp [waitClockCycle, Task.keepsSession])
  | collect n got =>
    cases n with
    | zero => exact .puts (v := s.finish (.ok (.bytes got.reverse))) [] fun _ => rfl
    | succ n => exact .puts (v := s) [.run .recv, .collected n got] fun _ => rfl
  | pollNvmen left =>
    by_cases h : left = some 0
    · exact .fails s .serialTimeout (fun ts => by simp [perform, performPollNvmen, h]) ⟨rfl, rfl⟩
    · exact .puts (v := s)
        [.run (.loadControlStatus (csrOperand s.cfg.csrStatus)), .nvmenVerdict (left.map Nat.pred)]
        fun ts => congrArg _ (if_neg h)
  | pollBusy left =>
    by_cases h : left = some 0
    · exact .fails s .serialTimeout (fun ts => by simp [perform, performPollBusy, h]) ⟨rfl, rfl⟩
    · exact .puts (v := s) _ fun ts => congrArg _ (if_neg h)
  | nvmenVerdict left =>
    by_cases h : nvmEnabled s.reply
    · exact .puts (v := s)
        [.run (.storePointerAutoAddr .direct (nvmAddress s.cfg .status)), .pollBusy s.cfg.pollLimit]
        fun ts => congrArg _ (if_pos h)
    · exact .puts (v := s) _ fun ts => congrArg _ (if_neg h)
  | busyVerdict left =>
    by_cases h : busyBit s.reply
    · exact .puts (v := s) _ fun ts => congrArg _ (if_pos h)
    · exact .puts (v := s.finish (.ok .unit)) [] fun ts => congrArg _ (if_neg h)
  | resetLoop left =>
    by_cases h : left = some 0
    · exact .puts (v := s) [] fun ts => congrArg _ (if_pos h)
    · exact .puts (v := s) _ fun ts => congrArg _ (if_neg h)
  | resetVerdict left =>
    by_cases h : s.ret = .ok (.bool true)
    · exact .puts (v := s) _ fun ts => congrArg _ (if_pos h)
    · exact .puts (v := s) [] fun ts => congrArg _ (if_neg h)
  | chunks a n pre sec =>
    by_cases h : n = 0
    · exact .puts (v := s.finish (.ok .unit)) [] fun ts => congrArg _ (if_pos h)
    · exact .puts (v := s)
        [.run (.writePage a (min n.toNat s.cfg.pageSize) pre sec),
          .chunks (a + BitVec.ofNat 32 (min n.toNat s.cfg.pageSize)) (n - BitVec.ofNat 32 (min n.toNat s.cfg.pageSize))
            pre sec]
        fun ts => congrArg _ (if_neg h)
  | lazyBegin =>
    by_cases h : s.active
    · exact .continues s [] (fun ts => congrArg _ (if_pos h)) nofun
    · exact .continues s [.run .sessionBegin] (fun ts => congrArg _ (if_neg h)) nofun

end Effects

/-! ## A run cut after some of its tasks -/

/-- An error dropped by none of the first tasks goes on through the others. -/
theorem unwind_append_eq (as bs : List Task) :
    unwind (as ++ bs) = if unwind as = [] then unwind bs else unwind as ++ bs := by
  induction as with
  | nil => simp [unwind]
  | cons k as ih =>
    simp only [List.cons_append, unwind]
    split
    · simp
    · exact ih

/-- The tasks `as` before the tasks `bs` do what they do alone, up to the state `m`; then `bs` follow, or, if an error
has left `as`, what that error leaves of `bs`. -/
theorem Returns.split {s u : State} {as bs : List Task} (h : Returns s u) (hc : s.control = as ++ bs) :
    ∃ m v, Returns { s with control := as } m ∧ Runs s v ∧ Returns v u ∧
      (v = { m with control := bs } ∨ (∃ e, m.ret = .err e) ∧ v = { m with control := unwind bs }) := by
  obtain ⟨hruns, hdone⟩ := h
  induction hruns generalizing as with
  | refl s =>
    obtain ⟨rfl, rfl⟩ := List.append_eq_nil_iff.mp (hc.symm.trans hdone)
    exact ⟨_, s, .refl rfl, .refl s, .refl hdone, .inl (by rw [← hdone])⟩
  | @step s s' u busy hstep hrest ih =>
    cases as with
    | nil =>
      have hbs : s.control = bs := hc
      exact ⟨_, s, .refl rfl, .refl s, ⟨.step busy hstep hrest, hdone⟩, .inl (by rw [← hbs])⟩
    | cons k as =>
      have hperform : perform k { s with control := as ++ bs } = .next s' := step_task hc ▸ hstep
      have hnext {w : State} {cs : List Task} (halone : perform k { s with control := as } = .next w)
          (hs' : s' = { w with control := cs ++ bs }) (hw : w.control = cs) : ∃ m v,
          Returns { s with control := k :: as } m ∧ Runs s v ∧ Returns v u ∧
            (v = { m with control := bs } ∨ (∃ e, m.ret = .err e) ∧ v = { m with control := unwind bs }) := by
        subst hs'
        obtain ⟨m, v, hm, hv, hret, hends⟩ := ih rfl hdone
        subst hw
        exact ⟨m, v, .cons rfl halone hm, .step busy hstep hv, hret, hends⟩
      cases task_effect k s with
      | continues w new performed _ =>
        obtain rfl := Host.Outcome.next.inj ((performed _).symm.trans hperform)
        exact hnext (performed as) (by simp) rfl
      | fails w e performed _ =>
        obtain rfl := Host.Outcome.next.inj ((performed _).symm.trans hperform)
        by_cases hcaught : unwind as = []
        · refine ⟨_, _, .cons rfl (performed as) (.refl hcaught), .step busy hstep (.refl _), ⟨hrest, hdone⟩,
            .inr ⟨⟨e, rfl⟩, ?_⟩⟩
          simp [State.raise, unwind_append_eq, hcaught]
        · exact hnext (performed as) (by simp [State.raise, unwind_append_eq, hcaught]) rfl
      | refused r performed => cases (performed _).symm.trans hperform

/-- Tasks that end in no error by themselves are done before the others. -/
theorem Returns.split_returning {s u : State} {as bs : List Task} (h : Returns s u) (hc : s.control = as ++ bs)
    (hok : ∀ m, Returns { s with control := as } m → ∀ e, m.ret ≠ .err e) :
    ∃ m, Returns { s with control := as } m ∧ Runs s { m with control := bs } ∧
      Returns { m with control := bs } u := by
  obtain ⟨m, v, hm, hv, hret, rfl | ⟨⟨e, he⟩, -⟩⟩ := h.split hc
  · exact ⟨m, hm, hv, hret⟩
  · exact absurd he (hok m hm e)

end Sys2Proof.Machine
end

section
/-!
42_session R218: only `enter` tasks write `sess` and `active`, and only `Session.begin` and `Session.end` bring them in.
Settles O11.
-/

namespace Sys2Proof.Machine

/-- A run of tasks that leave `sess` and `active` alone. -/
theorem Runs.keepsSession {s u : State} (h : Runs s u) (hs : ∀ k ∈ s.control, k.keepsSession = true) :
    u.sess = s.sess ∧ u.active = s.active := by
  induction h with
  | refl => exact ⟨rfl, rfl⟩
  | @step s s' u busy hstep _ ih =>
    obtain ⟨k, ts, hc⟩ := List.exists_cons_of_ne_nil busy
    rw [step_task hc] at hstep
    rw [hc, List.forall_mem_cons] at hs
    obtain ⟨hk, hts⟩ := hs
    cases task_effect k s with
    | continues v new performed session =>
      obtain rfl := Host.Outcome.next.inj ((performed _).symm.trans hstep)
      obtain ⟨hsess, hactive, hnew⟩ := session hk
      obtain ⟨hsess', hactive'⟩ := ih (List.forall_mem_append.2 ⟨hnew, hts⟩)
      exact ⟨hsess'.trans hsess, hactive'.trans hactive⟩
    | fails v e performed session =>
      obtain rfl := Host.Outcome.next.inj ((performed _).symm.trans hstep)
      obtain ⟨hsess', hactive'⟩ := ih fun j hj => hts j ((unwind_suffix ts).subset hj)
      exact ⟨hsess'.trans session.1, hactive'.trans session.2⟩
    | refused r performed => cases (performed _).symm.trans hstep

/-- A call of an idle machine leaves `sess` and `active` as they are. -/
theorem call_session {s t : State} {o : Op} {src : List Byte} (h : s.call o src = .next t) :
    t.sess = s.sess ∧ t.active = s.active := by
  rcases call_next h with ⟨-, rfl⟩ | ⟨-, -, -, hstart⟩
  · exact ⟨rfl, rfl⟩
  · obtain ⟨-, -, -, -, -, hsess, hactive, -⟩ := opStart_trace hstart
    exact ⟨hsess, hactive⟩

/-- Settles O11: what the call leaves to run is the pseudocode of `o`, or nothing. -/
theorem onlySessionOperationsChangeTheSession : Obligations.OnlySessionOperationsChangeTheSession := by
  intro s t u o src hc hbegin hend hcall hruns
  have ho : keepsSession o = true := by
    cases o with
    | sessionBegin | sessionEnd => contradiction
    | _ => rfl
  have htasks : ∀ k ∈ t.control, k.keepsSession = true := by
    obtain ⟨-, -, hbody | ⟨-, hnone⟩⟩ := call_started hcall hc
    · exact opBody_keepsSession ho hbody
    · simp [hnone]
  obtain ⟨hsess, hactive⟩ := call_session hcall
  obtain ⟨hsess', hactive'⟩ := hruns.keepsSession htasks
  exact ⟨hsess'.trans hsess, hactive'.trans hactive⟩

end Sys2Proof.Machine
end

section
/-!
42_session R210 to R213: the reset and guard-time primitives, each one instruction for a control/status register.
Settles O29 and O30.
-/

namespace Sys2Proof.Machine

/-- The opcodes of a CSR number hold it in their low four bits (30_encoding R106). -/
@[simp] theorem stcsOpcode_csrOperand (c : Config) (r : BitVec 4) :
    stcsOpcode c (csrOperand r) = c.opStcsBase ||| r.setWidth 8 := by
  have hmask : csrOperand r &&& 0x0F = r.setWidth 8 := by
    revert r
    decide
  rw [stcsOpcode, hmask]

@[simp] theorem ldcsOpcode_csrOperand (c : Config) (r : BitVec 4) :
    ldcsOpcode c (csrOperand r) = c.opLdcsBase ||| r.setWidth 8 := by
  have hmask : csrOperand r &&& 0x0F = r.setWidth 8 := by
    revert r
    decide
  rw [ldcsOpcode, hmask]

theorem SendTasks.stcs {c : Config} (r d : Byte) {ts : List Task} {bs : List Byte} (rest : SendTasks c ts bs) :
    SendTasks c (.run (.storeControlStatus r d) :: ts) ([stcsOpcode c r, d] ++ bs) :=
  .call (fun _ hd => opRefusal_none hd nofun nofun nofun) (fun _ hs => hs ▸ rfl) (.send _ (.send d .nil)) rest

/-- A caller's call of an operation whose tasks send the bytes `bs`. -/
theorem Ready.call_sendTasks {s : State} (hs : Ready s) {o : Op} {ts : List Task} {bs : List Byte}
    (hsend : SendTasks s.cfg ts bs) (hne : bs ≠ []) (hw : o.wellFormed = true) (hl : opPulls o = 0)
    (hr : opRefusal s o = none) (hb : opBody (s.calling o []) o = .tasks ts) :
    ∃ t, s.call o [] = .next t ∧ (Prompt s → ∃ u, Returns t u) ∧ ∀ u, Returns t u →
      CoreFrame s u ∧ u.dir = some .transmitting ∧ u.ret = .nothing ∧ u.wire = s.wire ++ bs := by
  obtain ⟨hcall, -⟩ := call_taken (src := []) hs.1 hw hl.le hr hb
  have hc : ts = ts ++ [] := (List.append_nil ts).symm
  refine ⟨_, hcall, fun hp => ?_, fun u hret => ?_⟩
  · obtain ⟨u, -, -, hc', hleads⟩ := hsend.leads (t := { s.calling o [] with control := ts }) rfl (.refl _) hc hs.2 hp
    exact hleads.returns hc'
  · obtain ⟨u', hsent, hc', hret'⟩ := hsend.passes (s := { s.calling o [] with control := ts }) rfl hret hc hs.2
    obtain rfl := hret'.done hc'
    exact ⟨hsent.frame, hsent.dir.trans (if_neg hne), hsent.ret, hsent.wire⟩

/-- Settles O29: each primitive is one STCS. -/
theorem resetPrimitivesStoreTheirRegister : Obligations.ResetPrimitivesStoreTheirRegister := by
  intro s hs
  have hstore {o : Op} {r : BitVec 4} {d : Byte} (hw : o.wellFormed = true) (hl : opPulls o = 0)
      (hr : opRefusal s o = none)
      (hb : opBody (s.calling o []) o = .tasks [.run (.storeControlStatus (csrOperand r) d)]) :=
    stcsOpcode_csrOperand s.cfg r ▸ hs.call_sendTasks (.stcs (csrOperand r) d .nil) nofun hw hl hr hb
  exact ⟨hstore rfl rfl (opRefusal_none hs.2 nofun nofun nofun) rfl,
    hstore rfl rfl (opRefusal_none hs.2 nofun nofun nofun) rfl,
    fun code => hstore rfl rfl (opRefusal_none hs.2 nofun nofun nofun) rfl⟩

/-- A receive that is not followed by a place that swallows errors: when the Platform answers at once the operation
returns, also with no check to make. -/
theorem Leads.recv_testReset {s t : State} (h : Leads s t) (hc : t.control = [.run .recv, .testReset])
    (hd : t.dir ≠ none) (hp : Prompt t) : ∃ u, Returns s u := by
  by_cases hn : t.cfg.recvPollCycles = 0
  · have hstarted := h.next hc
      (opStart_tasks (s := { t with control := [.testReset] }) (opRefusal_none hd nofun nofun nofun) rfl)
    obtain ⟨v, hquiet, -, hcv, hv⟩ := Leads.toReceiving (ts := [.rxCheck t.cfg.recvPollCycles, .testReset]) hstarted
      (by simp [recvBody]) hp
    rw [hn] at hcv
    exact (hv.next hcv rfl).returns rfl
  · obtain ⟨v, b, -, -, hcv, hv, -⟩ := h.recv hc hd hp hn
    exact (hv.next hcv rfl).returns rfl

/-- A receive by itself that gives a byte has read it last. -/
theorem recv_reads_last {s u : State} (h : Returns s u) (hc : s.control = [.run .recv]) (hd : s.dir ≠ none) {b : Byte}
    (hb : u.ret = .ok (.byte b)) : ∃ es, u.platform.trace = .readByte b :: es := by
  have hstarted := h.run hc (opRefusal_none hd nofun nofun nofun) rfl
  obtain ⟨switch, s1, -, -, hc1, h1⟩ := toReceiving_traced hstarted (List.append_assoc _ _ _)
  obtain ⟨-, poll, htrace, hends⟩ := rxCheck_ends h1 hc1
  rcases hends with ⟨b', k, rounds, hr, -, -, rfl⟩ | ⟨k, rounds, hr, -⟩ | ⟨hr, -⟩
  · cases hr.symm.trans hb
    exact ⟨_, htrace⟩
  · cases hr.symm.trans hb
  · cases hr.symm.trans hb

/-- `inResetState` after its call (42_session R212): the bit of the byte read, or a link error. -/
theorem testReset_passes {s u : State} {r : Byte} (h : Returns s u)
    (hc : s.control = [.run (.loadControlStatus r), .testReset]) (hd : s.dir ≠ none) :
    u.dir = some .receiving ∧
      ((∃ b, Moved s [ldcsOpcode s.cfg r] [b] u ∧ u.ret = .ok (.bool (resetBit b))) ∨
        Moved s [ldcsOpcode s.cfg r] [] u ∧ LinkError u.ret) := by
  rcases loadControlStatus_passes h hc hd with ⟨v, w, b, hsent, hreceived, hcw, hw⟩ | ⟨v, w, hsent, hfailed, hcw, hw⟩
  · obtain rfl := (hw.next hcw rfl).done rfl
    refine ⟨hreceived.dir, .inl ⟨b, (hsent.moved.trans hreceived.moved).finish _ _, ?_⟩⟩
    rw [← hreceived.reply]
    rfl
  · obtain rfl := hw.done hcw
    exact ⟨hfailed.dir, .inr ⟨hsent.moved.trans hfailed.moved, hfailed.error⟩⟩

/-- The byte whose bit `inResetState` reports is the last thing it reads. -/
theorem testReset_reads_last {s u : State} {r : Byte} {v : Value} (h : Returns s u)
    (hc : s.control = [.run (.loadControlStatus r), .testReset]) (hd : s.dir ≠ none) (hv : u.ret = .ok v) :
    ∃ b new, u.platform.trace = .readByte b :: new ++ s.platform.trace ∧ u.ret = .ok (.bool (resetBit b)) := by
  have hread : readsOf s.platform.trace ≠ readsOf u.platform.trace := by
    obtain ⟨-, ⟨b, hmoved, -⟩ | ⟨-, herror⟩⟩ := testReset_passes h hc hd
    · simp [hmoved.reads]
    · rcases herror with he | he <;> cases he.symm.trans hv
  obtain ⟨new, hnew⟩ := h.1.trace
  obtain ⟨m, w, hm, -, hw, rfl | ⟨⟨e, he⟩, rfl⟩⟩ :=
    h.split (as := [.run (.loadControlStatus r)]) (bs := [.testReset]) hc
  · obtain rfl := (hw.next (ts := []) rfl rfl).done rfl
    have hstarted := hm.run rfl (opRefusal_none hd nofun nofun nofun) rfl
    obtain ⟨s1, hsent, hc1, h1⟩ := send_passes hstarted rfl hd
    rcases recv_passes h1 hc1 (hsent.dir_ne hd) with ⟨m', b, hreceived, hcm, hret⟩ | ⟨m', hfailed, hcm, hret⟩
    · obtain rfl := hret.done hcm
      obtain ⟨es, hes⟩ := recv_reads_last h1 hc1 (hsent.dir_ne hd) hreceived.ret
      cases new with
      | nil => exact absurd (congrArg readsOf hnew).symm hread
      | cons e new =>
        obtain ⟨rfl, -⟩ := List.cons.inj (hes.symm.trans hnew)
        refine ⟨b, new, hnew, ?_⟩
        rw [← hreceived.reply]
        rfl
    · obtain rfl := hret.done hcm
      exact absurd (hfailed.reads.trans hsent.reads).symm hread
  · obtain rfl := hw.done rfl
    cases he.symm.trans hv

/-- When the Platform answers at once, `inResetState` returns. -/
theorem testReset_returns {s : State} {r : Byte} (hc : s.control = [.run (.loadControlStatus r), .testReset])
    (hd : s.dir ≠ none) (hp : Prompt s) : ∃ u, Returns s u := by
  have hstarted := (Leads.refl s).next hc
    (opStart_tasks (s := { s with control := [.testReset] }) (opRefusal_none hd nofun nofun nofun) rfl)
  obtain ⟨v, hsent, hpv, hcv, hv⟩ := hstarted.send rfl hd hp
  exact hv.recv_testReset hcv (hsent.dir_ne hd) hpv

/-- Settles O30: LDCS of the Reset CSR, then the test of its reply. -/
theorem inResetStateReportsBitZero : Obligations.InResetStateReportsBitZero := by
  intro s ⟨hc, hd⟩
  obtain ⟨hcall, -⟩ := call_taken (o := .inResetState) (src := []) hc rfl le_rfl
    (opRefusal_none hd nofun nofun nofun) rfl
  refine ⟨_, hcall, fun hp => testReset_returns rfl hd hp, fun u hret => ?_⟩
  rw [← ldcsOpcode_csrOperand]
  obtain ⟨hdir, ⟨b, hmoved, hok⟩ | ⟨hmoved, herror⟩⟩ := testReset_passes hret rfl hd
  · have hlast := testReset_reads_last hret rfl hd hok
    exact ⟨hmoved.wire, hmoved.frame, hdir, .inl hlast⟩
  · exact ⟨hmoved.wire, hmoved.frame, hdir, .inr herror⟩

end Sys2Proof.Machine
end

section
/-!
42_session R215, R217: `Session.begin` wakes the link, puts the target in reset, and sends the guard time and the key,
with a session state after each of the first two. Settles O31.
-/

namespace Sys2Proof.Machine

/-! ## Runs of tasks that send -/

section Running
variable {s t u v : State} {k : Task} {ts rest : List Task} {bs : List Byte}

/-- One task performed, as a run. -/
theorem Runs.task (hc : s.control = k :: ts) (hp : perform k { s with control := ts } = .next v) : Runs s v :=
  .step (by simp [hc]) (step_task hc ▸ hp) (.refl v)

/-- Tasks that send, before others, with the run that has sent their bytes. -/
theorem SendTasks.runs {c : Config} (hsend : SendTasks c ts bs) (h : Returns s u) (hcfg : s.cfg = c)
    (hc : s.control = ts ++ rest) (hd : s.dir ≠ none) (hr : ∀ e, s.ret ≠ .err e) :
    ∃ s', Sent s bs s' ∧ s'.control = rest ∧ Runs s s' ∧ Returns s' u := by
  have halone {m : State} (hm : Returns { s with control := ts } m) : Sent s bs m := by
    obtain ⟨m', hsent, hcm, hm'⟩ := hsend.passes (s := { s with control := ts }) (rest := []) hcfg hm
      (List.append_nil ts).symm hd
    exact hm'.done hcm ▸ (Sent.nil s ts).append hsent
  obtain ⟨m, hm, hruns, hret⟩ := h.split_returning hc fun m hm e => (halone hm).ret ▸ hr e
  have hafter := (halone hm).append (Sent.nil m rest)
  rw [List.append_nil] at hafter
  exact ⟨_, hafter, rfl, hruns, hret⟩

theorem SendTasks.enterResetState {c : Config} (rest : SendTasks c ts bs) :
    SendTasks c (.run .enterResetState :: ts) ([stcsOpcode c (csrOperand c.csrReset), c.resetSignature] ++ bs) :=
  .call (fun _ hd => opRefusal_none hd nofun nofun nofun) (fun _ hs => hs ▸ rfl) (.stcs _ _ .nil) rest

theorem SendTasks.setGuardTime {c : Config} (code : BitVec 3) (rest : SendTasks c ts bs) :
    SendTasks c (.run (.setGuardTime code) :: ts)
      ([stcsOpcode c (csrOperand c.csrControl), guardTimeByte code] ++ bs) :=
  .call (fun _ hd => opRefusal_none hd nofun nofun nofun) (fun _ hs => hs ▸ rfl) (.stcs _ _ .nil) rest

theorem SendTasks.sendKey {c : Config} (rest : SendTasks c ts bs) :
    SendTasks c (.run .sendKey :: ts) (c.opKey :: c.pdiKey ++ bs) :=
  .call (fun _ hd => opRefusal_none hd nofun nofun nofun) (fun _ hs => hs ▸ rfl) (sendTasks_sends c _) rest

end Running

/-! ## The wake sequence before other tasks -/

section Waking
variable {s t u : State} {ts : List Task}

/-- `beginSession` called by an operation that goes on with `ts`. -/
theorem returns_runLinkBegin_iff (hc : s.control = .run .linkBegin :: ts) (hd : s.dir = some .idle) :
    Returns s u ↔ Returns (linkWoken s (.wake s.cfg.beginClockCycles :: ts)) u := by
  have hstarted := opStart_tasks (s := { s with control := ts }) (o := .linkBegin) (by simp [opRefusal, hd]) rfl
  rw [returns_task_iff hc hstarted, returns_commands_iff (d := .transmitting)
    (ts := .wake s.cfg.beginClockCycles :: ts)
    (ks := [.configurePinOutput .clock .high, .configurePinOutput .dataOut .low, .delay s.cfg.settleDelayLowUs,
      .writePin .dataOut .high, .delay s.cfg.settleDelayHighUs, .enableClock, .enableTx]) rfl]
  simp [afterCommands, performCommand, Platform.apply, Platform.setPin, Platform.pin, Platform.record, linkWoken,
    State.push]

/-- When the Platform answers at once, the clock cycles of `beginSession` are over, quietly. -/
theorem Leads.wake_quietly {n : Nat} (h : Leads s t) (hc : t.control = .wake n :: ts) (hp : Prompt t) :
    ∃ s', Quietly t t.dir s' ∧ Prompt s' ∧ s'.control = ts ∧ Leads s s' := by
  induction n generalizing t with
  | zero => exact ⟨_, (Traced.refl t ts).quiet, hp, rfl, h.next hc rfl⟩
  | succ n ih =>
    have h0 : Leads s { t with control := Machine.waitClockCycle ++ .wake n :: ts } :=
      h.next hc (by simp [perform, State.push])
    obtain ⟨s1, q1, p1, c1, h1⟩ := h0.await_quietly rfl hp
    obtain ⟨s2, q2, p2, c2, h2⟩ := h1.await_quietly c1 p1
    obtain ⟨s3, q3, p3, c3, h3⟩ := h2.await_quietly c2 p2
    obtain ⟨s4, q4, p4, c4, h4⟩ := ih h3 c3 p3
    have q := ((((Traced.refl t (Machine.waitClockCycle ++ .wake n :: ts)).quiet.trans q1).trans q2).trans q3).trans q4
    rw [q3.dir, q2.dir, q1.dir] at q
    exact ⟨s4, q, p4, c4, h4⟩

/-- What a `beginSession` that has returned leaves for the tasks behind it. -/
structure Woken (s s' : State) : Prop where
  wire : s'.wire = s.wire
  dir : s'.dir = some .transmitting
  txOn : s'.platform.txOn = true
  cfg : s'.cfg = s.cfg
  calls : s'.calls = s.calls
  host : s'.host = s.host
  ret : s'.ret = s.ret
  target : s'.target = { s.target with linked := true }

theorem linkBegin_runs (h : Returns s u) (hc : s.control = .run .linkBegin :: ts) (hd : s.dir = some .idle)
    (hr : ∀ e, s.ret ≠ .err e) : ∃ s', Woken s s' ∧ s'.control = ts ∧ Runs s s' ∧ Returns s' u := by
  have halone {m : State} (hm : Returns { s with control := [.run .linkBegin] } m) : Woken s m := by
    obtain ⟨wake, m', -, htraced, hcm, hm'⟩ :=
      wake_traced ((returns_runLinkBegin_iff (s := { s with control := [.run .linkBegin] }) rfl hd).1 hm) rfl
    obtain rfl := hm'.done hcm
    have hquiet := htraced.quiet
    obtain ⟨hcfg, -, -, hcalls, hhost, -⟩ := hquiet.frame
    refine ⟨hquiet.wire.trans ?_, hquiet.dir, congrArg LinkRow.txOn htraced.row, hcfg, hcalls, hhost, hquiet.ret,
      hquiet.target⟩
    simp [State.wire, linkWoken, wireOf_cons_other]
  obtain ⟨m, hm, hruns, hret⟩ := h.split_returning (as := [.run .linkBegin]) hc fun m hm e => (halone hm).ret ▸ hr e
  obtain ⟨hwire, hdir, htxOn, hcfg, hcalls, hhost, hret', htarget⟩ := halone hm
  exact ⟨{ m with control := ts }, ⟨hwire, hdir, htxOn, hcfg, hcalls, hhost, hret', htarget⟩, rfl, hruns, hret⟩

end Waking

/-! ## Session.begin -/

section Begin
variable {s u : State}

/-- A run of the body of `Session.begin`, with its two intermediate session states. -/
theorem sessionBegin_runs (h : Returns s u) (hb : opBody s .sessionBegin = .tasks s.control)
    (hd : s.dir = some .idle) (hr : s.ret = .nothing) :
    (u.ret = .ok .unit ∧ u.dir = some .transmitting ∧ u.sess = .programming ∧ u.active = true ∧
      u.wire = s.wire ++ beginBytes s.cfg ∧ u.host = s.host ∧ u.calls = s.calls ∧
      u.target = ({ s.target with linked := true } : Target).receiveAll s.cfg (beginBytes s.cfg)) ∧
    ∃ v w, Runs s v ∧ Runs v w ∧ Runs w u ∧ v.sess = .linkUp ∧ v.wire = s.wire ∧ w.sess = .targetInReset ∧
      w.wire = s.wire ++ (beginBytes s.cfg).take 2 := by
  obtain ⟨s1, hwoken, hc1, hruns1, h1⟩ := linkBegin_runs h (Body.tasks.inj hb).symm hd (hr ▸ nofun)
  have h2 := h1.next hc1 rfl
  obtain ⟨s3, hreset, hc3, hruns3, h3⟩ := SendTasks.runs (c := s.cfg) (.enterResetState .nil) h2 hwoken.cfg rfl
    (hwoken.dir ▸ nofun) (fun e => by simp [hwoken.ret, hr])
  have h4 := h3.next hc3 rfl
  obtain ⟨hcfg3, -, -, hcalls3, hhost3, -⟩ := hreset.frame
  obtain ⟨s5, hkeyed, hc5, h5⟩ := SendTasks.passes (c := s.cfg) (.setGuardTime s.cfg.guardTimeCode (.sendKey .nil))
    (by exact hcfg3.trans hwoken.cfg) h4 rfl (hreset.dir_ne (hwoken.dir ▸ nofun))
  obtain ⟨-, -, -, hcalls5, hhost5, -⟩ := hkeyed.frame
  obtain rfl := ((h5.next hc5 rfl).next rfl rfl).done rfl
  have hbytes : beginBytes s.cfg =
      (beginBytes s.cfg).take 2 ++ ([stcsOpcode s.cfg (csrOperand s.cfg.csrControl),
        guardTimeByte s.cfg.guardTimeCode] ++ (s.cfg.opKey :: s.cfg.pdiKey ++ [])) := by
    simp [beginBytes]
  have hwire3 : s3.wire = s.wire ++ (beginBytes s.cfg).take 2 :=
    hreset.wire.trans (congrArg (· ++ _) hwoken.wire)
  have htarget3 : s3.target =
      ({ s.target with linked := true } : Target).receiveAll s.cfg ((beginBytes s.cfg).take 2) := by
    rw [hreset.target fun _ => hwoken.txOn]
    exact congrArg₂ (fun t c => Target.receiveAll t c _) hwoken.target hwoken.cfg
  refine ⟨⟨rfl, hkeyed.dir, rfl, rfl, ?_, hhost5.trans (hhost3.trans hwoken.host),
    hcalls5.trans (hcalls3.trans hwoken.calls), ?_⟩, _, _, hruns1.trans (.task hc1 rfl),
    hruns3.trans (.task hc3 rfl), h4.1, rfl, hwoken.wire, rfl, hwire3⟩
  · rw [hbytes, ← List.append_assoc, ← hwire3]
    exact hkeyed.wire
  · rw [hbytes, Target.receiveAll_append, ← htarget3]
    refine (hkeyed.target (hreset.connected fun _ => hwoken.txOn)).trans ?_
    exact congrArg (fun c => Target.receiveAll _ c _) (hcfg3.trans hwoken.cfg)

theorem sessionBegin_returns (hb : opBody s .sessionBegin = .tasks s.control)
    (hd : s.dir = some .idle) (hp : Prompt s) : ∃ u, Returns s u := by
  have hwake : Leads s _ := fun u => (returns_runLinkBegin_iff (Body.tasks.inj hb).symm hd).2
  obtain ⟨s1, hq1, hp1, hc1, h1⟩ := hwake.wake_quietly rfl hp
  obtain ⟨s2, hsent, hp2, hc2, h2⟩ := SendTasks.leads (.enterResetState .nil) rfl (h1.next hc1 rfl) rfl
    (hq1.dir.trans_ne nofun) hp1
  obtain ⟨s3, -, hp3, hc3, h3⟩ := SendTasks.leads (.setGuardTime _ (.sendKey .nil)) rfl (h2.next hc2 rfl) rfl
    (hsent.dir.trans_ne nofun) hp2
  exact ((h3.next hc3 rfl).next rfl rfl).returns rfl

end Begin

/-- Settles O31: the refusals, and the run of the body. -/
theorem sessionBeginReachesProgramming : Obligations.SessionBeginReachesProgramming := by
  intro s hc
  refine ⟨fun hd => ?_, fun hd ha => by simp [State.call, hc, opRefusal, hd, ha], fun hd ha => ?_⟩
  · rcases hd with hd | hd <;> simp [State.call, hc, opRefusal, hd]
  · obtain ⟨hcall, -⟩ := call_taken (o := .sessionBegin) (src := []) hc rfl le_rfl (by simp [opRefusal, hd, ha]) rfl
    refine ⟨_, hcall, fun hp => sessionBegin_returns rfl hd hp, fun u hret => ?_⟩
    obtain ⟨⟨hok, hdir, hsess, hactive, hwire, hhost, hcalls, htarget⟩, hstates⟩ := sessionBegin_runs hret rfl hd rfl
    have htaken : (s.calling .sessionBegin []).target = s.target.beginInstruction false := by
      simp [State.calling, State.strays, exitsReset, Target.atCall, sendsInstruction]
    have hlinked := congrArg
      (fun t : Target => ({ t with linked := true } : Target).receiveAll s.cfg (beginBytes s.cfg)) htaken
    exact ⟨hok, hdir, hsess, hactive, hwire, hhost, hcalls, htarget.trans hlinked, hstates⟩

end Sys2Proof.Machine
end

section
/-!
45_target_contract R311, R326: runs in which the Platform answers at once, followed with the target on the link
(`PromptLink`): what the target replies is what the core receives.
-/

namespace Sys2Proof.Machine

/-- The Platform answers at once, the configuration is `c`, and the bytes sent reach the target, which is `T`. -/
structure PromptLink (c : Config) (T : Target) (s : State) : Prop where
  prompt : Prompt s
  connected : WireConnected s
  ready : s.dir ≠ none
  cfg : s.cfg = c
  target : s.target = T

section Runs
variable {c : Config} {T : Target} {s t : State} {tasks ts : List Task} {bs : List Byte}

theorem PromptLink.setControl (ha : PromptLink c T t) (cs : List Task) : PromptLink c T { t with control := cs } :=
  ⟨ha.prompt, ha.connected, ha.ready, ha.cfg, ha.target⟩

/-- Tasks that send: the target receives their bytes. -/
theorem PromptLink.sends (ha : PromptLink c T t) (h : Leads s t) (hsend : SendTasks c tasks bs)
    (hc : t.control = tasks ++ ts) :
    ∃ s', PromptLink c (T.receiveAll c bs) s' ∧ s'.control = ts ∧ Leads s s' := by
  obtain ⟨s', hsent, hp, hc', h'⟩ := hsend.leads ha.cfg h hc ha.ready ha.prompt
  refine ⟨s', ⟨hp, hsent.connected ha.connected, hsent.dir_ne ha.ready, hsent.frame.1.trans ha.cfg, ?_⟩, hc', h'⟩
  rw [hsent.target ha.connected, ha.target, ha.cfg]

/-- `recv`: the core receives the reply that waits. -/
theorem PromptLink.receives (ha : PromptLink c T t) (h : Leads s t) (hc : t.control = .run .recv :: ts)
    (hn : c.recvPollCycles ≠ 0) {b : Byte} (hb : T.replies = [b]) :
    ∃ s', PromptLink c T.readReply s' ∧ s'.reply = b ∧ s'.control = ts ∧ Leads s s' := by
  obtain ⟨s', b', hreceived, hp, hc', h', holdest⟩ := h.recv hc ha.ready ha.prompt (by rwa [ha.cfg])
  obtain rfl := holdest b (by rw [ha.target, hb]; rfl)
  refine ⟨s', ⟨hp, ?_, ?_, hreceived.frame.1.trans ha.cfg, by rw [hreceived.target, ha.target]⟩, hreceived.reply, hc',
    h'⟩
  · rintro hd
    cases hreceived.dir.symm.trans hd
  · simp [hreceived.dir]

/-- An operation whose body sends the bytes `bs` and then calls `recv`. -/
theorem PromptLink.exchanges (ha : PromptLink c T t) (h : Leads s t) {o : Op} (hc : t.control = .run o :: ts)
    (ho : opRefusal { t with control := ts } o = none) (hsend : SendTasks c tasks bs)
    (hb : opBody { t with control := ts } o = .tasks (tasks ++ [.run .recv])) (hn : c.recvPollCycles ≠ 0) {b : Byte}
    (hreply : (T.receiveAll c bs).replies = [b]) :
    ∃ s', PromptLink c (T.receiveAll c bs).readReply s' ∧ s'.reply = b ∧ s'.control = ts ∧ Leads s s' := by
  have hstarted := h.next hc (opStart_tasks ho hb)
  obtain ⟨s1, ha1, hc1, h1⟩ := PromptLink.sends (ts := .run .recv :: ts) (ha.setControl _) hstarted hsend
    (List.append_assoc _ _ _)
  exact ha1.receives h1 hc1 hn hreply

end Runs

/-! ## The reference target in a programming session -/

section Reference
variable {c : Config} {T : Target} {s t : State} {ts : List Task}

/-- One reply sent and read leaves a target that owes none as it was. -/
theorem Target.readReply_send (hr : T.replies = []) (ho : T.owed = 0) (b : Byte) : (T.send b).readReply = T := by
  cases T
  simp_all [Target.send, Target.readReply]

theorem Target.send_replies (hr : T.replies = []) (b : Byte) : (T.send b).replies = [b] := by
  simp [Target.send, hr]

theorem wellFormed_csrOperand (r : BitVec 4) : (csrOperand r).toNat < 16 := by
  rw [csrOperand, BitVec.toNat_setWidth]
  omega

section Instructions
variable (hw : T.Waiting) (hdec : Decodable c)
include hw hdec

theorem Target.Waiting.receiveAll_ldcs (r : BitVec 4) :
    T.receiveAll c [ldcsOpcode c (csrOperand r)] = (T.readCsr c r).2.send (T.readCsr c r).1 := by
  rw [← hw.execute_csrLoad]
  exact hw.receiveAll_instr (hdec.decodePdi_encode (i := .ldcs (csrOperand r)) rfl
    (decide_eq_true (wellFormed_csrOperand r)))

theorem Target.Waiting.receiveAll_stcs (r : BitVec 4) (d : Byte) :
    T.receiveAll c [stcsOpcode c (csrOperand r), d] = T.writeCsr c r d := by
  rw [← hw.execute_csrStore]
  exact hw.receiveAll_instr (hdec.decodePdi_encode (i := .stcs (csrOperand r) d) rfl
    (decide_eq_true (wellFormed_csrOperand r)))

/-- LD with the pointer at the NVM STATUS register (45 R326). -/
theorem Target.Waiting.receiveAll_readStatus (hk : T.kind = .reference) (hptr : T.ptr = nvmAddress c .status) :
    T.receiveAll c [ldOpcode c .indirect] = T.send 0x00 := by
  obtain ⟨direct, hload⟩ := hw.execute_load (c := c) (.inr ⟨rfl, hptr⟩)
  have hexecuted := hw.receiveAll_instr (hdec.decodePdi_encode (i := .ldInd) rfl rfl)
  rwa [hload, Target.load_status (Target.replyStated_reference hk), Target.readStatus_reference hk] at hexecuted

end Instructions

/-! ## waitWhileBusy (43_nvm R248) -/

theorem perform_pollNvmen {left : Option Nat} (h0 : left ≠ some 0) :
    perform (.pollNvmen left) s =
      .next (s.push [.run (.loadControlStatus (csrOperand s.cfg.csrStatus)), .nvmenVerdict (left.map Nat.pred)]) :=
  congrArg _ (if_neg h0)

theorem perform_nvmenVerdict_enabled {left : Option Nat} (h : nvmEnabled s.reply = true) :
    perform (.nvmenVerdict left) s =
      .next (s.push [.run (.storePointerAutoAddr .direct (nvmAddress s.cfg .status)), .pollBusy s.cfg.pollLimit]) :=
  congrArg _ (if_pos h)

theorem perform_pollBusy {left : Option Nat} (h0 : left ≠ some 0) :
    perform (.pollBusy left) s = .next (s.push [.run (.loadPointer .indirect), .busyVerdict (left.map Nat.pred)]) :=
  congrArg _ (if_neg h0)

theorem perform_busyVerdict_clear {left : Option Nat} (h : busyBit s.reply = false) :
    perform (.busyVerdict left) s = .next (s.finish (.ok .unit)) :=
  congrArg _ (if_neg (by simp [h]))

theorem SendTasks.storePointerAutoAddr {c : Config} (a : Word) {bs : List Byte} (rest : SendTasks c ts bs) :
    SendTasks c (.run (.storePointerAutoAddr .direct a) :: ts) (pointerBytes c a ++ bs) :=
  .call (fun _ hd => opRefusal_none hd nofun nofun nofun) (fun _ hs => hs ▸ rfl) (.send _ (.send4 a .nil)) rest

section Polls
variable (hT : T.ReferenceKeyed) (hdec : Decodable c) (hn : c.recvPollCycles ≠ 0)
include hT hdec hn

/-- Stage 1 ends at its first poll: a target in reset and keyed reports NVMEN. -/
theorem PromptLink.pollsNvmen (ha : PromptLink c T t) (h : Leads s t) {left : Option Nat} (h0 : left ≠ some 0)
    (hc : t.control = .pollNvmen left :: ts) :
    ∃ s', PromptLink c { T with ptr := nvmAddress c .status, bufRun := none } s' ∧
      s'.control = .pollBusy c.pollLimit :: ts ∧ Leads s s' := by
  obtain ⟨hkind, hw, hreplies, howed, hheld, hkeyed⟩ := hT
  have hread : T.receiveAll c [ldcsOpcode c (csrOperand c.csrStatus)] = T.send 0x02 := by
    rw [hw.receiveAll_ldcs hdec, Target.readCsr_status_reference hkind, if_pos ⟨hheld, hkeyed⟩]
  obtain rfl := ha.cfg
  obtain ⟨s1, ha1, hr1, hc1, h1⟩ := PromptLink.exchanges (ha.setControl _) (h.next hc (perform_pollNvmen h0)) rfl
    (opRefusal_none ha.ready nofun nofun nofun) (.send _ .nil) rfl hn (hread ▸ Target.send_replies hreplies _)
  rw [hread, Target.readReply_send hreplies howed] at ha1
  have h2 := h1.next hc1 (perform_nvmenVerdict_enabled (s := { s1 with control := ts }) (by rw [hr1]; decide))
  obtain ⟨s3, ha3, hc3, h3⟩ := PromptLink.sends (ha1.setControl _) h2 (.storePointerAutoAddr _ .nil) rfl
  rw [List.append_nil, ha1.cfg, hw.receiveAll_pointer hdec] at ha3
  refine ⟨s3, ha3, ?_, h3⟩
  rw [hc3, ha1.cfg]
  rfl

/-- Stage 2 ends at its first poll: RT's commands are never seen to run (45 R326). -/
theorem PromptLink.pollsBusy (hptr : T.ptr = nvmAddress c .status) (ha : PromptLink c T t) (h : Leads s t)
    {left : Option Nat} (h0 : left ≠ some 0) (hc : t.control = .pollBusy left :: ts) :
    ∃ s', PromptLink c T s' ∧ s'.ret = .ok .unit ∧ s'.control = ts ∧ Leads s s' := by
  obtain ⟨hkind, hw, hreplies, howed, -⟩ := hT
  have hread := hw.receiveAll_readStatus hdec hkind hptr
  obtain rfl := ha.cfg
  obtain ⟨s1, ha1, hr1, hc1, h1⟩ := PromptLink.exchanges (ha.setControl _) (h.next hc (perform_pollBusy h0)) rfl
    (opRefusal_none ha.ready nofun nofun nofun) (.send _ .nil) rfl hn (hread ▸ Target.send_replies hreplies _)
  rw [hread, Target.readReply_send hreplies howed] at ha1
  have h2 := h1.next hc1 (perform_busyVerdict_clear (s := { s1 with control := ts }) (by rw [hr1]; decide))
  exact ⟨{ s1 with control := ts, ret := .ok .unit },
    ⟨ha1.prompt, ha1.connected, ha1.ready, ha1.cfg, ha1.target⟩, rfl, rfl, h2⟩

/-- The whole wait (43_nvm R248). -/
theorem PromptLink.waits (ha : PromptLink c T t) (h : Leads s t) (h0 : c.pollLimit ≠ some 0)
    (hc : t.control = .run .waitWhileBusy :: ts) :
    ∃ s', PromptLink c { T with ptr := nvmAddress c .status, bufRun := none } s' ∧ s'.ret = .ok .unit ∧
      s'.control = ts ∧ Leads s s' := by
  have hstarted := h.next hc (opStart_tasks (s := { t with control := ts })
    (opRefusal_none ha.ready nofun nofun nofun) rfl)
  obtain ⟨s1, ha1, hc1, h1⟩ := PromptLink.pollsNvmen hT hdec hn (ha.setControl _) hstarted (ha.cfg ▸ h0) rfl
  exact PromptLink.pollsBusy (T := { T with ptr := nvmAddress c .status, bufRun := none }) hT hdec hn rfl ha1 h1 h0 hc1

end Polls

end Reference

end Sys2Proof.Machine
end

section
/-!
42_session R216, 70_reset_and_hazards R393, R400: `Session.end` cut into its ignored wait, the rounds of its reset-exit
loop and the teardown. Errors leave none of these parts: each stands before a task that swallows them. Settles O32.
-/

namespace Sys2Proof.Machine

section Parts
variable {s u : State} {ts : List Task}

/-- The new events of a run, where what it sent and read is known. -/
theorem Moved.events {ws rs : List Byte} (h : Moved s ws rs u) (hr : Runs s u) :
    ∃ new, u.platform.trace = new ++ s.platform.trace ∧ wireOf new = ws ∧ readsOf new = rs := by
  obtain ⟨new, hnew⟩ := hr.trace
  refine ⟨new, hnew, ?_, ?_⟩
  · have hwire := h.wire
    rw [State.wire, State.wire, hnew, wireOf_append] at hwire
    exact List.append_cancel_left hwire
  · have hreads := h.reads
    rw [hnew, readsOf_append] at hreads
    exact List.append_cancel_left hreads

/-- Tasks before one that swallows errors: it follows them in every case. -/
theorem Returns.split_caught {as : List Task} {k : Task} (h : Returns s u) (hc : s.control = as ++ k :: ts)
    (hk : k.catches = true) :
    ∃ m, Returns { s with control := as } m ∧ Runs s { m with control := k :: ts } ∧
      Returns { m with control := k :: ts } u := by
  have hcaught : unwind (k :: ts) = k :: ts := if_pos hk
  obtain ⟨m, v, hm, hv, hret, rfl | ⟨-, rfl⟩⟩ := h.split hc
  · exact ⟨m, hm, hv, hret⟩
  · rw [hcaught] at hv hret
    exact ⟨m, hm, hv, hret⟩

/-! ## The ignored wait -/

/-- A wait that returned Ok, as the bytes it sent. -/
theorem Waited.waitedOut {ws rs : List Byte} (h : Waited s u ws rs) : WaitedOut s.cfg ws := by
  obtain ⟨xs, x, ys, y, -, -, -, -, -, hws, -, -⟩ := h.shape
  exact ⟨_, _, Nat.succ_pos _, Nat.succ_pos _, hws⟩

theorem ignoredWait_runs (h : Returns s u) (hc : s.control = .run .waitWhileBusy :: .ignoreErrors :: ts)
    (hd : s.dir ≠ none) :
    ∃ ws rs s', (WaitedOut s.cfg ws ∨ WaitCut s.cfg ws) ∧ Moved s ws rs s' ∧ s'.control = ts ∧ Runs s s' ∧
      Returns s' u := by
  obtain ⟨m, hm, hruns, hret⟩ := h.split_caught (as := [.run .waitWhileBusy]) hc rfl
  have hignored := hret.next rfl rfl
  have hruns' : Runs s { m with control := ts } := hruns.trans (.task rfl rfl)
  rcases waitWhileBusy_passes hm rfl hd with ⟨m', ws, rs, hwaited, hcm, hm'⟩ | ⟨m', ws, rs, hcut, hmoved, -, hcm, hm'⟩
  · obtain rfl := hm'.done hcm
    have hmoved := (Moved.refl s _).trans hwaited.moved
    exact ⟨ws, rs, _, .inl hwaited.waitedOut, hmoved.setControl ts, rfl, hruns', hignored⟩
  · obtain rfl := hm'.done hcm
    exact ⟨ws, rs, _, .inr hcut, ((Moved.refl s _).trans hmoved).setControl ts, rfl, hruns', hignored⟩

/-! ## The reset-exit loop -/

theorem SendTasks.exitResetState {c : Config} {bs : List Byte} (rest : SendTasks c ts bs) :
    SendTasks c (.run .exitResetState :: ts) ([stcsOpcode c (csrOperand c.csrReset), 0x00] ++ bs) :=
  .call (fun _ hd => opRefusal_none hd nofun nofun nofun) (fun _ hs => hs ▸ rfl) (.stcs _ _ .nil) rest

/-- `inResetState` by itself (42_session R212). -/
theorem inResetState_passes (h : Returns s u) (hc : s.control = [.run .inResetState]) (hd : s.dir ≠ none) :
    u.dir = some .receiving ∧
      ((∃ b, Moved s [ldcsOpcode s.cfg (csrOperand s.cfg.csrReset)] [b] u ∧ u.ret = .ok (.bool (resetBit b))) ∨
        Moved s [ldcsOpcode s.cfg (csrOperand s.cfg.csrReset)] [] u ∧ LinkError u.ret) := by
  have hstarted := h.run hc (opRefusal_none hd nofun nofun nofun) rfl
  obtain ⟨hdir, ⟨b, hmoved, hok⟩ | ⟨hmoved, herror⟩⟩ := testReset_passes hstarted rfl hd
  · exact ⟨hdir, .inl ⟨b, (Moved.refl s _).trans hmoved, hok⟩⟩
  · exact ⟨hdir, .inr ⟨(Moved.refl s _).trans hmoved, herror⟩⟩

/-- How the loop ends after `n` rounds whose replies were `rs`, where it had `left` rounds to make. -/
def LoopEnds (left : Option Nat) (n : Nat) (rs : List Byte) : Prop :=
  Within left n ∧ (∀ r ∈ rs.dropLast, r.getLsbD 0 = true) ∧
    ((rs.length = n ∧ 1 ≤ n ∧ ∀ r ∈ rs.getLast?, r.getLsbD 0 = false) ∨
      (rs.length + 1 = n ∧ ∀ r ∈ rs.getLast?, r.getLsbD 0 = true) ∨
      (rs.length = n ∧ left = some n ∧ ∀ r ∈ rs.getLast?, r.getLsbD 0 = true))

theorem resetLoopEnds_iff (c : Config) (n : Nat) (rs : List Byte) :
    ResetLoopEnds c n rs ↔ LoopEnds c.pollLimit n rs := Iff.rfl

theorem LoopEnds.exhausted : LoopEnds (some 0) 0 [] :=
  ⟨fun _ hN => (Option.some.inj hN).le, nofun, .inr (.inr ⟨rfl, rfl, nofun⟩)⟩

theorem LoopEnds.failed {left : Option Nat} (h0 : left ≠ some 0) : LoopEnds left 1 [] :=
  ⟨within_pred h0 fun _ _ => Nat.zero_le _, nofun, .inr (.inl ⟨rfl, nofun⟩)⟩

theorem LoopEnds.released {left : Option Nat} (h0 : left ≠ some 0) {b : Byte} (hb : b.getLsbD 0 = false) :
    LoopEnds left 1 [b] :=
  ⟨within_pred h0 fun _ _ => Nat.zero_le _, nofun, .inl ⟨rfl, le_rfl, by simpa using hb⟩⟩

/-- A round that finds the target still in reset goes before the others. -/
theorem LoopEnds.again {left : Option Nat} (h0 : left ≠ some 0) {n : Nat} {rs : List Byte} {b : Byte}
    (hb : b.getLsbD 0 = true) (h : LoopEnds (left.map Nat.pred) n rs) : LoopEnds left (n + 1) (b :: rs) := by
  obtain ⟨hwithin, hset, hends⟩ := h
  refine ⟨within_pred h0 hwithin, ?_, ?_⟩
  · cases rs with
    | nil => nofun
    | cons r rs => simpa [hb] using hset
  · have hlast : ∀ {p : Byte → Prop}, p b → (∀ r ∈ rs.getLast?, p r) → ∀ r ∈ (b :: rs).getLast?, p r := by
      intro p hp hrs
      cases rs with
      | nil => simpa using hp
      | cons r rs => simpa using hrs
    rcases hends with ⟨hlength, hn, hclear⟩ | ⟨hlength, hstill⟩ | ⟨hlength, hleft, hstill⟩
    · refine .inl ⟨congrArg Nat.succ hlength, Nat.succ_pos n, ?_⟩
      cases rs with
      | nil => exact absurd hlength (by simp; omega)
      | cons r rs => simpa using hclear
    · exact .inr (.inl ⟨congrArg Nat.succ hlength, hlast hb hstill⟩)
    · refine .inr (.inr ⟨congrArg Nat.succ hlength, ?_, hlast hb hstill⟩)
      obtain ⟨N, rfl, hN⟩ := Option.map_eq_some_iff.1 hleft
      have hpos : N ≠ 0 := by rintro rfl; exact h0 rfl
      exact congrArg some ((Nat.succ_pred hpos).symm.trans (congrArg Nat.succ hN))

/-- A round is begun while any are left. -/
theorem perform_resetLoop {left : Option Nat} (h0 : left ≠ some 0) :
    perform (.resetLoop left) s =
      .next (s.push [.run .exitResetState, .run .inResetState, .resetVerdict (left.map Nat.pred)]) :=
  congrArg _ (if_neg h0)

theorem perform_resetVerdict_again {left : Option Nat} (h : s.ret = .ok (.bool true)) :
    perform (.resetVerdict left) s = .next (s.push [.resetLoop left]) := congrArg _ (if_pos h)

theorem perform_resetVerdict_leaves {left : Option Nat} (h : s.ret ≠ .ok (.bool true)) :
    perform (.resetVerdict left) s = .next s := congrArg _ (if_neg h)

/-- The two calls of a round by themselves: STCS Reset 0x00 and LDCS Reset. -/
theorem resetRound_passes (h : Returns s u) (hc : s.control = [.run .exitResetState, .run .inResetState])
    (hd : s.dir ≠ none) :
    u.dir = some .receiving ∧
      ((∃ b, Moved s (resetRound s.cfg) [b] u ∧ u.ret = .ok (.bool (resetBit b))) ∨
        Moved s (resetRound s.cfg) [] u ∧ LinkError u.ret) := by
  obtain ⟨s1, hsent, hc1, h1⟩ := SendTasks.passes (c := s.cfg) (.exitResetState .nil) rfl h hc hd
  obtain ⟨hdir, hreply⟩ := inResetState_passes h1 hc1 (hsent.dir_ne hd)
  rw [hsent.frame.1] at hreply
  rcases hreply with ⟨b, hmoved, hok⟩ | ⟨hmoved, herror⟩
  · exact ⟨hdir, .inl ⟨b, hsent.moved.trans hmoved, hok⟩⟩
  · exact ⟨hdir, .inr ⟨hsent.moved.trans hmoved, herror⟩⟩

/-- One round of the loop, which goes on after a reply with bit 0 set alone. -/
theorem resetRound_runs {left : Option Nat} (h : Returns s u) (hc : s.control = .resetLoop left :: ts)
    (hd : s.dir ≠ none) (h0 : left ≠ some 0) :
    ∃ s', Runs s s' ∧ Returns s' u ∧ s'.dir = some .receiving ∧
      ((∃ b, b.getLsbD 0 = true ∧ Moved s (resetRound s.cfg) [b] s' ∧
          s'.control = .resetLoop (left.map Nat.pred) :: ts) ∨
        ∃ rs, LoopEnds left 1 rs ∧ Moved s (resetRound s.cfg) rs s' ∧ s'.control = ts) := by
  obtain ⟨m, hm, hruns, hret⟩ := (h.next hc (perform_resetLoop h0)).split_caught (ts := ts)
    (as := [.run .exitResetState, .run .inResetState]) (k := .resetVerdict (left.map Nat.pred)) rfl rfl
  have hruns' := (Runs.task hc (perform_resetLoop h0)).trans hruns
  obtain ⟨hdir, hround⟩ := resetRound_passes hm rfl hd
  have hafter {rs : List Byte} (cs : List Task)
      (hmoved : Moved { s with control := [.run .exitResetState, .run .inResetState] } (resetRound s.cfg) rs m) :
      Moved s (resetRound s.cfg) rs { m with control := cs } := ((Moved.refl s _).trans hmoved).setControl cs
  by_cases hagain : m.ret = .ok (.bool true)
  · have hp := perform_resetVerdict_again (s := { m with control := ts }) (left := left.map Nat.pred) hagain
    refine ⟨_, hruns'.trans (.task rfl hp), hret.next rfl hp, hdir, .inl ?_⟩
    rcases hround with ⟨b, hmoved, hok⟩ | ⟨-, herror⟩
    · have hb : resetBit b = true := by simpa using hok.symm.trans hagain
      exact ⟨b, hb, hafter _ hmoved, rfl⟩
    · rcases herror with he | he <;> cases he.symm.trans hagain
  · have hp := perform_resetVerdict_leaves (s := { m with control := ts }) (left := left.map Nat.pred) hagain
    refine ⟨_, hruns'.trans (.task rfl hp), hret.next rfl hp, hdir, .inr ?_⟩
    rcases hround with ⟨b, hmoved, hok⟩ | ⟨hmoved, -⟩
    · exact ⟨[b], .released h0 (by simpa [hok, resetBit] using hagain), hafter ts hmoved, rfl⟩
    · exact ⟨[], .failed h0, hafter ts hmoved, rfl⟩

/-- The reset-exit loop (42_session R216), round by round. -/
theorem resetLoop_runs {left : Option Nat} (h : Returns s u) (hc : s.control = .resetLoop left :: ts)
    (hd : s.dir ≠ none) :
    ∃ n rs s', LoopEnds left n rs ∧ Moved s (List.replicate n (resetRound s.cfg)).flatten rs s' ∧
      s'.dir = (if n = 0 then s.dir else some .receiving) ∧ s'.control = ts ∧ Runs s s' ∧ Returns s' u := by
  obtain ⟨k, hk⟩ : ∃ k, u.wire.length - s.wire.length ≤ k := ⟨_, le_rfl⟩
  induction k using Nat.strong_induction_on generalizing s left with
  | _ k ih =>
    by_cases h0 : left = some 0
    · subst h0
      exact ⟨0, [], _, .exhausted, Moved.refl s ts, rfl, rfl, .task hc rfl, h.next hc rfl⟩
    · obtain ⟨s1, hruns1, h1, hdir, ⟨b, hb, hmoved, hc1⟩ | ⟨rs, hends, hmoved, hc1⟩⟩ := resetRound_runs h hc hd h0
      · have hlength : s1.wire.length = s.wire.length + 3 := by simp [hmoved.wire, resetRound]
        have hle := h1.1.wire_length
        obtain ⟨n, rs, s', hends, hmoved', hdir', hc', hruns', h'⟩ :=
          ih (u.wire.length - s1.wire.length) (by omega) h1 hc1 (hmoved.ready hd) le_rfl
        have hcfg : s1.cfg = s.cfg := hmoved.frame.1
        refine ⟨n + 1, b :: rs, s', hends.again h0 hb, ?_, ?_, hc', hruns1.trans hruns', h'⟩
        · rw [hcfg] at hmoved'
          simpa [List.replicate_succ] using hmoved.trans hmoved'
        · rw [hdir', hdir, ite_self]
          rfl
      · exact ⟨1, rs, s1, hends, by simpa using hmoved, hdir, hc1, hruns1, h1⟩

/-! ## The teardown -/

theorem returns_teardownBefore_iff (hc : s.control = teardownTasks ++ ts) :
    Returns s u ↔ Returns { linkClosed s teardownEvents with control := ts } u := by
  rw [returns_commands_iff (d := .idle) (ts := ts)
    (ks := [.disableRx, .disableTx, .disableClock, .configurePinInput .clock, .configurePinInput .dataOut,
      .configurePinInput .dataIn]) hc]
  simp [afterCommands, performCommand, Platform.apply, Platform.setPin, Platform.record, linkClosed, teardownEvents]

/-- `endSession` called by an operation that goes on with `ts`: the transition into Receiving, then the teardown. -/
theorem linkEnd_closes (h : Returns s u) (hc : s.control = .run .linkEnd :: ts) (hd : s.dir ≠ none) :
    ∃ switch s', SwitchesToReceive s.dir switch ∧ Traced s s.linkRow.receiving switch s' ∧
      Returns { linkClosed s' teardownEvents with control := ts } u := by
  have hstarted := h.run hc (opRefusal_none hd nofun nofun nofun) rfl
  obtain ⟨switch, s1, hswitch, htraced, hc1, h1⟩ := toReceiving_traced (ts := teardownTasks ++ ts) hstarted
    (List.append_assoc _ _ _)
  have hfrom := (Traced.refl s _).trans htraced
  rw [List.append_nil] at hfrom
  exact ⟨switch, s1, hswitch, hfrom, (returns_teardownBefore_iff hc1).1 h1⟩

theorem Traced.wireOf_events {r : LinkRow} {es : List Event} (h : Traced s r es u) : wireOf es = [] := by
  have hwire := h.quiet.wire
  rw [State.wire, h.trace, wireOf_append] at hwire
  exact List.append_cancel_left (hwire.trans (List.append_nil _).symm)

/-- `Session.begin` is taken by a machine that has closed its session. -/
theorem sessionBegin_taken (hc : s.control = []) (hd : s.dir = some .idle) (ha : s.active = false) :
    ∃ v, s.call .sessionBegin [] = .next v := by
  obtain ⟨hcall, -⟩ := call_taken (o := .sessionBegin) (src := []) hc rfl le_rfl (by simp [opRefusal, hd, ha]) rfl
  exact ⟨_, hcall⟩

/-- The events of a `Session.end` from the trace before to the trace after it: the ignored wait, `n` rounds of the
reset-exit loop and the teardown (42_session R216, 70 R393, R400). -/
def EndTrace (c : Config) (before after : List Event) : Prop :=
  ∃ n wait rounds switch,
    after = teardownEvents ++ switch ++ rounds ++ wait ++ before ∧
      (WaitedOut c (wireOf wait) ∨ WaitCut c (wireOf wait)) ∧
      wireOf rounds = (List.replicate n (resetRound c)).flatten ∧ ResetLoopEnds c n (readsOf rounds) ∧
      wireOf switch = [] ∧ (1 ≤ n → switch = [])

theorem sessionEnd_closes (h : Returns s u) (hb : opBody s .sessionEnd = .tasks s.control) (hd : s.dir ≠ none) :
    u.ret = .ok .unit ∧ u.dir = some .idle ∧ u.sess = .ended ∧ u.active = false ∧ u.platform.Quiet ∧
      u.host = s.host ∧ u.calls = s.calls ∧ EndTrace s.cfg s.platform.trace u.platform.trace := by
  obtain ⟨ws, rs, s1, hwait, hmoved1, hc1, hruns1, h1⟩ := ignoredWait_runs h (Body.tasks.inj hb).symm hd
  obtain ⟨n, qs, s2, hends, hmoved2, hdir2, hc2, hruns2, h2⟩ := resetLoop_runs h1 hc1 (hmoved1.ready hd)
  obtain ⟨switch, s3, ⟨hstays, -⟩, htraced, h3⟩ := linkEnd_closes h2 hc2 (hmoved2.ready (hmoved1.ready hd))
  obtain rfl := ((h3.next rfl rfl).next rfl rfl).done rfl
  obtain ⟨wait, htrace1, hwire1, -⟩ := hmoved1.events hruns1
  obtain ⟨rounds, htrace2, hwire2, hreads2⟩ := hmoved2.events hruns2
  obtain ⟨hcfg1, -, -, hcalls1, hhost1, -⟩ := hmoved1.frame
  obtain ⟨-, -, -, hcalls2, hhost2, -⟩ := hmoved2.frame
  obtain ⟨-, -, -, hcalls3, hhost3, -⟩ := htraced.quiet.frame
  rw [hcfg1] at hwire2
  refine ⟨rfl, rfl, rfl, rfl, ⟨rfl, rfl, rfl, rfl, rfl, rfl⟩, hhost3.trans (hhost2.trans hhost1),
    hcalls3.trans (hcalls2.trans hcalls1), n, wait, rounds, switch, ?_, hwire1.symm ▸ hwait, hwire2,
    hreads2.symm ▸ hends, htraced.wireOf_events, fun hn => hstays ?_⟩
  · have htrace : (linkClosed s3 teardownEvents).platform.trace = teardownEvents ++ s3.platform.trace := rfl
    refine htrace.trans ?_
    rw [htraced.trace, htrace2, htrace1]
    simp
  · rw [hdir2, if_neg (Nat.one_le_iff_ne_zero.1 hn)]

end Parts

/-! ## When the Platform answers at once -/

section Answers
variable {c : Config} {T : Target} {s t : State} {ts : List Task}

/-- Once released, RT shows no reset, whichever CSR number Reset has (45 R326). -/
theorem Target.Waiting.released_reply (hw : T.Waiting) (hdec : Decodable c) (hkind : T.kind = .reference)
    (hline : T.resetLine = .released) :
    ∃ b, T.receiveAll c [ldcsOpcode c (csrOperand c.csrReset)] = T.send b ∧ resetBit b = false := by
  refine ⟨0x00, ?_, rfl⟩
  rw [hw.receiveAll_ldcs hdec]
  by_cases hstatus : c.csrReset = c.csrStatus
  · rw [hstatus, Target.readCsr_status_reference hkind, if_neg (by simp [hline])]
  · rw [Target.readCsr_reset_reference hkind hstatus, if_neg (by simp [hline])]

/-- The read of a round, once the target is released: the loop is left. -/
theorem PromptLink.seesRelease (hkind : T.kind = .reference) (hline : T.resetLine = .released) (hw : T.Waiting)
    (hreplies : T.replies = []) (hdec : Decodable c) (hn : c.recvPollCycles ≠ 0) (ha : PromptLink c T t)
    (h : Leads s t) {left : Option Nat} (hc : t.control = .run .inResetState :: .resetVerdict left :: ts) :
    ∃ s', Prompt s' ∧ s'.dir ≠ none ∧ s'.control = ts ∧ Leads s s' := by
  obtain ⟨b, hreply, hb⟩ := hw.released_reply hdec hkind hline
  obtain rfl := ha.cfg
  obtain ⟨s1, ha1, hr1, hc1, h1⟩ := PromptLink.exchanges (ts := .testReset :: .resetVerdict left :: ts)
    (o := .loadControlStatus (csrOperand t.cfg.csrReset)) (ha.setControl _)
    (h.next hc (opStart_tasks (opRefusal_none ha.ready nofun nofun nofun) rfl)) rfl
    (opRefusal_none ha.ready nofun nofun nofun) (.send _ .nil) rfl hn (hreply ▸ Target.send_replies hreplies b)
  have hclear : resetBit s1.reply = false := by rw [hr1, hb]
  have h2 := (h1.next hc1 rfl).next rfl (perform_resetVerdict_leaves
    (s := { s1 with control := ts, ret := .ok (.bool (resetBit s1.reply)) }) (by simp [hclear]))
  exact ⟨{ s1 with control := ts, ret := .ok (.bool (resetBit s1.reply)) }, ha1.prompt, ha1.ready, rfl, h2⟩

/-- The reset-exit loop ends at its first round. -/
theorem PromptLink.releasesReset (hkind : T.kind = .reference) (hw : T.Waiting) (hreplies : T.replies = [])
    (hdec : Decodable c) (hn : c.recvPollCycles ≠ 0) (hsig : c.resetSignature ≠ 0x00) (ha : PromptLink c T t)
    (h : Leads s t) {left : Option Nat} (h0 : left ≠ some 0) (hc : t.control = .resetLoop left :: ts) :
    ∃ s', Prompt s' ∧ s'.dir ≠ none ∧ s'.control = ts ∧ Leads s s' := by
  obtain ⟨s1, ha1, hc1, h1⟩ := PromptLink.sends (ha.setControl _) (h.next hc (perform_resetLoop h0))
    (.exitResetState .nil) rfl
  rw [List.append_nil, hw.receiveAll_stcs hdec, Target.writeCsr_release_reference hkind hsig] at ha1
  exact PromptLink.seesRelease (T := { T with resetLine := .released, keyed := false }) hkind rfl hw hreplies hdec hn
    ha1 h1 hc1

/-- A call of `Session.end` in a programming session with RT returns when the Platform answers at once. -/
theorem sessionEnd_returns (ha : PromptLink c T s) (hT : T.ReferenceKeyed) (hdec : Decodable c)
    (hn : c.recvPollCycles ≠ 0) (h0 : c.pollLimit ≠ some 0) (hsig : c.resetSignature ≠ 0x00)
    (hb : opBody s .sessionEnd = .tasks s.control) : ∃ u, Returns s u := by
  obtain ⟨s1, ha1, -, hc1, h1⟩ := PromptLink.waits hT hdec hn ha (.refl s) h0 (Body.tasks.inj hb).symm
  obtain ⟨hkind, hw, hreplies, -⟩ := hT
  obtain ⟨s2, hp2, hd2, hc2, h2⟩ := PromptLink.releasesReset
    (T := { T with ptr := nvmAddress c .status, bufRun := none }) hkind hw hreplies hdec hn hsig (ha1.setControl _)
    (h1.next hc1 rfl) (ha.cfg ▸ h0) rfl
  have hstarted := h2.next hc2 (opStart_tasks (opRefusal_none hd2 nofun nofun nofun) rfl)
  rw [State.push, linkEndBody, List.append_assoc] at hstarted
  obtain ⟨s3, -, -, hc3, h3⟩ := hstarted.toReceiving rfl hp2
  have hclosed : Leads s _ := fun u hu => h3 u ((returns_teardownBefore_iff hc3).2 hu)
  exact ((hclosed.next rfl rfl).next rfl rfl).returns rfl

end Answers

/-- Settles O32: every run is taken apart by `sessionEnd_closes`; the run that returns meets RT, which reports NVMEN, is
never busy and shows no reset once released. -/
theorem sessionEndAlwaysCloses : Obligations.SessionEndAlwaysCloses := by
  intro s ⟨hc, hd⟩
  obtain ⟨hcall, -⟩ := call_taken (o := .sessionEnd) (src := []) hc rfl le_rfl
    (opRefusal_none hd nofun nofun nofun) rfl
  refine ⟨_, hcall, fun ha => ?_, fun u hret => ?_⟩
  · obtain ⟨hp, hconnected, hT, hdec, hn, h0, hsig⟩ := ha
    have ⟨_, hw, _, howed, _⟩ := hT
    have htarget : (s.target.atCall s.cfg .sessionEnd).noteExit (s.strays .sessionEnd) = s.target := by
      simp [hw.atCall howed, State.strays, exitsReset]
    exact sessionEnd_returns ⟨hp, hconnected, hd, rfl, htarget⟩ hT hdec hn h0 hsig rfl
  · obtain ⟨hok, hdir, hsess, hactive, hquiet, hhost, hcalls, htrace⟩ := sessionEnd_closes hret rfl hd
    exact ⟨hok, hdir, hsess, hactive, hquiet, hhost, hcalls, sessionBegin_taken hret.2 hdir hactive, htrace⟩

end Sys2Proof.Machine
end

section
/-!
43_nvm R240, R242, R245 to R247: the stores to the NVM registers. Each operation is a list of tasks that send
(`SendTasks`) the bytes of one STS or of two. Settles O26 and O35.
-/

namespace Sys2Proof.Machine

/-! ## The operations as tasks that send -/

section Sending
variable {c : Config} {ts : List Task} {bs : List Byte}

theorem SendTasks.storeDirect (a : Word) (d : Byte) (rest : SendTasks c ts bs) :
    SendTasks c (.run (.storeDirect a d) :: ts) (stsBytes c a d ++ bs) :=
  .call (fun _ hd => opRefusal_none hd nofun nofun nofun) (fun _ hs => hs ▸ rfl) (.send _ (.send4 a (.send d .nil))) rest

/-- An operation that is one store to an NVM register, before other tasks that send. -/
theorem SendTasks.storeNvm {o : Op} {r : NvmRegister} {v : Byte}
    (taken : ∀ s : State, s.dir ≠ none → opRefusal s o = none)
    (starts : ∀ s : State, s.cfg = c → opBody s o = .tasks [storeNvm c r v]) (rest : SendTasks c ts bs) :
    SendTasks c (.run o :: ts) (stsBytes c (nvmAddress c r) v ++ bs) := by
  have hstore : SendTasks c [Machine.storeNvm c r v] (stsBytes c (nvmAddress c r) v) :=
    List.append_nil (stsBytes c (nvmAddress c r) v) ▸ .storeDirect (nvmAddress c r) v .nil
  exact .call taken starts hstore rest

theorem SendTasks.writeCommand (k : NvmCommand) (rest : SendTasks c ts bs) :
    SendTasks c (.run (.writeCommand k) :: ts) (stsBytes c (nvmAddress c .cmd) (nvmCode c k) ++ bs) :=
  .storeNvm (fun _ hd => opRefusal_none hd nofun nofun nofun) (fun _ hs => hs ▸ rfl) rest

theorem SendTasks.execute (rest : SendTasks c ts bs) :
    SendTasks c (.run .execute :: ts) (stsBytes c (nvmAddress c .ctrlA) 0x01 ++ bs) :=
  .storeNvm (fun _ hd => opRefusal_none hd nofun nofun nofun) (fun _ hs => hs ▸ rfl) rest

/-- What `execCommand` sends: the code to CMD, then 0x01 to CTRLA (43_nvm R247). -/
def execCommandBytes (c : Config) (k : NvmCommand) : List Byte :=
  stsBytes c (nvmAddress c .cmd) (nvmCode c k) ++ stsBytes c (nvmAddress c .ctrlA) 0x01

/-- The two calls of which the body of `execCommand` consists. -/
theorem sendTasks_execCommandBody (c : Config) (k : NvmCommand) :
    SendTasks c [.run (.writeCommand k), .run .execute] (execCommandBytes c k) :=
  .writeCommand k (List.append_nil (stsBytes c (nvmAddress c .ctrlA) 0x01) ▸ .execute .nil)

theorem SendTasks.execCommand (k : NvmCommand) (rest : SendTasks c ts bs) :
    SendTasks c (.run (.execCommand k) :: ts) (execCommandBytes c k ++ bs) :=
  .call (fun _ hd => opRefusal_none hd nofun nofun nofun) (fun _ _ => rfl) (sendTasks_execCommandBody c k) rest

end Sending

/-- Settles O35: `execute` is one store, `execCommand` two. -/
theorem executeStoresCtrlA : Obligations.ExecuteStoresCtrlA := by
  intro s hs
  refine ⟨hs.call_sendTasks (List.append_nil (stsBytes _ _ _) ▸ .storeDirect (nvmAddress s.cfg .ctrlA) 0x01 .nil)
    nofun rfl rfl (opRefusal_none hs.2 nofun nofun nofun) rfl, fun k => ?_⟩
  rw [List.append_assoc]
  exact hs.call_sendTasks (sendTasks_execCommandBody s.cfg k) nofun rfl rfl (opRefusal_none hs.2 nofun nofun nofun) rfl

/-! ## A store to CMD on the target -/

section Selecting
variable {t : Target} {c : Config}

/-- A lost target takes no notice of the wire. -/
theorem Target.receiveAll_of_lost (h : t.lost = true) (bs : List Byte) : t.receiveAll c bs = t := by
  induction bs with
  | nil => rfl
  | cons b bs ih =>
    have hfirst : t.receive c b = t := if_pos h
    rw [Target.receiveAll_cons, hfirst, ih]

/-- A store to CMD selects a command where one may be written; elsewhere the target is lost. -/
theorem Target.storeDirect_cmd (d : Byte) :
    t.storeDirect c (nvmAddress c .cmd) d = if t.nvmIdle then { t with cmd := d } else t.lose := by
  simp [Target.storeDirect, Target.storeRegister]

theorem Target.beginInstruction_memories (byHand : Bool) :
    (t.beginInstruction byHand).mem = t.mem ∧ (t.beginInstruction byHand).buf = t.buf ∧
      (t.beginInstruction byHand).fuse = t.fuse := by
  unfold Target.beginInstruction Target.cutOff
  split
  · exact ⟨rfl, rfl, rfl⟩
  · split <;> exact ⟨rfl, rfl, rfl⟩

/-- The bytes of a store to CMD, at a target that waits. -/
theorem Target.Waiting.receiveAll_selects (hw : t.Waiting) (hdec : Decodable c) (d : Byte) :
    t.receiveAll c (stsBytes c (nvmAddress c .cmd) d) = if t.nvmIdle then { t with cmd := d } else t.lose := by
  rw [hw.receiveAll_sts hdec, Target.execute_sts, hw.unrepeated, Target.storeDirect_cmd]

/-- A caller's store to CMD changes no memory byte, and selects the command alone where one may be written and no reply
of a repeated LD is owed. -/
theorem Target.Waiting.selects (hw : t.Waiting) (hdec : Decodable c) (d : Byte) {u : Target}
    (hu : u = (t.beginInstruction false).receiveAll c (stsBytes c (nvmAddress c .cmd) d)) :
    u.mem = t.mem ∧ u.buf = t.buf ∧ u.fuse = t.fuse ∧
      (t.nvmIdle = true → t.owed = 0 → u = { t with cmd := d }) := by
  by_cases howed : t.owed = 0
  · rw [hw.beginInstruction howed, hw.receiveAll_selects hdec] at hu
    by_cases hidle : t.nvmIdle = true
    · rw [if_pos hidle] at hu
      subst hu
      exact ⟨rfl, rfl, rfl, fun _ _ => rfl⟩
    · rw [if_neg hidle] at hu
      subst hu
      exact ⟨rfl, rfl, rfl, fun h => absurd h hidle⟩
  · rw [Target.receiveAll_of_lost (Target.beginInstruction_of_owed howed false)] at hu
    subst hu
    obtain ⟨hmem, hbuf, hfuse⟩ := t.beginInstruction_memories false
    exact ⟨hmem, hbuf, hfuse, fun _ h => absurd h howed⟩

end Selecting

/-! ## The 27 rows -/

/-- A row of the command table is the call of `writeCommand`, and its encoding is the code (43_nvm R242, R245). -/
theorem nvmCommandOf_exec {i : Instr} {k : NvmCommand} (h : nvmCommandOf i = some k) :
    (∀ c, encodeWith c i = [nvmCode c k]) ∧ ∀ s, exec i s = s.call (.writeCommand k) [] := by
  cases i <;> cases h <;> exact ⟨fun _ => rfl, fun _ => rfl⟩

/-- Settles O26: `writeCommand` is one STS, and `Sent` says what it does. -/
theorem nvmCommandCodesAreStoredToCmd : Obligations.NvmCommandCodesAreStoredToCmd := by
  intro i k s hi ⟨hc, hd⟩
  obtain ⟨hencode, hexec⟩ := nvmCommandOf_exec hi
  obtain ⟨hcall, hiff⟩ := call_taken (o := .writeCommand k) (src := []) hc rfl le_rfl
    (opRefusal_none hd nofun nofun nofun) rfl
  refine ⟨hencode _, _, (hexec s).trans hcall, fun hp => ?_, fun u hret => ?_⟩
  · obtain ⟨u, -, -, hcu, hleads⟩ := (SendTasks.writeCommand (c := s.cfg) k .nil).leads (rest := [])
      (t := s.calling (.writeCommand k) []) rfl (.refl _) rfl hd hp
    obtain ⟨v, hv⟩ := hleads.returns hcu
    exact ⟨v, (hiff v).2 hv⟩
  · obtain ⟨u', hsent, hcu, hret'⟩ := writeCommand_passes ((hiff u).1 hret) rfl hd
    obtain rfl := hret'.done hcu
    refine ⟨hsent.wire, hsent.dir, hsent.ret, hsent.reply, hsent.frame, fun hdec hconnected hw => ?_⟩
    have hcalled : (s.calling (.writeCommand k) []).target = s.target.beginInstruction false := by
      simp [State.calling, Target.atCall, sendsInstruction, State.strays, exitsReset]
    exact hw.selects hdec _ (hcalled ▸ hsent.target hconnected)

end Sys2Proof.Machine
end

section
/-!
43_nvm R248, R249, 70_reset_and_hazards R400: `waitWhileBusy`. Its two stages are one loop, which polls until a reply
passes the stage's test, and POLL_LIMIT bounds the polls of each in every run. Settles O34.
-/

namespace Sys2Proof.Machine

/-! ## A stage of the wait -/

/-- The two stages of `waitWhileBusy`: until Status reports NVMEN, then until NVM STATUS reports no BUSY. -/
inductive PollStage where
  | nvmen | busy

namespace PollStage

/-- The head of the stage's loop. -/
def poll : PollStage → Option Nat → Task
  | nvmen => .pollNvmen
  | busy => .pollBusy

/-- The stage's test of a reply. -/
def verdict : PollStage → Option Nat → Task
  | nvmen => .nvmenVerdict
  | busy => .busyVerdict

/-- The load that asks for a reply. -/
def load (c : Config) : PollStage → Op
  | nvmen => .loadControlStatus (csrOperand c.csrStatus)
  | busy => .loadPointer .indirect

/-- The wire byte of that load. -/
def opcode (c : Config) : PollStage → Byte
  | nvmen => statusPoll c
  | busy => ldOpcode c .indirect

/-- The reply that ends the stage. -/
def passes (b : Byte) : PollStage → Bool
  | nvmen => nvmEnabled b
  | busy => !busyBit b

section Loop
variable (g : PollStage) {s u : State} {ts : List Task} {left : Option Nat}

theorem perform_poll_exhausted : perform (g.poll (some 0)) s = .next (s.raise .serialTimeout) := by
  cases g <;> rfl

theorem perform_poll (h0 : left ≠ some 0) :
    perform (g.poll left) s = .next (s.push [.run (g.load s.cfg), g.verdict (left.map Nat.pred)]) := by
  cases g with
  | nvmen => exact perform_pollNvmen h0
  | busy => exact perform_pollBusy h0

theorem perform_verdict_again (h : g.passes s.reply = false) :
    perform (g.verdict left) s = .next (s.push [g.poll left]) := by
  cases g with
  | nvmen => exact congrArg _ (if_neg (Bool.eq_false_iff.1 h))
  | busy => exact congrArg _ (if_pos (Bool.not_eq_false' .. ▸ h))

/-- No stage's test swallows an error. -/
theorem unwind_verdict : unwind (g.verdict left :: ts) = unwind ts := by cases g <;> rfl

theorem load_moved (h : Returns s u) (hc : s.control = .run (g.load s.cfg) :: ts) (hd : s.dir ≠ none) :
    (∃ v b, Moved s [g.opcode s.cfg] [b] v ∧ v.reply = b ∧ v.control = ts ∧ Returns v u) ∨
      ∃ v, Moved s [g.opcode s.cfg] [] v ∧ LinkError v.ret ∧ v.control = unwind ts ∧ Returns v u := by
  have hexchange : Exchange s u [g.opcode s.cfg] ts := by
    cases g with
    | nvmen => exact loadControlStatus_passes h hc hd
    | busy => exact loadPointer_passes h hc hd
  rcases hexchange.moved with ⟨v, b, hmoved, hb, -, hcv, hv⟩ | hfailed
  · exact .inl ⟨v, b, hmoved, hb, hcv, hv⟩
  · exact .inr hfailed

/-- The stage has ended in `v` with the replies `xs` that fail its test and the reply `x` that passes it. -/
structure Passed (s : State) (left : Option Nat) (xs : List Byte) (x : Byte) (v : State) : Prop where
  moved : Moved s (List.replicate (xs.length + 1) (g.opcode s.cfg)) (xs ++ [x]) v
  fails : ∀ b ∈ xs, g.passes b = false
  ends : g.passes x = true
  within : Within left (xs.length + 1)
  reply : v.reply = x

/-- The stage has ended in `v` with a link error after `k` polls. -/
structure Cut (s : State) (left : Option Nat) (k : Nat) (v : State) : Prop where
  moved : ∃ rs, Moved s (List.replicate k (g.opcode s.cfg)) rs v
  within : Within left k
  error : LinkError v.ret

variable {g}

/-- A poll whose reply fails the test goes before the others. -/
theorem Passed.again {m v : State} {b x : Byte} {xs : List Byte} (hm : Moved s [g.opcode s.cfg] [b] m)
    (h0 : left ≠ some 0) (hb : g.passes b = false) (h : g.Passed m (left.map Nat.pred) xs x v) :
    g.Passed s left (b :: xs) x v where
  moved := by
    have hmoved := h.moved
    rw [hm.frame.1] at hmoved
    exact hm.trans hmoved
  fails := List.forall_mem_cons.2 ⟨hb, h.fails⟩
  ends := h.ends
  within := within_pred h0 h.within
  reply := h.reply

theorem Cut.again {m v : State} {b : Byte} {k : Nat} (hm : Moved s [g.opcode s.cfg] [b] m)
    (h0 : left ≠ some 0) (h : g.Cut m (left.map Nat.pred) k v) : g.Cut s left (k + 1) v where
  moved := by
    obtain ⟨rs, hmoved⟩ := h.moved
    rw [hm.frame.1] at hmoved
    exact ⟨_, hm.trans hmoved⟩
  within := within_pred h0 h.within
  error := h.error

/-- Every run of a stage: it polls until a reply passes the test, a receive fails or the polls are used up. -/
theorem runs (h : Returns s u) (hc : s.control = g.poll left :: ts) (hd : s.dir ≠ none) :
    (∃ v xs x left', g.Passed s left xs x v ∧ v.control = g.verdict left' :: ts ∧ Returns v u) ∨
      ∃ v k, g.Cut s left k v ∧ v.control = unwind ts ∧ Returns v u := by
  induction hk : u.wire.length - s.wire.length using Nat.strong_induction_on generalizing s left with
  | _ k ih =>
    by_cases h0 : left = some 0
    · subst h0
      have hraised := h.next hc g.perform_poll_exhausted
      exact .inr ⟨_, 0, ⟨⟨[], (Moved.refl s _).finish _ _⟩, fun _ _ => Nat.zero_le _, .inr rfl⟩, rfl, hraised⟩
    have hone : Within left 1 := within_pred h0 fun _ _ => Nat.zero_le _
    have hpolled := h.next hc (g.perform_poll h0)
    rcases g.load_moved hpolled rfl hd with ⟨v, b, hmoved, hb, hcv, hv⟩ | ⟨v, hmoved, herror, hcv, hv⟩
    · have hmoved := (Moved.refl s _).trans hmoved
      by_cases hpass : g.passes b = true
      · exact .inl ⟨v, [], b, _, ⟨hmoved, nofun, hpass, hone, hb⟩, hcv, hv⟩
      · have hfail := Bool.eq_false_iff.2 hpass
        have hagain := hv.next hcv (g.perform_verdict_again (s := { v with control := ts }) (hb ▸ hfail))
        have hmoved' := hmoved.setControl (g.poll (left.map Nat.pred) :: ts)
        have hgrown : v.wire.length = s.wire.length + 1 := by simp [hmoved.wire]
        have hle := hv.1.wire_length
        rcases ih (u.wire.length - v.wire.length) (by omega) hagain rfl (hmoved'.ready hd) rfl with
          ⟨w, xs, x, left', hpassed, hcw, hw⟩ | ⟨w, k, hcut, hcw, hw⟩
        · exact .inl ⟨w, b :: xs, x, left', hpassed.again hmoved' h0 hfail, hcw, hw⟩
        · exact .inr ⟨w, k + 1, hcut.again hmoved' h0, hcw, hw⟩
    · exact .inr ⟨v, 1, ⟨⟨[], (Moved.refl s _).trans hmoved⟩, hone, herror⟩, hcv.trans g.unwind_verdict, hv⟩

end Loop

end PollStage

/-! ## Both stages -/

section Wait
variable {s u : State} {ts : List Task}

/-- From a reply with NVMEN set to stage 2: the pointer store to NVM STATUS. -/
theorem nvmenVerdict_passes {left : Option Nat} (h : Returns s u) (hc : s.control = .nvmenVerdict left :: ts)
    (hd : s.dir ≠ none) (hset : nvmEnabled s.reply = true) :
    ∃ v, Moved s (pointerBytes s.cfg (nvmAddress s.cfg .status)) [] v ∧
      v.control = .pollBusy s.cfg.pollLimit :: ts ∧ Returns v u := by
  have hstore := h.next hc (perform_nvmenVerdict_enabled (s := { s with control := ts }) hset)
  obtain ⟨v, hsent, hcv, hv⟩ := storePointerAutoAddr_passes (ts := .pollBusy s.cfg.pollLimit :: ts) hstore rfl hd
  exact ⟨v, (Moved.refl s _).trans hsent.moved, hcv, hv⟩

/-- Every run of stage 2 by itself: Ok at the first reply with BUSY clear, or a link error. -/
theorem pollBusy_runs {left : Option Nat} (h : Returns s u) (hc : s.control = [.pollBusy left]) (hd : s.dir ≠ none) :
    (∃ ys y, PollStage.busy.Passed s left ys y u ∧ u.ret = .ok .unit) ∨ ∃ m, PollStage.busy.Cut s left m u := by
  rcases PollStage.runs (g := .busy) h hc hd with ⟨v, ys, y, left', hpassed, hcv, hv⟩ | ⟨v, m, hcut, hcv, hv⟩
  · have hclear : busyBit v.reply = false := by simpa [PollStage.passes, hpassed.reply] using hpassed.ends
    obtain rfl := (hv.next hcv (perform_busyVerdict_clear (s := { v with control := [] }) hclear)).done rfl
    exact .inl ⟨ys, y, { hpassed with moved := hpassed.moved.finish [] (.ok .unit) }, rfl⟩
  · obtain rfl := hv.done hcv
    exact .inr ⟨m, hcut⟩

theorem busyBytes_eq (c : Config) (k m : Nat) :
    busyBytes c k m = List.replicate k (statusPoll c) ++ pointerBytes c (nvmAddress c .status) ++
      List.replicate m (ldOpcode c .indirect) :=
  (List.append_assoc _ _ _).symm

/-- Every run of the wait: it has waited out both stages, or a link error has ended one within its bound. -/
theorem pollNvmen_runs (h : Returns s u) (hc : s.control = [.pollNvmen s.cfg.pollLimit]) (hd : s.dir ≠ none) :
    (∃ ws rs, Waited s u ws rs) ∨ LinkError u.ret ∧ ∃ ws rs, Moved s ws rs u ∧ WaitCutWithin s.cfg ws := by
  rcases PollStage.runs (g := .nvmen) h hc hd with ⟨v, xs, x, left', hfirst, hcv, hv⟩ | ⟨v, k, hcut, hcv, hv⟩
  · obtain ⟨w, hpointer, hcw, hw⟩ := nvmenVerdict_passes hv hcv (hfirst.moved.ready hd) (hfirst.reply ▸ hfirst.ends)
    have hcfgv : v.cfg = s.cfg := hfirst.moved.frame.1
    have hcfgw : w.cfg = s.cfg := hpointer.frame.1.trans hcfgv
    have hbefore := hfirst.moved.trans hpointer
    rw [hcfgv, List.append_nil] at hbefore
    rw [hcfgv] at hcw
    rcases pollBusy_runs hw hcw (hbefore.ready hd) with ⟨ys, y, hsecond, hok⟩ | ⟨m, hcut⟩
    · have hmoved := hbefore.trans hsecond.moved
      rw [hcfgw, ← List.append_assoc] at hmoved
      exact .inl ⟨_, _, hmoved, hok, xs, x, ys, y, rfl, hfirst.fails, hfirst.ends,
        fun b hb => by simpa [PollStage.passes] using hsecond.fails b hb,
        by simpa [PollStage.passes] using hsecond.ends, (busyBytes_eq _ _ _).symm, hfirst.within, hsecond.within⟩
    · obtain ⟨rs, hmoved⟩ := hcut.moved
      rw [hcfgw] at hmoved
      exact .inr ⟨hcut.error, _, _, hbefore.trans hmoved, xs.length + 1, m,
        .inr ⟨Nat.succ_pos _, (busyBytes_eq _ _ _).symm⟩, fun N hN => ⟨hfirst.within N hN, hcut.within N hN⟩⟩
  · obtain rfl := hv.done hcv
    obtain ⟨rs, hmoved⟩ := hcut.moved
    exact .inr ⟨hcut.error, _, rs, hmoved, k, 0, .inl ⟨rfl, rfl⟩, fun N hN => ⟨hcut.within N hN, Nat.zero_le N⟩⟩

/-- A caller's call is nothing to a target in a programming session, unless it releases the target from reset. -/
theorem Answered.promptLink (ha : Answered s) (hd : s.dir ≠ none) {o : Op} (hexit : exitsReset s.cfg o = false)
    (src : List Byte) : PromptLink s.cfg s.target (s.calling o src) := by
  obtain ⟨hp, hconnected, ⟨-, hw, -, howed, -⟩, -⟩ := ha
  exact ⟨hp, hconnected, hd, rfl, by simp [State.calling, hw.atCall howed, State.strays, hexit]⟩

/-- In a programming session with RT a wait that comes first ends with Ok. -/
theorem Answered.waits (ha : Answered s) {t : State} (hlink : PromptLink s.cfg s.target t)
    (hc : t.control = .run .waitWhileBusy :: ts) :
    ∃ v T, PromptLink s.cfg T v ∧ v.ret = .ok .unit ∧ v.control = ts ∧ Leads t v := by
  obtain ⟨-, -, hT, hdec, hn, h0, -⟩ := ha
  obtain ⟨v, hv, hok, hcv, hleads⟩ := PromptLink.waits hT hdec hn hlink (.refl t) h0 hc
  exact ⟨v, _, hv, hok, hcv, hleads⟩

end Wait

/-- Settles O34: the two stages one after the other, each within POLL_LIMIT. -/
theorem waitWhileBusyPollsInTwoStages : Obligations.WaitWhileBusyPollsInTwoStages := by
  intro s ⟨hc, hd⟩
  obtain ⟨hcall, hiff⟩ := call_taken (o := .waitWhileBusy) (src := []) hc rfl le_rfl
    (opRefusal_none hd nofun nofun nofun) rfl
  refine ⟨_, hcall, fun ha => ?_, fun u hret => ?_⟩
  · obtain ⟨v, -, -, hok, hcv, hleads⟩ := ha.waits (ha.promptLink (o := .waitWhileBusy) hd rfl []) rfl
    exact ⟨v, (hiff v).2 (hleads v (.refl hcv)), hok⟩
  · rcases pollNvmen_runs hret rfl hd with ⟨ws, rs, hwaited⟩ | ⟨herror, ws, rs, hmoved, hcut⟩
    · obtain ⟨hmoved, hok, xs, x, ys, y, hrs, hxs, hx, hys, hy, hws, hfirst, hsecond⟩ := hwaited
      obtain ⟨new, hnew, hwire, hreads⟩ := hmoved.events hret.1
      exact ⟨hmoved.frame, new, hnew, .inl ⟨xs, x, ys, y, hok, hreads.trans hrs, hxs, hx, hys, hy, hwire.trans hws,
        fun N hN => ⟨hfirst N hN, hsecond N hN⟩⟩⟩
    · obtain ⟨new, hnew, hwire, -⟩ := hmoved.events hret.1
      exact ⟨hmoved.frame, new, hnew, .inr ⟨herror, hwire.symm ▸ hcut⟩⟩

end Sys2Proof.Machine
end

section
/-!
43_nvm R250 to R252, 44_flash_fuse R273 to R278, R282: the operations that wait and then send. What comes after the wait
are tasks that send (`SendTasks`), so an error comes before all of their bytes. Settles O36 and O37.
-/

namespace Sys2Proof.Machine

/-! ## A wait before tasks that send -/

section AfterWait
variable {c : Config} {s t u : State} {ts rest : List Task} {bs : List Byte}

/-- Tasks that send swallow no error. -/
theorem SendTasks.unwind (hsend : SendTasks c ts bs) : Machine.unwind (ts ++ rest) = Machine.unwind rest := by
  induction hsend with
  | nil => rfl
  | send _ _ ih => exact ih
  | call _ _ _ _ _ ih => exact ih

theorem Sent.dir_transmitting (h : Sent s bs t) (hne : bs ≠ []) : t.dir = some .transmitting := h.dir.trans (if_neg hne)

/-- Every run of a wait and the sends after it: a completed wait and all of their bytes, or a link error before the
first of them. -/
theorem SendTasks.passes_afterWait (hsend : SendTasks c ts bs) (hne : bs ≠ []) (h : Returns s u) (hcfg : s.cfg = c)
    (hc : s.control = .run .waitWhileBusy :: (ts ++ rest)) (hd : s.dir ≠ none) :
    (∃ v w polls, WaitedOut s.cfg w ∧ Moved s (w ++ bs) polls v ∧ v.dir = some .transmitting ∧ v.control = rest ∧
        Returns v u) ∨
      CutInWait s rest u := by
  rcases waitWhileBusy_passes h hc hd with ⟨v, w, polls, hwaited, hcv, hv⟩ | ⟨v, w, polls, hcut, hmoved, herror, hcv, hv⟩
  · have hcfgv : v.cfg = c := hwaited.moved.frame.1.trans hcfg
    obtain ⟨z, hsent, hcz, hz⟩ := hsend.passes hcfgv hv hcv (hwaited.moved.ready hd)
    have hmoved := hwaited.moved.trans hsent.moved
    rw [List.append_nil] at hmoved
    exact .inl ⟨z, w, polls, hwaited.out, hmoved, hsent.dir_transmitting hne, hcz, hz⟩
  · exact .inr ⟨v, w, polls, hcut, hmoved, herror, hcv.trans hsend.unwind, hv⟩

/-- In a programming session with RT a wait and the sends after it come to their end. -/
theorem Answered.waitsAndSends (ha : Answered s) (hlink : PromptLink s.cfg s.target t) (hsend : SendTasks s.cfg ts bs)
    (hc : t.control = .run .waitWhileBusy :: (ts ++ rest)) :
    ∃ v T, PromptLink s.cfg T v ∧ v.control = rest ∧ Leads t v := by
  obtain ⟨v, T, hv, -, hcv, hleads⟩ := ha.waits hlink hc
  obtain ⟨w, hw, hcw, hleads'⟩ := hv.sends hleads hsend hcv
  exact ⟨w, _, hw, hcw, hleads'⟩

end AfterWait

/-! ## One command and its trigger -/

/-- The operation waits, sends the bytes `bs` and returns Ok. -/
structure WaitsThenSends (c : Config) (o : Op) (bs : List Byte) : Prop where
  body : ∃ ts, SendTasks c ts bs ∧
    ∀ s : State, s.cfg = c → opBody s o = .tasks (.run .waitWhileBusy :: (ts ++ [.finish (.ok .unit)]))
  sends : bs ≠ [] := by exact List.cons_ne_nil _ _
  wellFormed : o.wellFormed = true := by rfl
  pulls : opPulls o = 0 := by rfl
  taken : ∀ s : State, s.dir ≠ none → opRefusal s o = none := by exact fun _ hd => opRefusal_none hd nofun nofun nofun
  exits : ∀ c, exitsReset c o = false := by exact fun _ => rfl

section Commands
variable {c : Config} {o : Op} {tail : List Byte}

/-- After the wait, a command without an address (43_nvm R251, 44_flash_fuse R275). -/
theorem sendTasks_executed (c : Config) (k : NvmCommand) :
    SendTasks c [.run (.execCommand k)] (execCommandBytes c k) :=
  List.append_nil (execCommandBytes c k) ▸ .execCommand k .nil

/-- After the wait, a command and the store that triggers it (44_flash_fuse R273). -/
theorem sendTasks_triggered (c : Config) (k : NvmCommand) (a : Word) (d : Byte) :
    SendTasks c [.run (.writeCommand k), .run (.storeDirect a d)]
      (stsBytes c (nvmAddress c .cmd) (nvmCode c k) ++ stsBytes c a d) :=
  .writeCommand k (List.append_nil (stsBytes c a d) ▸ .storeDirect a d .nil)

/-- The operations of `commandBytes` are those that wait, send these bytes and return Ok. -/
theorem commandBytes_waitsThenSends (h : commandBytes c o = some tail) : WaitsThenSends c o tail := by
  cases o with
  | eraseChip =>
    obtain rfl := Option.some.inj h
    exact { body := ⟨_, sendTasks_executed c .chipErase, fun _ _ => rfl⟩ }
  | eraseBuffer =>
    obtain rfl := Option.some.inj h
    exact { body := ⟨_, sendTasks_executed c .eraseFlashPageBuffer, fun _ _ => rfl⟩ }
  | eraseSection off sec =>
    cases sec with
    | unspecified => cases h
    | app =>
      obtain rfl := Option.some.inj h
      exact { body := ⟨_, sendTasks_triggered c .eraseAppSection (c.appBase + off) c.dummyByte, fun _ hs => hs ▸ rfl⟩ }
    | boot =>
      obtain rfl := Option.some.inj h
      exact { body := ⟨_, sendTasks_triggered c .eraseBootSection (c.bootBase + off) c.dummyByte, fun _ hs => hs ▸ rfl⟩ }
  | erasePage off sec =>
    obtain rfl := Option.some.inj h
    exact { body := ⟨_, sendTasks_triggered c _ _ _, fun _ hs => hs ▸ rfl⟩ }
  | writePageFromBuffer off pre sec =>
    obtain rfl := Option.some.inj h
    exact { body := ⟨_, sendTasks_triggered c _ _ _, fun _ hs => hs ▸ rfl⟩ }
  | fuseWrite a d =>
    obtain rfl := Option.some.inj h
    exact { body := ⟨_, sendTasks_triggered c _ _ _, fun _ hs => hs ▸ rfl⟩ }
  | _ => cases h

end Commands

/-- Settles O36: after a completed wait there are only sends and the return of Ok. -/
theorem commandsAreSentOnlyAfterTheWait : Obligations.CommandsAreSentOnlyAfterTheWait := by
  intro s o tail ⟨hc, hd⟩ hbytes
  have ho := commandBytes_waitsThenSends hbytes
  obtain ⟨ts, hsend, hbody⟩ := ho.body
  obtain ⟨hcall, -⟩ := call_taken (src := []) hc ho.wellFormed ho.pulls.le (ho.taken s hd) (hbody (s.calling o []) rfl)
  refine ⟨_, hcall, fun ha => ?_, fun u hret => ?_⟩
  · obtain ⟨v, T, -, hcv, hleads⟩ := ha.waitsAndSends ((ha.promptLink hd (ho.exits s.cfg) []).setControl _) hsend rfl
    exact ⟨_, (hleads.next hcv rfl) _ (.refl rfl), rfl⟩
  · rcases hsend.passes_afterWait ho.sends hret rfl rfl hd with
      ⟨v, w, polls, hwaited, hmoved, hdir, hcv, hv⟩ | ⟨v, w, polls, hcut, hmoved, herror, hcv, hv⟩
    · obtain rfl := (hv.next hcv rfl).done rfl
      exact ⟨hmoved.frame, .inl ⟨rfl, hdir, w, hwaited, by rw [List.append_assoc]; exact hmoved.wire⟩⟩
    · obtain rfl := hv.done hcv
      exact ⟨hmoved.frame, .inr ⟨herror, w, hcut, hmoved.wire⟩⟩

/-! ## readMemory -/

section ReadMemory
variable {s t u : State} {a : Word} {len : Word16}

/-- What `readMemory` sends between its wait and its bulk load (43_nvm R250). -/
def readSetupBytes (c : Config) (a : Word) : List Byte :=
  stsBytes c (nvmAddress c .cmd) (nvmCode c .readNvm) ++ pointerBytes c a

theorem sendTasks_readSetup (c : Config) (a : Word) :
    SendTasks c [.run (.writeCommand .readNvm), .run (.storePointerAutoAddr .direct a)] (readSetupBytes c a) :=
  .writeCommand .readNvm (List.append_nil (pointerBytes c a) ▸ .storePointerAutoAddr a .nil)

/-- What `readMemory` of some bytes does. -/
def readMemoryTasks (a : Word) (len : Word16) : List Task :=
  .run .waitWhileBusy :: ([.run (.writeCommand .readNvm), .run (.storePointerAutoAddr .direct a)] ++
    [.run (.bulkLoad .autoInc len)])

theorem opBody_readMemory (s : State) (a : Word) (h0 : len ≠ 0) :
    opBody s (.readMemory a len) = .tasks (readMemoryTasks a len) := congrArg Body.tasks (if_neg h0)

/-- All of its bytes after the wait. -/
def readMemoryBytes (c : Config) (a : Word) (len : Word16) : List Byte :=
  readSetupBytes c a ++ bulkLoadBytes c .autoInc len.toNat

/-- Every run of `readMemory` of some bytes: the replies of its bulk load, or a link error in the wait or in the load. -/
theorem readMemoryTasks_passes (h : Returns s u) (hc : s.control = readMemoryTasks a len) (hd : s.dir ≠ none) :
    (∃ w polls bs, WaitedOut s.cfg w ∧ Moved s (w ++ readMemoryBytes s.cfg a len) (polls ++ bs) u ∧
        ((bs.length = len.toNat ∧ u.ret = .ok (.bytes bs)) ∨ LinkError u.ret)) ∨
      CutInWait s [] u := by
  rcases (sendTasks_readSetup s.cfg a).passes_afterWait (List.cons_ne_nil _ _) h rfl hc hd with
    ⟨v, w, polls, hwaited, hmoved, -, hcv, hv⟩ | ⟨v, w, polls, hcut, hmoved, herror, hcv, hv⟩
  · have hcfg : v.cfg = s.cfg := hmoved.frame.1
    have hall {bs : List Byte} {z : State} (hload : Moved v (bulkLoadBytes v.cfg .autoInc len.toNat) bs z) :
        Moved s (w ++ readMemoryBytes s.cfg a len) (polls ++ bs) z := by
      have hmoved' := hmoved.trans hload
      rwa [hcfg, List.append_assoc] at hmoved'
    rcases bulkLoad_passes hv hcv (hmoved.ready hd) with
      ⟨z, bs, hload, hlength, hok, hcz, hz⟩ | ⟨z, bs, hload, -, herror, hcz, hz⟩
    · obtain rfl := hz.done hcz
      exact .inl ⟨w, polls, bs, hwaited, hall hload, .inl ⟨hlength, hok⟩⟩
    · obtain rfl := hz.done hcz
      exact .inl ⟨w, polls, bs, hwaited, hall hload, .inr herror⟩
  · exact .inr ⟨v, w, polls, hcut, hmoved, herror, hcv, hv⟩

/-- When the Platform answers at once, from RT in a programming session, it returns. -/
theorem Answered.readMemory_returns (ha : Answered s) (hlink : PromptLink s.cfg s.target t)
    (hc : t.control = readMemoryTasks a len) : ∃ u, Returns t u := by
  obtain ⟨v, T, hv, hcv, hleads⟩ := ha.waitsAndSends hlink (sendTasks_readSetup s.cfg a) hc
  obtain ⟨-, -, -, -, hn, -⟩ := ha
  have hstarted := hleads.next hcv (opStart_tasks (s := { v with control := [] })
    (opRefusal_none hv.ready nofun nofun nofun) rfl)
  obtain ⟨u, hu⟩ := Leads.bulkLoad (s := State.push { v with control := [] } (bulkLoadBody v.cfg .autoInc len))
    (List.append_nil _) hv.ready hv.prompt (by rwa [State.push_cfg, hv.cfg])
  exact ⟨u, hstarted u hu⟩

end ReadMemory

/-- Settles O37: the wait and the setup as in O36, then the bulk load, whose replies are the result. -/
theorem readMemoryReadsThroughThePointer : Obligations.ReadMemoryReadsThroughThePointer := by
  intro s a len ⟨hc, hd⟩
  by_cases h0 : len = 0
  · subst h0
    obtain ⟨hcall, -⟩ := call_taken (o := .readMemory a 0) (src := []) hc rfl le_rfl
      (opRefusal_none hd nofun nofun nofun) rfl
    refine ⟨_, hcall, fun _ => ((Leads.refl _).next rfl rfl).returns rfl, fun u hret => ?_⟩
    obtain rfl := (hret.next rfl rfl).done rfl
    exact ⟨CoreFrame.refl s, fun _ => ⟨rfl, rfl⟩, fun h => absurd rfl h⟩
  obtain ⟨hcall, -⟩ := call_taken (o := .readMemory a len) (src := []) hc rfl le_rfl
    (opRefusal_none hd nofun nofun nofun) (opBody_readMemory _ a h0)
  refine ⟨_, hcall, fun ha => ha.readMemory_returns ((ha.promptLink hd rfl []).setControl _) rfl, fun u hret => ?_⟩
  rcases readMemoryTasks_passes hret rfl hd with
    ⟨w, polls, bs, hwaited, hmoved, hends⟩ | ⟨v, w, polls, hcut, hmoved, herror, hcv, hv⟩
  · have hwire : u.wire = s.wire ++ w ++ readMemoryBytes s.cfg a len := by
      rw [List.append_assoc]
      exact hmoved.wire
    refine ⟨hmoved.frame, fun h => absurd h h0, fun _ => ?_⟩
    rcases hends with ⟨hlength, hok⟩ | herror
    · obtain ⟨new, hnew, -, hreads⟩ := hmoved.events hret.1
      exact .inl ⟨new, polls, bs, w, hnew, hreads, hlength, hok, hwaited, hwire⟩
    · exact .inr ⟨herror, .inr ⟨w, hwaited, hwire⟩⟩
  · obtain rfl := hv.done hcv
    exact ⟨hmoved.frame, fun h => absurd h h0, fun _ => .inr ⟨herror, .inl ⟨w, hcut, hmoved.wire⟩⟩⟩

end Sys2Proof.Machine
end

section
/-!
44_flash_fuse R276, 45_target_contract R325, R326: the target of a programming session, the reference target in reset
and keyed, stays one under the bytes of the page sequences, whatever addresses they go to, but for a store to NVM
STATUS.
-/

namespace Sys2Proof.Machine

section Keyed
variable {t : Target} {c : Config}

/-! ## The NVM controller's commands -/

theorem Target.ReferenceKeyed.ite {p : Prop} [Decidable p] {u : Target} (ht : t.ReferenceKeyed)
    (hu : u.ReferenceKeyed) : (if p then t else u).ReferenceKeyed := by
  split
  · exact ht
  · exact hu

theorem Target.ReferenceKeyed.started (hT : t.ReferenceKeyed) : t.started.ReferenceKeyed := by
  rwa [Target.started_reference hT.1]

theorem Target.ReferenceKeyed.unstated (hT : t.ReferenceKeyed) : t.unstated.ReferenceKeyed := hT

theorem Target.ReferenceKeyed.chipErase (hT : t.ReferenceKeyed) : (t.chipErase c).ReferenceKeyed := by
  simp only [Target.chipErase, hT.1]
  exact ⟨rfl, hT.2⟩

theorem Target.ReferenceKeyed.eraseBuffer (hT : t.ReferenceKeyed) : t.eraseBuffer.ReferenceKeyed := by
  simp only [Target.eraseBuffer, hT.1]
  exact ⟨rfl, hT.2⟩

theorem Target.ReferenceKeyed.eraseSection (hT : t.ReferenceKeyed) (base : Word) (size : Nat) :
    (t.eraseSection base size).ReferenceKeyed := by
  simp only [Target.eraseSection, hT.1]
  exact ⟨rfl, hT.2⟩

theorem Target.ReferenceKeyed.triggerSection (hT : t.ReferenceKeyed) (a base : Word) (size : Nat) :
    (t.triggerSection a base size).ReferenceKeyed := by
  simp only [Target.triggerSection, hT.1]
  exact hT.eraseSection base size

theorem Target.ReferenceKeyed.erasePage (hT : t.ReferenceKeyed) (a : Nat) : (t.erasePage c a).ReferenceKeyed := by
  simp only [Target.erasePage, hT.1]
  exact ⟨rfl, hT.2⟩

theorem Target.ReferenceKeyed.writePage (hT : t.ReferenceKeyed) (pre : Bool) (a : Nat) :
    (t.writePage c pre a).ReferenceKeyed := by
  simp only [Target.writePage, hT.1]
  exact ⟨rfl, hT.2⟩

theorem Target.ReferenceKeyed.writeFuse (hT : t.ReferenceKeyed) (a : Word) (d : Byte) :
    (t.writeFuse a d).ReferenceKeyed := by
  simp only [Target.writeFuse, hT.1]
  exact ⟨rfl, hT.2⟩

theorem Target.ReferenceKeyed.runCommand (hT : t.ReferenceKeyed) : (t.runCommand c).ReferenceKeyed :=
  Target.ReferenceKeyed.started <| .ite hT.chipErase <| .ite hT.eraseBuffer <| .ite (hT.eraseSection _ _) <|
    .ite (hT.eraseSection _ _) <| .ite hT hT.unstated

theorem Target.ReferenceKeyed.trigger (hT : t.ReferenceKeyed) (a : Word) (d : Byte) :
    (t.trigger c a d).ReferenceKeyed :=
  Target.ReferenceKeyed.started <| .ite (.ite (hT.erasePage _) hT.unstated) <|
    .ite (.ite (hT.writePage _ _) hT.unstated) <| .ite (.ite (hT.writePage _ _) hT.unstated) <|
    .ite (hT.triggerSection _ _ _) <| .ite (hT.triggerSection _ _ _) <|
    .ite (.ite (hT.writeFuse _ _) hT.unstated) hT.unstated

/-! ## Stores -/

/-- An STS that is no store to NVM STATUS, which alone loses RT (45 R325; entry 48). -/
theorem Target.ReferenceKeyed.storeDirect (hT : t.ReferenceKeyed) {a : Word}
    (ha : a = nvmAddress c .cmd ∨ a = nvmAddress c .ctrlA ∨ a ≠ nvmAddress c .status) (d : Byte) :
    (t.storeDirect c a d).ReferenceKeyed := by
  have hidle := Target.nvmIdle_reference hT.1
  by_cases hcmd : a = nvmAddress c .cmd
  · rw [hcmd, Target.storeDirect_cmd, if_pos hidle]
    exact hT
  by_cases hctrl : a = nvmAddress c .ctrlA
  · rw [Target.storeDirect, Target.storeRegister, if_neg hcmd, if_pos hctrl, hidle, Bool.not_true,
      if_neg Bool.false_ne_true]
    refine .ite (Target.ReferenceKeyed.runCommand (t := { t with ctrlA := d }) hT) ?_
    rw [hT.1]
    exact hT
  · have hstatus : a ≠ nvmAddress c .status := (ha.resolve_left hcmd).resolve_left hctrl
    rw [Target.storeDirect, t.storeRegister_none c ⟨hcmd, hctrl, hstatus⟩, hidle]
    exact .ite (hT.trigger a d) hT

variable (hdec : Decodable c)
include hdec

theorem Target.ReferenceKeyed.receiveAll_sts (hT : t.ReferenceKeyed) {a : Word}
    (ha : a = nvmAddress c .cmd ∨ a = nvmAddress c .ctrlA ∨ a ≠ nvmAddress c .status) (d : Byte) :
    (t.receiveAll c (stsBytes c a d)).ReferenceKeyed := by
  have ⟨_, hw, _⟩ := hT
  rw [hw.receiveAll_sts hdec, Target.execute_sts, hw.unrepeated]
  exact hT.storeDirect ha d

/-- A command, and the store that starts it. -/
theorem Target.ReferenceKeyed.receiveAll_command (hT : t.ReferenceKeyed) (k : NvmCommand) {a : Word}
    (ha : a = nvmAddress c .ctrlA ∨ a ≠ nvmAddress c .status) (d : Byte) :
    (t.receiveAll c (stsBytes c (nvmAddress c .cmd) (nvmCode c k) ++ stsBytes c a d)).ReferenceKeyed := by
  rw [Target.receiveAll_append]
  exact (hT.receiveAll_sts hdec (.inl rfl) _).receiveAll_sts hdec (.inr ha) d

end Keyed

/-! ## The data of a page (45 R312, R322) -/

/-- RT in a programming session under LoadFlashPageBuffer, amid a repeated ST_INC: the opcode has come, and `n` more
data bytes belong to it after the next. -/
def Target.TakesData (c : Config) (n : Nat) (t : Target) : Prop :=
  ({ t with rep := 0, repeated := false, pending := [] } : Target).ReferenceKeyed ∧
    t.cmd = nvmCode c .loadFlashPageBuffer ∧ t.pending = [stOpcode c .autoInc] ∧ t.rep = BitVec.ofNat 16 n

section Data
variable {t : Target} {c : Config}

/-- One load of RT's page buffer, wherever the pointer is. -/
theorem Target.storePointer_fills (hkind : t.kind = .reference) (hcmd : t.cmd = nvmCode c .loadFlashPageBuffer)
    (d : Byte) : ∃ buf ptr fresh, t.storePointer c .autoInc d = { t with buf := buf, ptr := ptr, fresh := fresh } := by
  obtain ⟨ptr, fresh, hafter⟩ :=
    ({ t with buf := t.buf.write (t.ptr.toNat % c.pageSize) d } : Target).afterAccess_keeps .autoInc
  refine ⟨t.buf.write (t.ptr.toNat % c.pageSize) d, ptr, fresh, ?_⟩
  rw [t.storePointer_loads c hcmd (Target.nvmReady_reference hkind), ← hafter]
  simp only [Target.loadBuffer, Target.loadStarted, hkind]

variable (hdec : Decodable c)
include hdec

/-- A data byte is stored, and counted off the repeat. -/
theorem Target.TakesData.receive_eq {n : Nat} (h : t.TakesData c n) (d : Byte) :
    ∃ buf ptr fresh, t.receive c d =
      if t.rep = 0 then
        { t with buf := buf, ptr := ptr, fresh := fresh, pending := [], repeated := false }
      else
        { t with buf := buf, ptr := ptr, fresh := fresh, rep := t.rep - 1 } := by
  obtain ⟨⟨hkind, ⟨hlost, -⟩, -⟩, hcmd, hpending, -⟩ := h
  have hlost : t.lost = false := hlost
  obtain ⟨buf, ptr, fresh, hstored⟩ :=
    Target.storePointer_fills (t := { t with pending := [] }) hkind hcmd d
  refine ⟨buf, ptr, fresh, ?_⟩
  rw [Target.receive_ok hlost (by rw [hpending]; exact hdec.decodePdi_stInc d), Target.execute_stInc,
    Target.repeatedStore, hstored]
  simp [hlost, ← hpending]

theorem Target.TakesData.receive_last (h : t.TakesData c 0) (d : Byte) : (t.receive c d).ReferenceKeyed := by
  obtain ⟨buf, ptr, fresh, hreceived⟩ := h.receive_eq hdec d
  obtain ⟨hkeyed, -, -, hrep⟩ := h
  have hlast : t.rep = 0 := hrep
  rw [hreceived, if_pos hlast]
  rw [← hlast] at hkeyed
  exact hkeyed

theorem Target.TakesData.receive {n : Nat} (hn : n + 1 < 65536) (h : t.TakesData c (n + 1)) (d : Byte) :
    (t.receive c d).TakesData c n := by
  obtain ⟨buf, ptr, fresh, hreceived⟩ := h.receive_eq hdec d
  obtain ⟨hkeyed, hcmd, hpending, hrep⟩ := h
  have hmore : t.rep ≠ 0 := by
    rw [hrep, ← BitVec.toNat_inj.ne, BitVec.toNat_ofNat, Nat.mod_eq_of_lt hn]
    exact Nat.succ_ne_zero n
  have hcount : t.rep - 1 = BitVec.ofNat 16 n := by
    rw [hrep, BitVec.ofNat_add]
    exact BitVec.add_sub_cancel _ _
  rw [hreceived, if_neg hmore]
  exact ⟨hkeyed, hcmd, hpending, hcount⟩

theorem Target.TakesData.receiveAll {ds : List Byte} (hlen : ds.length < 65536) (h : t.TakesData c ds.length)
    (d : Byte) : (t.receiveAll c (d :: ds)).ReferenceKeyed := by
  induction ds generalizing t d with
  | nil => exact h.receive_last hdec d
  | cons d' ds ih => exact ih (Nat.lt_of_succ_lt hlen) (h.receive hdec hlen d) d'

/-- `bulkStore` of at most one REPEAT of data under LoadFlashPageBuffer (41_encoder R178). -/
theorem Target.ReferenceKeyed.receiveAll_bulkStore (hT : t.ReferenceKeyed)
    (hcmd : t.cmd = nvmCode c .loadFlashPageBuffer) {ds : List Byte} (hlen : ds.length ≤ 65536) :
    (t.receiveAll c (bulkStoreBytes c .autoInc ds)).ReferenceKeyed := by
  cases ds with
  | nil => exact hT
  | cons d ds =>
    obtain ⟨hkind, hw, hrest⟩ := hT
    obtain ⟨r, hrepeat⟩ := hw.receiveAll_repeat hdec (n := ds.length)
    obtain ⟨hlost, hpending, -, -, hhandFed⟩ := hw
    have hopcode := Target.receive_stOpcode (t := { t with rep := BitVec.ofNat 16 ds.length, repeated := r })
      hdec hlost hpending
    rw [bulkStoreBytes, if_neg (List.cons_ne_nil d ds), Target.receiveAll_append, List.length_cons, hrepeat,
      Target.receiveAll_cons, hopcode]
    exact Target.TakesData.receiveAll
      (t := { t with rep := BitVec.ofNat 16 ds.length, repeated := r, pending := [stOpcode c .autoInc] })
      hdec (Nat.lt_of_succ_le hlen) ⟨⟨hkind, ⟨hlost, rfl, rfl, rfl, hhandFed⟩, hrest⟩, hcmd, rfl, rfl⟩ d

/-- The wire bytes of `writeBuffer` after its wait (44_flash_fuse R276). -/
theorem Target.ReferenceKeyed.receiveAll_loadBuffer (hT : t.ReferenceKeyed) (a : Word) {ds : List Byte}
    (hlen : ds.length ≤ 65536) : (t.receiveAll c (loadBufferBytes c a ds)).ReferenceKeyed := by
  have ⟨hkind, hw, _⟩ := hT
  have hselected : ({ t with cmd := nvmCode c .loadFlashPageBuffer } : Target).Waiting := hw
  have hpointed :
      ({ t with cmd := nvmCode c .loadFlashPageBuffer, ptr := a, bufRun := none } : Target).ReferenceKeyed := hT
  rw [loadBufferBytes, Target.receiveAll_append, Target.receiveAll_append, hw.receiveAll_select hkind hdec,
    hselected.receiveAll_pointer hdec]
  exact hpointed.receiveAll_bulkStore hdec rfl hlen

end Data

end Sys2Proof.Machine
end

section
/-!
44_flash_fuse R275, R276, R278, R279: the page operations in a programming session with RT, where the Platform answers
at once. A wait keeps the data source, since what it does alone it does before other tasks; so an operation that pulls
data comes to its end with Ok, and the session goes on (`Feeding`).
-/

namespace Sys2Proof.Machine

/-! ## Tasks before others -/

/-- What tasks do alone up to a result that is no error, they do before other tasks. -/
theorem Returns.before {s m : State} (h : Returns s m) (hok : ∀ e, m.ret ≠ .err e) (bs : List Task) :
    Runs { s with control := s.control ++ bs } { m with control := bs } := by
  obtain ⟨hruns, hdone⟩ := h
  induction hruns with
  | refl s => rw [hdone]; exact .refl _
  | @step s s' m busy hstep hrest ih =>
    obtain ⟨k, as, hc⟩ := List.exists_cons_of_ne_nil busy
    rw [step_task hc] at hstep
    have hbefore {w : State} (hperform : perform k { s with control := as ++ bs } = .next w)
        (hw : w = { s' with control := s'.control ++ bs }) :
        Runs { s with control := s.control ++ bs } { m with control := bs } :=
      (Runs.task (s := { s with control := s.control ++ bs }) (ts := as ++ bs) (by simp [hc]) hperform).trans
        (hw ▸ ih hok hdone)
    cases task_effect k s with
    | continues v new performed _ =>
      obtain rfl := Host.Outcome.next.inj ((performed as).symm.trans hstep)
      exact hbefore (performed _) (by simp)
    | fails v e performed _ =>
      obtain rfl := Host.Outcome.next.inj ((performed as).symm.trans hstep)
      by_cases hcaught : unwind as = []
      · obtain rfl := Returns.done ⟨hrest, hdone⟩ hcaught
        exact absurd rfl (hok e)
      · exact hbefore (performed _) (by simp [State.raise, unwind_append_eq, hcaught])
    | refused r performed => cases (performed as).symm.trans hstep

theorem Runs.leads {s v : State} (h : Runs s v) : Leads s v := fun _ hu => ⟨h.trans hu.1, hu.2⟩

/-! ## The session while data is pulled -/

/-- The machine and its Platform are in a programming session with RT under the configuration `c`, and the caller's
bytes still to be pulled are `ds`. -/
structure Feeding (c : Config) (ds : List Byte) (s : State) : Prop where
  answered : Answered s
  ready : s.dir ≠ none
  cfg : s.cfg = c
  source : s.source = .bytes ds

section Running
variable {c : Config} {T : Target} {s t v : State} {ts as : List Task} {ds ds' bs : List Byte} {o : Op}

theorem Feeding.link (h : Feeding c ds t) : PromptLink c t.target t := by
  obtain ⟨hprompt, hconnected, -⟩ := h.answered
  exact ⟨hprompt, hconnected, h.ready, h.cfg, rfl⟩

theorem Feeding.keyed (h : Feeding c ds t) : t.target.ReferenceKeyed := by
  obtain ⟨-, -, hT, -⟩ := h.answered
  exact hT

theorem Feeding.decodable (h : Feeding c ds t) : Decodable c := by
  obtain ⟨-, -, -, hdec, -⟩ := h.answered
  exact h.cfg ▸ hdec

/-- The session goes on where the target has stayed the one of a session. -/
theorem Feeding.of_link (h : Feeding c ds t) (hlink : PromptLink c T v) (hT : T.ReferenceKeyed)
    (hsource : v.source = .bytes ds') : Feeding c ds' v := by
  obtain ⟨⟨-, -, -, hconfig⟩, -, hcfg, -⟩ := h
  obtain ⟨hprompt, hconnected, hready, hcfgv, rfl⟩ := hlink
  rw [hcfg, ← hcfgv] at hconfig
  exact ⟨⟨hprompt, hconnected, hT, hconfig⟩, hready, hcfgv, hsource⟩

theorem Feeding.setControl (h : Feeding c ds t) (cs : List Task) : Feeding c ds { t with control := cs } :=
  ⟨h.answered, h.ready, h.cfg, h.source⟩

theorem Feeding.finish (h : Feeding c ds t) (cs : List Task) (r : Return) :
    Feeding c ds { t with control := cs, ret := r } :=
  ⟨h.answered, h.ready, h.cfg, h.source⟩

theorem PromptLink.sent (ha : PromptLink c T t) (h : Sent t bs v) (hp : Prompt v) :
    PromptLink c (T.receiveAll c bs) v := by
  refine ⟨hp, h.connected ha.connected, h.dir_ne ha.ready, h.frame.1.trans ha.cfg, ?_⟩
  rw [h.target ha.connected, ha.target, ha.cfg]

/-- An operation that is not refused comes to its body. -/
theorem Leads.call {body : List Task} (hc : t.control = .run o :: ts) (hr : opRefusal t o = none)
    (hb : opBody t o = .tasks body) : Leads t { t with control := body ++ ts } := fun _ hu =>
  Returns.cons hc (opStart_tasks (s := { t with control := ts }) (by rw [← hr]; cases o <;> rfl)
    (by rw [← hb]; cases o <;> rfl)) hu

theorem Feeding.call {body : List Task} (h : Feeding c ds t) (hc : t.control = .run o :: ts)
    (hr : opRefusal t o = none) (hb : opBody t o = .tasks body) :
    ∃ v, Feeding c ds v ∧ v.control = body ++ ts ∧ Leads t v :=
  ⟨_, h.setControl (body ++ ts), rfl, .call hc hr hb⟩

/-- `waitWhileBusy` in a session. -/
theorem Feeding.waits (h : Feeding c ds t) (hc : t.control = .run .waitWhileBusy :: ts) :
    ∃ v, Feeding c ds v ∧ v.ret = .ok .unit ∧ v.control = ts ∧ Leads t v := by
  obtain ⟨-, -, hT, hdec, hn, h0, -⟩ := h.answered
  rw [h.cfg] at hdec hn h0
  obtain ⟨v, hv, hok, hcv, hleads⟩ := PromptLink.waits (ts := []) hT hdec hn
    (h.link.setControl [.run .waitWhileBusy]) (.refl _) h0 rfl
  have hreturns : Returns { t with control := [.run .waitWhileBusy] } v := hleads v (.refl hcv)
  have hsource : v.source = t.source := by
    rcases waitWhileBusy_passes hreturns rfl h.ready with
      ⟨w, _, _, hwaited, hcw, hw⟩ | ⟨w, _, _, -, -, herror, hcw, hw⟩
    · exact hw.done hcw ▸ hwaited.moved.source
    · rw [← hw.done hcw, hok] at herror
      rcases herror with he | he <;> cases he
  have hruns : Runs { t with control := .run .waitWhileBusy :: ts } { v with control := ts } :=
    hreturns.before (by simp [hok]) ts
  rw [← hc] at hruns
  exact ⟨_, (h.of_link hv hT (hsource.trans h.source)).setControl ts, hok, rfl, hruns.leads⟩

/-- Tasks that send: the target receives their bytes, and no data is pulled. -/
theorem Feeding.sends (h : Feeding c ds t) (hsend : SendTasks c as bs) (hc : t.control = as ++ ts) :
    ∃ v, PromptLink c (t.target.receiveAll c bs) v ∧ v.source = .bytes ds ∧ v.control = ts ∧ Leads t v := by
  obtain ⟨v, hsent, hp, hcv, hleads⟩ := hsend.leads h.cfg (.refl t) hc h.ready h.link.prompt
  exact ⟨v, h.link.sent hsent hp, hsent.source.trans h.source, hcv, hleads⟩

/-- An operation that waits and then sends; where RT stays the target of a session, the session goes on. -/
theorem Feeding.waitsThenSends (h : Feeding c ds t) (ho : WaitsThenSends c o bs) (hc : t.control = .run o :: ts) :
    ∃ v, v.ret = .ok .unit ∧ v.control = ts ∧ Leads t v ∧
      ((∀ T : Target, T.ReferenceKeyed → (T.receiveAll c bs).ReferenceKeyed) → Feeding c ds v) := by
  obtain ⟨as, hsend, hbody⟩ := ho.body
  obtain ⟨b, hb, hcb, hcalled⟩ := h.call hc (ho.taken t h.ready) (hbody t h.cfg)
  obtain ⟨v, hv, -, hcv, hwaits⟩ := hb.waits hcb
  obtain ⟨w, hw, hsource, hcw, hsends⟩ := hv.sends (ts := .finish (.ok .unit) :: ts) hsend (by simp [hcv])
  refine ⟨{ w with control := ts, ret := .ok .unit }, rfl, rfl,
    ((hcalled.trans hwaits).trans hsends).next hcw rfl, fun hkeeps => ?_⟩
  exact (hv.of_link hw (hkeeps _ hv.keyed) hsource).finish _ _

/-! ## The data -/

theorem PromptLink.pulled (ha : PromptLink c T t) (d : Byte) (src : ByteSource) (cs : List Task) :
    PromptLink c T { t with control := cs, source := src, platform := t.platform.record (.pull d) } :=
  ⟨ha.prompt, ha.connected, ha.ready, ha.cfg, ha.target⟩

/-- One pull off the caller's bytes. -/
theorem perform_store {n : Nat} {d : Byte} (hs : s.source = .bytes (d :: ds)) :
    perform (.store (n + 1)) s =
      .next { s with
        control := .run (.send d) :: .store n :: s.control, source := .bytes ds
        platform := s.platform.record (.pull d) } := by
  simp [perform, performStore, hs, State.push]

/-- The pull loop, with the target that receives the data. -/
theorem PromptLink.stores {n : Nat} (ha : PromptLink c T t) (hc : t.control = .store n :: ts)
    (hs : t.source = .bytes ds) (hlen : n ≤ ds.length) :
    ∃ v, PromptLink c (T.receiveAll c (ds.take n)) v ∧ v.source = .bytes (ds.drop n) ∧ v.control = ts ∧ Leads t v := by
  induction n generalizing t T ds with
  | zero => exact ⟨_, ha.setControl ts, hs, rfl, (Leads.refl t).next hc rfl⟩
  | succ n ih =>
    obtain ⟨d, ds, rfl⟩ := List.exists_cons_of_length_pos (Nat.zero_lt_of_lt hlen)
    have hpulled := ha.pulled d (.bytes ds) (.run (.send d) :: .store n :: ts)
    have hpull := (Leads.refl t).next hc (perform_store (s := { t with control := ts }) (n := n) hs)
    obtain ⟨v, hsent, hp, hcv, hv⟩ := hpull.send rfl ha.ready ha.prompt
    obtain ⟨w, hw, hsource, hcw, hleads⟩ := ih (hpulled.sent hsent hp) hcv hsent.source (Nat.le_of_succ_le_succ hlen)
    exact ⟨w, hw, hsource, hcw, hv.trans hleads⟩

/-- `bulkStore` (41_encoder R178), with the target that receives its bytes. -/
theorem PromptLink.bulkStores {m : PtrMode} {len : Nat} (ha : PromptLink c T t)
    (hc : t.control = .run (.bulkStore m len) :: ts) (hs : t.source = .bytes ds) (hlen : len ≤ ds.length) :
    ∃ v, PromptLink c (T.receiveAll c (bulkStoreBytes c m (ds.take len))) v ∧ v.source = .bytes (ds.drop len) ∧
      v.ret = .ok .unit ∧ v.control = ts ∧ Leads t v := by
  have hcalled := Leads.call (body := bulkStoreBody c m len) hc (opRefusal_none ha.ready nofun nofun nofun)
    (ha.cfg ▸ rfl)
  have hfinish {w : State} {T' : Target} (hw : PromptLink c T' w) :
      PromptLink c T' { w with control := ts, ret := .ok .unit } :=
    ⟨hw.prompt, hw.connected, hw.ready, hw.cfg, hw.target⟩
  by_cases h0 : len = 0
  · subst h0
    exact ⟨{ t with control := ts, ret := .ok .unit }, by simpa [bulkStoreBytes] using hfinish ha, hs, rfl, rfl,
      hcalled.next rfl rfl⟩
  · obtain ⟨as, hsend, hbody⟩ := bulkStoreBody_eq c m h0
    have hbegun := ha.setControl (bulkStoreBody c m len ++ ts)
    obtain ⟨v, hsent, hp, hcv, hv⟩ := hsend.leads (rest := .store len :: .finish (.ok .unit) :: ts) hbegun.cfg hcalled
      (by simp [hbody]) hbegun.ready hbegun.prompt
    obtain ⟨w, hw, hsource, hcw, hleads⟩ := (hbegun.sent hsent hp).stores hcv (hsent.source.trans hs) hlen
    have hbytes := bulkStoreBytes_eq c m (ds := ds.take len) (List.ne_nil_of_length_pos (by simp; omega))
    rw [List.length_take_of_le hlen] at hbytes
    refine ⟨{ w with control := ts, ret := .ok .unit }, ?_, hsource, rfl, rfl, (hv.trans hleads).next hcw rfl⟩
    rw [hbytes, Target.receiveAll_append]
    exact hfinish hw

/-! ## The operations of a page -/

variable {off : Word} {sec : FlashSection} {pre : Bool} {len : Nat}

theorem opBody_writeBuffer (hl : len ≤ s.cfg.pageSize) :
    opBody s (.writeBuffer off len sec) =
      .tasks (.run .waitWhileBusy :: ([.run (.writeCommand .loadFlashPageBuffer),
        .run (.storePointerAutoAddr .direct (realAddress s.cfg off sec))] ++ [.run (.bulkStore .autoInc len)])) :=
  if_neg (Nat.not_lt.2 hl)

/-- What `writeBuffer` does after its wait and before its bulk store (44_flash_fuse R276). -/
theorem sendTasks_bufferSetup (c : Config) (a : Word) :
    SendTasks c [.run (.writeCommand .loadFlashPageBuffer), .run (.storePointerAutoAddr .direct a)]
      (stsBytes c (nvmAddress c .cmd) (nvmCode c .loadFlashPageBuffer) ++ pointerBytes c a) :=
  .writeCommand .loadFlashPageBuffer (List.append_nil (pointerBytes c a) ▸ .storePointerAutoAddr a .nil)

theorem Feeding.writeBuffer (h : Feeding c ds t) (hc : t.control = .run (.writeBuffer off len sec) :: ts)
    (hl : len ≤ c.pageSize) (hwide : len ≤ 65536) (hlen : len ≤ ds.length) :
    ∃ v, Feeding c (ds.drop len) v ∧ v.ret = .ok .unit ∧ v.control = ts ∧ Leads t v := by
  obtain ⟨b, hb, hcb, hcalled⟩ := h.call hc (opRefusal_none h.ready nofun nofun nofun)
    (opBody_writeBuffer (h.cfg ▸ hl))
  obtain ⟨v, hv, -, hcv, hwaits⟩ := hb.waits hcb
  obtain ⟨w, hw, hsource, hcw, hsends⟩ := hv.sends (ts := .run (.bulkStore .autoInc len) :: ts)
    (sendTasks_bufferSetup c (realAddress c off sec)) (by simp [hcv, h.cfg])
  obtain ⟨z, hz, hsource', hok, hcz, hstores⟩ := hw.bulkStores hcw hsource hlen
  rw [← Target.receiveAll_append, List.append_assoc] at hz
  have hkeyed := hv.keyed.receiveAll_loadBuffer h.decodable (realAddress c off sec) (ds := ds.take len)
    (by rwa [List.length_take_of_le hlen])
  exact ⟨z, hv.of_link hz hkeyed hsource', hok, hcz, ((hcalled.trans hwaits).trans hsends).trans hstores⟩

/-- `writePage` of a length the page holds; the session goes on where the commit is no store to NVM STATUS. -/
theorem Feeding.writePage (h : Feeding c ds t) (hc : t.control = .run (.writePage off len pre sec) :: ts)
    (hl : len ≤ c.pageSize) (hwide : len ≤ 65536) (hlen : len ≤ ds.length) :
    ∃ v, v.ret = .ok .unit ∧ v.control = ts ∧ Leads t v ∧
      (realAddress c off sec ≠ nvmAddress c .status → Feeding c (ds.drop len) v) := by
  obtain ⟨b, hb, hcb, hcalled⟩ := h.call hc (opRefusal_none h.ready nofun nofun nofun) rfl
  obtain ⟨v, -, hcv, herase, hv⟩ := hb.waitsThenSends (commandBytes_waitsThenSends (o := .eraseBuffer) rfl) hcb
  have hv := hv fun T hT => hT.receiveAll_command h.decodable _ (.inl rfl) _
  obtain ⟨w, hw, -, hcw, hload⟩ := hv.writeBuffer hcv hl hwide hlen
  obtain ⟨z, hok, hcz, hcommit, hz⟩ :=
    hw.waitsThenSends (commandBytes_waitsThenSends (o := .writePageFromBuffer off pre sec) rfl) hcw
  exact ⟨z, hok, hcz, ((hcalled.trans herase).trans hload).trans hcommit, fun hmiss =>
    hz fun T hT => hT.receiveAll_command h.decodable _ (.inr hmiss) _⟩

end Running

end Sys2Proof.Machine
end

section
/-!
44_flash_fuse R276, R279 to R281, 60_exceptions R366: the runs of `writeBuffer`, `writePage` and `write`. A run is taken
apart at its waits, where alone a link error can end it; `write` is followed chunk by chunk. Settles O39, O40 and O41.
-/

namespace Sys2Proof.Machine

/-! ## Runs from a caller's bytes -/

section Ends
variable {c : Config} {s t u : State} {ts : List Task} {ds bs : List Byte} {n : Nat} {o : Op}

theorem State.supply_bytes (h : s.source = .bytes ds) : s.supply = ds := by rw [State.supply, h]

/-- Pulling the caller's bytes leaves the host link alone, as everything else of the core's frame. -/
theorem Wrote.frame_bytes (h : Wrote s bs n t) (hs : s.source = .bytes ds) : CoreFrame s t := by
  obtain ⟨-, hhost⟩ := h.took.bytes ds hs
  have hframe := h.frame
  rwa [← hhost] at hframe

theorem Wrote.source_bytes (h : Wrote s bs n t) (hs : s.source = .bytes ds) : t.source = .bytes (ds.drop n) :=
  (h.took.bytes ds hs).1

/-- A wait whose link error nothing swallows ends the run. -/
theorem CutInWait.ends (h : CutInWait s ts u) (hts : unwind ts = []) :
    ∃ w polls, WaitCut s.cfg w ∧ Moved s w polls u ∧ LinkError u.ret := by
  obtain ⟨v, w, polls, hcut, hmoved, herror, hcv, hv⟩ := h
  obtain rfl := hv.done (hcv.trans hts)
  exact ⟨w, polls, hcut, hmoved, herror⟩

/-- Every run of an operation that waits and then sends, called by others. -/
theorem WaitsThenSends.passes (ho : WaitsThenSends c o bs) (h : Returns s u) (hcfg : s.cfg = c)
    (hc : s.control = .run o :: ts) (hd : s.dir ≠ none) : Commanded s bs ts u ∨ CutInWait s ts u := by
  obtain ⟨as, hsend, hbody⟩ := ho.body
  have hbegun := Moved.refl s (.run .waitWhileBusy :: (as ++ [.finish (.ok .unit)]) ++ ts)
  rcases hsend.passes_afterWait (rest := .finish (.ok .unit) :: ts) ho.sends
      (h.run hc (ho.taken s hd) (hbody s hcfg)) hcfg (by simp) hd with
    ⟨v, w, polls, hwaited, hmoved, hdir, hcv, hv⟩ | ⟨v, w, polls, hcut, hmoved, herror, hcv, hv⟩
  · exact .inl ⟨_, w, polls, hwaited, (hbegun.trans hmoved).finish ts (.ok .unit), rfl, hdir, rfl, hv.next hcv rfl⟩
  · exact .inr ⟨v, w, polls, hcut, hbegun.trans hmoved, herror, hcv, hv⟩

end Ends

/-! ## writeBuffer -/

/-- A call with the caller's bytes in a programming session with RT. -/
theorem Answered.feeding {s : State} (ha : Answered s) (hd : s.dir ≠ none) {o : Op}
    (hexit : exitsReset s.cfg o = false) (src : List Byte) : Feeding s.cfg src (s.calling o src) := by
  obtain ⟨hp, hconnected, hready, hcfg, htarget⟩ := ha.promptLink hd hexit src
  obtain ⟨-, -, hT, hconfig⟩ := ha
  exact ⟨⟨hp, hconnected, htarget ▸ hT, hconfig⟩, hready, hcfg, rfl⟩

/-- Settles O39: `writeBuffer_passes` takes the run apart. -/
theorem writeBufferLoadsThePageBuffer : Obligations.WriteBufferLoadsThePageBuffer := by
  intro s off sec len src ⟨hc, hd⟩ hl hwide hlen
  obtain ⟨hcall, hiff⟩ := call_taken (o := .writeBuffer off len sec) hc (decide_eq_true hwide) hlen
    (opRefusal_none hd nofun nofun nofun) (opBody_writeBuffer hl)
  refine ⟨_, hcall, fun ha => ?_, fun u hret => ?_⟩
  · obtain ⟨v, -, hok, hcv, hleads⟩ := (ha.feeding hd rfl src).writeBuffer rfl hl hwide.le hlen
    exact ⟨v, (hiff v).2 (hleads v (.refl hcv)), hok⟩
  · rcases writeBuffer_passes ((hiff u).1 hret) rfl hd hl with ⟨-, v, w, hwaited, hwrote, hok, hcv, hv⟩ | hcut
    · obtain rfl := hv.done hcv
      refine ⟨hwrote.frame_bytes rfl, .inl ⟨hok, hwrote.source_bytes rfl, w, hwaited, ?_⟩⟩
      rw [List.append_assoc]
      exact hwrote.wire
    · obtain ⟨w, polls, hcut, hmoved, herror⟩ := hcut.ends rfl
      exact ⟨hmoved.frame, .inr ⟨herror, hmoved.source, w, hcut, hmoved.wire⟩⟩

/-! ## writePage -/

section Page
variable {s u : State} {ts : List Task} {off : Word} {sec : FlashSection} {pre : Bool} {len : Nat}
  {src commit : List Byte}

/-- The part of `writePage` after `eraseBuffer`, with a length the page holds: load the buffer, then commit it. -/
theorem loadAndCommit_ends (h : Returns s u)
    (hc : s.control = [.run (.writeBuffer off len sec), .run (.writePageFromBuffer off pre sec)]) (hd : s.dir ≠ none)
    (hl : len ≤ s.cfg.pageSize) (hs : s.source = .bytes src)
    (hcommit : commandBytes s.cfg (.writePageFromBuffer off pre sec) = some commit) :
    CoreFrame s u ∧
      ((LinkError u.ret ∧ u.source = .bytes src ∧ ∃ w2, WaitCut s.cfg w2 ∧ u.wire = s.wire ++ w2) ∨
        ∃ w2, WaitedOut s.cfg w2 ∧ u.source = .bytes (src.drop len) ∧
          let loaded := s.wire ++ w2 ++ loadBufferBytes s.cfg (realAddress s.cfg off sec) (src.take len)
          (LinkError u.ret ∧ ∃ w3, WaitCut s.cfg w3 ∧ u.wire = loaded ++ w3) ∨
            (u.ret = .ok .unit ∧ ∃ w3, WaitedOut s.cfg w3 ∧ u.wire = loaded ++ w3 ++ commit)) := by
  rcases writeBuffer_passes h hc hd hl with ⟨-, v, w2, hwaited2, hwrote, -, hcv, hv⟩ | hcut
  · rw [State.supply_bytes hs] at hwrote
    have hframe := hwrote.frame_bytes hs
    have hsource := hwrote.source_bytes hs
    have hwire := hwrote.wire
    have hcfg : v.cfg = s.cfg := hframe.1
    rw [← List.append_assoc] at hwire
    rcases (commandBytes_waitsThenSends hcommit).passes hv hcfg hcv (hwrote.ready hd) with
      ⟨z, w3, polls, hwaited3, hmoved, hok, -, hcz, hz⟩ | hcut
    · obtain rfl := hz.done hcz
      refine ⟨hframe.trans hmoved.frame,
        .inr ⟨w2, hwaited2, hmoved.source.trans hsource, .inr ⟨hok, w3, hcfg ▸ hwaited3, ?_⟩⟩⟩
      rw [hmoved.wire, hwire, List.append_assoc _ w3]
    · obtain ⟨w3, polls, hcut3, hmoved, herror⟩ := hcut.ends rfl
      refine ⟨hframe.trans hmoved.frame,
        .inr ⟨w2, hwaited2, hmoved.source.trans hsource, .inl ⟨herror, w3, hcfg ▸ hcut3, ?_⟩⟩⟩
      rw [hmoved.wire, hwire]
  · obtain ⟨w2, polls, hcut2, hmoved, herror⟩ := hcut.ends rfl
    exact ⟨hmoved.frame, .inl ⟨herror, hmoved.source.trans hs, w2, hcut2, hmoved.wire⟩⟩

/-- A length above the page ends `writeBuffer` at once (60_exceptions R366). -/
theorem perform_writeBuffer_tooLong (hd : s.dir ≠ none) (hl : s.cfg.pageSize < len) :
    perform (.run (.writeBuffer off len sec)) s = .next (s.raise .invalidLength) := by
  have hbody : opBody s (.writeBuffer off len sec) = .fails .invalidLength := if_pos hl
  simp only [perform, opStart, opRefusal_none hd (o := .writeBuffer off len sec) nofun nofun nofun, hbody]

/-- In a programming session with RT `writePage` returns, whatever its length. -/
theorem Feeding.writePage_returns {c : Config} (h : Feeding c src s)
    (hc : s.control = [.run (.writePage off len pre sec)]) (hwide : len ≤ 65536) (hlen : len ≤ src.length) :
    ∃ u, Returns s u := by
  by_cases hl : len ≤ c.pageSize
  · obtain ⟨v, -, hcv, hleads, -⟩ := h.writePage hc hl hwide hlen
    exact hleads.returns hcv
  · obtain ⟨b, hb, hcb, hcalled⟩ := h.call hc (opRefusal_none h.ready nofun nofun nofun) rfl
    obtain ⟨v, -, hcv, hleads, hv⟩ := hb.waitsThenSends (commandBytes_waitsThenSends (o := .eraseBuffer) rfl) hcb
    have hv := hv fun T hT => hT.receiveAll_command h.decodable _ (.inl rfl) _
    have hlong : v.cfg.pageSize < len := hv.cfg ▸ Nat.lt_of_not_le hl
    exact ((hcalled.trans hleads).next hcv (perform_writeBuffer_tooLong hv.ready hlong)).returns rfl

end Page

/-- Settles O40: `eraseBuffer` is a wait and sends; a length above the page is found after it, and otherwise
`loadAndCommit_ends` takes the rest apart. -/
theorem writePageStopsAtTheFirstError : Obligations.WritePageStopsAtTheFirstError := by
  intro s off pre sec len src ⟨hc, hd⟩ hwide hlen
  obtain ⟨hcall, hiff⟩ := call_taken (o := .writePage off len pre sec) hc (decide_eq_true hwide) hlen
    (opRefusal_none hd nofun nofun nofun) rfl
  refine ⟨_, hcall, fun ha => ?_, fun u hret => ?_⟩
  · obtain ⟨v, hv⟩ := (ha.feeding hd rfl src).writePage_returns (off := off) (sec := sec) (pre := pre) rfl hwide.le hlen
    exact ⟨v, (hiff v).2 hv⟩
  · obtain ⟨erase, herase⟩ : ∃ erase, commandBytes s.cfg .eraseBuffer = some erase := ⟨_, rfl⟩
    obtain ⟨commit, hcommit⟩ : ∃ commit, commandBytes s.cfg (.writePageFromBuffer off pre sec) = some commit :=
      ⟨_, rfl⟩
    rcases (commandBytes_waitsThenSends herase).passes hret rfl rfl hd with
      ⟨v, w1, polls, hwaited1, hmoved, -, -, hcv, hv⟩ | hcut
    · have hcfg : v.cfg = s.cfg := hmoved.frame.1
      have hwire : v.wire = s.wire ++ w1 ++ erase := by rw [List.append_assoc]; exact hmoved.wire
      by_cases hl : len ≤ s.cfg.pageSize
      · obtain ⟨hframe, hends⟩ :=
          loadAndCommit_ends hv hcv (hmoved.ready hd) (hcfg ▸ hl) hmoved.source (hcfg ▸ hcommit)
        rw [hcfg, hwire] at hends
        exact ⟨hmoved.frame.trans hframe, erase, commit, herase, hcommit,
          .inr ⟨w1, hwaited1, fun h => absurd hl (Nat.not_le.2 h), fun _ => hends⟩⟩
      · have hlong : v.cfg.pageSize < len := hcfg ▸ Nat.lt_of_not_le hl
        obtain rfl := (hv.next hcv (perform_writeBuffer_tooLong (hmoved.ready hd) hlong)).done rfl
        exact ⟨hmoved.frame, erase, commit, herase, hcommit,
          .inr ⟨w1, hwaited1, fun _ => ⟨rfl, hmoved.source, hwire⟩, fun h => absurd h hl⟩⟩
    · obtain ⟨w, polls, hcut, hmoved, herror⟩ := hcut.ends rfl
      exact ⟨hmoved.frame, erase, commit, herase, hcommit,
        .inl ⟨herror, hmoved.source, w, hcut, hmoved.wire⟩⟩

end Sys2Proof.Machine
end

section
/-!
44_flash_fuse R280, R281: `write` sends one page sequence for each chunk. Settles O41.
-/

namespace Sys2Proof.Machine

/-! ## Chunks -/

section Chunks
variable {c : Config} {off : Word} {sec : FlashSection} {pre : Bool} {n : Nat} {ds bs page : List Byte}

/-- `ceil(len / PAGE_SIZE)` counts one chunk and those of the bytes after it (44_flash_fuse R281). -/
theorem pages_after_chunk {len size : Nat} (hlen : 0 < len) (hsize : 0 < size) :
    (len + size - 1) / size = (len - min len size + size - 1) / size + 1 := by
  rcases Nat.le_total len size with hle | hle
  · have hnone : (size - 1) / size = 0 := Nat.div_eq_of_lt (by omega)
    have hone : (len - 1) / size = 0 := Nat.div_eq_of_lt (by omega)
    rw [Nat.min_eq_left hle, Nat.sub_self, Nat.zero_add, hnone, ← hone, ← Nat.add_div_right _ hsize]
    congr 1
    omega
  · rw [Nat.min_eq_right hle, ← Nat.add_div_right _ hsize]
    congr 1
    omega

theorem PagesWritten.nil (hsize : 0 < c.pageSize) : PagesWritten c off pre sec [] [] :=
  ⟨[], by simp [Nat.div_eq_of_lt (Nat.sub_lt hsize Nat.one_pos)], rfl, nofun⟩

/-- The page sequence of the first chunk goes before those of the others. -/
theorem PagesWritten.cons (hsize : 0 < c.pageSize) (hne : 0 < ds.length) (hn : n = min ds.length c.pageSize)
    (hfirst : PageWritten c off pre sec (ds.take n) page)
    (hrest : PagesWritten c (off + BitVec.ofNat 32 n) pre sec (ds.drop n) bs) :
    PagesWritten c off pre sec ds (page ++ bs) := by
  obtain ⟨pages, hcount, rfl, hpages⟩ := hrest
  rw [List.length_drop] at hcount
  refine ⟨page :: pages, ?_, rfl, fun k hk => ?_⟩
  · rw [List.length_cons, hcount, pages_after_chunk hne hsize, hn]
  cases k with
  | zero =>
    have hchunk : ds.take n = ds.take c.pageSize := by rw [hn, List.take_eq_take_iff]; omega
    simpa [hchunk] using hfirst
  | succ k =>
    have hk : k < pages.length := Nat.lt_of_succ_lt_succ hk
    have hfull : n = c.pageSize := by
      by_contra hpart
      have hlast : ds.length - n = 0 := by omega
      rw [hlast, Nat.zero_add, Nat.div_eq_of_lt (by omega)] at hcount
      omega
    have hnext := hpages k hk
    rw [hfull, BitVec.add_assoc, ← BitVec.ofNat_add, List.drop_drop, Nat.add_comm, ← Nat.succ_mul] at hnext
    exact hnext

/-- The same for the first `len` of some bytes. -/
theorem PagesWritten.cons_take {len : Nat} (hsize : 0 < c.pageSize) (hpos : 0 < len) (hlen : len ≤ ds.length)
    (hn : n = min len c.pageSize) (hfirst : PageWritten c off pre sec (ds.take n) page)
    (hrest : PagesWritten c (off + BitVec.ofNat 32 n) pre sec ((ds.drop n).take (len - n)) bs) :
    PagesWritten c off pre sec (ds.take len) (page ++ bs) := by
  have htaken : (ds.take len).length = len := List.length_take_of_le hlen
  have hchunk : (ds.take len).take n = ds.take n := by rw [List.take_take, Nat.min_eq_left (by omega)]
  rw [← List.drop_take] at hrest
  exact .cons hsize (htaken.symm ▸ hpos) (htaken.symm ▸ hn) (hchunk ▸ hfirst) hrest

theorem PagesMissStatus.next {len : Nat} (h : PagesMissStatus c off len sec) (hn : n = min len c.pageSize) :
    PagesMissStatus c (off + BitVec.ofNat 32 n) (len - n) sec := by
  refine ⟨h.1, fun k hk => ?_⟩
  have hfull : n = c.pageSize := by omega
  have hmiss := h.2 (k + 1) (by rw [Nat.succ_mul]; omega)
  rw [Nat.succ_mul, Nat.add_comm, BitVec.ofNat_add, ← BitVec.add_assoc] at hmiss
  rwa [hfull]

end Chunks

/-! ## The loop -/

section Loop
variable {c : Config} {s t u : State} {ts : List Task} {a remaining : Word} {sec : FlashSection} {pre : Bool}
  {ds : List Byte}

theorem perform_chunks_done : perform (.chunks a 0 pre sec) s = .next (s.finish (.ok .unit)) := rfl

theorem perform_chunks {n : Nat} (h : remaining ≠ 0) (hn : n = min remaining.toNat s.cfg.pageSize) :
    perform (.chunks a remaining pre sec) s =
      .next (s.push [.run (.writePage a n pre sec),
        .chunks (a + BitVec.ofNat 32 n) (remaining - BitVec.ofNat 32 n) pre sec]) := by
  subst hn
  exact congrArg _ (if_neg h)

theorem toNat_sub_ofNat {n : Nat} (h : n ≤ remaining.toNat) :
    (remaining - BitVec.ofNat 32 n).toNat = remaining.toNat - n := by
  have hn : (BitVec.ofNat 32 n).toNat = n := Nat.mod_eq_of_lt (h.trans_lt remaining.isLt)
  rw [BitVec.toNat_sub_of_le (by rw [BitVec.le_def, hn]; exact h), hn]

/-- The chunk at the head of the loop is not empty, and the rest is what remains after it. -/
theorem exists_chunk {size : Nat} (h0 : remaining ≠ 0) (hsize : 0 < size) :
    ∃ n, n = min remaining.toNat size ∧ 0 < n ∧ n ≤ remaining.toNat ∧ n ≤ size ∧
      (remaining - BitVec.ofNat 32 n).toNat = remaining.toNat - n := by
  have hpos : 0 < remaining.toNat := Nat.pos_of_ne_zero fun e => h0 (BitVec.eq_of_toNat_eq e)
  exact ⟨_, rfl, by omega, by omega, by omega, toNat_sub_ofNat (by omega)⟩

/-- Every run of the loop: all page sequences, or a link error out of one. -/
theorem chunks_passes (h : Returns s u) (hc : s.control = .chunks a remaining pre sec :: ts) (hd : s.dir ≠ none)
    (hsize : 0 < s.cfg.pageSize) :
    (remaining.toNat ≤ s.supply.length ∧
        ∃ v bs, PagesWritten s.cfg a pre sec (s.supply.take remaining.toNat) bs ∧ Wrote s bs remaining.toNat v ∧
          v.ret = .ok .unit ∧ v.control = ts ∧ Returns v u) ∨
      ∃ v bs n, Wrote s bs n v ∧ LinkError v.ret ∧ v.control = unwind ts ∧ Returns v u := by
  induction hm : remaining.toNat using Nat.strong_induction_on generalizing s a remaining with
  | _ m ih =>
    subst hm
    by_cases h0 : remaining = 0
    · subst h0
      have hdone := ((Moved.refl s ts).finish ts (.ok .unit)).wrote
      exact .inl ⟨Nat.zero_le _, _, [], .nil hsize, hdone, rfl, rfl, h.next hc perform_chunks_done⟩
    obtain ⟨n, hn, hpos, hle, hfits, hrest⟩ := exists_chunk h0 hsize
    have hcalled := h.next hc (perform_chunks (s := { s with control := ts }) h0 hn)
    have hbegun : Wrote s [] 0 (State.push { s with control := ts } [.run (.writePage a n pre sec),
        .chunks (a + BitVec.ofNat 32 n) (remaining - BitVec.ofNat 32 n) pre sec]) := (Moved.refl s _).wrote
    rcases writePage_passes hcalled rfl hd hfits with
      ⟨hsupplied, v, page, hpage, hwrote, -, hcv, hv⟩ | ⟨v, page, k, -, hwrote, herror, hcv, hv⟩
    · have hwrote := hbegun.trans hwrote
      rw [Nat.zero_add, List.nil_append] at hwrote
      have hcfg : v.cfg = s.cfg := hwrote.frame.1
      have hsupply := hwrote.took.supply
      rcases ih _ (by omega) hv hcv (hwrote.ready hd) (hcfg ▸ hsize) rfl with
        ⟨hmore, w, bs, hpages, hwrote', hok, hcw, hw⟩ | ⟨w, bs, k, hwrote', herror, hcw, hw⟩
      · have hwrote' := hwrote.trans hwrote'
        have hsupplied : n ≤ s.supply.length := hsupplied
        rw [hrest, hsupply, List.length_drop] at hmore
        rw [hcfg, hrest, hsupply] at hpages
        rw [hrest, Nat.add_sub_cancel' hle] at hwrote'
        have hall : remaining.toNat ≤ s.supply.length := by omega
        exact .inl ⟨hall, w, page ++ bs, .cons_take hsize (by omega) hall hn hpage hpages, hwrote', hok, hcw, hw⟩
      · exact .inr ⟨w, _, _, hwrote.trans hwrote', herror, hcw, hw⟩
    · exact .inr ⟨v, _, _, hbegun.trans hwrote, herror, hcv, hv⟩

/-- In a programming session with RT the loop comes to its end, where no chunk's commit is a store to NVM STATUS. -/
theorem Feeding.chunks (h : Feeding c ds t) (hc : t.control = .chunks a remaining pre sec :: ts)
    (hsize : 0 < c.pageSize) (hlen : remaining.toNat ≤ ds.length)
    (hmiss : PagesMissStatus c a remaining.toNat sec) :
    ∃ v, v.ret = .ok .unit ∧ v.control = ts ∧ Leads t v := by
  induction hm : remaining.toNat using Nat.strong_induction_on generalizing t a remaining ds with
  | _ m ih =>
    subst hm
    by_cases h0 : remaining = 0
    · subst h0
      exact ⟨_, rfl, rfl, (Leads.refl t).next hc perform_chunks_done⟩
    obtain ⟨n, hn, hpos, hle, hfits, hrest⟩ := exists_chunk h0 hsize
    obtain ⟨hwide, hfirst⟩ := hmiss
    have hcalled := (Leads.refl t).next hc (perform_chunks (s := { t with control := ts }) h0 (h.cfg ▸ hn))
    obtain ⟨v, -, hcv, hpage, hv⟩ := (h.setControl _).writePage rfl hfits (hfits.trans hwide) (hle.trans hlen)
    have hv := hv (by simpa using hfirst 0 (by omega))
    obtain ⟨w, hok, hcw, hleads⟩ := ih _ (by omega) hv hcv (by rw [hrest, List.length_drop]; omega)
      (hrest ▸ PagesMissStatus.next ⟨hwide, hfirst⟩ hn) rfl
    exact ⟨w, hok, hcw, (hcalled.trans hpage).trans hleads⟩

end Loop

/-- Settles O41: the loop's runs (`chunks_passes`), and in a session with RT its end (`Feeding.chunks`). -/
theorem writeSendsOneSequencePerPage : Obligations.WriteSendsOneSequencePerPage := by
  intro s off len pre sec src ⟨hc, hd⟩ hsize hlen
  obtain ⟨hcall, -⟩ := call_taken (o := .write off len pre sec) hc rfl hlen
    (opRefusal_none hd nofun nofun nofun) rfl
  refine ⟨_, hcall, fun ha hmiss => ?_, fun u hret => ?_⟩
  · obtain ⟨v, hok, hcv, hleads⟩ :=
      ((ha.feeding (o := .write off len pre sec) hd rfl src).setControl _).chunks rfl hsize hlen hmiss
    exact ⟨v, hleads v (.refl hcv), hok⟩
  · rcases chunks_passes hret rfl hd hsize with
      ⟨-, v, bs, hpages, hwrote, hok, hcv, hv⟩ | ⟨v, bs, n, hwrote, herror, hcv, hv⟩
    · obtain rfl := hv.done hcv
      exact ⟨hwrote.frame_bytes rfl, .inl ⟨hok, hwrote.source_bytes rfl, bs, hpages, hwrote.wire⟩⟩
    · obtain rfl := hv.done hcv
      exact ⟨hwrote.frame_bytes rfl, .inr herror⟩

end Sys2Proof.Machine
end

section
/-!
45_target_contract R311 to R318: which instructions store, and where. A store at an address of plain memory writes its
one byte (R313, R314); an instruction that is neither STS nor a one-byte ST leaves the memories alone, but for target
reset outside the reference target (entry 37). Settles O46 and O47.
-/

namespace Sys2Proof.Machine

/-! ## Stores into plain memory -/

section PlainStores
variable {t : Target} {c : Config} (hw : t.Waiting)
include hw

theorem Target.Waiting.execute_sts_plain {a : Word} (ha : PlainAddress c a) (d : Byte) :
    t.execute c (.sts a d) = t.memWrite a d := by
  rw [Target.execute_sts, hw.unrepeated, t.storeDirect_plain c ha]

theorem Target.Waiting.execute_lds_plain {a : Word} (ha : PlainAddress c a) (hr : t.replyStated = true) :
    t.execute c (.lds a) = t.send (t.mem.read a.toNat) := by
  rw [Target.execute_lds, hw.unrepeated, Target.loadDirect, t.load_plain c ha hr]

/-- A one-byte ST without a repeat, not under LoadFlashPageBuffer (45 R314). -/
theorem Target.Waiting.repeatedStore_plain (hplain : PlainAddress c t.ptr)
    (hcmd : t.cmd ≠ c.nvmCodes.loadFlashPageBuffer) {m : PtrMode} (htop : m = .autoInc → t.ptr ≠ 0xFFFFFFFF)
    (opcode d : Byte) :
    t.repeatedStore c m opcode d =
      { t with
        mem := t.mem.write t.ptr.toNat d, erased := cutRange t.ptr.toNat 1 t.erased
        ptr := pointerAfter m t.ptr 1 } := by
  have hfit : m = .autoInc → t.ptr.toNat + 1 < 2 ^ 32 := fun hm => by
    have := htop hm
    bv_omega
  rw [hw.repeatedStore_once, Target.storePointer_plain hcmd hplain hfit]
  obtain ⟨-, -, -, hrepeated, -⟩ := hw
  rw [← hrepeated]

end PlainStores

/-- Settles O46: every store writes one cell (`Memory.read_write`), and LDS reads it back. -/
theorem plainStoresWriteOneByte : Obligations.PlainStoresWriteOneByte := by
  intro t c a d hw
  refine ⟨fun ha => ⟨t.mem.write a.toNat d, hw.execute_sts_plain ha d, Memory.read_write _ _ d, fun hr => ?_⟩,
    fun hplain hcmd => ⟨t.mem.write t.ptr.toNat d, Memory.read_write _ _ d, ?_, fun htop => ?_⟩⟩
  · have hstored : (t.memWrite a d).Waiting := hw
    have hbyte : (t.memWrite a d).mem.read a.toNat = d := (Memory.read_write _ _ d _).trans (if_pos rfl)
    rw [hw.execute_sts_plain ha, hstored.execute_lds_plain ha hr, hbyte]
    rfl
  · exact hw.repeatedStore_plain (m := .indirect) hplain hcmd nofun _ d
  · exact hw.repeatedStore_plain hplain hcmd (fun _ => htop) _ d

/-! ## Instructions that store nothing -/

/-- The fuses and every byte at an NVM address stand (47 R346). -/
structure Target.KeepsNvm (c : Config) (t u : Target) : Prop where
  fuse : u.fuse = t.fuse
  mem : ∀ x, isNvm c (BitVec.ofNat 32 x) = true → u.mem.read x = t.mem.read x

theorem Target.SameMemories.keepsNvm {t u : Target} (h : t.SameMemories u) (c : Config) : t.KeepsNvm c u :=
  ⟨h.fuse, fun x _ => congrArg (Memory.read · x) h.mem⟩

section NoStores
variable (t : Target) (c : Config)

theorem Target.lose_sameMemories : t.SameMemories t.lose := ⟨rfl, rfl, rfl⟩

theorem Target.SameMemories.unrepeated {t : Target} (run : Target → Target) (h : t.SameMemories (run t)) :
    t.SameMemories (t.unrepeated run) := by
  unfold Target.unrepeated
  split
  · exact h
  · exact t.lose_sameMemories

theorem Target.repeatedLoad_sameMemories (m : PtrMode) : t.SameMemories (t.repeatedLoad c m) := by
  obtain ⟨hm, hb, hf⟩ := t.loadPointerTimes_sameMemories c m (t.rep.toNat + 1)
  exact ⟨hm, hb, hf⟩

/-- STCS stores nothing, but for target reset outside RT (45 R315, R316). -/
theorem Target.writeCsr_sameMemories {r : BitVec 4} (h : t.kind = .reference ∨ r ≠ c.csrReset) (d : Byte) :
    t.SameMemories (t.writeCsr c r d) := by
  unfold Target.writeCsr
  split
  · next hreset =>
    have hkind : t.kind = .reference := h.resolve_right (absurd hreset)
    rw [hkind]
    split
    · exact ⟨rfl, rfl, rfl⟩
    · split <;> exact ⟨rfl, rfl, rfl⟩
  · split
    · split <;> exact ⟨rfl, rfl, rfl⟩
    · exact t.lose_sameMemories

/-- Target reset that cuts no command short keeps fuses and NVM addresses (47 R346, entry 37). -/
theorem Target.writeCsr_keepsNvm (h : t.underway = false) (r : BitVec 4) (d : Byte) :
    t.KeepsNvm c (t.writeCsr c r d) := by
  by_cases hreset : t.kind = .reference ∨ r ≠ c.csrReset
  · exact (t.writeCsr_sameMemories c hreset d).keepsNvm c
  · obtain ⟨hnot, hr⟩ := not_or.mp hreset
    have hkind : t.kind = .contract := by
      cases hk : t.kind with
      | contract => rfl
      | reference => exact absurd hk hnot
    obtain ⟨hfuse, -, hmem⟩ := t.afterReset_memory c h
    rw [Target.writeCsr, if_pos (not_not.mp hr), hkind]
    split
    · exact ⟨hfuse, hmem⟩
    · split
      · dsimp only
        split
        · exact (Target.SameMemories.refl t).keepsNvm c
        · exact ⟨hfuse, hmem⟩
      · exact t.lose_sameMemories.keepsNvm c

variable {i : Instr} (hsts : ∀ a d, i ≠ .sts a d) (hind : ∀ d, i ≠ .stInd d) (hinc : ∀ d, i ≠ .stInc d)
include hsts hind hinc

theorem Target.execute_sameMemories
    (h : t.kind = .reference ∨ ∀ r d, i = .stcs r d → r.setWidth 4 ≠ c.csrReset) :
    t.SameMemories (t.execute c i) := by
  cases i with
  | sts a d => exact absurd rfl (hsts a d)
  | stInd d => exact absurd rfl (hind d)
  | stInc d => exact absurd rfl (hinc d)
  | lds a =>
    obtain ⟨hm, hb, hf⟩ := t.load_sameMemories c true a
    exact .unrepeated (fun t => t.loadDirect c a) ⟨hm, hb, hf⟩
  | ldInd | ldInc => exact t.repeatedLoad_sameMemories c _
  | ldPtr =>
    obtain ⟨hm, hb, hf⟩ := t.sendFree_sameMemories (t.rep.toNat + 1)
    exact ⟨hm, hb, hf⟩
  | stPtr a => exact .unrepeated (fun t => { t with ptr := a, bufRun := none }) ⟨rfl, rfl, rfl⟩
  | repeatB n => exact .unrepeated (fun t => t.repeatNext (n.setWidth 16)) ⟨rfl, rfl, rfl⟩
  | repeatW n => exact .unrepeated (fun t => t.repeatNext n) ⟨rfl, rfl, rfl⟩
  | ldcs r =>
    obtain ⟨hm, hb, hf⟩ := t.readCsr_sameMemories c (r.setWidth 4)
    exact .unrepeated (fun t => (t.readCsr c (r.setWidth 4)).2.send (t.readCsr c (r.setWidth 4)).1) ⟨hm, hb, hf⟩
  | stcs r d =>
    exact .unrepeated (fun t => t.writeCsr c (r.setWidth 4) d)
      (t.writeCsr_sameMemories c (h.imp_right fun hr => hr r d rfl) d)
  | key k => exact .unrepeated (fun t => t.acceptKey c k) (t.acceptKey_sameMemories c k)
  | _ => exact t.lose_sameMemories

theorem Target.execute_keepsNvm
    (h : t.kind = .reference ∨ t.underway = false ∨ ∀ r d, i = .stcs r d → r.setWidth 4 ≠ c.csrReset) :
    t.KeepsNvm c (t.execute c i) := by
  by_cases hreset : t.kind = .reference ∨ ∀ r d, i = .stcs r d → r.setWidth 4 ≠ c.csrReset
  · exact (t.execute_sameMemories c hsts hind hinc hreset).keepsNvm c
  · obtain ⟨hkind, hstcs⟩ := not_or.mp hreset
    have hdone : t.underway = false := (h.resolve_left hkind).resolve_right hstcs
    push Not at hstcs
    obtain ⟨r, d, rfl, -⟩ := hstcs
    rw [Target.execute_stcs, Target.unrepeated]
    split
    · exact t.writeCsr_keepsNvm c hdone _ d
    · exact t.lose_sameMemories.keepsNvm c

end NoStores

/-- Settles O47: `execute_keepsNvm` and `execute_sameMemories`, read off at one address. -/
theorem otherInstructionsStoreNothing : Obligations.OtherInstructionsStoreNothing := by
  intro t c
  refine ⟨fun hw a => ?_, fun i hsts hind hinc x => ⟨fun h => ?_, fun h => ?_⟩⟩
  · rw [Target.execute_stPtr, hw.unrepeated]
  · obtain ⟨hfuse, hmem⟩ := t.execute_keepsNvm c hsts hind hinc h
    exact ⟨congrArg (Memory.read · x) hfuse, hmem x⟩
  · obtain ⟨hmem, hbuf, -⟩ := t.execute_sameMemories c hsts hind hinc h
    exact ⟨congrArg (Memory.read · x) hmem, congrArg (Memory.read · x) hbuf⟩

end Sys2Proof.Machine
end

section
/-!
44_flash_fuse R273, 45_target_contract R319, R321, R326: the commands of the NVM controller. The byte of the triggering
store is the data of WriteFuse alone, and on the reference target each command fills its page, its section or a whole
memory. Settles O48, O49 and O50.
-/

namespace Sys2Proof.Machine

/-! ## The value of the triggering store -/

/-- WriteFuse, the one command that takes the byte, is tested for after the erase and page-write codes. -/
theorem Target.trigger_value_irrelevant {t : Target} {c : Config}
    (h : t.cmd ∈
      [c.nvmCodes.eraseFlashPage, c.nvmCodes.eraseAppPage, c.nvmCodes.eraseBootPage, c.nvmCodes.writeFlashPage,
        c.nvmCodes.writeAppPage, c.nvmCodes.writeBootPage, c.nvmCodes.eraseWriteFlashPage,
        c.nvmCodes.eraseWriteAppPage, c.nvmCodes.eraseWriteBootPage, c.nvmCodes.eraseAppSection,
        c.nvmCodes.eraseBootSection])
    (a : Word) (d d' : Byte) : t.trigger c a d = t.trigger c a d' := by
  unfold Target.trigger
  refine congrArg Target.started ?_
  simp only [List.mem_cons, List.not_mem_nil, or_false] at h
  refine ite_congr rfl (fun _ => rfl) fun herase => ite_congr rfl (fun _ => rfl) fun hwrite =>
    ite_congr rfl (fun _ => rfl) fun heraseWrite => ite_congr rfl (fun _ => rfl) fun happ =>
      ite_congr rfl (fun _ => rfl) fun hboot => ?_
  tauto

/-- Settles O48: an STS at an NVM address triggers the command or loses the target. -/
theorem triggerValueDoesNotMatter : Obligations.TriggerValueDoesNotMatter := by
  intro t c a d d' ⟨hreg, hnvm⟩ hcmd
  have hstore (e : Byte) : t.storeDirect c a e = if t.nvmIdle then t.trigger c a e else t.lose := by
    simp [Target.storeDirect, t.storeRegister_none c hreg, hnvm]
  rw [hstore, hstore, Target.trigger_value_irrelevant hcmd a d d']

/-! ## The reference target's commands (45 R326) -/

/-- Reading after a fill of the page of `a`. -/
theorem Memory.read_fill_page (m : Memory) {c : Config} {a : Nat} (hfit : pageStart c a + c.pageSize ≤ 2 ^ 32)
    (f : Nat → Byte) (x : Nat) :
    (InPage c a x → (m.fill (pageStart c a) f c.pageSize).read x = f x) ∧
      (¬InPage c a x → (m.fill (pageStart c a) f c.pageSize).read x = m.read x) := by
  have hread := m.read_fill_range hfit f x
  exact ⟨fun hin => hread.trans (if_pos hin), fun hout => hread.trans (if_neg hout)⟩

theorem Target.runEffect_sameRegisters (t : Target) (c : Config) (k : NvmCommand) :
    t.SameRegisters (t.runEffect c k) := by
  cases k with
  | chipErase => exact t.chipErase_sameRegisters c
  | eraseFlashPageBuffer => exact t.eraseBuffer_sameRegisters
  | eraseAppSection | eraseBootSection => exact t.eraseSection_sameRegisters _ _
  | readNvm | loadFlashPageBuffer => exact .refl t
  | _ => exact t.unstated_sameRegisters

section Reference
variable {t : Target} {c : Config} (hw : t.Waiting) (hkind : t.kind = .reference)
include hkind

theorem Target.erasePage_reference (a : Nat) :
    t.erasePage c a = { t with mem := t.mem.fill (pageStart c a) (fun _ => 0xFF) c.pageSize } := by
  simp [Target.erasePage, hkind]

theorem Target.writePage_reference (pre : Bool) (a : Nat) :
    t.writePage c pre a = { t with mem := t.mem.fill (pageStart c a) (t.programmed c pre) c.pageSize } := by
  simp [Target.writePage, hkind]

theorem Target.writeFuse_reference (a : Word) (d : Byte) :
    t.writeFuse a d = { t with fuse := t.fuse.write a.toNat d } := by
  simp [Target.writeFuse, hkind]

theorem Target.chipErase_reference : t.chipErase c = { t with mem := ⟨.erased, []⟩ } := by
  simp [Target.chipErase, hkind]

theorem Target.eraseBuffer_reference : t.eraseBuffer = { t with buf := ⟨.erased, []⟩ } := by
  simp [Target.eraseBuffer, hkind]

theorem Target.eraseSection_reference (base : Word) (size : Nat) :
    t.eraseSection base size = { t with mem := t.mem.fill base.toNat (fun _ => 0xFF) size } := by
  simp [Target.eraseSection, hkind]

theorem Target.triggerSection_reference (a base : Word) (size : Nat) :
    t.triggerSection a base size = t.eraseSection base size := by
  simp [Target.triggerSection, hkind]

include hw in
/-- A section erase changes the section's bytes alone. -/
theorem Target.Waiting.eraseSection_reference {base : Word} {size : Nat} (hfit : base.toNat + size ≤ 2 ^ 32) :
    (t.eraseSection base size).buf = t.buf ∧ (t.eraseSection base size).fuse = t.fuse ∧
      (t.eraseSection base size).Waiting ∧
      ∀ x, (t.eraseSection base size).mem.read x =
        if base.toNat ≤ x ∧ x < base.toNat + size then 0xFF else t.mem.read x := by
  rw [Target.eraseSection_reference hkind]
  exact ⟨rfl, rfl, hw, t.mem.read_fill_range hfit _⟩

variable (hdec : Decodable c) {k : NvmCommand} (hcmd : t.cmd = nvmCode c k)
include hw hdec hcmd

/-- RT's commands complete at once, so a triggering store is the command's effect. -/
theorem Target.Waiting.execute_trigger_reference {a : Word} (ha : TriggerAddress c a) (d : Byte) :
    t.execute c (.sts a d) = t.triggerEffect c a d k := by
  have heffect := t.triggerEffect_sameRegisters c a d k
  rw [hw.execute_trigger hdec (Target.nvmIdle_reference hkind) hcmd ha]
  exact Target.started_reference (heffect.kind.trans hkind)

/-- Any store to CTRLA with bit 0 set executes (45 R325). -/
theorem Target.Waiting.execute_ctrlA_reference (hctrl : nvmAddress c .ctrlA ≠ nvmAddress c .cmd) {v : Byte}
    (hv : v.getLsbD 0 = true) :
    t.execute c (.sts (nvmAddress c .ctrlA) v) = ({ t with ctrlA := v } : Target).runEffect c k := by
  have hexec : t.executes v = true := (t.executes_reference hkind v).trans hv
  rw [Target.execute_sts, hw.unrepeated, Target.storeDirect_ctrlA c hctrl (Target.nvmIdle_reference hkind),
    if_pos hexec, Target.runCommand_eq (t := { t with ctrlA := v }) hdec hcmd]
  have heffect := ({ t with ctrlA := v } : Target).runEffect_sameRegisters c k
  exact Target.started_reference (heffect.kind.trans hkind)

/-- A section erase through either trigger, where the command's effect is to erase the section `base`, `size`. -/
theorem Target.Waiting.execute_eraseSection (hctrl : nvmAddress c .ctrlA ≠ nvmAddress c .cmd) {a : Word}
    (ha : TriggerAddress c a) {d v : Byte} (hv : v.getLsbD 0 = true) {base : Word} {size : Nat}
    (hrun : ∀ t : Target, t.runEffect c k = t.eraseSection base size)
    (htrigger : ∀ t : Target, t.triggerEffect c a d k = t.triggerSection a base size) {u : Target}
    (hu : u = t.execute c (.sts (nvmAddress c .ctrlA) v) ∨ u = t.execute c (.sts a d))
    (hfit : base.toNat + size ≤ 2 ^ 32) :
    u.buf = t.buf ∧ u.fuse = t.fuse ∧ u.Waiting ∧
      ∀ x, u.mem.read x = if base.toNat ≤ x ∧ x < base.toNat + size then 0xFF else t.mem.read x := by
  rcases hu with rfl | rfl
  · have hset : ({ t with ctrlA := v } : Target).Waiting := hw
    rw [hw.execute_ctrlA_reference hkind hdec hcmd hctrl hv, hrun]
    exact hset.eraseSection_reference hkind hfit
  · rw [hw.execute_trigger_reference hkind hdec hcmd ha, htrigger, Target.triggerSection_reference hkind]
    exact hw.eraseSection_reference hkind hfit

end Reference

/-- Settles O49: the page is filled with erased cells, or with what RT programs. -/
theorem referencePageCommands : Obligations.ReferencePageCommands := by
  intro t c a d hw hkind hdec ha _ hfit k pre
  have hscope := Target.inScope_reference t c hkind false a
  refine ⟨fun hcmd => ⟨_, ?_, t.mem.read_fill_page hfit fun _ => 0xFF⟩,
    fun hcmd => ⟨_, ?_, t.mem.read_fill_page hfit (t.programmed c pre)⟩⟩
  · rw [hw.execute_trigger_reference hkind hdec hcmd ha, Target.triggerEffect_erasePage hscope,
      Target.erasePage_reference hkind]
  · rw [hw.execute_trigger_reference hkind hdec hcmd ha, Target.triggerEffect_writePage hscope,
      Target.writePage_reference hkind]

/-- Settles O50: one erased memory, one written fuse, or one filled section. -/
theorem referenceWholeCommands : Obligations.ReferenceWholeCommands := by
  intro t c a d v hw hkind hdec hctrl ha hv executed
  have hexecuted {k : NvmCommand} (hcmd : t.cmd = nvmCode c k) :
      executed = ({ t with ctrlA := v } : Target).runEffect c k :=
    hw.execute_ctrlA_reference hkind hdec hcmd hctrl hv
  refine ⟨fun hcmd => ?_, fun hcmd => ?_, fun hcmd u hu => ?_,
    fun u hu => ⟨fun hcmd hfit => ?_, fun hcmd hfit => ?_⟩⟩
  · have hchip : executed = { t with ctrlA := v, mem := ⟨.erased, []⟩ } :=
      (hexecuted hcmd).trans (Target.chipErase_reference (t := { t with ctrlA := v }) hkind)
    rw [hchip]
    exact ⟨fun _ => rfl, rfl, rfl, hw⟩
  · have hbuffer : executed = { t with ctrlA := v, buf := ⟨.erased, []⟩ } :=
      (hexecuted hcmd).trans (Target.eraseBuffer_reference (t := { t with ctrlA := v }) hkind)
    rw [hbuffer]
    exact ⟨fun _ => rfl, rfl, rfl, hw⟩
  · have hscope : t.triggerEffect c a d .writeFuse = t.writeFuse a d :=
      if_pos (Target.inScope_reference t c hkind true a)
    rw [hw.execute_trigger_reference hkind hdec hcmd ha, hscope, Target.writeFuse_reference hkind] at hu
    subst hu
    exact ⟨rfl, rfl, hw, Memory.read_write _ _ d⟩
  · exact hw.execute_eraseSection hkind hdec hcmd hctrl ha hv (fun _ => rfl) (fun _ => rfl) hu hfit
  · exact hw.execute_eraseSection hkind hdec hcmd hctrl ha hv (fun _ => rfl) (fun _ => rfl) hu hfit

end Sys2Proof.Machine
end

section
/-!
47_host_boundary R342, 41_encoder R178: where the data bytes of a call come from makes no difference to what the core
does with them. A task that does not handle data commutes with a change of the source and of the host link
(`perform_withData`); the pull loop gives the same byte from either source (`HostFed`).
-/

namespace Sys2Proof.Machine

/-! ## Tasks and data -/

/-- The state with another source of data bytes and another host link. -/
def State.withData (s : State) (src : ByteSource) (h : HostLink) : State := { s with source := src, host := h }

/-- The tasks that take bytes off the data source or the host link, or send to the host. -/
def Task.handlesData : Task → Bool
  | .store _ | .hostPayload _ _ | .respond => true
  | _ => false

section Tasks
variable {k : Task} {s t u : State}

theorem State.withData_ite {p : Prop} [Decidable p] (src : ByteSource) (h : HostLink) :
    (if p then s else t).withData src h = if p then s.withData src h else t.withData src h :=
  apply_ite (State.withData · src h) p s t

theorem opStart_withData {o : Op} (src : ByteSource) (h : HostLink) (ht : opStart o s = .next t) :
    opStart o (s.withData src h) = .next (t.withData src h) := by
  have hsame : opRefusal (s.withData src h) o = opRefusal s o ∧ opBody (s.withData src h) o = opBody s o := by
    cases o <;> exact ⟨rfl, rfl⟩
  obtain ⟨hr, ⟨ts, hb, rfl⟩ | ⟨e, hb, rfl⟩⟩ := opStart_next ht <;> simp only [opStart, hsame, hr, hb] <;> rfl

/-- The source and the host link are nothing to a task that does not handle data. -/
theorem perform_withData (hk : k.handlesData = false) (src : ByteSource) (h : HostLink) (ht : perform k s = .next t) :
    perform k (s.withData src h) = .next (t.withData src h) := by
  cases k with
  | store _ | hostPayload _ _ | respond => cases hk
  | run o => exact opStart_withData src h ht
  | wake n | collect n got | rxCheck n => cases n <;> cases ht <;> rfl
  | await _ | rxErrorCheck | pollNvmen _ | nvmenVerdict _ | pollBusy _ | busyVerdict _ | resetLoop _ | resetVerdict _
  | chunks _ _ _ _ | lazyBegin =>
    cases ht
    simp only [perform, performAwait, performRxErrorCheck, performPollNvmen, performNvmenVerdict, performPollBusy,
      performBusyVerdict, performResetLoop, performResetVerdict, performChunks, State.withData_ite]
    rfl
  | _ => cases ht; rfl

theorem perform_source (hk : k.handlesData = false) (ht : perform k s = .next t) : t.source = s.source := by
  have hsame : t = t.withData s.source s.host :=
    Host.Outcome.next.inj (ht.symm.trans (perform_withData hk s.source s.host ht))
  exact (congrArg State.source hsame :)

/-- An operation that takes its data from the host link goes on doing so. -/
theorem perform_hostLink (ht : perform k s = .next t) (hs : s.source = .hostLink) : t.source = .hostLink := by
  cases k with
  | store n =>
    rcases performStore_next ht with ⟨-, rfl⟩ | ⟨_, _, _, -, hbytes, -⟩ | ⟨_, -, -, -, rfl⟩ | ⟨_, _, _, -, -, -, rfl⟩
    · exact hs
    · cases hs.symm.trans hbytes
    · exact hs
    · exact hs
  | hostPayload n got =>
    cases ht
    unfold performHostPayload
    split
    · exact hs
    · split
      · exact hs
      · next htake =>
        obtain ⟨_, -, rfl⟩ := hostTake_some htake
        exact hs
  | respond => cases ht; exact hs
  | _ => exact (perform_source rfl ht).trans hs

theorem Runs.hostLink (h : Runs s u) (hs : s.source = .hostLink) : u.source = .hostLink := by
  induction h with
  | refl => exact hs
  | step busy hstep _ ih =>
    obtain ⟨k, ts, hc⟩ := List.exists_cons_of_ne_nil busy
    rw [step_task hc] at hstep
    exact ih (perform_hostLink hstep hs)

theorem Runs.cfg (h : Runs s u) : u.cfg = s.cfg := by
  induction h with
  | refl => rfl
  | step _ hstep _ ih => exact ih.trans (step_progress hstep).cfg

/-- Tasks that leave the session alone put only such tasks before the others. -/
theorem perform_keepsSession (ht : perform k s = .next t) (hk : k.keepsSession = true)
    (hs : ∀ j ∈ s.control, j.keepsSession = true) : ∀ j ∈ t.control, j.keepsSession = true := by
  cases task_effect k s with
  | continues v new performed session =>
    obtain rfl := Host.Outcome.next.inj ((performed s.control).symm.trans ht)
    obtain ⟨-, -, hnew⟩ := session hk
    exact List.forall_mem_append.2 ⟨hnew, hs⟩
  | fails v e performed _ =>
    obtain rfl := Host.Outcome.next.inj ((performed s.control).symm.trans ht)
    exact fun j hj => hs j ((unwind_suffix s.control).subset hj)
  | refused r performed => cases (performed s.control).symm.trans ht

end Tasks

/-! ## The same bytes from the host link -/

/-- `u` is `s`, but that the bytes which `s` has from its caller wait on the host link in `u`. -/
def HostFed (s u : State) : Prop :=
  ∃ ds tx pending, s.source = .bytes ds ∧ u = s.withData .hostLink ⟨ds, tx, pending⟩

section HostFed
variable {k : Task} {s t u : State}

/-- One task: the pull loop takes the byte from where it is, and every other task looks at neither place. -/
theorem HostFed.perform (h : HostFed s u) (hk : k.keepsSession = true) (ht : perform k s = .next t) :
    ∃ v, Machine.perform k u = .next v ∧ HostFed t v := by
  obtain ⟨ds, tx, pending, hs, rfl⟩ := h
  cases k with
  | hostPayload n got => cases hk
  | respond => cases ht; exact ⟨_, rfl, ds, _ :: tx, pending, hs, rfl⟩
  | store n =>
    rcases performStore_next ht with ⟨rfl, rfl⟩ | ⟨n, d, ds', rfl, hs', rfl⟩ | ⟨_, -, hlink, -⟩ | ⟨_, _, _, -, hlink, -⟩
    · exact ⟨_, rfl, ds, tx, pending, hs, rfl⟩
    · obtain rfl := ByteSource.bytes.inj (hs.symm.trans hs')
      exact ⟨_, rfl, ds', 0xFF :: tx, pending, rfl, rfl⟩
    · cases hs.symm.trans hlink
    · cases hs.symm.trans hlink
  | _ => exact ⟨_, perform_withData rfl _ _ ht, ds, tx, pending, (perform_source rfl ht).trans hs, rfl⟩

/-- What an operation does with its caller's bytes, it does with the same bytes from the host link. -/
theorem HostFed.runs (h : HostFed s u) (hs : ∀ k ∈ s.control, k.keepsSession = true) (hr : Runs s t) :
    ∃ v, Runs u v ∧ HostFed t v := by
  induction hr generalizing u with
  | refl s => exact ⟨u, .refl u, h⟩
  | @step s s' t busy hstep _ ih =>
    obtain ⟨k, ts, hc⟩ := List.exists_cons_of_ne_nil busy
    rw [step_task hc] at hstep
    rw [hc, List.forall_mem_cons] at hs
    obtain ⟨hk, hts⟩ := hs
    obtain ⟨ds, tx, pending, hsource, rfl⟩ := h
    have hfed : HostFed { s with control := ts } { s.withData .hostLink ⟨ds, tx, pending⟩ with control := ts } :=
      ⟨ds, tx, pending, hsource, rfl⟩
    obtain ⟨u', hu', hfed'⟩ := hfed.perform hk hstep
    obtain ⟨v, hruns, hv⟩ := ih hfed' (perform_keepsSession hstep hk hts)
    exact ⟨v, (Runs.task (by exact hc) hu').trans hruns, hv⟩

end HostFed

end Sys2Proof.Machine
end

section
/-!
47_host_boundary R340 to R345: the host requests. Each is the dispatcher's tasks around core calls, with `respond` last,
which swallows errors: the tasks before it do what they do alone (`Returns.responds`). A session that is not active comes
up first (`lazyBegin_passes`). Settles O55, O56, O57 and O59.
-/

namespace Sys2Proof.Machine

section Dispatcher
variable {s t u m v : State} {ts as : List Task}

/-! ## Taking a request -/

/-- The state in which the dispatcher has taken a request whose tasks are `ts`. -/
def State.serving (s : State) (sends : Bool) (ts : List Task) : State :=
  { s with
    ret := .nothing, source := .hostLink, control := ts
    target := if sends then s.target.beginInstruction false else s.target }

theorem Ready.hostCall (hs : Ready s) (i : Instr) (sends : Bool) (ts : List Task) :
    s.hostCall i sends ts = .next (s.serving sends ts) := by
  obtain ⟨hc, hd⟩ := hs
  simp only [State.hostCall, hc, hd, ne_eq, not_true_eq_false, if_false]
  rfl

/-- A request is nothing to a target in a programming session. -/
theorem Answered.serving (ha : Answered s) (hd : s.dir ≠ none) (sends : Bool) (ts : List Task) :
    PromptLink s.cfg s.target (s.serving sends ts) := by
  obtain ⟨hp, hconnected, ⟨-, hw, -, howed, -⟩, -⟩ := ha
  refine ⟨hp, hconnected, hd, rfl, ?_⟩
  simp only [State.serving, hw.beginInstruction howed, ite_self]

/-! ## The response -/

/-- The state after the response to the result of the core call. -/
def State.responded (m : State) : State := State.hostSend { m with control := [] } (responseByte m.ret)

@[simp] theorem State.responded_host (m : State) :
    m.responded.host = { m.host with tx := responseByte m.ret :: m.host.tx } := rfl

theorem LinkError.responseByte {r : Return} (h : LinkError r) : responseByte r = 0xFE := by
  rcases h with rfl | rfl <;> rfl

/-- Whatever the tasks before the response do, it is sent (47 R345). -/
theorem Returns.responds (h : Returns s u) (hc : s.control = as ++ [.respond]) :
    ∃ m, Returns { s with control := as } m ∧ u = m.responded := by
  obtain ⟨m, hm, -, hret⟩ := h.split_caught hc rfl
  exact ⟨m, hm, (hret.next rfl rfl).done rfl⟩

theorem Leads.responds (h : Leads s v) (hc : v.control = [.respond]) : Returns s v.responded :=
  (h.next hc rfl) _ (.refl rfl)

/-! ## The session (47 R344) -/

/-- What `Session.begin`, where it was needed, leaves for the tasks after it. -/
structure BroughtUp (s v : State) : Prop where
  active : v.active = true
  wire : v.wire = s.wire ++ (if s.active then [] else beginBytes s.cfg)
  cfg : v.cfg = s.cfg
  calls : v.calls = s.calls
  host : v.host = s.host
  source : v.source = .hostLink
  ready : v.dir ≠ none

theorem perform_lazyBegin_active (ha : s.active = true) : perform .lazyBegin s = .next s := congrArg _ (if_pos ha)

theorem perform_lazyBegin_inactive (ha : s.active = false) :
    perform .lazyBegin s = .next (s.push [.run .sessionBegin]) := congrArg _ (if_neg (by simp [ha]))

/-- In a session nothing comes up. -/
theorem Leads.lazyBegin (hc : t.control = .lazyBegin :: ts) (ha : t.active = true) : Leads t { t with control := ts } :=
  (Leads.refl t).next hc (perform_lazyBegin_active ha)

/-- `lazyBegin` by itself where no session is active: `Session.begin`. -/
theorem lazyBegin_begins (h : Returns s m) (hc : s.control = [.lazyBegin]) (ha : s.active = false)
    (hd : s.dir = some .idle) (hr : s.ret = .nothing) (hs : s.source = .hostLink) :
    BroughtUp s m ∧ m.ret = .ok .unit := by
  have hbegun := (h.next hc (perform_lazyBegin_inactive ha)).run rfl (by simp [opRefusal, hd, ha]) rfl
  obtain ⟨⟨hok, hdir, -, hactive, hwire, hhost, hcalls, -⟩, -⟩ := sessionBegin_runs hbegun rfl hd hr
  exact ⟨⟨hactive, hwire.trans (by simp [ha, State.wire]), h.1.cfg, hcalls, hhost, h.1.hostLink hs, hdir ▸ nofun⟩, hok⟩

/-- `lazyBegin` leads to the tasks after it in a session (47 R344). -/
theorem lazyBegin_passes (h : Returns s u) (hc : s.control = .lazyBegin :: ts) (hd : s.dir ≠ none)
    (hup : s.active = true ∨ s.dir = some .idle) (hr : s.ret = .nothing) (hs : s.source = .hostLink) :
    ∃ v, BroughtUp s v ∧ v.control = ts ∧ Returns v u := by
  cases ha : s.active with
  | true =>
    have hnext := h.next hc (perform_lazyBegin_active (s := { s with control := ts }) ha)
    exact ⟨{ s with control := ts }, ⟨ha, by simp [ha, State.wire], rfl, rfl, rfl, hs, hd⟩, rfl, hnext⟩
  | false =>
    have hidle : s.dir = some .idle := hup.resolve_left (by simp [ha])
    have halone {m : State} (hm : Returns { s with control := [.lazyBegin] } m) :=
      lazyBegin_begins hm rfl ha hidle hr hs
    obtain ⟨m, hm, -, hret⟩ := h.split_returning (as := [.lazyBegin]) hc fun m hm e => by simp [(halone hm).2]
    obtain ⟨⟨hactive, hwire, hcfg, hcalls, hhost, hsource, hready⟩, -⟩ := halone hm
    exact ⟨{ m with control := ts }, ⟨hactive, hwire, hcfg, hcalls, hhost, hsource, hready⟩, rfl, hret⟩

/-! ## Requests that wait and then start one command -/

variable {o : Op} {tail : List Byte}

/-- Every run of such a request, from the session on (47 R343 to R345). -/
theorem lazyCommand_responds (h : Returns s u) (hc : s.control = [.lazyBegin, .run o, .respond])
    (ho : commandBytes s.cfg o = some tail) (hd : s.dir ≠ none) (hup : s.active = true ∨ s.dir = some .idle)
    (hr : s.ret = .nothing) (hs : s.source = .hostLink) :
    u.active = true ∧ u.calls = s.calls ∧
      ((u.ret = .ok .unit ∧ u.host = { s.host with tx := 0x00 :: s.host.tx } ∧
          ∃ w, WaitedOut s.cfg w ∧
            u.wire = s.wire ++ (if s.active then [] else beginBytes s.cfg) ++ w ++ tail) ∨
        (LinkError u.ret ∧ u.host = { s.host with tx := 0xFE :: s.host.tx } ∧
          ∃ w, WaitCut s.cfg w ∧ u.wire = s.wire ++ (if s.active then [] else beginBytes s.cfg) ++ w)) := by
  obtain ⟨m, hm, rfl⟩ := h.responds (as := [.lazyBegin, .run o]) hc
  obtain ⟨v, hbrought, hcv, hv⟩ := lazyBegin_passes hm rfl hd hup hr hs
  have hcfg : v.cfg = s.cfg := hbrought.cfg
  have hpassed {ws rs : List Byte} (hmoved : Moved v ws rs m) :
      m.active = true ∧ m.calls = s.calls ∧ m.host = s.host ∧
        m.wire = s.wire ++ (if s.active then [] else beginBytes s.cfg) ++ ws := by
    obtain ⟨-, -, hactive, hcalls, hhost, -⟩ := hmoved.frame
    exact ⟨hactive.trans hbrought.active, hcalls.trans hbrought.calls, hhost.trans hbrought.host,
      hmoved.wire.trans (congrArg (· ++ ws) hbrought.wire)⟩
  rcases (commandBytes_waitsThenSends ho).passes hv hcfg hcv hbrought.ready with
    ⟨v', w, rs, hwaited, hmoved, hok, -, hcv', hv'⟩ | hcut
  · obtain rfl := hv'.done hcv'
    obtain ⟨hactive, hcalls, hhost, hwire⟩ := hpassed hmoved
    refine ⟨hactive, hcalls, .inl ⟨hok, by simp [hhost, hok, responseByte], w, hcfg ▸ hwaited, ?_⟩⟩
    rw [List.append_assoc _ w]
    exact hwire
  · obtain ⟨w, rs, hcut, hmoved, herror⟩ := hcut.ends rfl
    obtain ⟨hactive, hcalls, hhost, hwire⟩ := hpassed hmoved
    exact ⟨hactive, hcalls, .inr ⟨herror, by simp [hhost, herror.responseByte], w, hcfg ▸ hcut, hwire⟩⟩

/-- In a programming session with RT such a request is answered with Ok. -/
theorem Answered.lazyCommand_returns (ha : Answered s) (hlink : PromptLink s.cfg s.target t)
    (hactive : t.active = true) (hc : t.control = [.lazyBegin, .run o, .respond])
    (ho : commandBytes s.cfg o = some tail) : ∃ u, Returns t u ∧ u.ret = .ok .unit := by
  have hwaits := commandBytes_waitsThenSends ho
  obtain ⟨as, hsend, hbody⟩ := hwaits.body
  have hcalled := (Leads.lazyBegin hc hactive).trans
    (Leads.call (o := o) rfl (hwaits.taken _ hlink.ready) (hbody _ hlink.cfg))
  obtain ⟨v, T, -, hcv, hleads⟩ := ha.waitsAndSends (rest := [.finish (.ok .unit), .respond])
    (hlink.setControl (.run .waitWhileBusy :: (as ++ [.finish (.ok .unit)]) ++ [.respond])) hsend (by simp)
  exact ⟨_, ((hcalled.trans hleads).next hcv rfl).responds rfl, rfl⟩

/-! ## The WriteFuse payload -/

/-- While the host link has sent nothing, the payload is not read to its end (entry 14). -/
theorem hostPayload_waits {n : Nat} {got : List Byte} (hc : s.control = .hostPayload (n + 1) got :: ts)
    (hr : s.host.rx = []) : ¬Returns s u := by
  rintro ⟨h, hu⟩
  induction h with
  | refl => simp [hc] at hu
  | step busy hstep _ ih =>
    rw [step_task hc] at hstep
    simp only [perform, performHostPayload, State.hostTake, hr, Host.Outcome.next.injEq] at hstep
    subst hstep
    exact ih rfl hr hu

/-- One payload byte read, with its handshake (47 R341). -/
theorem perform_hostPayload {n : Nat} {got rx : List Byte} {b : Byte} (hrx : s.host.rx = b :: rx) :
    perform (.hostPayload (n + 1) got) s =
      .next { s with
        host := { s.host with rx := rx, tx := 0xFF :: s.host.tx }
        control := .hostPayload n (b :: got) :: s.control } := by
  simp only [perform, performHostPayload, State.hostTake, hrx]
  rfl

/-- A payload that has been read to its end had all its bytes on the host link. -/
theorem hostPayload_supplied {n : Nat} {got : List Byte} (h : Returns s u)
    (hc : s.control = .hostPayload n got :: ts) : n ≤ s.host.rx.length := by
  induction n generalizing s got with
  | zero => exact Nat.zero_le _
  | succ n ih =>
    cases hrx : s.host.rx with
    | nil => exact absurd h (hostPayload_waits hc hrx)
    | cons b rx =>
      exact Nat.succ_le_succ (ih (h.next hc (perform_hostPayload hrx)) rfl)

/-- The bytes `payload` have been read off the host link and acknowledged; what comes next are the core calls. -/
def State.payloadRead (s : State) (n : Nat) (payload : List Byte) (ts : List Task) : State :=
  { s with
    host := { s.host with rx := s.host.rx.drop n, tx := List.replicate n 0xFF ++ s.host.tx }
    control :=
      .lazyBegin :: .run (.fuseWrite (Config.hostFuseAddress payload) (Config.hostFuseData payload)) :: .respond :: ts }

/-- Where the host link has the whole payload, it is read without a wait. -/
theorem returns_hostPayload_iff {n : Nat} {got : List Byte} (hc : s.control = .hostPayload n got :: ts)
    (hn : n ≤ s.host.rx.length) :
    Returns s u ↔ Returns (s.payloadRead n (got.reverse ++ s.host.rx.take n) ts) u := by
  induction n generalizing s got with
  | zero => exact returns_task_iff hc (by simp [perform, performHostPayload, State.push, State.payloadRead])
  | succ n ih =>
    obtain ⟨b, rx, hrx⟩ := List.exists_cons_of_length_pos (Nat.zero_lt_of_lt hn)
    have hrest : n ≤ rx.length := by simpa [hrx] using hn
    rw [returns_task_iff hc (perform_hostPayload hrx), ih rfl hrest]
    simp [State.payloadRead, hrx, List.replicate_succ']

theorem PromptLink.payloadRead {c : Config} {T : Target} (ha : PromptLink c T t) (n : Nat) (payload : List Byte)
    (ts : List Task) : PromptLink c T (t.payloadRead n payload ts) :=
  ⟨ha.prompt, ha.connected, ha.ready, ha.cfg, ha.target⟩

end Dispatcher

/-! ## The obligations -/

/-- Settles O55, row by row: each meaning is `hostSend` of its byte. -/
theorem hostBytesAreSent : Obligations.HostBytesAreSent := by
  intro s p hp
  simp only [List.mem_cons, List.not_mem_nil, or_false] at hp
  rcases hp with rfl | rfl | rfl | rfl | rfl | rfl <;> rfl

/-- Settles O56: `Session.end` by itself, then its response. -/
theorem hostEndEndsTheSession : Obligations.HostEndEndsTheSession := by
  intro s hs
  have ⟨_, hd⟩ := hs
  refine ⟨_, hs.hostCall .hostEnd _ _, fun ha => ?_, fun u hret => ?_⟩
  · have hlink := ha.serving hd (sendsInstruction s.cfg .sessionEnd) [.run .sessionEnd]
    obtain ⟨body, hbody⟩ : ∃ body, opBody (s.serving (sendsInstruction s.cfg .sessionEnd) [.run .sessionEnd])
      .sessionEnd = .tasks body := ⟨_, rfl⟩
    have hcalled := Leads.call (ts := []) rfl (opRefusal_none hlink.ready nofun nofun nofun) hbody
    rw [List.append_nil] at hcalled
    obtain ⟨-, -, hT, hdec, hn, h0, hsig⟩ := ha
    obtain ⟨m, hm⟩ := sessionEnd_returns (hlink.setControl body) hT hdec hn h0 hsig hbody
    obtain ⟨hok, -⟩ := sessionEnd_closes hm hbody hd
    exact ⟨_, ((hcalled m hm).before (by simp [hok]) [.respond]).leads.responds rfl⟩
  · obtain ⟨m, hm, rfl⟩ := hret.responds (as := [.run .sessionEnd]) rfl
    have hended := hm.run rfl (opRefusal_none hd nofun nofun nofun) rfl
    obtain ⟨hok, hdir, hsess, hactive, hquiet, hhost, hcalls, -⟩ := sessionEnd_closes hended rfl hd
    exact ⟨hdir, hsess, hactive, hquiet, hcalls, by simp [hhost, hok, responseByte, State.serving]⟩

/-- Settles O57: `lazyCommand_responds` for the command of `eraseChip`. -/
theorem hostEraseChipBringsTheSessionUp : Obligations.HostEraseChipBringsTheSessionUp := by
  intro s hs hup
  have ⟨_, hd⟩ := hs
  refine ⟨_, hs.hostCall .hostEraseChip _ _, fun ha hactive => ?_, fun u hret => ?_⟩
  · exact ha.lazyCommand_returns (ha.serving hd _ _) hactive rfl rfl
  · obtain ⟨hactive, hcalls, ⟨hok, hhost, w, hwaited, hwire⟩ | hcut⟩ := lazyCommand_responds hret rfl rfl hd hup rfl rfl
    · exact ⟨hactive, hcalls, .inl ⟨hok, hhost, w, _, hwaited, rfl, hwire⟩⟩
    · exact ⟨hactive, hcalls, .inr hcut⟩

/-- Settles O59: the payload, then `lazyCommand_responds` for the command of `Fuse.write`. -/
theorem hostWriteFuseWritesTheFuse : Obligations.HostWriteFuseWritesTheFuse := by
  intro s hs hup
  have ⟨_, hd⟩ := hs
  refine ⟨_, hs.hostCall .hostWriteFuse _ _, fun ha hactive hn => ?_, fun u hret => ?_⟩
  · have hlink := ha.serving hd (s.sendsLazily (.fuseWrite 0 0)) [.hostPayload s.cfg.hostFuseBytes []]
    obtain ⟨u, hu, hok⟩ := ha.lazyCommand_returns (hlink.payloadRead s.cfg.hostFuseBytes
      ([] ++ s.host.rx.take s.cfg.hostFuseBytes) []) hactive rfl rfl
    exact ⟨u, (returns_hostPayload_iff (s := s.serving _ _) rfl hn).2 hu, hok⟩
  · have hn := hostPayload_supplied hret rfl
    obtain ⟨hactive, hcalls, ⟨hok, hhost, w, hwaited, hwire⟩ | hcut⟩ :=
      lazyCommand_responds ((returns_hostPayload_iff rfl hn).1 hret) rfl rfl hd hup rfl rfl
    · exact ⟨hactive, hcalls, hn, .inl ⟨hok, hhost, w, _, hwaited, rfl, hwire⟩⟩
    · exact ⟨hactive, hcalls, hn, .inr hcut⟩

end Sys2Proof.Machine
end

section
/-!
47_host_boundary R342, 44_flash_fuse R280: WriteAppFlash. Its `write` pulls from the host link; that it comes to its end
in a session with RT is what `Feeding.chunks` says of the same bytes given by a caller (`HostFed`). Settles O58.
-/

namespace Sys2Proof.Machine

section Streaming
variable {s t u : State} {a remaining : Word} {pre : Bool} {sec : FlashSection}

/-- However the loop of `write` ends, it has pulled no more bytes than it was to write. -/
theorem chunks_pulls (h : Returns s u) (hc : s.control = [.chunks a remaining pre sec]) (hd : s.dir ≠ none)
    (hsize : 0 < s.cfg.pageSize) : ∃ bs n, n ≤ remaining.toNat ∧ Wrote s bs n u := by
  induction hm : remaining.toNat using Nat.strong_induction_on generalizing s a remaining with
  | _ m ih =>
    subst hm
    by_cases h0 : remaining = 0
    · subst h0
      obtain rfl := (h.next hc perform_chunks_done).done rfl
      exact ⟨[], 0, Nat.zero_le _, ((Moved.refl s []).finish [] (.ok .unit)).wrote⟩
    obtain ⟨n, hn, hpos, hle, hfits, hrest⟩ := exists_chunk h0 hsize
    have hcalled := h.next hc (perform_chunks (s := { s with control := [] }) h0 hn)
    have hbegun := (Moved.refl s [.run (.writePage a n pre sec),
      .chunks (a + BitVec.ofNat 32 n) (remaining - BitVec.ofNat 32 n) pre sec]).wrote
    rcases writePage_passes hcalled rfl hd hfits with
      ⟨-, v, page, -, hwrote, -, hcv, hv⟩ | ⟨v, page, k, hk, hwrote, -, hcv, hv⟩
    · have hwrote := hbegun.trans hwrote
      have hcfg : v.cfg = s.cfg := hwrote.frame.1
      obtain ⟨bs, k, hk, hwrote'⟩ := ih _ (by omega) hv hcv (hwrote.ready hd) (hcfg ▸ hsize) rfl
      exact ⟨_, _, by omega, hwrote.trans hwrote'⟩
    · obtain rfl := hv.done hcv
      exact ⟨_, _, by omega, hbegun.trans hwrote⟩

/-- What a sequence that pulls its data from the host link leaves, in a session that may have had to come up first. -/
theorem BroughtUp.wrote {v m : State} {ts : List Task} {bs : List Byte} {n : Nat} (hup : BroughtUp s v)
    (h : Wrote { v with control := ts } bs n m) :
    m.active = true ∧ m.calls = s.calls ∧
      m.host = { s.host with rx := s.host.rx.drop n, tx := List.replicate n 0xFF ++ s.host.tx } ∧
      m.wire = s.wire ++ (if s.active then [] else beginBytes s.cfg) ++ bs := by
  obtain ⟨-, -, hactive, hcalls, -⟩ := h.frame
  obtain ⟨-, hhost⟩ := h.took.hostLink hup.source
  refine ⟨hactive.trans hup.active, hcalls.trans hup.calls, ?_, h.wire.trans (congrArg (· ++ bs) hup.wire)⟩
  rw [hhost]
  exact congrArg (fun host : HostLink =>
    { host with rx := host.rx.drop n, tx := List.replicate n 0xFF ++ host.tx }) hup.host

/-- Every run of the request, from the session on (47 R341 to R345). -/
theorem lazyWrite_responds (h : Returns s u)
    (hc : s.control = [.lazyBegin, .run (.write a remaining pre sec), .respond]) (hd : s.dir ≠ none)
    (hup : s.active = true ∨ s.dir = some .idle) (hr : s.ret = .nothing) (hs : s.source = .hostLink)
    (hsize : 0 < s.cfg.pageSize) :
    u.active = true ∧ u.calls = s.calls ∧
      ((u.ret = .ok .unit ∧ remaining.toNat ≤ s.host.rx.length ∧
          u.host =
            { s.host with
              rx := s.host.rx.drop remaining.toNat
              tx := 0x00 :: (List.replicate remaining.toNat 0xFF ++ s.host.tx) } ∧
          ∃ bs, PagesWritten s.cfg a pre sec (s.host.rx.take remaining.toNat) bs ∧
            u.wire = s.wire ++ (if s.active then [] else beginBytes s.cfg) ++ bs) ∨
        (LinkError u.ret ∧ ∃ k ≤ remaining.toNat,
          u.host = { s.host with rx := s.host.rx.drop k, tx := 0xFE :: (List.replicate k 0xFF ++ s.host.tx) })) := by
  obtain ⟨m, hm, rfl⟩ := h.responds (as := [.lazyBegin, .run (.write a remaining pre sec)]) hc
  obtain ⟨v, hbrought, hcv, hv⟩ := lazyBegin_passes hm rfl hd hup hr hs
  have hcfg : v.cfg = s.cfg := hbrought.cfg
  have hloop := hv.run hcv (opRefusal_none hbrought.ready nofun nofun nofun) rfl
  have hsupply : State.supply { v with control := [.chunks a remaining pre sec] } = s.host.rx := by
    simp only [State.supply, hbrought.source, hbrought.host]
  rcases chunks_passes hloop rfl hbrought.ready (hcfg ▸ hsize) with
    ⟨hsupplied, w, bs, hpages, hwrote, hok, hcw, hw⟩ | ⟨w, _, _, -, herror, hcw, hw⟩
  · obtain rfl := hw.done hcw
    obtain ⟨hactive, hcalls, hhost, hwire⟩ := hbrought.wrote hwrote
    exact ⟨hactive, hcalls, .inl ⟨hok, hsupply ▸ hsupplied, by simp [hhost, hok, responseByte], bs,
      hsupply ▸ hcfg ▸ hpages, hwire⟩⟩
  · obtain rfl := hw.done hcw
    obtain ⟨bs, k, hk, hwrote⟩ := chunks_pulls hloop rfl hbrought.ready (hcfg ▸ hsize)
    obtain ⟨hactive, hcalls, hhost, -⟩ := hbrought.wrote hwrote
    exact ⟨hactive, hcalls, .inr ⟨herror, k, hk, by simp [hhost, herror.responseByte]⟩⟩

/-- In a programming session with RT the loop comes to its end also where its bytes wait on the host link. -/
theorem Answered.chunks_responds (ha : Answered s) (hlink : PromptLink s.cfg s.target t)
    (hs : t.source = .hostLink) (hc : t.control = [.chunks a remaining pre sec, .respond])
    (hsize : 0 < s.cfg.pageSize) (hlen : remaining.toNat ≤ t.host.rx.length)
    (hmiss : PagesMissStatus s.cfg a remaining.toNat sec) : ∃ u, Returns t u ∧ u.ret = .ok .unit := by
  have hanswered : Answered t := by
    obtain ⟨-, -, hT, hconfig⟩ := ha
    exact ⟨hlink.prompt, hlink.connected, hlink.target ▸ hT, hlink.cfg ▸ hconfig⟩
  have hfeeding : Feeding s.cfg t.host.rx (t.withData (.bytes t.host.rx) t.host) :=
    ⟨hanswered, hlink.ready, hlink.cfg, rfl⟩
  obtain ⟨v, hok, hcv, hleads⟩ := hfeeding.chunks hc hsize hlen hmiss
  have hfed : HostFed (t.withData (.bytes t.host.rx) t.host) t :=
    ⟨t.host.rx, t.host.tx, t.host.pending, rfl, congrArg (fun src => t.withData src t.host) hs⟩
  obtain ⟨hruns, hdone⟩ := hleads.responds hcv
  obtain ⟨w, hruns', ⟨_, _, _, -, rfl⟩⟩ := hfed.runs (by simp [State.withData, hc, Task.keepsSession]) hruns
  exact ⟨_, ⟨hruns', hdone⟩, hok⟩

/-- In a programming session with RT the request is answered with Ok. -/
theorem Answered.lazyWrite_returns (ha : Answered s) (hlink : PromptLink s.cfg s.target t)
    (hactive : t.active = true) (hs : t.source = .hostLink)
    (hc : t.control = [.lazyBegin, .run (.write a remaining pre sec), .respond]) (hsize : 0 < s.cfg.pageSize)
    (hlen : remaining.toNat ≤ t.host.rx.length) (hmiss : PagesMissStatus s.cfg a remaining.toNat sec) :
    ∃ u, Returns t u ∧ u.ret = .ok .unit := by
  have hcalled := (Leads.lazyBegin hc hactive).trans
    (Leads.call (o := .write a remaining pre sec) rfl (opRefusal_none hlink.ready nofun nofun nofun) rfl)
  obtain ⟨u, hu, hok⟩ := ha.chunks_responds (hlink.setControl [.chunks a remaining pre sec, .respond]) hs rfl hsize
    hlen hmiss
  exact ⟨u, hcalled u hu, hok⟩

end Streaming

/-- Settles O58: the length of the request is what the loop of `write` is to write. -/
theorem hostWriteAppFlashStreamsTheData : Obligations.HostWriteAppFlashStreamsTheData := by
  intro s a len hs hup hsize
  have ⟨_, hd⟩ := hs
  have hlen : (len.setWidth 32).toNat = len.toNat := by rw [BitVec.toNat_setWidth]; omega
  refine ⟨_, hs.hostCall (.hostWriteAppFlash a len) _ _, fun ha hactive hmiss hwaiting => ?_, fun u hret => ?_⟩
  · rw [← hlen] at hmiss hwaiting
    exact ha.lazyWrite_returns (ha.serving hd _ _) hactive rfl rfl hsize hwaiting hmiss
  · have hends := lazyWrite_responds hret rfl hd hup rfl rfl hsize
    rw [hlen] at hends
    exact hends

end Sys2Proof.Machine
end

section
/-!
70_reset_and_hazards R392; 60_exceptions R366: the calls that end at once, because a model refuses them or because
their argument check fails. Settles O16 and O38.
-/

namespace Sys2Proof.Machine

section EndedCalls
variable {s : State} {o : Op}

/-! ## Calls a model refuses -/

/-- Before `linkInit` every other operation is refused. -/
theorem opRefusal_notInitialized (hd : s.dir = none) (ho : o ≠ .linkInit) : opRefusal s o = some .notInitialized := by
  cases o with
  | linkInit => contradiction
  | _ => exact if_pos hd

theorem call_refused {r : Refusal} (hc : s.control = []) (hr : opRefusal s o = some r) (src : List Byte) :
    s.call o src = .refused r := by
  simp [State.call, hc, hr]

theorem hostCall_notInitialized (hc : s.control = []) (hd : s.dir = none) (i : Instr) (sends : Bool)
    (ts : List Task) : s.hostCall i sends ts = .refused .notInitialized := by
  simp [State.hostCall, hc, hd]

/-- The meaning of a row of the PDI wire or of an NVM command is the call of an operation other than `linkInit`. -/
theorem exec_notInitialized {i : Instr} (hc : s.control = []) (hd : s.dir = none)
    (hi : i.channel = .pdi ∨ i.channel = .nvmCommand) : exec i s = .refused .notInitialized := by
  cases i with
  | hostNop | hostWriteAppFlash _ _ | hostWriteFuse | hostEraseChip | hostEnd | hostRespOk | hostRespInvalidRequest
  | hostRespInternalError | hostRespUnknownError | hostHandshake => simp [Instr.channel] at hi
  | _ => exact call_refused hc (opRefusal_notInitialized hd (by nofun)) []

/-! ## Calls whose argument check fails -/

/-- The two argument checks (60_exceptions R366). -/
theorem opBody_fails {e : ErrorCode} (h : opBody s o = .fails e) :
    (∃ off, o = .eraseSection off .unspecified ∧ e = .invalidSection) ∨
      ∃ off len sec, o = .writeBuffer off len sec ∧ s.cfg.pageSize < len ∧ e = .invalidLength := by
  cases o with
  | eraseSection off sec =>
    cases sec with
    | unspecified => cases h; exact .inl ⟨off, rfl, rfl⟩
    | app | boot => cases h
  | writeBuffer off len sec =>
    simp only [opBody] at h
    split at h
    · next hlen => cases h; exact .inr ⟨off, len, sec, rfl, hlen, rfl⟩
    · cases h
  | _ => cases h

/-- No argument check answers UnknownError. -/
theorem opBody_fails_known {e : ErrorCode} (h : opBody s o = .fails e) : e ≠ .unknownError := by
  rcases opBody_fails h with ⟨_, -, rfl⟩ | ⟨_, _, _, -, -, rfl⟩ <;> nofun

/-- Such a call sends nothing, so that the target takes no note of it. -/
theorem noteCall_of_fails {e : ErrorCode} (h : opBody s o = .fails e) :
    (s.target.atCall s.cfg o).noteExit (s.strays o) = s.target := by
  rcases opBody_fails h with ⟨off, rfl, -⟩ | ⟨off, len, sec, rfl, hlen, -⟩
  · simp [Target.atCall, sendsInstruction, State.strays, exitsReset]
  · simp [Target.atCall, sendsInstruction, State.strays, exitsReset, Nat.not_le.2 hlen]

theorem opStart_fails {e : ErrorCode} (hr : opRefusal s o = none) (hb : opBody s o = .fails e) :
    opStart o s = .next (s.raise e) := by
  simp [opStart, hr, hb]

/-- It ends in the state it is made in but for the result and the source. -/
theorem call_fails {src : List Byte} {e : ErrorCode} (hc : s.control = []) (hr : opRefusal s o = none)
    (hw : o.wellFormed = true) (hl : opPulls o ≤ src.length) (hb : opBody s o = .fails e) :
    s.call o src = .next { s with ret := .err e, source := .bytes src } := by
  obtain ⟨hrefusal, hbody⟩ := opBody_of_caller s o .nothing (.bytes src) s.target
  have hstart := opStart_fails (hrefusal.trans hr) (hbody.trans hb)
  rw [State.call, if_neg (not_not.2 hc), hr]
  simp only [hw, Bool.not_true, Bool.false_eq_true, if_false, Nat.not_lt.2 hl, noteCall_of_fails hb, hstart]
  simp [State.raise, hc, unwind]

end EndedCalls

/-! ## The obligations -/

/-- Settles O16: calls and PDI and NVM rows by the operation's refusal, host requests by the dispatcher's. -/
theorem operationsBeforeInitializeAreRefused : Obligations.OperationsBeforeInitializeAreRefused := by
  intro s hc
  refine ⟨fun hd => ⟨fun o src ho => call_refused hc (opRefusal_notInitialized hd ho) src,
    fun i hi => exec_notInitialized hc hd hi, fun a len i hi => ?_⟩, fun hd src => ?_⟩
  · simp only [List.mem_cons, List.not_mem_nil, or_false] at hi
    rcases hi with rfl | rfl | rfl | rfl <;> exact hostCall_notInitialized hc hd _ _ _
  · exact call_refused (o := .linkInit) hc (if_neg hd) src

/-- Settles O38. -/
theorem argumentErrorsComeBeforeTraffic : Obligations.ArgumentErrorsComeBeforeTraffic := by
  intro s off ⟨hc, hd⟩
  exact ⟨call_fails hc (opRefusal_none hd nofun nofun nofun) rfl le_rfl rfl, fun sec len src hlen htyped hsrc =>
    call_fails hc (opRefusal_none hd nofun nofun nofun) (decide_eq_true htyped) hsrc (if_pos hlen)⟩

end Sys2Proof.Machine
end

section
/-!
60_exceptions R368, 70_reset_and_hazards R400: a wait is unbounded. Settles O22.
-/

namespace Sys2Proof.Machine

/-- One evaluation of a wait that a lined-up answer fails: the answer is used up and recorded, and the wait stays. -/
theorem step_await_unsatisfied {s : State} {w : Wait} {ts : List Task} {bs : List Bool}
    (hc : s.control = .await w :: ts) (hb : s.platform.bits = (!w.wanted) :: bs) :
    ∃ t, step s = .next t ∧ t.control = s.control ∧ t.platform.bits = bs ∧ t.ret = s.ret ∧ t.dir = s.dir ∧
      t.platform.trace = w.event (!w.wanted) :: s.platform.trace := by
  have hquery : s.platform.query w.event w.wanted =
      (!w.wanted, { s.platform with bits := bs, trace := w.event (!w.wanted) :: s.platform.trace }) := by
    simp [Platform.query, Platform.takeBit, hb, Platform.record]
  rw [step_task hc]
  simp [perform, performAwait, hquery, hc]

/-- Settles O22, by induction on the number of failing answers. -/
theorem unsatisfiedWaitGoesOn : Obligations.UnsatisfiedWaitGoesOn := by
  intro s w ts n bs hc hb
  induction n generalizing s with
  | zero => exact ⟨s, .refl s, rfl, hb, rfl, rfl, rfl⟩
  | succ n ih =>
    obtain ⟨s', hstep, hcontrol, hbits, hret, hdir, htrace⟩ := step_await_unsatisfied hc hb
    obtain ⟨t, hruns, hcontrol', hbits', hret', hdir', htrace'⟩ := ih s' (hcontrol.trans hc) hbits
    refine ⟨t, .step (by simp [hc]) hstep hruns, hcontrol'.trans hcontrol, hbits', hret'.trans hret, hdir'.trans hdir,
      ?_⟩
    rw [htrace', htrace, List.replicate_succ', List.append_assoc, List.singleton_append]

end Sys2Proof.Machine
end

section
/-!
60_exceptions R362, R364, R365, R367: how an operation comes to an error. `perform_answers` says once what a task does
to the result, `step_busy_answers` and `step_idle_answers` what a
step does. Settles O13 and O14.
-/

namespace Sys2Proof.Machine

/-! ## Tasks that end in no error by themselves -/

/-- None of the tasks returns an error by itself. -/
def ErrorFree (ts : List Task) : Prop := ∀ e, Task.finish (.err e) ∉ ts

theorem noPendingError_iff (s : State) : NoPendingError s ↔ ErrorFree s.control := Iff.rfl

theorem ErrorFree.append {as bs : List Task} (ha : ErrorFree as) (hb : ErrorFree bs) : ErrorFree (as ++ bs) :=
  fun e => List.not_mem_append (ha e) (hb e)

theorem ErrorFree.tail {k : Task} {ts : List Task} (h : ErrorFree (k :: ts)) : ErrorFree ts :=
  fun e he => h e (List.mem_cons_of_mem k he)

theorem ErrorFree.head {k : Task} {ts : List Task} (h : ErrorFree (k :: ts)) (e : ErrorCode) : k ≠ .finish (.err e) :=
  fun hk => h e (hk ▸ List.mem_cons_self)

theorem ErrorFree.unwind {ts : List Task} (h : ErrorFree ts) : ErrorFree (unwind ts) :=
  fun e he => h e ((unwind_suffix ts).subset he)

theorem sends_errorFree (bs : List Byte) : ErrorFree (sends bs) := by
  simp [ErrorFree, sends]

theorem transitions_errorFree (d : Option Direction) : ErrorFree (toTransmitting d) ∧ ErrorFree (toReceiving d) := by
  unfold toTransmitting toReceiving
  constructor
  · split <;> simp [ErrorFree, waitClockCycle]
  · split
    · simp [ErrorFree]
    · split <;> simp [ErrorFree]

/-- The pseudocode of every operation returns Ok or a plain value where it returns by itself. -/
theorem opBody_errorFree {s : State} {o : Op} {ts : List Task} (h : opBody s o = .tasks ts) : ErrorFree ts := by
  obtain ⟨htransmitting, hreceiving⟩ := transitions_errorFree s.dir
  cases o with
  | send2 v | send4 v | sendKey | keyWith k => cases h; exact sends_errorFree _
  | send b => cases h; exact htransmitting.append (by simp [ErrorFree])
  | recv | linkEnd => cases h; exact hreceiving.append (by simp [ErrorFree])
  | eraseSection off sec => cases sec <;> cases h <;> simp [ErrorFree, triggeredBody]
  | writeBuffer off len sec =>
    simp only [opBody] at h
    split at h <;> cases h
    simp [ErrorFree]
  | readMemory a len => cases h; split <;> simp [ErrorFree]
  | bulkLoad m len =>
    cases h
    unfold bulkLoadBody
    split
    · simp [ErrorFree]
    · split <;> simp [ErrorFree]
  | bulkStore m len =>
    cases h
    unfold bulkStoreBody
    split
    · simp [ErrorFree]
    · split <;> simp [ErrorFree]
  | _ => cases h; simp [ErrorFree, triggeredBody, linkInitBody, linkBeginBody, storeNvm]

/-! ## What a task does to the result -/

/-- An operation ends in the error `e` (60_exceptions R364): the Platform has answered a query at most, and a link error
may cut the target's replies of a repeated LD short (entry 50). -/
def EndsIn (e : ErrorCode) (s t : State) : Prop :=
  ∃ p T, t = State.raise { s with platform := p, target := T } e ∧
    (T = s.target ∨ LinkError (.err e) ∧ T = s.target.cutOff)

/-- What performing the task `k` does to the result: either it goes on, with the result it finds or one that is no
error, or it ends the operation in an error that some rule of the spec returns (R362). -/
inductive Answers (k : Task) (s t : State) : Prop
  | proceeds (new : List Task) (control : t.control = new ++ s.control) (errorFree : ErrorFree new)
      (ret : t.ret = s.ret ∨ ∀ e, t.ret ≠ .err e)
  | fails (e : ErrorCode) (uncaught : k.catches = false) (known : e ≠ .unknownError) (ends : EndsIn e s t)

section Tasks
variable {s t : State} {k : Task}

theorem EndsIn.raise (s : State) (e : ErrorCode) : EndsIn e s (s.raise e) := ⟨s.platform, s.target, rfl, .inl rfl⟩

theorem EndsIn.recvFails {e : ErrorCode} (he : LinkError (.err e)) (p : Platform) :
    EndsIn e s (State.recvFails { s with platform := p } e) := ⟨p, s.target.cutOff, rfl, .inr ⟨he, rfl⟩⟩

theorem Answers.stands : Answers k s s := .proceeds [] rfl nofun (.inl rfl)

theorem Answers.push {new : List Task} (h : ErrorFree new := by simp [ErrorFree]) : Answers k s (s.push new) :=
  .proceeds new rfl h (.inl rfl)

theorem Answers.finish {r : Return} (h : ∀ e, r ≠ .err e := by exact nofun) : Answers k s (s.finish r) :=
  .proceeds [] rfl nofun (.inr h)

theorem Answers.ite {p : Prop} [Decidable p] {u : State} (h : Answers k s t) (h' : Answers k s u) :
    Answers k s (if p then t else u) := by
  split
  · exact h
  · exact h'

theorem answers_run {o : Op} (h : opStart o s = .next t) : Answers (.run o) s t := by
  obtain ⟨-, ⟨ts, hb, rfl⟩ | ⟨e, hb, rfl⟩⟩ := opStart_next h
  · exact .push (opBody_errorFree hb)
  · exact .fails e rfl (opBody_fails_known hb) (.raise s e)

theorem answers_await (w : Wait) : Answers (.await w) s (performAwait w s) := by
  simp only [performAwait]
  split
  · exact .proceeds [] rfl nofun (.inl rfl)
  · exact .proceeds [.await w] rfl (by simp [ErrorFree]) (.inl rfl)

theorem answers_rxCheck (n : Nat) : Answers (.rxCheck n) s (performRxCheck n s) := by
  cases n with
  | zero => exact .fails .serialTimeout rfl nofun (.recvFails (.inr rfl) s.platform)
  | succ n =>
    refine .proceeds _ rfl ?_ (.inl rfl)
    split <;> simp [ErrorFree, waitClockCycle]

theorem answers_rxErrorCheck : Answers .rxErrorCheck s (performRxErrorCheck s) := by
  simp only [performRxErrorCheck]
  split
  · exact .fails .serialError rfl nofun (.recvFails (.inl rfl) _)
  · exact .proceeds [.rxRead] rfl (by simp [ErrorFree]) (.inl rfl)

theorem answers_store {n : Nat} (h : performStore n s = .next t) : Answers (.store n) s t := by
  rcases performStore_next h with ⟨-, rfl⟩ | ⟨k, d, -, -, -, rfl⟩ | ⟨-, -, -, -, rfl⟩ | ⟨k, d, -, -, -, -, rfl⟩
  · exact .stands
  · exact .proceeds [.run (.send d), .store k] rfl (by simp [ErrorFree]) (.inl rfl)
  · exact .push
  · exact .proceeds [.run (.send d), .store k] rfl (by simp [ErrorFree]) (.inl rfl)

theorem answers_hostPayload (n : Nat) (got : List Byte) :
    Answers (.hostPayload n got) s (performHostPayload n got s) := by
  cases n with
  | zero => exact .push
  | succ n =>
    simp only [performHostPayload]
    split
    · exact .push
    · next b _ htake =>
      obtain ⟨rx, -, rfl⟩ := hostTake_some htake
      exact .proceeds [.hostPayload n (b :: got)] rfl (by simp [ErrorFree]) (.inl rfl)

/-- Errors come from the tests of 60_exceptions R360 alone: `recv`'s two, the poll limits and the argument checks. -/
theorem perform_answers (hk : ∀ e, k ≠ .finish (.err e)) (h : perform k s = .next t) : Answers k s t := by
  cases k with
  | run o => exact answers_run h
  | store n => exact answers_store h
  | await w => cases h; exact answers_await w
  | rxCheck n => cases h; exact answers_rxCheck n
  | rxErrorCheck => cases h; exact answers_rxErrorCheck
  | hostPayload n got => cases h; exact answers_hostPayload n got
  | finish r => cases h; exact .finish fun e he => hk e (congrArg _ he)
  | command _ | setDir _ | enter _ | ignoreErrors | respond => cases h; exact .proceeds [] rfl nofun (.inl rfl)
  | rxRead => cases h; exact .proceeds [] rfl nofun (.inr nofun)
  | wrapReply | testReset => cases h; exact .finish
  | collected n got => cases h; exact .push
  | wake n =>
    cases h
    cases n with
    | zero => exact .stands
    | succ n => exact .push (by simp [ErrorFree, waitClockCycle])
  | collect n got =>
    cases h
    cases n with
    | zero => exact .finish
    | succ n => exact .push
  | pollNvmen left | pollBusy left => cases h; exact .ite (.fails .serialTimeout rfl nofun (.raise s _)) .push
  | nvmenVerdict left => cases h; exact .ite .push .push
  | busyVerdict left => cases h; exact .ite .push .finish
  | chunks a n pre sec => cases h; exact .ite .finish .push
  | resetLoop left | lazyBegin => cases h; exact .ite .stands .push
  | resetVerdict left => cases h; exact .ite .push .stands

/-! ## What a step does to the result -/

/-- What a step of the idle machine does to the result: it leaves tasks that end in no error by themselves, or the
argument check of the call it takes fails. -/
inductive IdleAnswers (s t : State) : Prop
  | proceeds (errorFree : ErrorFree t.control) (ret : t.ret = s.ret ∨ ∀ e, t.ret ≠ .err e)
  | fails (e : ErrorCode) (known : e ≠ .unknownError) (source : ByteSource) (calls : List Request) (host : HostLink)
      (ends : t = { s with ret := .err e, source := source, calls := calls, host := host })

theorem IdleAnswers.of_taken {calls : List Request} {host : HostLink}
    (h : IdleAnswers { s with calls := calls, host := host } t) : IdleAnswers s t := by
  cases h with
  | proceeds errorFree ret => exact .proceeds errorFree ret
  | fails e known source calls host ends => exact .fails e known source calls host ends

theorem idle_errorFree (hc : s.control = []) : ErrorFree s.control := by simp [ErrorFree, hc]

theorem call_answers {o : Op} {src : List Byte} (hc : s.control = []) (h : s.call o src = .next t) :
    IdleAnswers s t := by
  rcases call_next h with ⟨hbusy, -⟩ | ⟨-, hw, hl, hstart⟩
  · exact absurd hc hbusy
  obtain ⟨hr, hstarted⟩ := opStart_next hstart
  obtain ⟨hrefusal, hbody⟩ :=
    opBody_of_caller s o .nothing (.bytes src) ((s.target.atCall s.cfg o).noteExit (s.strays o))
  rw [hrefusal] at hr
  rw [hbody] at hstarted
  rcases hstarted with ⟨ts, hb, rfl⟩ | ⟨e, hb, -⟩
  · exact .proceeds ((opBody_errorFree hb).append (idle_errorFree hc)) (.inr nofun)
  · exact .fails e (opBody_fails_known hb) _ _ _ (Host.Outcome.next.inj (h.symm.trans (call_fails hc hr hw hl hb)))

theorem hostCall_answers {i : Instr} {sends : Bool} {ts : List Task} (hc : s.control = []) (hts : ErrorFree ts)
    (h : s.hostCall i sends ts = .next t) : IdleAnswers s t := by
  rcases hostCall_next h with ⟨hbusy, -⟩ | ⟨-, -, rfl⟩
  · exact absurd hc hbusy
  · exact .proceeds hts (.inr nofun)

theorem exec_answers {i : Instr} (hc : s.control = []) (h : exec i s = .next t) : IdleAnswers s t := by
  cases i with
  | hostWriteAppFlash _ _ | hostWriteFuse | hostEraseChip | hostEnd =>
    exact hostCall_answers hc (by simp [ErrorFree]) h
  | hostNop | hostRespOk | hostRespInvalidRequest | hostRespInternalError | hostRespUnknownError | hostHandshake =>
    cases h
    exact .proceeds (idle_errorFree hc) (.inl rfl)
  | _ => exact call_answers hc h

theorem step_idle_answers (hc : s.control = []) (h : step s = .next t) : IdleAnswers s t := by
  obtain ⟨calls, host, htake⟩ := step_idle_next hc h
  apply IdleAnswers.of_taken (calls := calls) (host := host)
  cases htake with
  | read h | startup h => cases h; exact .proceeds (idle_errorFree hc) (.inl rfl)
  | call o src _ _ h => exact call_answers hc h
  | instr i h => exact exec_answers hc h

/-- A step of a running operation: what its next task does. -/
theorem step_busy_answers {ts : List Task} (hfree : NoPendingError s) (hc : s.control = k :: ts)
    (h : step s = .next t) : ErrorFree ts ∧ Answers k { s with control := ts } t := by
  rw [noPendingError_iff, hc] at hfree
  exact ⟨hfree.tail, perform_answers hfree.head (step_task hc ▸ h)⟩

end Tasks

/-! ## The obligations -/

/-- Settles O13: the result of a step is the one before it, no error, or one of the four errors that a test raises. -/
theorem unknownErrorIsNeverReturned : Obligations.UnknownErrorIsNeverReturned := by
  refine ⟨⟨nofun, nofun⟩, fun s t hs hfree h => ?_⟩
  have hkept (hret : t.ret = s.ret ∨ ∀ e, t.ret ≠ .err e) : t.ret ≠ .err .unknownError :=
    hret.elim (fun heq => heq ▸ hs) fun hnone => hnone _
  have hraised {e : ErrorCode} (hknown : e ≠ .unknownError) : Return.err e ≠ .err .unknownError :=
    fun he => hknown (Return.err.inj he)
  cases hc : s.control with
  | cons k ts =>
    obtain ⟨hts, hanswers⟩ := step_busy_answers hfree hc h
    cases hanswers with
    | proceeds new control errorFree ret =>
      exact ⟨hkept ret, (noPendingError_iff t).2 (control ▸ errorFree.append hts)⟩
    | fails e _ known ends =>
      obtain ⟨p, T, rfl, -⟩ := ends
      exact ⟨hraised known, hts.unwind⟩
  | nil =>
    cases step_idle_answers hc h with
    | proceeds errorFree ret => exact ⟨hkept ret, errorFree⟩
    | fails e known _ _ _ ends => subst ends; exact ⟨hraised known, hfree⟩

/-- What an error drops (60_exceptions R365, R367). -/
theorem unwind_drops (ts : List Task) :
    ∃ dropped, ts = dropped ++ unwind ts ∧ (∀ k ∈ dropped, k.catches = false) ∧
      (unwind ts = [] ∨ ∃ k us, unwind ts = k :: us ∧ k.catches = true) := by
  induction ts with
  | nil => exact ⟨[], rfl, nofun, .inl rfl⟩
  | cons k ts ih =>
    cases hk : k.catches with
    | true => exact ⟨[], by simp [unwind, hk], nofun, .inr ⟨k, ts, if_pos hk, hk⟩⟩
    | false =>
      obtain ⟨dropped, hsplit, huncaught, hends⟩ := ih
      have hunwind : unwind (k :: ts) = unwind ts := by simp [unwind, hk]
      rw [hunwind]
      exact ⟨k :: dropped, congrArg (k :: ·) hsplit, List.forall_mem_cons.2 ⟨hk, huncaught⟩, hends⟩

/-- Settles O14: a step that makes an error the result is a task's or an argument check's. -/
theorem errorChangesNothingElse : Obligations.ErrorChangesNothingElse := by
  intro s t e hfree h hnew herror
  have hnot : ¬(t.ret = s.ret ∨ ∀ e', t.ret ≠ .err e') := by
    rintro (heq | hnone)
    · exact hnew (heq.symm.trans herror)
    · exact hnone e herror
  cases hc : s.control with
  | cons k ts =>
    obtain ⟨-, hanswers⟩ := step_busy_answers hfree hc h
    cases hanswers with
    | proceeds _ _ _ ret => exact absurd ret hnot
    | fails e' uncaught _ ends =>
      obtain ⟨p, T, rfl, htarget⟩ := ends
      obtain ⟨dropped, hsplit, huncaught, hends⟩ := unwind_drops ts
      exact ⟨rfl, rfl, rfl, rfl, htarget, fun _ => ⟨rfl, rfl, rfl⟩, k :: dropped, congrArg (k :: ·) hsplit,
        List.forall_mem_cons.2 ⟨uncaught, huncaught⟩, hends⟩
  | nil =>
    cases step_idle_answers hc h with
    | proceeds _ ret => exact absurd ret hnot
    | fails e' _ source calls host ends =>
      subst ends
      exact ⟨rfl, rfl, rfl, rfl, .inl rfl, fun hbusy => absurd rfl hbusy, [], hc.symm, nofun, .inl hc⟩

end Sys2Proof.Machine
end
